-- ==== Sys2Proof/Word.lean ====
section
/-!
DEFINITION. Words, bytes and bit strings of the VORBIS-CORE.

`spec/00_scope.md` R11 numbers bits from the least significant one, R12 makes the pseudocode's integers mathematical
(here `Nat` and `Int`), R13 lays a binary32 value out in a 32-bit word, and R16 writes a codeword as a bit string whose
leftmost bit is the first one read from the stream.
-/

namespace Sys2Proof

/-- A 32-bit register or bus word. -/
abbrev Word := BitVec 32

/-- One byte of PKT or PCM. -/
abbrev Byte := BitVec 8

/-- A binary32 value in its IEEE layout (R13, R61): sign bit 31, exponent [30:23], fraction [22:0]. -/
abbrev F32 := BitVec 32

/-- A 24-bit byte address of the host bus (R63). -/
abbrev BusAddr := BitVec 24

/-- A codeword (R16): the leftmost bit comes first in the list, `true` is the bit 1. -/
abbrev Codeword := List Bool

/-- A single bit as a one-bit vector. -/
def bit (b : Bool) : BitVec 1 := BitVec.ofBool b

end Sys2Proof
end

