-- ==== Sys2Proof/Syntax.lean ====
section
/-!
DEFINITION. The commands of VDC-1: one constructor per row of `spec/opcode_table.json`, in the table's order.

The operand fields are the unsigned integers of R88 (`Nat`), and one-bit flags are `Bool`. WellFormed says which values the fields
of the encoding admit.
-/

namespace Sys2Proof

/-- A command (R89). -/
inductive Instr where
  /-- NOP (R210, format N). -/
  | nop
  /-- CONFIG e0, e1, cbm1 (R211, format G). -/
  | config (e0 e1 cbm1 : Nat)
  /-- CB_BUILD cb (R121, format C). -/
  | cbBuild (cb : Nat)
  /-- SEAL (R212, format N); `seal` alone is a word of Lean. -/
  | sealSetup
  /-- FAIL class (R213, format F): 0 is FormatError, 1 is UnsupportedVariant (R84). -/
  | fail (cls : Nat)
  /-- DEC_BEGIN ben (R214, format E). -/
  | decBegin (ben : Bool)
  /-- BIND (R102, format N). -/
  | bind
  /-- RDBITS n (R103, format B). -/
  | rdbits (n : Nat)
  /-- HDEC cb (R128, format C). -/
  | hdec (cb : Nat)
  /-- VDEC cb (R130, format C). -/
  | vdec (cb : Nat)
  /-- IMDCT LONG, PREVLONG, NEXTLONG, ZERO (R163, format K). -/
  | imdct (long prevlong nextlong zero : Bool)
  /-- WINDOW (R182, format N). -/
  | window
  /-- OVERLAP (R184, format N). -/
  | overlap
  deriving DecidableEq, Repr

end Sys2Proof
end

