-- ==== Sys2Proof/WellFormed.lean ====
section
/-!
DEFINITION. The operand values that the encodings of `spec/30_encoding.md` R82-R88 admit. Well-formedness is about the encoding
only: a well-formed command can still be turned away when it runs (RDBITS 40 is well-formed and raises PARAM, R86).
-/

namespace Sys2Proof

/-- Every operand fits its field. -/
def Instr.wf : Instr → Bool
  | .nop | .sealSetup | .bind | .window | .overlap => true
  | .config e0 e1 cbm1 => decide (e0 < 16) && decide (e1 < 16) && decide (cbm1 < 256)
  | .cbBuild cb | .hdec cb | .vdec cb => decide (cb < 256)
  | .fail cls => decide (cls < 2)
  | .rdbits n => decide (n < 64)
  | .decBegin _ | .imdct _ _ _ _ => true

/-- A well-formed command. -/
abbrev WellFormed (i : Instr) : Prop := i.wf = true

end Sys2Proof
end

