-- ==== Sys2Proof/Decode.lean ====
section
/-!
DEFINITION. Decoding a command word, and encoding a command (`spec/30_encoding.md` R80-R93, R96).

A command is one 32-bit word written to CMD: no bytes are fetched (R79), so the decoder reads a word. It is total: a word it does not
accept is rejected by name, and the machine turns the rejection into the command error of that name (R90).
-/

namespace Sys2Proof

/-- Why a word is no command (R90). -/
inductive Reject where
  /-- The opcode is reserved: command error ILLEGAL_OPCODE. -/
  | illegalOpcode
  /-- A reserved operand bit of a listed opcode is set: command error RESERVED_BITS. -/
  | reservedBits
  deriving DecidableEq, Repr

/-- opcode = w[31:24] (R80). -/
def opcodeOf (w : Word) : Nat := w.toNat / 2 ^ 24

/-- operand = w[23:0] (R80). -/
def operandOf (w : Word) : Nat := w.toNat % 2 ^ 24

/-- x[hi:lo] of an operand, as an unsigned number (R11), given lo and the width. -/
def field (x lo width : Nat) : Nat := x / 2 ^ lo % 2 ^ width

/-- x[i] of an operand. -/
def flag (x i : Nat) : Bool := field x i 1 == 1

/-- Accepts an operand whose bits from `used` up are all 0. -/
def operandFits (x used : Nat) (i : Instr) : Except Reject Instr :=
  if x / 2 ^ used = 0 then .ok i else .error .reservedBits

/-- The decoding procedure of R91. -/
def decode (w : Word) : Except Reject Instr :=
  let x := operandOf w
  match opcodeOf w with
  | 0x00 => operandFits x 0 .nop
  | 0x01 => operandFits x 16 (.config (field x 0 4) (field x 4 4) (field x 8 8))
  | 0x02 => operandFits x 8 (.cbBuild (field x 0 8))
  | 0x03 => operandFits x 0 .sealSetup
  | 0x04 => operandFits x 1 (.fail (field x 0 1))
  | 0x10 => operandFits x 1 (.decBegin (flag x 0))
  | 0x11 => operandFits x 0 .bind
  | 0x12 => operandFits x 6 (.rdbits (field x 0 6))
  | 0x13 => operandFits x 8 (.hdec (field x 0 8))
  | 0x14 => operandFits x 8 (.vdec (field x 0 8))
  | 0x20 => operandFits x 4 (.imdct (flag x 0) (flag x 1) (flag x 2) (flag x 3))
  | 0x21 => operandFits x 0 .window
  | 0x22 => operandFits x 0 .overlap
  | _ => .error .illegalOpcode

/-- The command of a row's word as `spec/opcode_table.json` numbers its bits: a command has one 32-bit word (R80), and
bits above the row's are 0. -/
def decodeTableWord (_nbits w : Nat) : Option Instr :=
  if w < 2 ^ 32 then
    match decode (BitVec.ofNat 32 w) with
    | .ok i => some i
    | .error _ => none
  else none

/-- The command word `{opcode, operand}` (R80). -/
def commandWord (opcode operand : Nat) : Word := BitVec.ofNat 32 (opcode * 2 ^ 24 + operand)

/-- The encodings of R96. -/
def encode : Instr → Word
  | .nop => commandWord 0x00 0
  | .config e0 e1 cbm1 => commandWord 0x01 (cbm1 * 2 ^ 8 + e1 * 2 ^ 4 + e0)
  | .cbBuild cb => commandWord 0x02 cb
  | .sealSetup => commandWord 0x03 0
  | .fail cls => commandWord 0x04 cls
  | .decBegin ben => commandWord 0x10 ben.toNat
  | .bind => commandWord 0x11 0
  | .rdbits n => commandWord 0x12 n
  | .hdec cb => commandWord 0x13 cb
  | .vdec cb => commandWord 0x14 cb
  | .imdct long prevlong nextlong zero =>
    commandWord 0x20 (long.toNat + prevlong.toNat * 2 + nextlong.toNat * 4 + zero.toNat * 8)
  | .window => commandWord 0x21 0
  | .overlap => commandWord 0x22 0

end Sys2Proof
end

