-- ==== Sys2Proof/Config.lean ====
section
/-!
DEFINITION. What an implementation of the VORBIS-CORE fixes, and the values the spec leaves free.

The parameters of R7 and R10 are open: a core has them as `Params`, which its state carries and no step changes (log entries 2, 3, 4). The
constants without a body are free values: nothing can be proved about what they are, so whatever is proved of the machine holds
for every choice of them (log entries 3 to 7).
-/

namespace Sys2Proof

/-- `IMDCT_IMPL` of R10: the reference pipeline, or some other function that meets P-IMDCT of R165 (`Config.imdctFunction`). -/
inductive ImdctImpl where
  | reference | replacement
  deriving DecidableEq, Repr

/-- `TRIG_ROM` of R10: the binary32 values nearest to the exact ones, or some other values as close as D19 says (`Config.romValue`). -/
inductive TrigRom where
  | nearest | replacement
  deriving DecidableEq, Repr

/-- `CODE_ASSIGNMENT` of R10: the in-entry-order rule of R122, or the length-sorted canonical code that R122 and D9 name as the
alternative. -/
inductive CodeAssignment where
  | inOrder | lengthSorted
  deriving DecidableEq, Repr

/-- The parameters of one core (R7, R10). -/
structure Params where
  /-- `PKT_BYTES`: bytes of packet RAM. -/
  pktBytes : Nat
  /-- `PCM_BYTES`: bytes of PCM output RAM, and the largest legal SAMPLE_COUNT. -/
  pcmBytes : Nat
  /-- `CB_MAX_ENTRIES`: the largest entry count of one codebook. -/
  cbMaxEntries : Nat
  /-- `CB_MAX_MULT`: the largest multiplicand count of one codebook. -/
  cbMaxMult : Nat
  /-- `CB_MAX_DIM`: the largest codebook dimension, and the words of VOUT. -/
  cbMaxDim : Nat
  /-- `CB_MAX_VQ`: the largest entries x dimensions of one codebook. -/
  cbMaxVq : Nat
  imdctImpl : ImdctImpl
  trigRom : TrigRom
  codeAssignment : CodeAssignment
  deriving DecidableEq, Repr

/-- The spec's defaults (R7, R10). -/
def Params.default : Params where
  pktBytes := 65536
  pcmBytes := 1048576
  cbMaxEntries := 65536
  cbMaxMult := 65536
  cbMaxDim := 256
  cbMaxVq := 1048576
  imdctImpl := .reference
  trigRom := .nearest
  codeAssignment := .inOrder

/-- The bounds of R7: each RAM fits its 1 MiB region, and PKT and PCM are whole words (R65). -/
abbrev Params.Legal (P : Params) : Prop :=
  P.pktBytes ≤ 2 ^ 20 ∧ P.pktBytes % 4 = 0 ∧ P.pcmBytes ≤ 2 ^ 20 ∧ P.pcmBytes % 4 = 0 ∧ P.cbMaxEntries ≤ 2 ^ 18 ∧
    P.cbMaxMult ≤ 2 ^ 18 ∧ P.cbMaxDim ≤ 2 ^ 18

/-- Words of COEF (R8, R43). -/
def Config.coefWords : Nat := 4096

/-- Words of WORK (R8, R43). -/
def Config.workWords : Nat := 8192

/-- Words of PREV (R8, R43). -/
def Config.prevWords : Nat := 4096

/-- The ROMs of binary32 values (R46). -/
inductive RomTable where
  | twA | twB | twC | window
  deriving DecidableEq, Repr

/-- FREE VALUE (R10, U14): what a replaced TRIG_ROM offers at an index of a table for a block size or slope length. `romEntry` says when
it is taken. -/
opaque Config.romValue : RomTable → Nat → Nat → F32

/-- FREE VALUE (R10, R165, U13): the replaced IMDCT_IMPL, some function of the block size and the coefficients that meets what `meets` asks
of every block. With none the reference pipeline stays. -/
opaque Config.imdctFunction (meets : Nat → List F32 → List F32 → Prop) :
  Option { f : Nat → List F32 → List F32 // ∀ n X, meets n X (f n X) }

/-- Names one draw of a free value: the draw counter of the state at the end, and before it where in the command the
value arises (stage, element, operation). Different places have different names, so their draws are independent. -/
abbrev Draw := List Nat

/-- FREE VALUE (R13, U3): the bits from which the NaN that a binary32 operation produces is formed. -/
opaque Config.nanBits : Draw → Word

/-- FREE VALUE (R185, U4): the byte that Q8 stores for a NaN. -/
opaque Config.q8OfNaN : Draw → Byte

/-- FREE VALUE (R72, R274, U1, U6): what a host read finds in a RAM byte that holds no defined value; the arguments are
the state's draw counter and the byte's key. -/
opaque Config.unwrittenByte : Nat → Nat → Byte

end Sys2Proof
end

