-- ==== Sys2Proof/Machine/State.lean ====
section
/-!
DEFINITION. The state of the VORBIS-CORE, as plain data (`spec/10_state.md`), its fault and refusal reasons, and reset
(`spec/70_reset_and_hazards.md` R270, R271).
-/

namespace Sys2Proof.Machine

/-- STATUS.SETUP_STATE (R23). The encoding 3 never occurs (U12) and has no constructor. -/
inductive SetupState where
  | notLoaded | loaded | failed
  deriving DecidableEq, Repr

/-- STATUS.DEC_STATE (R23). The encodings 5-7 never occur (U12). -/
inductive DecState where
  | idle | decoding | completed | cancelled | failed
  deriving DecidableEq, Repr

/-- STATUS.SEQ (R23): how far the synthesis of the current packet has come. The encoding 3 never occurs (U12). -/
inductive SynthSeq where
  | none | imdctDone | windowDone
  deriving DecidableEq, Repr

/-- The FormatErrors of R241. -/
inductive FormatError where
  | cbOverfull | cbUnderfull | cbLength | cbLookup | cbCapacity | blockSize
  | cbRange | badCode | noLookup | overrun | hostFormat | hostUnsupported
  deriving DecidableEq, Repr

/-- The command error codes of R242, the bus error among them. -/
inductive CmdError where
  | illegalOpcode | reservedBits | state | param | busy | bus
  deriving DecidableEq, Repr

/-- The RAM regions of the address map (R68). -/
inductive Region where
  | pkt | cbLen | cbMult | vout | coef | work | prev | pcm
  deriving DecidableEq, Repr

/-- One codebook slot (R40), less len[] and mult[], which are RAM (R45) and stand in `State.mem`. -/
structure Codebook where
  entries : Word
  dims : Word
  lookupType : BitVec 2
  seqFlag : Bool
  minimum : F32
  delta : F32
  nmult : Word
  built : Bool
  /-- code[e]: the codeword of entry e, or none. Entries beyond the list have none. -/
  code : List (Option Codeword)
  lookupValues : Word
  /-- vq[e]: the vector of entry e. What CB_BUILD has not written is not in the list. -/
  vq : List (List F32)
  deriving DecidableEq, Repr

/-- A codebook slot after reset (R40, R270). -/
def Codebook.reset : Codebook where
  entries := 0
  dims := 0
  lookupType := 0
  seqFlag := false
  minimum := 0
  delta := 0
  nmult := 0
  built := false
  code := []
  lookupValues := 0
  vq := []

/-- What the outside world does to the core (R17, R63, R95, R270). -/
inductive HostEvent where
  /-- One word write on the host bus. -/
  | write (a : BusAddr) (w : Word)
  /-- One word read on the host bus. -/
  | read (a : BusAddr)
  /-- The pseudo-instruction WAIT (R95): read STATUS until BUSY = 0. -/
  | wait
  /-- The platform's reset input (R270). -/
  | reset
  deriving DecidableEq, Repr

/-- RAM: pairs of a key and a byte, in rising order of the keys (`Machine/Ops.lean`, `Memory.wf`). A key that is not listed holds no
defined value. -/
abbrev Memory := List Host.Cell

/-- The state. A field's comment names its register and rule; the reset values are in `State.reset`. -/
structure State where
  /-- STATUS.BUSY (R23, R24). -/
  busy : Bool
  /-- STATUS.SETUP_STATE, and through it SETUP_LOADED (R23). -/
  setupState : SetupState
  /-- STATUS.CFG_DONE (R23). -/
  cfgDone : Bool
  /-- STATUS.DEC_STATE (R23). -/
  decState : DecState
  /-- STATUS.PCM_VALID (R23). -/
  pcmValid : Bool
  /-- STATUS.CMDERR (R23). -/
  cmdErr : Bool
  /-- STATUS.IGNORED (R23). -/
  ignored : Bool
  /-- STATUS.BOUND (R23). -/
  bound : Bool
  /-- STATUS.SEQ (R23). -/
  seq : SynthSeq
  /-- STATUS.BUDGET_EN (R23). -/
  budgetEn : Bool
  /-- STATUS.FMTCODE (R23, R241): `none` is 0. -/
  fmtCode : Option FormatError
  /-- STATUS.CMDCODE (R23, R242): `none` is 0. -/
  cmdCode : Option CmdError
  /-- RESULT (R25). -/
  result : Word
  /-- ERRCMD (R26). -/
  errCmd : Word
  /-- ERRPOS (R27). -/
  errPos : Word
  /-- CFG.E0 (R28). -/
  cfgE0 : BitVec 4
  /-- CFG.E1 (R28). -/
  cfgE1 : BitVec 4
  /-- CFG.CBM1 (R28). -/
  cfgCbm1 : BitVec 8
  /-- PKT_BASE (R29). -/
  pktBase : Word
  /-- PKT_LEN (R29). -/
  pktLen : Word
  /-- BITPOS (R33). -/
  bitPos : Word
  /-- SAMPLE_COUNT (R30). -/
  sampleCount : Word
  /-- PACKET_COUNT (R31). -/
  packetCount : Word
  /-- BUDGET (R32), a two's-complement number. -/
  budget : Word
  /-- PCM_CURSOR (R34). -/
  pcmCursor : Word
  /-- PACKET_INDEX (R35). -/
  packetIndex : Word
  /-- PREV_INFO.PREV_N (R36). -/
  prevN : BitVec 14
  /-- PREV_INFO.PREV_REND (R36). -/
  prevREnd : BitVec 14
  /-- PREV_INFO.PREV_SHORT (R36). -/
  prevShort : Bool
  /-- BLK_N.N (R37). -/
  blkN : BitVec 14
  /-- BLK_N.LONG (R37). -/
  blkLong : Bool
  /-- BLK_N.PREVLONG (R37). -/
  blkPrevLong : Bool
  /-- BLK_N.NEXTLONG (R37). -/
  blkNextLong : Bool
  /-- BLK_N.ZERO (R37). -/
  blkZero : Bool
  /-- BLK_LEFT.LWS (R37). -/
  lws : BitVec 14
  /-- BLK_LEFT.LWE (R37). -/
  lwe : BitVec 14
  /-- BLK_RIGHT.RWS (R37). -/
  rws : BitVec 14
  /-- BLK_RIGHT.RWE (R37). -/
  rwe : BitVec 14
  /-- VDIM (R38). -/
  vdim : Word
  /-- CB_SEL (R39). -/
  cbSel : BitVec 8
  /-- CB[0..255] (R40). -/
  books : Vector Codebook 256
  /-- LBASE (R42): the packet start that the last BIND latched. -/
  lbase : Word
  /-- LLEN (R42): the packet length that the last BIND latched. -/
  llen : Word
  /-- The command word being performed while BUSY = 1 (R42). -/
  cmdWord : Word
  /-- The RAM regions PKT, VOUT, COEF, WORK, PREV, PCM, and CB_LEN and CB_MULT of every slot (R43-R45). -/
  mem : Memory
  /-- The parameters of this core (R7, R10). They are arguments of the machine, not state that changes: every step and reset keep them (log
  entries 2, 3, 4). -/
  params : Params
  /-- MODEL'S OWN: what the host will do, in the order in which it does it (log entry 1). -/
  host : List HostEvent
  /-- MODEL'S OWN: for each command still to be accepted, how many host events arrive before it completes (U17, log entry
  1); beyond the list, none. -/
  latency : List Nat
  /-- MODEL'S OWN: how many host events still arrive before the running command completes (log entry 1). -/
  busyFor : Nat
  /-- MODEL'S OWN: the word that the last host read returned (log entry 1). -/
  busOut : Word
  /-- MODEL'S OWN: the draw counter of the free values (log entry 5). -/
  draws : Nat
  deriving DecidableEq, Repr

/-- The machine right after reset (R270, R271): every register at the reset value of its table, the codebook slots as in R40, no RAM
byte with a defined value (R50). The core does nothing until the host writes CMD, and no host event is pending. The parameters are the spec's
defaults. -/
def State.reset : State where
  busy := false
  setupState := .notLoaded
  cfgDone := false
  decState := .idle
  pcmValid := false
  cmdErr := false
  ignored := false
  bound := false
  seq := .none
  budgetEn := false
  fmtCode := none
  cmdCode := none
  result := 0
  errCmd := 0
  errPos := 0
  cfgE0 := 0
  cfgE1 := 0
  cfgCbm1 := 0
  pktBase := 0
  pktLen := 0
  bitPos := 0
  sampleCount := 0
  packetCount := 0
  budget := 0
  pcmCursor := 0
  packetIndex := 0
  prevN := 0
  prevREnd := 0
  prevShort := false
  blkN := 0
  blkLong := false
  blkPrevLong := false
  blkNextLong := false
  blkZero := false
  lws := 0
  lwe := 0
  rws := 0
  rwe := 0
  vdim := 0
  cbSel := 0
  books := Vector.replicate 256 Codebook.reset
  lbase := 0
  llen := 0
  cmdWord := 0
  mem := []
  params := Params.default
  host := []
  latency := []
  busyFor := 0
  busOut := 0
  draws := 0

/-- Why the machine stops. -/
inductive Fault where
  /-- Raised by a command of the core (CB_BUILD, RDBITS, HDEC, VDEC, IMDCT, WINDOW, OVERLAP) that reads a RAM element of the region which
  nothing has written since reset or since it became unspecified (R274, U1, U6: "a core read of a never-written word: fault"). SAFE: the
  hardware would go on with some value. -/
  | unwrittenRead (r : Region)
  /-- Raised by VDEC when it reads an element of vq[] which no CB_BUILD has written (R274, U1). SAFE; no reachable state raises it. -/
  | unwrittenVq
  /-- Raised by a host access while BUSY = 1 other than a STATUS read, a CMD write or a WAIT (R66, R275, U5: "fault"). SAFE: the
  hardware would let the read return, or the write do, anything. -/
  | busyAccess
  deriving DecidableEq, Repr

/-- Why the machine has no meaning for something. -/
inductive Refusal where
  /-- Raised by `exec` for a command that has no meaning yet. No command is left so. SAFE: nothing is claimed of it. -/
  | notModelled (mnemonic : String)
  deriving DecidableEq, Repr

/-- What a command answers. -/
abbrev Res := Host.Outcome State Fault Refusal

end Sys2Proof.Machine
end

