-- ==== Sys2Proof/Machine/Ops.lean ====
section
/-!
DEFINITION. The named operations over memory and state that the commands share: RAM by key, RAM elements by region, codebook slots,
and taking an exception (`spec/60_exceptions.md` R240-R249).
-/

namespace Sys2Proof.Machine

/-! ## RAM by key -/

/-- The canonical form of a memory: keys strictly rising. An unlisted key reads as no value, so no entry equals what it would read as
unlisted. -/
abbrev Memory.wf (m : Memory) : Prop := m.Pairwise fun c d => c.1 < d.1

/-- The byte at a key, if it has a defined value. -/
def Memory.read : Memory → Nat → Option Byte
  | [], _ => none
  | (k, b) :: m, a => if k = a then some b else Memory.read m a

/-- The cells that hold a run of bytes from a key on. -/
def cellsFrom (a : Nat) (bs : List Byte) : Memory := (bs.zipIdx a).map fun p => (p.2, p.1)

/-- Stores a run of bytes from a key on. -/
def Memory.writeBytes (m : Memory) (a : Nat) (bs : List Byte) : Memory :=
  m.filter (fun c => decide (c.1 < a)) ++ cellsFrom a bs ++ m.filter (fun c => decide (a + bs.length ≤ c.1))

/-- Makes a run of `n` bytes from a key on unspecified. -/
def Memory.forget (m : Memory) (a n : Nat) : Memory := m.filter fun c => decide (c.1 < a) || decide (a + n ≤ c.1)

/-- `n` bytes from a key on, read along a memory whose first key is not below it. -/
def bytesFrom : Nat → Nat → Memory → List (Option Byte)
  | 0, _, _ => []
  | n + 1, a, [] => none :: bytesFrom n (a + 1) []
  | n + 1, a, (k, b) :: m =>
    if k = a then some b :: bytesFrom n (a + 1) m else none :: bytesFrom n (a + 1) ((k, b) :: m)

/-- `n` bytes from a key on, in one pass over the memory. -/
def Memory.readBytes (m : Memory) (a n : Nat) : List (Option Byte) :=
  bytesFrom n a (m.dropWhile fun c => decide (c.1 < a))

/-- Four bytes as a little-endian word (R60). -/
def wordOfBytes (b0 b1 b2 b3 : Byte) : Word := b3 ++ b2 ++ b1 ++ b0

/-- A word as its four bytes, the least significant first (R60). -/
def bytesOfWord (w : Word) : List Byte :=
  [w.extractLsb' 0 8, w.extractLsb' 8 8, w.extractLsb' 16 8, w.extractLsb' 24 8]

/-- The word in four bytes, if all of them have defined values. -/
def wordOfBytes? : Option Byte → Option Byte → Option Byte → Option Byte → Option Word
  | some b0, some b1, some b2, some b3 => some (wordOfBytes b0 b1 b2 b3)
  | _, _, _, _ => none

/-- A run of bytes as words, four to a word. -/
def groupWords : List (Option Byte) → List (Option Word)
  | b0 :: b1 :: b2 :: b3 :: rest => wordOfBytes? b0 b1 b2 b3 :: groupWords rest
  | _ => []

/-- `n` words from a key on. -/
def Memory.readWords (m : Memory) (a n : Nat) : List (Option Word) := groupWords (m.readBytes a (4 * n))

/-- Stores a run of words from a key on. -/
def Memory.writeWords (m : Memory) (a : Nat) (ws : List Word) : Memory := m.writeBytes a (ws.flatMap bytesOfWord)

/-- The values of a list in which every element has one. -/
def allSome {α : Type} : List (Option α) → Option (List α)
  | [] => some []
  | none :: _ => none
  | some a :: l =>
    match allSome l with
    | some as => some (a :: as)
    | none => none

/-! ## RAM elements by region (R14, R43-R45) -/

/-- A[23:20] of a region (R68). -/
def Region.code : Region → Nat
  | .pkt => 1 | .cbLen => 2 | .cbMult => 3 | .vout => 4 | .coef => 5 | .work => 6 | .prev => 7 | .pcm => 8

/-- The bytes of a region (R65). -/
def Region.bytes (P : Params) : Region → Nat
  | .pkt => P.pktBytes
  | .cbLen => 4 * P.cbMaxEntries
  | .cbMult => 4 * P.cbMaxMult
  | .vout => 4 * P.cbMaxDim
  | .coef => 4 * Config.coefWords
  | .work => 4 * Config.workWords
  | .prev => 4 * Config.prevWords
  | .pcm => P.pcmBytes

/-- The key in `State.mem` of the byte at offset `off` of a region. CB_LEN and CB_MULT exist once per codebook slot (R40, R45): their
bank is the slot. Every other region has the bank 0, in which a key is the bus address of R68. -/
def regionKey (r : Region) (bank off : Nat) : Nat := bank * 2 ^ 24 + r.code * 2 ^ 20 + off

/-- `MemRead(R, i)` of a byte region. -/
def State.readByte (s : State) (r : Region) (i : Nat) : Option Byte := s.mem.read (regionKey r 0 i)

/-- `MemRead(R, i)` of a word region: the word at element index i. -/
def State.readWord (s : State) (r : Region) (bank i : Nat) : Option Word :=
  let k := regionKey r bank (4 * i)
  wordOfBytes? (s.mem.read k) (s.mem.read (k + 1)) (s.mem.read (k + 2)) (s.mem.read (k + 3))

/-- R[i..i+n) of a word region. -/
def State.readWords (s : State) (r : Region) (bank i n : Nat) : List (Option Word) :=
  s.mem.readWords (regionKey r bank (4 * i)) n

/-- R[i..) <- ws of a word region. -/
def State.writeWords (s : State) (r : Region) (bank i : Nat) (ws : List Word) : State :=
  { s with mem := s.mem.writeWords (regionKey r bank (4 * i)) ws }

/-- R[i..) <- bs of a byte region. -/
def State.writeBytes (s : State) (r : Region) (i : Nat) (bs : List Byte) : State :=
  { s with mem := s.mem.writeBytes (regionKey r 0 i) bs }

/-- The contents of a whole region become unspecified. -/
def State.forgetRegion (s : State) (r : Region) : State :=
  { s with mem := s.mem.forget (regionKey r 0 0) (r.bytes s.params) }

/-! ## Codebook slots (R40) -/

/-- CB[c]. -/
def State.book (s : State) (c : Nat) : Codebook := s.books.toList.getD c Codebook.reset

/-- CB[c] <- K. -/
def State.setBook (s : State) (c : Nat) (K : Codebook) : State :=
  { s with books := ⟨⟨s.books.toList.set c K⟩, by simp⟩ }

/-- CB[c] <- f(CB[c]) for c in 0 .. 255. -/
def State.mapBooks (s : State) (f : Codebook → Codebook) : State :=
  { s with books := ⟨⟨s.books.toList.map f⟩, by simp⟩ }

/-- built <- 0 and lookupValues <- 0 (R70, R121, R211). -/
def Codebook.unbuild (K : Codebook) : Codebook := { K with built := false, lookupValues := 0 }

/-! ## Faults -/

/-- Goes on with a value, or stops with a fault where there is none. -/
def orFault {α : Type} (f : Fault) (o : Option α) (k : α → Res) : Res :=
  match o with
  | some a => k a
  | none => .fault f

/-! ## Exceptions (R15, R240)

There is no trap entry and no return from one (R249): an exception is recorded in registers and the core is idle again. Recovery is by
DEC_BEGIN, by the host's write to STATUS, or by reset. -/

/-- What ends a command early. -/
inductive Exc where
  /-- `ignore` of R15: the one-shot guard. -/
  | ignored
  /-- `raise CmdError(code)`. -/
  | command (code : CmdError)
  /-- `raise FormatError(code)` in the setup phase. -/
  | setup (code : FormatError)
  /-- `raise FormatError(code)` in the decode phase, with the value the raising rule gives ERRPOS. -/
  | decode (code : FormatError) (pos : Word)
  deriving DecidableEq, Repr

/-- Taking an exception of the command word w: `ignored` by R15, `command` by R245, `setup` by R243, `decode` by R244. -/
def takeException (w : Word) (e : Exc) (s : State) : State :=
  match e with
  | .ignored => { s with ignored := true }
  | .command code => { s with cmdErr := true, cmdCode := some code, errCmd := w }
  | .setup code => { s with setupState := .failed, fmtCode := some code, errCmd := w, errPos := 0 }
  | .decode code pos =>
    { s with decState := .failed, pcmValid := false, fmtCode := some code, errCmd := w, errPos := pos }

/-- The running command ends with an exception. -/
def raise (e : Exc) (s : State) : Res := .next (takeException s.cmdWord e s)

/-- The record of a bus error (R69): nothing but CMDERR and CMDCODE changes. -/
def recordBusError (s : State) : State := { s with cmdErr := true, cmdCode := some .bus }

/-- The record of a CMD write w that is refused because BUSY = 1 (R24, R245, R276). -/
def refuseBusy (w : Word) (s : State) : State := takeException w (.command .busy) s

end Sys2Proof.Machine
end

