-- ==== Sys2Proof/Machine/Operands.lean ====
section
/-!
DEFINITION. The values that commands make of their operand fields and of the configuration (`spec/30_encoding.md` R81-R88,
`spec/10_state.md` R28, `spec/43_imdct.md` R164).

The operand forms of the encoding are the constructors of `Instr`: N has no operand, G is (e0, e1, cbm1), C a codebook number, F the
class, E the budget enable, B the bit count, K the four block flags. None is scaled or sign-extended (R88).
-/

namespace Sys2Proof.Machine

/-- b0 = 2^CFG.E0 (R28). -/
def State.b0 (s : State) : Nat := 2 ^ s.cfgE0.toNat

/-- b1 = 2^CFG.E1 (R28). -/
def State.b1 (s : State) : Nat := 2 ^ s.cfgE1.toNat

/-- cbCount = CFG.CBM1 + 1 (R28). -/
def State.cbCount (s : State) : Nat := s.cfgCbm1.toNat + 1

/-- The block size an IMDCT command selects (R163). -/
def State.blockSize (s : State) (long : Bool) : Nat := if long then s.b1 else s.b0

/-- The FormatError a FAIL class stands for (R84, R213). -/
def failCode (cls : Nat) : FormatError := if cls = 0 then .hostFormat else .hostUnsupported

/-- lws of R164. -/
def geometryLws (b0 n : Nat) (long prevlong : Bool) : Nat := if long && !prevlong then n / 4 - b0 / 4 else 0

/-- lwe of R164. -/
def geometryLwe (b0 n : Nat) (long prevlong : Bool) : Nat := if long && !prevlong then n / 4 + b0 / 4 else n / 2

/-- rws of R164. -/
def geometryRws (b0 n : Nat) (long nextlong : Bool) : Nat := if long && !nextlong then 3 * n / 4 - b0 / 4 else n / 2

/-- rwe of R164. -/
def geometryRwe (b0 n : Nat) (long nextlong : Bool) : Nat := if long && !nextlong then 3 * n / 4 + b0 / 4 else n

/-- GEOMETRY of R164, and BLK_N.ZERO of R163. -/
def setGeometry (n : Nat) (long prevlong nextlong zero : Bool) (s : State) : State :=
  { s with
    blkN := BitVec.ofNat 14 n
    blkLong := long
    blkPrevLong := prevlong
    blkNextLong := nextlong
    blkZero := zero
    lws := BitVec.ofNat 14 (geometryLws s.b0 n long prevlong)
    lwe := BitVec.ofNat 14 (geometryLwe s.b0 n long prevlong)
    rws := BitVec.ofNat 14 (geometryRws s.b0 n long nextlong)
    rwe := BitVec.ofNat 14 (geometryRwe s.b0 n long nextlong) }

end Sys2Proof.Machine
end

