-- ==== Sys2Proof/Machine/Flags.lean ====
section
/-!
DEFINITION. The STATUS register: its field codes, its word, the write-1-to-clear bits, and the legality guards that commands share
(`spec/10_state.md` R23, R47, `spec/60_exceptions.md` R241, R242, R246). There are no arithmetic condition codes (R47).
-/

namespace Sys2Proof.Machine

/-- SETUP_STATE as STATUS[3:2]. -/
def SetupState.code : SetupState → BitVec 2
  | .notLoaded => 0 | .loaded => 1 | .failed => 2

/-- DEC_STATE as STATUS[7:5]. -/
def DecState.code : DecState → BitVec 3
  | .idle => 0 | .decoding => 1 | .completed => 2 | .cancelled => 3 | .failed => 4

/-- SEQ as STATUS[13:12]. -/
def SynthSeq.code : SynthSeq → BitVec 2
  | .none => 0 | .imdctDone => 1 | .windowDone => 2

/-- FMTCODE values (R241). -/
def FormatError.code : FormatError → BitVec 8
  | .cbOverfull => 0x01 | .cbUnderfull => 0x02 | .cbLength => 0x03 | .cbLookup => 0x04 | .cbCapacity => 0x05
  | .blockSize => 0x06 | .cbRange => 0x07 | .badCode => 0x08 | .noLookup => 0x09 | .overrun => 0x0A
  | .hostFormat => 0x0B | .hostUnsupported => 0x0C

/-- CMDCODE values (R242). -/
def CmdError.code : CmdError → BitVec 8
  | .illegalOpcode => 0x20 | .reservedBits => 0x21 | .state => 0x22 | .param => 0x23 | .busy => 0x24 | .bus => 0x25

/-- STATUS.FMTCODE, 0 when there is none (R241). -/
def State.fmtCodeBits (s : State) : BitVec 8 := match s.fmtCode with | some e => e.code | none => 0

/-- STATUS.CMDCODE, 0 when there is none (R242). -/
def State.cmdCodeBits (s : State) : BitVec 8 := match s.cmdCode with | some e => e.code | none => 0

/-- STATUS.SETUP_LOADED, which always equals (SETUP_STATE = 1) (R23). -/
def State.setupLoaded (s : State) : Bool := s.setupState == .loaded

/-- The word of STATUS (R23). -/
def statusWord (s : State) : Word :=
  s.cmdCodeBits ++ s.fmtCodeBits ++ 0#1 ++ bit s.budgetEn ++ s.seq.code ++ bit s.bound ++ bit s.ignored ++
    bit s.cmdErr ++ bit s.pcmValid ++ s.decState.code ++ bit s.cfgDone ++ s.setupState.code ++ bit s.setupLoaded ++
    bit s.busy

/-- A host write to STATUS (R23): bit 9 clears CMDERR and CMDCODE, bit 10 clears IGNORED. -/
def writeStatus (w : Word) (s : State) : State :=
  { s with
    cmdErr := if w.getLsbD 9 then false else s.cmdErr
    cmdCode := if w.getLsbD 9 then none else s.cmdCode
    ignored := if w.getLsbD 10 then false else s.ignored }

/-- State legality (R246 check 4). -/
def whenLegal (legal : Bool) (s : State) (k : Res) : Res := if legal then k else raise (.command .state) s

/-- The setup guard and the state legality of a setup command (R246 checks 3 and 4): ignored once setup is LOADED, illegal once it is
FAILED. -/
def whenSetup (s : State) (k : Res) : Res :=
  match s.setupState with
  | .loaded => raise .ignored s
  | .failed => raise (.command .state) s
  | .notLoaded => k

/-- DEC_STATE = DECODING. -/
def State.isDecoding (s : State) : Bool := s.decState == .decoding

/-- The decode ends CANCELLED (R188, R214): PCM_VALID is 0 and the contents of PCM and PREV become unspecified (R280, U6). -/
def cancelDecode (s : State) : State :=
  (({ s with decState := .cancelled, pcmValid := false } : State).forgetRegion .pcm).forgetRegion .prev

/-- The decode ends COMPLETED (R188, R214). -/
def completeDecode (s : State) : State := { s with decState := .completed, pcmValid := true }

/-- BUDGET ≤ 0, as a signed number (R188, R214). -/
def State.budgetSpent (s : State) : Bool := decide (s.budget.toInt ≤ 0)

end Sys2Proof.Machine
end

