-- ==== Sys2Proof/Machine/Registers.lean ====
section
/-!
DEFINITION. The register block (`spec/10_state.md` section 2): every register's offset, what a host read returns, and what a host write
does (R22-R41, R49, R70).
-/

namespace Sys2Proof.Machine

/-- The registers, in the order of their offsets. -/
inductive Reg where
  | id | status | cmd | result | errCmd | errPos | cfg | pktBase | pktLen | bitPos | sampleCount | packetCount | budget
  | pcmCursor | packetIndex | prevInfo | blkN | blkLeft | blkRight | vdim | cbSel | cbEntries | cbDims | cbLookup | cbMin
  | cbDelta | cbNmult | cbStatus | cbLvalues
  deriving DecidableEq, Repr

/-- The registers in a list: the register at byte offset 4i is element i. -/
def Reg.all : List Reg :=
  [.id, .status, .cmd, .result, .errCmd, .errPos, .cfg, .pktBase, .pktLen, .bitPos, .sampleCount, .packetCount, .budget,
   .pcmCursor, .packetIndex, .prevInfo, .blkN, .blkLeft, .blkRight, .vdim, .cbSel, .cbEntries, .cbDims, .cbLookup, .cbMin,
   .cbDelta, .cbNmult, .cbStatus, .cbLvalues]

/-- The byte offset of a register. -/
def Reg.offset (r : Reg) : Nat := 4 * Reg.all.idxOf r

/-- CB[CB_SEL]. -/
def State.selBook (s : State) : Codebook := s.book s.cbSel.toNat

/-- What a host read of a register returns. Reserved bits read 0. -/
def readReg (s : State) : Reg → Word
  | .id => 0x56444331#32
  | .status => statusWord s
  | .cmd => 0
  | .result => s.result
  | .errCmd => s.errCmd
  | .errPos => s.errPos
  | .cfg => 0#16 ++ s.cfgCbm1 ++ s.cfgE1 ++ s.cfgE0
  | .pktBase => s.pktBase
  | .pktLen => s.pktLen
  | .bitPos => s.bitPos
  | .sampleCount => s.sampleCount
  | .packetCount => s.packetCount
  | .budget => s.budget
  | .pcmCursor => s.pcmCursor
  | .packetIndex => s.packetIndex
  | .prevInfo => 0#3 ++ bit s.prevShort ++ s.prevREnd ++ s.prevN
  | .blkN => 0#12 ++ bit s.blkZero ++ bit s.blkNextLong ++ bit s.blkPrevLong ++ bit s.blkLong ++ 0#2 ++ s.blkN
  | .blkLeft => 0#2 ++ s.lwe ++ 0#2 ++ s.lws
  | .blkRight => 0#2 ++ s.rwe ++ 0#2 ++ s.rws
  | .vdim => s.vdim
  | .cbSel => 0#24 ++ s.cbSel
  | .cbEntries => s.selBook.entries
  | .cbDims => s.selBook.dims
  | .cbLookup => 0#29 ++ bit s.selBook.seqFlag ++ s.selBook.lookupType
  | .cbMin => s.selBook.minimum
  | .cbDelta => s.selBook.delta
  | .cbNmult => s.selBook.nmult
  | .cbStatus => 0#31 ++ bit s.selBook.built
  | .cbLvalues => s.selBook.lookupValues

/-- A setup-table write (R70): it is stored, and CB[CB_SEL] is no longer built, while setup is NOT_LOADED; otherwise it is dropped and
IGNORED is set. -/
def setupTableWrite (store : State → State) (s : State) : State :=
  if s.setupState = .notLoaded then
    let s' := store s
    s'.setBook s.cbSel.toNat (s'.book s.cbSel.toNat).unbuild
  else { s with ignored := true }

/-- A write to a descriptor register of CB[CB_SEL] (R39). -/
def writeBookReg (f : Codebook → Codebook) (s : State) : State :=
  setupTableWrite (fun s => s.setBook s.cbSel.toNat (f s.selBook)) s

/-- A CMD write while BUSY = 0 (R24): BUSY is set and the core has the command word. How long the command runs, counted in host events,
is the next element of `latency` (U17). -/
def acceptCommand (w : Word) (s : State) : State :=
  { s with busy := true, cmdWord := w, busyFor := s.latency.headD 0, latency := s.latency.tail }

/-- What a host write to a register does while BUSY = 0. A write to a read-only register is ignored (R49). -/
def writeReg (w : Word) (s : State) : Reg → State
  | .status => writeStatus w s
  | .cmd => acceptCommand w s
  | .pktBase => { s with pktBase := w }
  | .pktLen => { s with pktLen := w }
  | .sampleCount => if s.isDecoding then s else { s with sampleCount := w }
  | .packetCount => if s.isDecoding then s else { s with packetCount := w }
  | .budget => { s with budget := w }
  | .cbSel => { s with cbSel := w.setWidth 8 }
  | .cbEntries => writeBookReg (fun K => { K with entries := w }) s
  | .cbDims => writeBookReg (fun K => { K with dims := w }) s
  | .cbLookup => writeBookReg (fun K => { K with lookupType := w.extractLsb' 0 2, seqFlag := w.getLsbD 2 }) s
  | .cbMin => writeBookReg (fun K => { K with minimum := w }) s
  | .cbDelta => writeBookReg (fun K => { K with delta := w }) s
  | .cbNmult => writeBookReg (fun K => { K with nmult := w }) s
  | .id | .result | .errCmd | .errPos | .cfg | .bitPos | .pcmCursor | .packetIndex | .prevInfo | .blkN | .blkLeft
  | .blkRight | .vdim | .cbStatus | .cbLvalues => s

end Sys2Proof.Machine
end

