-- ==== Sys2Proof/Machine/Bus.lean ====
section
/-!
DEFINITION. The host bus (`spec/20_memory.md` R60-R76): where an address leads, host reads and writes, and the host events while the core
is idle and while it is busy (`spec/10_state.md` R24, `spec/70_reset_and_hazards.md` R270, R275, R276).
-/

namespace Sys2Proof.Machine

/-- What a bus address reaches. -/
inductive Place where
  | reg (r : Reg)
  | ram (r : Region) (off : Nat)
  deriving DecidableEq, Repr

/-- The region of A[23:20] (R68): regions 9 to 15 are reserved, and region 0 is the register block. -/
def Region.ofCode : Nat → Option Region
  | 1 => some .pkt | 2 => some .cbLen | 3 => some .cbMult | 4 => some .vout | 5 => some .coef | 6 => some .work
  | 7 => some .prev | 8 => some .pcm | _ => none

/-- The place of an aligned address in bounds (R64, R65, R68), or none: a bus error. -/
def busPlace (P : Params) (a : BusAddr) : Option Place :=
  let off := a.toNat % 2 ^ 20
  if a.toNat % 4 ≠ 0 then none
  else if a.toNat / 2 ^ 20 = 0 then
    match Reg.all[off / 4]? with
    | some r => some (.reg r)
    | none => none
  else
    match Region.ofCode (a.toNat / 2 ^ 20) with
    | some r => if off < r.bytes P then some (.ram r off) else none
    | none => none

/-- The bank of a region that the bus sees: the slot CB_SEL for the codebook windows (R45). -/
def State.busBank (s : State) : Region → Nat
  | .cbLen | .cbMult => s.cbSel.toNat
  | .pkt | .vout | .coef | .work | .prev | .pcm => 0

/-- The byte that a host read finds at a key: the stored one, or a draw where there is none (R72, R274, U1). -/
def hostByte (s : State) (k : Nat) : Byte := (s.mem.read k).getD (Config.unwrittenByte s.draws k)

/-- The word that a host read finds from a key on (R60, R61, R62). -/
def hostWord (s : State) (k : Nat) : Word :=
  wordOfBytes (hostByte s k) (hostByte s (k + 1)) (hostByte s (k + 2)) (hostByte s (k + 3))

/-- A host read while BUSY = 0. It has no effect besides the returned word (R67), which is 0 for a bus error (R69). -/
def hostRead (a : BusAddr) (s : State) : State :=
  match busPlace s.params a with
  | none => { recordBusError s with busOut := 0 }
  | some (.reg r) => { s with busOut := readReg s r }
  | some (.ram r off) => { s with busOut := hostWord s (regionKey r (s.busBank r) off) }

/-- A host write while BUSY = 0: PKT and COEF are RW, CB_LEN and CB_MULT are setup tables (R70), a write to the other regions is ignored
(R49), a bus error drops the write (R69). -/
def hostWrite (a : BusAddr) (w : Word) (s : State) : State :=
  match busPlace s.params a with
  | none => recordBusError s
  | some (.reg r) => writeReg w s r
  | some (.ram r off) =>
    match r with
    | .pkt | .coef => s.writeWords r 0 (off / 4) [w]
    | .cbLen | .cbMult => setupTableWrite (fun s => s.writeWords r s.cbSel.toNat (off / 4) [w]) s
    | .vout | .work | .prev | .pcm => s

/-- The platform reset (R270, U21). The parameters stay what they are. The host's program, the core's pace and the bus are outside the core;
the draw counter moves on, since RAM is unspecified again. -/
def applyReset (s : State) : State :=
  { State.reset with params := s.params, host := s.host, latency := s.latency, busOut := s.busOut, draws := s.draws + 1 }

/-- The address of CMD. -/
def cmdAddr : BusAddr := 0x000008#24

/-- The address of STATUS. -/
def statusAddr : BusAddr := 0x000004#24

/-- A host event while BUSY = 0. -/
def idleEvent (e : HostEvent) (s : State) : State :=
  match e with
  | .write a w => hostWrite a w s
  | .read a => hostRead a s
  | .wait => hostRead statusAddr s
  | .reset => applyReset s

/-- A host event while BUSY = 1 (R24, R66): a STATUS read returns STATUS, a CMD write is refused, WAIT polls STATUS once more and goes on
waiting, reset abandons the command, and any other access is the hazard of R275. -/
def busyEvent (e : HostEvent) (s : State) : Res :=
  match e with
  | .write a w => if a = cmdAddr then .next (refuseBusy w s) else .fault .busyAccess
  | .read a => if a = statusAddr then .next { s with busOut := statusWord s } else .fault .busyAccess
  | .wait => .next { s with busOut := statusWord s, host := .wait :: s.host }
  | .reset => .next (applyReset s)

end Sys2Proof.Machine
end

