-- ==== Sys2Proof/Machine/BitReader.lean ====
section
/-!
DEFINITION. The bit reader (`spec/41_bitreader.md` R100, R101, `spec/20_memory.md` R77) and the meanings of BIND and RDBITS (R102, R103).
-/

namespace Sys2Proof.Machine

/-- bit(j) of R100: bit (j mod 8) of PKT byte LBASE + (j div 8), if that byte has a defined value. -/
def packetBit (s : State) (j : Nat) : Option Bool :=
  match s.readByte .pkt (s.lbase.toNat + j / 8) with
  | some b => some (b.getLsbD (j % 8))
  | none => none

/-- 8 x LLEN: the bits of the bound packet. -/
def packetBits (s : State) : Nat := 8 * s.llen.toNat

/-- readBits of R101: the n bits from position p on, the first one read being the least significant. -/
def readBits (s : State) (p : Nat) : Nat → Option Nat
  | 0 => some 0
  | n + 1 =>
    match packetBit s p, readBits s (p + 1) n with
    | some b, some r => some (b.toNat + 2 * r)
    | _, _ => none

/-- The packet range that BIND checks lies in PKT; the sum is exact (R102). -/
def packetFits (s : State) : Bool := decide (s.pktBase.toNat + s.pktLen.toNat ≤ s.params.pktBytes)

/-- BIND (R102). -/
def execBind (s : State) : Res :=
  whenLegal s.isDecoding s
    (if packetFits s then .next { s with lbase := s.pktBase, llen := s.pktLen, bitPos := 0, bound := true }
     else raise (.command .param) s)

/-- RDBITS n (R103): all n bits are read, or none is consumed. -/
def execRdbits (n : Nat) (s : State) : Res :=
  whenLegal (s.isDecoding && s.bound) s
    (if 32 < n then raise (.command .param) s
     else if packetBits s < s.bitPos.toNat + n then raise (.decode .overrun s.bitPos) s
     else
       orFault (.unwrittenRead .pkt) (readBits s s.bitPos.toNat n) fun r =>
         .next { s with result := BitVec.ofNat 32 r, bitPos := BitVec.ofNat 32 (s.bitPos.toNat + n) })

end Sys2Proof.Machine
end

