-- ==== Sys2Proof/Machine/Float.lean ====
section
/-!
DEFINITION. Binary32 arithmetic (`spec/00_scope.md` R13, `spec/20_memory.md` R61).

Every finite binary32 value is an integer multiple of 2^-149, the smallest subnormal: its magnitude in these units is
`f32Units`. An operation computes the exact result as a fraction of units and rounds it once, to nearest with ties to even
(`rneUnits`). Subnormals are kept, nothing is fused, there are no flags. A NaN result is some NaN whose sign and payload
are drawn (U3).
-/

namespace Sys2Proof.Machine

/-- The exponent field [30:23]. -/
def f32Exp (x : F32) : Nat := x.toNat / 2 ^ 23 % 2 ^ 8

/-- The fraction field [22:0]. -/
def f32Frac (x : F32) : Nat := x.toNat % 2 ^ 23

/-- The sign bit. -/
def f32Sign (x : F32) : Bool := x.msb

def f32IsNaN (x : F32) : Bool := f32Exp x == 255 && f32Frac x != 0

def f32IsInf (x : F32) : Bool := f32Exp x == 255 && f32Frac x == 0

def f32IsFinite (x : F32) : Bool := f32Exp x != 255

/-- The magnitude of a finite value in units of 2^-149. -/
def f32Units (x : F32) : Nat :=
  if f32Exp x = 0 then f32Frac x else (2 ^ 23 + f32Frac x) * 2 ^ (f32Exp x - 1)

/-- The signed value of a finite binary32 word in units of 2^-149. -/
def f32Int (x : F32) : Int := if f32Sign x then -(f32Units x : Int) else f32Units x

/-- `n / d` rounded to the nearest integer, ties to even. -/
def rneDiv (n d : Nat) : Nat :=
  let q := n / d
  let r := n % d
  if 2 * r < d then q else if d < 2 * r then q + 1 else q + q % 2

/-- RNE32 of R13 on magnitudes: the exponent and fraction bits of the binary32 value nearest to `n / d` units. With the
scale 2^k at which the quotient has 24 bits (or k = 0 for smaller ones), the encoding of the rounded mantissa `r` is
`k * 2^23 + r`; what reaches 2^128 becomes the infinity. -/
def rneUnits (n d : Nat) : Nat :=
  let k := Nat.log2 (n / d) - 23
  min (k * 2 ^ 23 + rneDiv n (d * 2 ^ k)) 0x7F800000

/-- A word from its sign and its exponent and fraction bits. -/
def f32Pack (neg : Bool) (mag : Nat) : F32 := BitVec.ofNat 32 ((if neg then 2 ^ 31 else 0) + mag)

/-- The binary32 value nearest to `n / d` units of 2^-149, with the given sign. -/
def f32Round (neg : Bool) (n d : Nat) : F32 := f32Pack neg (rneUnits n d)

/-- Some NaN, its sign and payload drawn (U3): the drawn bits with the exponent forced to all ones and, where the drawn fraction
is 0, its last bit forced to 1. Every NaN is some draw's. -/
def f32NaN (t : Draw) : F32 :=
  let r := Config.nanBits t
  r ||| (if r.toNat % 2 ^ 23 = 0 then 0x7F800001#32 else 0x7F800000#32)

def f32Inf (neg : Bool) : F32 := f32Pack neg 0x7F800000

def f32Zero : F32 := 0x00000000#32

def f32One : F32 := 0x3F800000#32

/-- Negation flips the sign bit exactly (R13). -/
def f32Neg (x : F32) : F32 := x ^^^ 0x80000000#32

/-- `fl32(x + y)`. -/
def f32Add (t : Draw) (x y : F32) : F32 :=
  if f32IsNaN x || f32IsNaN y then f32NaN t
  else if f32IsInf x then (if f32IsInf y && f32Sign x != f32Sign y then f32NaN t else x)
  else if f32IsInf y then y
  else
    let a := f32Units x
    let b := f32Units y
    if f32Sign x = f32Sign y then f32Round (f32Sign x) (a + b) 1
    else if b < a then f32Round (f32Sign x) (a - b) 1
    else if a < b then f32Round (f32Sign y) (b - a) 1
    else f32Zero

/-- `fl32(x - y)`. -/
def f32Sub (t : Draw) (x y : F32) : F32 := f32Add t x (f32Neg y)

/-- `fl32(x x y)`. -/
def f32Mul (t : Draw) (x y : F32) : F32 :=
  let neg := f32Sign x != f32Sign y
  if f32IsNaN x || f32IsNaN y then f32NaN t
  else if f32IsInf x then (if f32Units y = 0 && f32IsFinite y then f32NaN t else f32Inf neg)
  else if f32IsInf y then (if f32Units x = 0 then f32NaN t else f32Inf neg)
  else f32Round neg (f32Units x * f32Units y) (2 ^ 149)

/-- `fl32(x / y)`. -/
def f32Div (t : Draw) (x y : F32) : F32 :=
  let neg := f32Sign x != f32Sign y
  if f32IsNaN x || f32IsNaN y then f32NaN t
  else if f32IsInf x then (if f32IsInf y then f32NaN t else f32Inf neg)
  else if f32IsInf y then f32Pack neg 0
  else if f32Units y = 0 then (if f32Units x = 0 then f32NaN t else f32Inf neg)
  else f32Round neg (f32Units x * 2 ^ 149) (f32Units y)

/-- RNE32 of an unsigned integer (R126). -/
def f32OfNat (n : Nat) : F32 := f32Round false (n * 2 ^ 149) 1

def f32Half : F32 := 0x3F000000#32

def f32Two : F32 := 0x40000000#32

def f32OneTwentyEight : F32 := 0x43000000#32

end Sys2Proof.Machine
end

