-- ==== Sys2Proof/Machine/Codebook.lean ====
section
/-!
DEFINITION. Codebooks and the Huffman decoder engine: the meanings of CB_BUILD, HDEC and VDEC (`spec/42_codebook.md` R120-R132).
-/

namespace Sys2Proof.Machine

/-! ## ASSIGN (R122): the codewords still free -/

/-- The tree of bit strings below a point: all of them free, none free, or split by the next bit. A string is free when it is neither a
prefix nor an extension of an assigned codeword. -/
inductive FreeTree where
  | free
  | used
  | split (zero one : FreeTree)
  deriving DecidableEq, Repr

/-- A split whose halves are both used up is used up. -/
def FreeTree.join : FreeTree → FreeTree → FreeTree
  | .used, .used => .used
  | a, b => .split a b

/-- The least free string of l bits, and the tree without it and its extensions. -/
def FreeTree.take : Nat → FreeTree → Option (Codeword × FreeTree)
  | _, .used => none
  | 0, .free => some ([], .used)
  | 0, .split _ _ => none
  | l + 1, .free =>
    match FreeTree.take l .free with
    | some (c, t) => some (false :: c, .split t .free)
    | none => none
  | l + 1, .split a b =>
    match FreeTree.take l a with
    | some (c, t) => some (false :: c, FreeTree.join t b)
    | none =>
      match FreeTree.take l b with
      | some (c, t) => some (true :: c, FreeTree.join a t)
      | none => none

/-- ASSIGN from the tree of free strings on: the codewords of the entries up to the first that has no candidate, and whether all have
one. -/
def assignFrom (t : FreeTree) : List Nat → List (Option Codeword) × Bool
  | [] => ([], true)
  | l :: ls =>
    if l = 0 then
      let r := assignFrom t ls
      (none :: r.1, r.2)
    else
      match FreeTree.take l t with
      | none => ([], false)
      | some (c, t') =>
        let r := assignFrom t' ls
        (some c :: r.1, r.2)

/-- The entries in rising order of their lengths, those of one length in entry order, each with its number. -/
def sortedEntries (lens : List Nat) : List (Nat × Nat) :=
  lens.zipIdx.insertionSort fun p q => p.1 < q.1 ∨ (p.1 = q.1 ∧ p.2 ≤ q.2)

/-- The length-sorted canonical code (R122, D9): the sorted entries get their codewords one after the other, each the least that is free. -/
def assignSorted (lens : List Nat) : List (Option Codeword) × Bool :=
  let order := sortedEntries lens
  let r := assignFrom .free (order.map (·.1))
  ((List.range lens.length).map fun e => (((order.map (·.2)).zip r.1).lookup e).getD none, r.2)

/-- ASSIGN on the code lengths of the entries, by CODE_ASSIGNMENT (R10): by default the rule of R122. -/
def assignCodes (rule : CodeAssignment) (lens : List Nat) : List (Option Codeword) × Bool :=
  match rule with
  | .inOrder => assignFrom .free lens
  | .lengthSorted => assignSorted lens

/-! ## CHECK_FULL (R123, R124) -/

/-- The lengths of the used entries (R120). -/
def usedLengths (lens : List Nat) : List Nat := lens.filter fun l => decide (0 < l)

/-- S x 2^32, for lengths of at most 32: the Kraft sum, exactly. -/
def kraftSum (lens : List Nat) : Nat := ((usedLengths lens).map fun l => 2 ^ (32 - l)).sum

/-- CHECK_FULL accepts: S = 1, or one used entry of length 1. -/
def checkFull (lens : List Nat) : Bool := usedLengths lens == [1] || kraftSum lens == 2 ^ 32

/-! ## VQ vectors (R125-R127) -/

/-- Counts r up while (r + 1)^D ≤ E, at most `fuel` times. -/
def countRoots (E D : Nat) : Nat → Nat → Nat
  | 0, r => r
  | fuel + 1, r => if (r + 1) ^ D ≤ E then countRoots E D fuel (r + 1) else r

/-- lookup1_values(E, D) of R125: the greatest r with r^D ≤ E. -/
def lookup1Values (E D : Nat) : Nat := countRoots E D E 0

/-- The offset into mult[] of element i of entry e: the lattice digit of R126 (lookup type 1), or e x D + i of R127. -/
def vqOffset (lattice : Bool) (lv D e i : Nat) : Nat := if lattice then e / lv ^ i % lv else e * D + i

/-- One element: multiplicand x delta + minimum + last, each operation rounded (R126). -/
def vqElement (t : Draw) (K : Codebook) (m : Word) (last : F32) : F32 :=
  f32Add (0 :: t) (f32Add (1 :: t) (f32Mul (2 :: t) (f32OfNat m.toNat) K.delta) K.minimum) last

/-- `n` elements of an entry's vector from element i on (R126). -/
def vectorFrom (t : Draw) (K : Codebook) (mult : Nat → Word) : Nat → Nat → F32 → List F32
  | 0, _, _ => []
  | n + 1, i, last =>
    let v := vqElement (i :: t) K (mult i) last
    v :: vectorFrom t K mult n (i + 1) (if K.seqFlag then v else last)

/-- VECTOR of R126 and R127 for entry e, with mults = mult[0..lv). -/
def vqVector (t : Draw) (K : Codebook) (mults : Array Word) (lv e : Nat) : List F32 :=
  vectorFrom (e :: t) K (fun i => mults.getD (vqOffset (K.lookupType == 1) lv K.dims.toNat e i) 0) K.dims.toNat 0 f32Zero

/-! ## CB_BUILD (R121) -/

/-- The first length word that stops CB_BUILD's scan: one that is not written, or one above 32. -/
def badLength (ls : List (Option Word)) : Option (Option Word) :=
  ls.find? fun o => match o with
    | none => true
    | some l => decide (32 < l.toNat)

/-- The lookup part of CB_BUILD (R121) on a codebook whose codewords are assigned and full: the checks in order, then vq[]. -/
def buildLookup (c : Nat) (K : Codebook) (s : State) : Res :=
  let E := K.entries.toNat
  let D := K.dims.toNat
  let lv := if K.lookupType = 1 then lookup1Values E D else E * D
  if K.lookupType = 3 then raise (.setup .cbLookup) s
  else if D = 0 then raise (.setup .cbLookup) s
  else if s.params.cbMaxDim < D then raise (.setup .cbCapacity) s
  else if s.params.cbMaxVq < E * D then raise (.setup .cbCapacity) s
  else if s.params.cbMaxMult < K.nmult.toNat then raise (.setup .cbCapacity) s
  else if K.nmult.toNat < lv then raise (.setup .cbLookup) s
  else
    orFault (.unwrittenRead .cbMult) (allSome (s.readWords .cbMult c 0 lv)) fun mults =>
      .next (s.setBook c
        { K with
          vq := (List.range E).map (vqVector [s.draws] K mults.toArray lv)
          lookupValues := BitVec.ofNat 32 lv
          built := true })

/-- CB_BUILD from the unbuilt codebook K = CB[c] on (R121): lengths, codewords, fullness, lookup. -/
def buildBook (c : Nat) (K : Codebook) (s : State) : Res :=
  if s.params.cbMaxEntries < K.entries.toNat then raise (.setup .cbCapacity) s
  else
    let ls := s.readWords .cbLen c 0 K.entries.toNat
    match badLength ls with
    | some none => .fault (.unwrittenRead .cbLen)
    | some (some _) => raise (.setup .cbLength) s
    | none =>
      let lens := ls.map fun o => (o.getD 0).toNat
      let codes := assignCodes s.params.codeAssignment lens
      let K1 := { K with code := codes.1 }
      if codes.2 = false then raise (.setup .cbOverfull) (s.setBook c K1)
      else if checkFull lens = false then raise (.setup .cbUnderfull) (s.setBook c K1)
      else if K.lookupType = 0 then .next (s.setBook c { K1 with built := true })
      else buildLookup c K1 (s.setBook c K1)

/-- CB_BUILD cb (R121). -/
def execCbBuild (cb : Nat) (s : State) : Res :=
  whenSetup s
    (whenLegal s.cfgDone s
      (if s.cbCount ≤ cb then raise (.command .param) s
       else buildBook cb (s.book cb).unbuild (s.setBook cb (s.book cb).unbuild)))

/-! ## MATCH (R129) -/

/-- How the prefix walk ends; `pos` is BITPOS then. -/
inductive MatchResult where
  | entry (e pos : Nat)
  | badCode (pos : Nat)
  | overrun (pos : Nat)
  | unwritten
  deriving DecidableEq, Repr

/-- The entry whose codeword is the string. -/
def entryOf (codes : List (Option Codeword)) (c : Codeword) : Option Nat := codes.findIdx? fun o => o == some c

/-- Some codeword properly extends the string (R16). -/
def isProperPrefix (codes : List (Option Codeword)) (c : Codeword) : Bool :=
  codes.any fun o => match o with
    | some d => c.isPrefixOf d && decide (c.length < d.length)
    | none => false

/-- The walk with `left` bits left in the packet, from position `pos` and the bits `c` read so far. -/
def matchFrom (s : State) (codes : List (Option Codeword)) : Nat → Nat → Codeword → MatchResult
  | 0, pos, _ => .overrun pos
  | left + 1, pos, c =>
    match packetBit s pos with
    | none => .unwritten
    | some b =>
      match entryOf codes (c ++ [b]) with
      | some e => .entry e (pos + 1)
      | none =>
        if isProperPrefix codes (c ++ [b]) then matchFrom s codes left (pos + 1) (c ++ [b]) else .badCode (pos + 1)

/-- MATCH(c) of R129, from BITPOS. -/
def matchCode (K : Codebook) (s : State) : MatchResult :=
  matchFrom s K.code (packetBits s - s.bitPos.toNat) s.bitPos.toNat []

/-- BITPOS <- pos: the bits that the walk consumed stay consumed, also when an error follows (R128). -/
def consumeTo (pos : Nat) (s : State) : State := { s with bitPos := BitVec.ofNat 32 pos }

/-- Runs MATCH and goes on with the entry, or raises what it raised (R100, R128, R129). -/
def withMatch (K : Codebook) (s : State) (k : Nat → State → Res) : Res :=
  match matchCode K s with
  | .entry e pos => k e (consumeTo pos s)
  | .badCode pos => raise (.decode .badCode (BitVec.ofNat 32 pos)) (consumeTo pos s)
  | .overrun pos => raise (.decode .overrun (BitVec.ofNat 32 pos)) (consumeTo pos s)
  | .unwritten => .fault (.unwrittenRead .pkt)

/-- Codebook cb can be decoded with: it is in range and built (R128). -/
def State.bookReady (s : State) (cb : Nat) : Bool := decide (cb < s.cbCount) && (s.book cb).built

/-! ## HDEC and VDEC -/

/-- HDEC cb (R128). -/
def execHdec (cb : Nat) (s : State) : Res :=
  whenLegal (s.isDecoding && s.bound) s
    (if s.bookReady cb then
       withMatch (s.book cb) s fun e s => .next { s with result := BitVec.ofNat 32 e }
     else raise (.decode .cbRange s.bitPos) s)

/-- vq[e][0..D), if CB_BUILD has written it. -/
def vqEntry (K : Codebook) (e : Nat) : Option (List F32) :=
  match K.vq[e]? with
  | some v => if K.dims.toNat ≤ v.length then some (v.take K.dims.toNat) else none
  | none => none

/-- VDEC cb (R130). -/
def execVdec (cb : Nat) (s : State) : Res :=
  whenLegal (s.isDecoding && s.bound) s
    (if s.bookReady cb then
       if (s.book cb).lookupType = 0 then raise (.decode .noLookup s.bitPos) s
       else
         withMatch (s.book cb) s fun e s =>
           orFault .unwrittenVq (vqEntry (s.book cb) e) fun v =>
             .next { s.writeWords .vout 0 0 v with
               vdim := (s.book cb).dims
               result := BitVec.ofNat 32 e }
     else raise (.decode .cbRange s.bitPos) s)

end Sys2Proof.Machine
end

