-- ==== Sys2Proof/Machine/Control.lean ====
section
/-!
DEFINITION. The meanings of NOP, CONFIG, SEAL, FAIL and DEC_BEGIN (`spec/45_control.md` R210-R214).
-/

namespace Sys2Proof.Machine

/-- NOP (R210). -/
def execNop (s : State) : Res := .next s

/-- e0 and e1 are legal block size exponents (R211, D7). -/
def legalBlockSizes (e0 e1 : Nat) : Bool := decide (6 ≤ e0) && decide (e1 ≤ 13) && decide (e0 ≤ e1)

/-- The effect of a CONFIG that raises nothing (R211): CFG is latched, every codebook is unbuilt, CFG_DONE is set. -/
def configure (e0 e1 cbm1 : Nat) (s : State) : State :=
  { s.mapBooks Codebook.unbuild with
    cfgE0 := BitVec.ofNat 4 e0
    cfgE1 := BitVec.ofNat 4 e1
    cfgCbm1 := BitVec.ofNat 8 cbm1
    cfgDone := true }

/-- CONFIG e0, e1, cbm1 (R211). -/
def execConfig (e0 e1 cbm1 : Nat) (s : State) : Res :=
  whenSetup s
    (if legalBlockSizes e0 e1 then .next (configure e0 e1 cbm1 s) else raise (.setup .blockSize) s)

/-- SEAL (R212). -/
def execSeal (s : State) : Res :=
  whenSetup s (whenLegal s.cfgDone s (.next { s with setupState := .loaded }))

/-- FAIL class (R213): a decode-phase FormatError while DECODING, else a setup-phase one while setup is NOT_LOADED. -/
def execFail (cls : Nat) (s : State) : Res :=
  if s.isDecoding then raise (.decode (failCode cls) 0) s
  else whenLegal (s.setupState == .notLoaded) s (raise (.setup (failCode cls)) s)

/-- The effects of DEC_BEGIN before its termination test (R214). -/
def startDecode (ben : Bool) (s : State) : State :=
  { (s.writeBytes .pcm 0 (List.replicate s.sampleCount.toNat 0)).writeWords .prev 0 0
      (List.replicate Config.prevWords f32Zero) with
    decState := .decoding
    pcmValid := false
    fmtCode := none
    pcmCursor := 0
    packetIndex := 0
    prevN := BitVec.ofNat 14 s.b0
    prevREnd := BitVec.ofNat 14 s.b0
    prevShort := true
    seq := .none
    bound := false
    bitPos := 0
    lbase := 0
    llen := 0
    result := 0
    vdim := 0
    blkN := 0
    blkLong := false
    blkPrevLong := false
    blkNextLong := false
    blkZero := false
    lws := 0
    lwe := 0
    rws := 0
    rwe := 0
    budgetEn := ben }

/-- DEC_BEGIN ben (R214). -/
def execDecBegin (ben : Bool) (s : State) : Res :=
  whenLegal (s.setupState == .loaded) s
    (if s.params.pcmBytes < s.sampleCount.toNat then raise (.command .param) s
     else if s.packetCount = 0 then .next (completeDecode (startDecode ben s))
     else if ben && s.budgetSpent then .next (cancelDecode (startDecode ben s))
     else .next (startDecode ben s))

end Sys2Proof.Machine
end

