-- ==== Sys2Proof/Machine/Rom.lean ====
section
/-!
DEFINITION. The constant ROMs (`spec/10_state.md` R46, `spec/43_imdct.md` R150-R154, `spec/44_window_overlap.md` R180). In the default
`TRIG_ROM` of R10 an entry is RNE32 of the exact real value of its closed form; a replaced one is as close to it as D19 says (log entry 3).

The real value is computed in fixed point with 128 fraction bits: pi to 128 bits and the nested Taylor series of the sine on
[0, pi/2]. All angles of the twiddle tables are multiples of pi/16384, so one quarter wave serves all of them.
-/

namespace Sys2Proof.Machine

/-- floor(pi x 2^128). -/
def piFixed : Nat := 0x3243F6A8885A308D313198A2E03707344

/-- The nested series 1 - z/(2*3)(1 - z/(4*5)(1 - ...)) of sin(x)/x at z = x^2, in fixed point: `fuel` factors, from
the factor number `k` on. -/
def sinSeries (z : Nat) : Nat → Nat → Nat
  | 0, _ => 2 ^ 128
  | fuel + 1, k => 2 ^ 128 - z * sinSeries z fuel (k + 1) / 2 ^ 128 / (2 * k * (2 * k + 1))

/-- The sine of a fixed-point angle in [0, pi/2], in fixed point. -/
def sinFixed (x : Nat) : Nat := x * sinSeries (x * x / 2 ^ 128) 20 1 / 2 ^ 128

/-- RNE32 of a fixed-point value. -/
def f32OfFixed (v : Nat) : F32 := f32Round false (v * 2 ^ 149) (2 ^ 128)

/-- RNE32(sin(j pi / 16384)) for j at most 8192. -/
def sinQuarter (j : Nat) : F32 := f32OfFixed (sinFixed (piFixed * j / 16384))

/-- RNE32(sin(j pi / 16384)) for j below 16384. -/
def romSin (j : Nat) : F32 := if j ≤ 8192 then sinQuarter j else sinQuarter (16384 - j)

/-- RNE32(cos(j pi / 16384)) for j below 16384. DESIGN CHOICE: at j = 8192 the exact value is 0 and R13 gives RNE32 of 0 no sign; here it
is +0.0, so that TW_A(N, N/4) is (log entry 20). -/
def romCos (j : Nat) : F32 := if j ≤ 8192 then sinQuarter (8192 - j) else f32Neg (sinQuarter (j - 8192))

/-- TW_A(N, i) of R151 by default: the angle is 4 k pi / N with k = i div 2. -/
def twANearest (N i : Nat) : F32 :=
  let j := 4 * (i / 2) * (16384 / N)
  if i % 2 = 0 then romCos j else f32Neg (romSin j)

/-- TW_B(N, i) of R152 by default: the angle is (2k + 1) pi / (2N) with k = i div 2. -/
def twBNearest (N i : Nat) : F32 :=
  let j := (2 * (i / 2) + 1) * (8192 / N)
  if i % 2 = 0 then romCos j else romSin j

/-- TW_C(N, i) of R153 by default: the angle is 2 (2k + 1) pi / N with k = i div 2. -/
def twCNearest (N i : Nat) : F32 :=
  let j := 2 * (2 * (i / 2) + 1) * (16384 / N)
  if i % 2 = 0 then romCos j else f32Neg (romSin j)

/-- ROM_W(L, j) of R180 by default: RNE32(sin(pi/2 x sin^2(pi (j + 1/2) / L))). -/
def romWNearest (L j : Nat) : F32 :=
  let v := sinFixed (piFixed * (2 * j + 1) / (2 * L))
  f32OfFixed (sinFixed (piFixed * (v * v / 2 ^ 128) / 2 ^ 128 / 2))

/-- What a replaced TRIG_ROM may hold for the default entry d (D19): a binary32 neighbour of d of magnitude at most 1 (R180), or, for the
entry whose exact value is 0, a value of magnitude at most 2^-53, about the 1e-16 of D19. -/
def romAdmits (d x : F32) : Bool :=
  if f32Units d = 0 then decide (f32Units x ≤ 2 ^ 96)
  else decide (f32Units x ≤ 2 ^ 149) && (x == d || x == d + 1 || x + 1 == d)

/-- The ROM entry whose default is d: where a replaced TRIG_ROM (U14) offers a value that it may hold, that one. -/
def romEntry (rom : TrigRom) (table : RomTable) (N i : Nat) (d : F32) : F32 :=
  match rom with
  | .nearest => d
  | .replacement => if romAdmits d (Config.romValue table N i) then Config.romValue table N i else d

/-- TW_A(N, i) (R151). TW_A(N, 0) and TW_A(N, 1) are exact in every ROM. -/
def twA (rom : TrigRom) (N i : Nat) : F32 :=
  if i < 2 then twANearest N i else romEntry rom .twA N i (twANearest N i)

/-- TW_B(N, i) (R152). -/
def twB (rom : TrigRom) (N i : Nat) : F32 := romEntry rom .twB N i (twBNearest N i)

/-- TW_C(N, i) (R153). -/
def twC (rom : TrigRom) (N i : Nat) : F32 := romEntry rom .twC N i (twCNearest N i)

/-- ROM_W(L, j) (R180). -/
def romW (rom : TrigRom) (L j : Nat) : F32 := romEntry rom .window L j (romWNearest L j)

/-- `i` written in `w` bits with the bit order reversed. -/
def reverseBits : Nat → Nat → Nat
  | 0, _ => 0
  | w + 1, i => (i % 2) * 2 ^ w + reverseBits w (i / 2)

/-- BITREV(N, i) of R154: i in log2(N) - 3 bits, reversed. -/
def bitRev (N i : Nat) : Nat := reverseBits (Nat.log2 N - 3) i

end Sys2Proof.Machine
end

