-- ==== Sys2Proof/Machine/Pipeline.lean ====
section
/-!
DEFINITION. The IMDCT reference pipeline, the default IMDCT_IMPL of R10 (`spec/43_imdct.md` R156-R162), the property P-IMDCT that a
replacement meets (R155, R165), and the transform of a core.

Each stage writes a scratch array. A stage is written element by element: `table n f` is the array whose element i is
`f i`, and `f` solves the loop indices of the rule for i. The draw names (U3) follow the rule's own operations: a value that the rule
computes once has one name however many elements read it.
-/

namespace Sys2Proof.Machine

/-- A private scratch array (R156): not architectural. -/
abbrev Scratch := Array F32

/-- Element i of a scratch array; no stage reads outside one. -/
def at' (a : Scratch) (i : Nat) : F32 := a.getD i f32Zero

/-- The array of n elements whose element i is `f i`. -/
def table (n : Nat) (f : Nat → F32) : Scratch := Array.mk ((List.range n).map f)

/-- TWMUL of R162: the rotation of (x, y) by the ROM pair (c, s). -/
def twmul (t : Draw) (x y c s : F32) : F32 × F32 :=
  (f32Sub (0 :: t) (f32Mul (1 :: t) x c) (f32Mul (2 :: t) y s),
   f32Add (3 :: t) (f32Mul (4 :: t) x s) (f32Mul (5 :: t) y c))

/-- Stage 1 (R156). -/
def stage1 (t : Draw) (n : Nat) (X : Scratch) : Scratch :=
  let h k := f32Mul (k :: 1 :: t) f32Half (at' X k)
  table n fun k => if k < n / 2 then h k else f32Neg (h (n - 1 - k))

/-- The pair that step k of stage 2a writes to V[n-1-4k] and V[n-3-4k] (R157). -/
def pair2a (t : Draw) (n : Nat) (A U : Scratch) (k : Nat) : F32 × F32 :=
  let t := k :: 2 :: t
  let d1 := f32Sub (6 :: t) (at' U (4 * k)) (at' U (n - 1 - 4 * k))
  let d2 := f32Sub (7 :: t) (at' U (4 * k + 2)) (at' U (n - 3 - 4 * k))
  twmul t d1 d2 (at' A (2 * k)) (at' A (2 * k + 1))

/-- Stage 2a (R157): the first butterfly. -/
def stage2a (t : Draw) (n : Nat) (A U : Scratch) : Scratch :=
  table n fun i =>
    if i % 4 = 3 then (pair2a t n A U ((n - 1 - i) / 4)).1
    else if i % 4 = 1 then (pair2a t n A U ((n - 3 - i) / 4)).2
    else f32Zero

/-- The pair that step k of stage 2b writes to W[4k+3] and W[4k+1] (R157). -/
def pair2b (t : Draw) (n : Nat) (A V : Scratch) (k : Nat) : F32 × F32 :=
  let t := k :: 3 :: t
  let d3 := f32Sub (6 :: t) (at' V (n / 2 + 3 + 4 * k)) (at' V (4 * k + 3))
  let d1 := f32Sub (7 :: t) (at' V (n / 2 + 1 + 4 * k)) (at' V (4 * k + 1))
  twmul t d3 d1 (at' A (n / 2 - 4 - 4 * k)) (at' A (n / 2 - 3 - 4 * k))

/-- Stage 2b (R157): the first radix-2 pass. -/
def stage2b (t : Draw) (n : Nat) (A V : Scratch) : Scratch :=
  table n fun i =>
    if i % 2 = 0 then f32Zero
    else if n / 2 ≤ i then f32Add (i :: 4 :: t) (at' V i) (at' V (i - n / 2))
    else if i % 4 = 3 then (pair2b t n A V (i / 4)).1
    else (pair2b t n A V (i / 4)).2

/-- The pair that the step of pass l with upper index a = n-1-k0*s2-4r writes to U[a-k0] and U[a-k0-2] (R158). -/
def pair3 (t : Draw) (l k0 : Nat) (A W : Scratch) (a r : Nat) : F32 × F32 :=
  let t := a :: l :: 5 :: t
  let e1 := f32Sub (6 :: t) (at' W a) (at' W (a - k0))
  let e2 := f32Sub (7 :: t) (at' W (a - 2)) (at' W (a - 2 - k0))
  twmul t e1 e2 (at' A (r * 2 ^ (l + 3))) (at' A (r * 2 ^ (l + 3) + 1))

/-- Pass l of stage 3 (R158). The element i lies t = n-1-i below the top, and t = k0 * q + 4r + 2h: q even gives the sums
U[a], U[b] (h = 0, 1), q odd the products U[c], U[d]. -/
def pass3 (t : Draw) (n l : Nat) (A W : Scratch) : Scratch :=
  let k0 := n / 2 ^ (l + 2)
  table n fun i =>
    let d := n - 1 - i
    if d % 2 = 1 then f32Zero
    else if d / k0 % 2 = 0 then f32Add (i :: l :: 6 :: t) (at' W i) (at' W (i - k0))
    else
      let r := d % k0 / 4
      if d % 4 = 0 then (pair3 t l k0 A W (i + k0) r).1 else (pair3 t l k0 A W (i + 2 + k0) r).2

/-- The passes l, l+1, ... of stage 3, `count` of them. -/
def passes3 (t : Draw) (n : Nat) (A : Scratch) : Nat → Nat → Scratch → Scratch
  | 0, _, W => W
  | count + 1, l, W => passes3 t n A count (l + 1) (pass3 t n l A W)

/-- Stage 3 (R158): log2(n) - 3 passes. -/
def stage3 (t : Draw) (n : Nat) (A W : Scratch) : Scratch := passes3 t n A (Nat.log2 n - 3) 0 W

/-- Stage 4 (R159): the swap of the odd elements of the octets i and BITREV(n, i), for every i. -/
def stage4 (n : Nat) (U : Scratch) : Scratch :=
  table n fun i => if i % 2 = 0 then f32Zero else at' U (8 * bitRev n (i / 8) + i % 8)

/-- Stage 5a (R160). -/
def stage5a (n : Nat) (V : Scratch) : Scratch := table (n / 2) fun k => at' V (2 * k + 1)

/-- Stage 5b (R160): the upper half of U, from the top of each of its two quarters down. -/
def stage5b (n : Nat) (W : Scratch) : Scratch :=
  table n fun i =>
    if n - n / 4 ≤ i then
      let d := n - 1 - i
      at' W (4 * (d / 2) + d % 2)
    else if n / 2 ≤ i then
      let d := n - n / 4 - 1 - i
      at' W (4 * (d / 2) + 2 + d % 2)
    else f32Zero

/-- What step k of stage 5c writes to V[n2+2k], V[n-2-2k], V[n2+1+2k] and V[n-1-2k] (R160). -/
def quad5c (t : Draw) (n : Nat) (C U : Scratch) (k : Nat) : F32 × F32 × F32 × F32 :=
  let t := k :: 7 :: t
  let u0 := at' U (n / 2 + 2 * k)
  let u1 := at' U (n / 2 + 1 + 2 * k)
  let v0 := at' U (n - 2 - 2 * k)
  let v1 := at' U (n - 1 - 2 * k)
  let p := f32Add (0 :: t) u0 v0
  let q := f32Sub (1 :: t) u0 v0
  let r := f32Add (2 :: t) u1 v1
  let s := f32Sub (3 :: t) u1 v1
  let c0 := at' C (2 * k)
  let c1 := at' C (2 * k + 1)
  let t1 := f32Mul (4 :: t) c1 q
  let t2 := f32Mul (5 :: t) c0 r
  let t3 := f32Mul (6 :: t) c1 r
  let t4 := f32Mul (7 :: t) c0 q
  (f32Div (8 :: t) (f32Add (9 :: t) (f32Add (10 :: t) p t1) t2) f32Two,
   f32Div (11 :: t) (f32Sub (12 :: t) (f32Sub (13 :: t) p t1) t2) f32Two,
   f32Div (14 :: t) (f32Sub (15 :: t) (f32Add (16 :: t) s t3) t4) f32Two,
   f32Div (17 :: t) (f32Sub (18 :: t) (f32Add (19 :: t) (f32Neg s) t3) t4) f32Two)

/-- Stage 5c (R160): the C rotation. -/
def stage5c (t : Draw) (n : Nat) (C U : Scratch) : Scratch :=
  table n fun i =>
    if n - n / 4 ≤ i then
      let d := n - 1 - i
      if d % 2 = 0 then (quad5c t n C U (d / 2)).2.2.2 else (quad5c t n C U (d / 2)).2.1
    else if n / 2 ≤ i then
      let d := i - n / 2
      if d % 2 = 0 then (quad5c t n C U (d / 2)).1 else (quad5c t n C U (d / 2)).2.2.1
    else f32Zero

/-- Stage 6a (R161): the B rotation. -/
def stage6a (t : Draw) (n : Nat) (B V : Scratch) : Scratch :=
  table (n / 2) fun i =>
    if i < n / 4 then
      let t := i :: 8 :: t
      f32Add (0 :: t) (f32Mul (1 :: t) (at' V (n / 2 + 2 * i)) (at' B (2 * i)))
        (f32Mul (2 :: t) (at' V (n / 2 + 1 + 2 * i)) (at' B (2 * i + 1)))
    else
      let k := n / 2 - 1 - i
      let t := k :: 8 :: t
      f32Sub (3 :: t) (f32Mul (4 :: t) (at' V (n / 2 + 2 * k)) (at' B (2 * k + 1)))
        (f32Mul (5 :: t) (at' V (n / 2 + 1 + 2 * k)) (at' B (2 * k)))

/-- Stage 6b (R161): the untangle, which rounds nothing. -/
def stage6b (n : Nat) (Y : Scratch) : Scratch :=
  table n fun i =>
    if i < n / 4 then at' Y (i + n / 4)
    else if i < n - n / 4 then f32Neg (at' Y (n - n / 4 - 1 - i))
    else f32Neg (at' Y (i - (n - n / 4)))

/-- The reference pipeline of R156-R161 on the n/2 coefficients X. -/
def imdctPipeline (rom : TrigRom) (t : Draw) (n : Nat) (X : Scratch) : Scratch :=
  let A := table (n / 2) (twA rom n)
  let B := table (n / 2) (twB rom n)
  let C := table (n / 4) (twC rom n)
  let U1 := stage1 t n X
  let V2 := stage2a t n A U1
  let W2 := stage2b t n A V2
  let U3 := stage3 t n A W2
  let V4 := stage4 n U3
  let U5 := stage5b n (stage5a n V4)
  let V5 := stage5c t n C U5
  stage6b n (stage6a t n B V5)

/-! ## IMDCT_IMPL (R10, R155, R165) -/

/-- A finite binary32 value within the bound of P-IMDCT (c) of y, for coefficients whose magnitudes add up to `total` (R165). -/
def MeetsBound (y total : ℝ) (w : F32) : Prop := f32IsFinite w = true ∧ |(f32Int w / 2 ^ 149 : ℝ) - y| ≤ total / 2 ^ 18

/-- P-IMDCT (R165) of what a replacement makes of the n/2 coefficients X, with y of R155 in real arithmetic. (a) is its type: it depends on n
and X alone. (b): zeros for zeros. (c): finite coefficients whose results do not overflow, that is whose every y[i] rounds to a finite value
(log entry 4), give finite values within 2^-18 x sum |X[j]| of y. Below a sum of 2^-132 the bound is narrower than half the spacing of the
binary32 values near 0, and (c) cannot be asked of an element for which no binary32 value meets it (log entry 4). -/
def PImdct (n : Nat) (X out : List F32) : Prop :=
  let value (x : F32) : ℝ := f32Int x / 2 ^ 149
  let y (i : Nat) : ℝ :=
    ∑ j ∈ Finset.range (n / 2), value (X.getD j f32Zero) * Real.cos (Real.pi / (2 * n) * (2 * i + 1 + n / 2) * (2 * j + 1))
  let total : ℝ := ∑ j ∈ Finset.range (n / 2), |value (X.getD j f32Zero)|
  out.length = n ∧
  ((∀ x ∈ X, f32Units x = 0) → ∀ w ∈ out, f32Units w = 0) ∧
  ((∀ x ∈ X, f32IsFinite x = true) → (∀ i, i < n → |y i| < 2 ^ 128 - 2 ^ 103) →
    ∀ i, i < n → MeetsBound (y i) total (out.getD i f32Zero) ∨ (total < 1 / 2 ^ 132 ∧ ∀ w, ¬MeetsBound (y i) total w))

/-- The transform of a core (R163): the reference pipeline, or under a replaced IMDCT_IMPL that function, of which nothing but P-IMDCT is
known (R165). -/
def imdctBlock (P : Params) (t : Draw) (n : Nat) (X : List F32) : List F32 :=
  let reference := (imdctPipeline P.trigRom t n X.toArray).toList
  match P.imdctImpl with
  | .reference => reference
  | .replacement =>
    match Config.imdctFunction PImdct with
    | some f => f.val n X
    | none => reference

end Sys2Proof.Machine
end

