-- ==== Sys2Proof/Machine/Imdct.lean ====
section
/-!
DEFINITION. The meaning of IMDCT (`spec/43_imdct.md` R163, R164).
-/

namespace Sys2Proof.Machine

/-- IMDCT LONG, PREVLONG, NEXTLONG, ZERO (R163). -/
def execImdct (long prevlong nextlong zero : Bool) (s : State) : Res :=
  whenLegal (s.isDecoding && s.seq == .none) s
    (let n := s.blockSize long
     let s1 := { setGeometry n long prevlong nextlong zero s with seq := .imdctDone }
     if zero then .next (s1.writeWords .work 0 0 (List.replicate n f32Zero))
     else
       orFault (.unwrittenRead .coef) (allSome (s.readWords .coef 0 0 (n / 2))) fun X =>
         .next (s1.writeWords .work 0 0 (imdctBlock s.params [s.draws] n X)))

end Sys2Proof.Machine
end

