-- ==== Sys2Proof/Machine/Synthesis.lean ====
section
/-!
DEFINITION. The meanings of WINDOW and OVERLAP (`spec/44_window_overlap.md` R180-R188).
-/

namespace Sys2Proof.Machine

/-! ## WINDOW -/

/-- What WINDOW makes of WORK[i] = x (R182): outside the slopes +0.0, on them the product with the slope, between them x. -/
def windowElement (rom : TrigRom) (t : Draw) (lws lwe rws rwe : Nat) (x : F32) (i : Nat) : F32 :=
  let lL := 2 * (lwe - lws)
  let rL := 2 * (rwe - rws)
  if i < lws ∨ rwe ≤ i then f32Zero
  else if i < lwe then f32Mul (i :: t) x (romW rom lL (i - lws))
  else if i < rws then x
  else f32Mul (i :: t) x (romW rom rL (rL / 2 - 1 - (i - rws)))

/-- The windowed block (R181, R182). -/
def windowBlock (rom : TrigRom) (t : Draw) (lws lwe rws rwe : Nat) (work : List F32) : List F32 :=
  work.zipIdx.map fun p => windowElement rom t lws lwe rws rwe p.1 p.2

/-- WORK[0..n) of the current block, if all of it has defined values. -/
def currentBlock (s : State) : Option (List F32) := allSome (s.readWords .work 0 0 s.blkN.toNat)

/-- WINDOW (R182). -/
def execWindow (s : State) : Res :=
  whenLegal (s.isDecoding && s.seq == .imdctDone) s
    (orFault (.unwrittenRead .work) (currentBlock s) fun work =>
      .next { s.writeWords .work 0 0
          (windowBlock s.params.trigRom [s.draws] s.lws.toNat s.lwe.toNat s.rws.toNat s.rwe.toNat work) with
        seq := .windowDone })

/-! ## OVERLAP -/

/-- floor(v + 1/2) of a finite binary32 value, exactly (R185). -/
def roundHalfUp (v : F32) : Int := (f32Int v + 2 ^ 148) / 2 ^ 149

/-- clamp(x, 0, 255) - 128 as a two's-complement byte (R185). -/
def quantised (x : Int) : Byte := BitVec.ofInt 8 (min (max x 0) 255 - 128)

/-- Q8 of R185. Of a NaN it is a draw (U4). -/
def q8 (t : Draw) (f : F32) : Byte :=
  let v := f32Add (0 :: t) f32OneTwentyEight (f32Mul (1 :: t) f32OneTwentyEight f)
  if f32IsNaN v then Config.q8OfNaN (2 :: t)
  else if f32IsInf v then quantised (if f32Sign v then 0 else 255)
  else quantised (roundHalfUp v)

/-- count = (n + p) / 4 (R183). -/
def overlapCount (s : State) : Nat := (s.blkN.toNat + s.prevN.toNat) / 4

/-- How many words of PREV an OVERLAP reads: those k below count with p/2 + k < PREV_REND (R184). -/
def prevCount (s : State) : Nat := min (overlapCount s) (s.prevREnd.toNat - s.prevN.toNat / 2)

/-- out[k] of R184, with the P and C operands that the rule guards. -/
def overlapSample (t : Draw) (n p : Nat) (prev work : Array F32) (k : Nat) : F32 :=
  f32Add (k :: 0 :: t)
    (if k < prev.size then prev.getD k f32Zero else f32Zero)
    (if p / 4 ≤ k + n / 4 ∧ k + n / 4 - p / 4 < n / 2 then work.getD (k + n / 4 - p / 4) f32Zero else f32Zero)

/-- emitted = min(count, SAMPLE_COUNT - PCM_CURSOR) (R186). -/
def emittedCount (s : State) : Nat := min (overlapCount s) (s.sampleCount.toNat - s.pcmCursor.toNat)

/-- The bytes that OVERLAP writes to PCM (R184, R185). -/
def emittedBytes (t : Draw) (s : State) (prev work : Array F32) : List Byte :=
  (List.range (emittedCount s)).map fun k =>
    q8 (k :: 1 :: t) (overlapSample t s.blkN.toNat s.prevN.toNat prev work k)

/-- SAVE_PREV of R187. -/
def savePrev (work : List F32) (s : State) : State :=
  let n := s.blkN.toNat
  { s.writeWords .prev 0 0 ((work.drop (n / 2)).take (s.rwe.toNat - n / 2)) with
    prevN := s.blkN
    prevREnd := s.rwe
    prevShort := !s.blkLong }

/-- PACKET_DONE of R188 before its termination test. -/
def countPacket (emitted : Nat) (s : State) : State :=
  { s with
    budget := if s.budgetEn then s.budget - BitVec.ofNat 32 emitted else s.budget
    packetIndex := s.packetIndex + 1
    bound := false
    seq := .none }

/-- PACKET_DONE of R188: completion wins over cancellation. -/
def packetDone (emitted : Nat) (s : State) : State :=
  let s := countPacket emitted s
  if s.packetIndex = s.packetCount then completeDecode s
  else if s.budgetEn && s.budgetSpent then cancelDecode s
  else s

/-- The samples are written to PCM and the cursor advances (R184, R186). -/
def emitSamples (bs : List Byte) (s : State) : State :=
  { s.writeBytes .pcm s.pcmCursor.toNat bs with pcmCursor := s.pcmCursor + BitVec.ofNat 32 bs.length }

/-- OVERLAP (R184). -/
def execOverlap (s : State) : Res :=
  whenLegal (s.isDecoding && s.seq == .windowDone) s
    (orFault (.unwrittenRead .work) (currentBlock s) fun work =>
      orFault (.unwrittenRead .prev) (allSome (s.readWords .prev 0 0 (prevCount s))) fun prev =>
        .next (packetDone (emittedCount s)
          (savePrev work (emitSamples (emittedBytes [s.draws] s prev.toArray work.toArray) s))))

end Sys2Proof.Machine
end

