-- ==== Sys2Proof/Machine/Dispatch.lean ====
section
/-! DEFINITION. What each command does: one arm per row of `spec/opcode_table.json`. -/

namespace Sys2Proof.Machine

/-- Performs a command (R24). The command word, which error records need, is in `State.cmdWord`. -/
def exec (i : Instr) (s : State) : Host.Outcome State Fault Refusal :=
  match i with
  | .nop => Sys2Proof.Machine.execNop s
  | .config e0 e1 cbm1 => Sys2Proof.Machine.execConfig e0 e1 cbm1 s
  | .cbBuild cb => Sys2Proof.Machine.execCbBuild cb s
  | .sealSetup => Sys2Proof.Machine.execSeal s
  | .fail cls => Sys2Proof.Machine.execFail cls s
  | .decBegin ben => Sys2Proof.Machine.execDecBegin ben s
  | .bind => Sys2Proof.Machine.execBind s
  | .rdbits n => Sys2Proof.Machine.execRdbits n s
  | .hdec cb => Sys2Proof.Machine.execHdec cb s
  | .vdec cb => Sys2Proof.Machine.execVdec cb s
  | .imdct long prevlong nextlong zero => Sys2Proof.Machine.execImdct long prevlong nextlong zero s
  | .window => Sys2Proof.Machine.execWindow s
  | .overlap => Sys2Proof.Machine.execOverlap s

end Sys2Proof.Machine
end

