-- ==== Sys2Proof/Machine/Command.lean ====
section
/-!
DEFINITION. Performing the command word that the core has (`spec/10_state.md` R24, `spec/30_encoding.md` R90, R91), and one step.
-/

namespace Sys2Proof.Machine

/-- The command error of a rejected word (R90). -/
def rejectCode : Reject → CmdError
  | .illegalOpcode => .illegalOpcode
  | .reservedBits => .reservedBits

/-- Decodes and performs a command word. -/
def perform (w : Word) (s : State) : Res :=
  match decode w with
  | .ok i => exec i s
  | .error r => raise (.command (rejectCode r)) s

/-- The command is over: BUSY <- 0 (R24), and the next command draws new values. -/
def complete (s : State) : State := { s with busy := false, draws := s.draws + 1 }

/-- The command that the core has, as one indivisible step (R24). -/
def runCommand (s : State) : Res :=
  match perform s.cmdWord s with
  | .next t => .next (complete t)
  | .fault f => .fault f
  | .refused r => .refused r

/-- One step: while BUSY = 1, a host event that still arrives before the command completes, or else the command; while BUSY = 0, the next
host event, or nothing (R256). -/
def stepOnce (s : State) : Res :=
  if s.busy then
    match s.busyFor, s.host with
    | n + 1, e :: rest => busyEvent e { s with busyFor := n, host := rest }
    | _, _ => runCommand s
  else
    match s.host with
    | [] => .next s
    | e :: rest => .next (idleEvent e { s with host := rest })

end Sys2Proof.Machine
end

