-- ==== Sys2Proof/Machine/Step.lean ====
section
/-! DEFINITION. One step of the machine, and the state in which a given command word is the next to run. -/

namespace Sys2Proof.Machine

/-- One step (R17, R24): the core's command or the host's next event. -/
def step (s : State) : Host.Outcome State Fault Refusal := stepOnce s

/-- `s` with the command word w accepted and about to be performed: what a CMD write of w leaves (R24). The core fetches nothing from memory
(R79), so this is where the next step takes its command from. -/
def State.withFetchWord (s : State) (_nbits w : Nat) : State :=
  { s with busy := true, cmdWord := BitVec.ofNat 32 w, busyFor := 0 }

end Sys2Proof.Machine
end

