-- ==== Sys2Proof/Safety.lean ====
section
/-!
DEFINITION. What holds in every state of a run, and what counts as a safe run. Statements use these terms.
-/

namespace Sys2Proof.Machine

/-- The first n bytes of a region (of bank 0) have defined values. -/
def Written (s : State) (r : Region) (n : Nat) : Prop := ∀ i, i < n → (s.readByte r i).isSome = true

/-- A built codebook's tables have the shape that CB_BUILD gives them (R121): a codeword or none for each entry and, with a lookup, a
vector of `dims` elements for each entry. -/
structure Codebook.Shape (P : Params) (K : Codebook) : Prop where
  entries : K.entries.toNat ≤ P.cbMaxEntries
  code : K.code.length = K.entries.toNat
  dims : K.lookupType ≠ 0 → 1 ≤ K.dims.toNat ∧ K.dims.toNat ≤ P.cbMaxDim
  vq : K.lookupType ≠ 0 → K.vq.length = K.entries.toNat
  vectors : K.lookupType ≠ 0 → ∀ v ∈ K.vq, v.length = K.dims.toNat

/-- n is one of the two configured block sizes. -/
def State.IsBlockSize (s : State) (n : Nat) : Prop := n = s.b0 ∨ n = s.b1

/-- The invariant of the machine: it holds at reset and every step keeps it. -/
structure Inv (s : State) : Prop where
  /-- The parameters keep the bounds of R7. -/
  params : s.params.Legal
  /-- Memory is in canonical form. -/
  mem : s.mem.wf
  /-- A decode exists only under a loaded setup (R246: "DEC_STATE = DECODING implies SETUP_STATE = LOADED"). -/
  loaded : s.decState ≠ .idle → s.setupState = .loaded
  /-- Setup is loaded only after CONFIG (R212). -/
  configured : s.setupState = .loaded → s.cfgDone = true
  /-- The configured exponents are legal (R211). -/
  exponents : s.cfgDone = true → 6 ≤ s.cfgE0.toNat ∧ s.cfgE0.toNat ≤ s.cfgE1.toNat ∧ s.cfgE1.toNat ≤ 13
  /-- PCM_VALID is 1 only in COMPLETED (R23). -/
  pcmValid : s.pcmValid = true ↔ s.decState = .completed
  /-- FMTCODE is the code of the current FAILED state, and none when there is none (R23). -/
  fmtCode : s.fmtCode.isSome = true ↔ s.setupState = .failed ∨ s.decState = .failed
  /-- While decoding the output fits PCM and the cursor stays within it (R34, R78, R189). -/
  cursor : s.decState = .decoding →
    s.pcmCursor.toNat ≤ s.sampleCount.toNat ∧ s.sampleCount.toNat ≤ s.params.pcmBytes
  /-- The latched packet lies in PKT, and BITPOS in the packet (R21, R78). -/
  packet : s.lbase.toNat + s.llen.toNat ≤ s.params.pktBytes ∧ s.bitPos.toNat ≤ 8 * s.llen.toNat
  /-- While decoding, PREV_N and PREV_REND describe an earlier block (R187, R214). -/
  prev : s.decState = .decoding →
    s.IsBlockSize s.prevN.toNat ∧ s.prevN.toNat / 2 ≤ s.prevREnd.toNat ∧ s.prevREnd.toNat ≤ s.prevN.toNat
  /-- While decoding, all of PREV has defined values (R214). -/
  prevWritten : s.decState = .decoding → Written s .prev (4 * Config.prevWords)
  /-- After IMDCT the block registers describe a block (R164). -/
  block : s.decState = .decoding → s.seq ≠ .none →
    s.IsBlockSize s.blkN.toNat ∧ s.lws.toNat ≤ s.lwe.toNat ∧ s.lwe.toNat ≤ s.rws.toNat ∧
      s.rws.toNat ≤ s.rwe.toNat ∧ s.rwe.toNat ≤ s.blkN.toNat ∧ s.blkN.toNat / 2 ≤ s.rwe.toNat
  /-- After IMDCT all of the block in WORK has defined values (R274). -/
  workWritten : s.decState = .decoding → s.seq ≠ .none → Written s .work (4 * s.blkN.toNat)
  /-- Every built codebook has the shape that CB_BUILD gives it. -/
  books : ∀ c, c < 256 → (s.book c).built = true → (s.book c).Shape s.params

/-- The RAM that the host must write before a command reads it (R274). Reading anything else unwritten never happens. -/
def Region.hostWrites : Region → Bool
  | .pkt | .cbLen | .cbMult | .coef => true
  | .vout | .work | .prev | .pcm => false

/-- A host program that keeps the BUSY rule (R275): after every CMD write it waits before its next access, or resets the core. -/
def keepsBusyRule : List HostEvent → Bool
  | [] => true
  | [.write _ _] => true
  | .write a _ :: e :: rest =>
    (decide (a ≠ cmdAddr) || decide (e = .wait) || decide (e = .reset)) && keepsBusyRule (e :: rest)
  | _ :: rest => keepsBusyRule rest

/-- A safe run from s: no number of steps leads to a fault or a refusal. -/
def SafeRun (s : State) : Prop := ∀ k, ∃ t, Host.Core.run
  { State := State, Fault := Fault, Refusal := Refusal, step := step, reset := State.reset } k s = .next t

end Sys2Proof.Machine
end

