-- ==== Sys2Proof/Certificates/Slice0/Obligations.lean ====
section
/-!
DEFINITION. The statements for the provers. The first part, under `Sys2Proof.Spec`, writes the spec's own terms down without the model's
definitions of them; the statements then say that the model does what those terms say.

A binary32 operation is named with a draw (U3): where a statement says that some draw `d` exists, the value is the spec's "some NaN" if the
operation yields a NaN, and the one rounded value if it does not.
-/

namespace Sys2Proof.Spec

open Sys2Proof.Machine

/-! ## Records of errors (R243, R244, R245) -/

/-- R245: nothing but the record changes. -/
abbrev cmdErrored (c : CmdError) (s : State) : State :=
  { s with cmdErr := true, cmdCode := some c, errCmd := s.cmdWord }

/-- R243. -/
abbrev setupFailed (f : FormatError) (s : State) : State :=
  { s with setupState := .failed, fmtCode := some f, errCmd := s.cmdWord, errPos := 0 }

/-- R244, with the ERRPOS of the raising rule. -/
abbrev decodeFailed (f : FormatError) (pos : Word) (s : State) : State :=
  { s with decState := .failed, pcmValid := false, fmtCode := some f, errCmd := s.cmdWord, errPos := pos }

/-- R241. -/
def formatCode : Option FormatError → Nat
  | none => 0x00 | some .cbOverfull => 0x01 | some .cbUnderfull => 0x02 | some .cbLength => 0x03 | some .cbLookup => 0x04
  | some .cbCapacity => 0x05 | some .blockSize => 0x06 | some .cbRange => 0x07 | some .badCode => 0x08 | some .noLookup => 0x09
  | some .overrun => 0x0A | some .hostFormat => 0x0B | some .hostUnsupported => 0x0C

/-- R242. -/
def commandCode : Option CmdError → Nat
  | none => 0x00 | some .illegalOpcode => 0x20 | some .reservedBits => 0x21 | some .state => 0x22 | some .param => 0x23
  | some .busy => 0x24 | some .bus => 0x25

/-! ## Encodings -/

/-- The listed opcodes of R89, each with the number of operand bits that its format names (R81-R87). -/
def usedBits : List (Nat × Nat) :=
  [(0x00, 0), (0x01, 16), (0x02, 8), (0x03, 0), (0x04, 1), (0x10, 1), (0x11, 0), (0x12, 6), (0x13, 8), (0x14, 8), (0x20, 4), (0x21, 0),
   (0x22, 0)]

/-! ## The host bus -/

/-- The base address of a region (R68). -/
def base : Region → Nat
  | .pkt => 0x100000 | .cbLen => 0x200000 | .cbMult => 0x300000 | .vout => 0x400000
  | .coef => 0x500000 | .work => 0x600000 | .prev => 0x700000 | .pcm => 0x800000

/-- The bytes of a region (R65) of a core with the capacities P (R7). -/
def size (P : Params) : Region → Nat
  | .pkt => P.pktBytes | .cbLen => 4 * P.cbMaxEntries | .cbMult => 4 * P.cbMaxMult | .vout => 4 * P.cbMaxDim
  | .coef => 0x4000 | .work => 0x8000 | .prev => 0x4000 | .pcm => P.pcmBytes

/-- The bus address at an offset of a region. -/
def at_ (r : Region) (off : Nat) : BusAddr := BitVec.ofNat 24 (base r + off)

/-- R64, R65, R68: misaligned, out of bounds, or reserved. -/
def badAddress (P : Params) (a : Nat) : Prop :=
  a % 4 ≠ 0 ∨ (a < 0x100000 ∧ 0x070 < a) ∨ 0x900000 ≤ a ∨ ∃ r, base r + size P r ≤ a ∧ a < base r + 0x100000

/-- The key range of the first n bytes of a region (of bank 0) in the model's memory. -/
def inRange (r : Region) (lo n k : Nat) : Prop := base r + lo ≤ k ∧ k < base r + lo + n

/-! ## Legality (R246) -/

/-- Check 3: the commands that the setup guard ignores. -/
def isSetup : Instr → Prop
  | .config .. | .cbBuild _ | .sealSetup => True
  | .nop | .fail _ | .decBegin _ | .bind | .rdbits _ | .hdec _ | .vdec _ | .imdct .. | .window | .overlap => False

/-- Check 4: the column "legal when" of the table. -/
def legal (s : State) : Instr → Prop
  | .nop => True
  | .config .. => s.setupState = .notLoaded
  | .cbBuild _ | .sealSetup => s.setupState = .notLoaded ∧ s.cfgDone = true
  | .fail _ => s.decState = .decoding ∨ s.setupState = .notLoaded
  | .decBegin _ => s.setupState = .loaded
  | .bind => s.decState = .decoding
  | .rdbits _ | .hdec _ | .vdec _ => s.decState = .decoding ∧ s.bound = true
  | .imdct .. => s.decState = .decoding ∧ s.seq = .none
  | .window => s.decState = .decoding ∧ s.seq = .imdctDone
  | .overlap => s.decState = .decoding ∧ s.seq = .windowDone

/-- Check 5: the column "PARAM when" of the table. -/
def badParam (s : State) : Instr → Prop
  | .cbBuild c => s.cfgCbm1.toNat + 1 ≤ c
  | .decBegin _ => s.params.pcmBytes < s.sampleCount.toNat
  | .bind => s.params.pktBytes < s.pktBase.toNat + s.pktLen.toNat
  | .rdbits n => 32 < n
  | .nop | .config .. | .sealSetup | .fail _ | .hdec _ | .vdec _ | .imdct .. | .window | .overlap => False

/-! ## The bit reader and the prefix walk (R100, R129) -/

/-- Bit j of the bound packet is b (R100). -/
def BitIs (s : State) (j : Nat) (b : Bool) : Prop :=
  ∃ x, s.readByte .pkt (s.lbase.toNat + j / 8) = some x ∧ x.getLsbD (j % 8) = b

/-- The next bits of the packet, from BITPOS on, are d. -/
def Spells (s : State) (d : Codeword) : Prop :=
  s.bitPos.toNat + d.length ≤ 8 * s.llen.toNat ∧ ∀ k (h : k < d.length), BitIs s (s.bitPos.toNat + k) d[k]

/-- c is the codeword of some entry. -/
def IsCode (codes : List (Option Codeword)) (c : Codeword) : Prop := some c ∈ codes

/-- c is no codeword, and a proper prefix of one. -/
def Undecided (codes : List (Option Codeword)) (c : Codeword) : Prop :=
  ¬IsCode codes c ∧ ∃ d, IsCode codes d ∧ c <+: d ∧ c.length < d.length

/-- No codeword is a prefix of another entry's (R131). -/
def PrefixFree (codes : List (Option Codeword)) : Prop :=
  ∀ (e e' : Nat) (c c' : Codeword), e ≠ e' → codes[e]? = some (some c) → codes[e']? = some (some c') → ¬c <+: c'

/-! ## Codebooks (R120-R127) -/

/-- The Kraft sum of R123, over the used entries. -/
def kraft (lens : List Nat) : ℚ := ((lens.filter fun l => decide (0 < l)).map fun l => (1 / 2 : ℚ) ^ l).sum

/-- The acceptance test of R123. -/
abbrev Full (lens : List Nat) : Prop := (lens.filter fun l => decide (0 < l)) = [1] ∨ kraft lens = 1

/-- A bit string as a binary number, the leftmost bit most significant (R16). -/
def number (c : Codeword) : Nat := c.foldl (fun n b => 2 * n + b.toNat) 0

/-- Entry e' has its turn before entry e: the smaller number (R122), or in the length-sorted code the smaller length, then the smaller
number (D9). -/
def Before (rule : CodeAssignment) (lens : List Nat) (e' e : Nat) : Prop :=
  match rule with
  | .inOrder => e' < e
  | .lengthSorted => lens.getD e' 0 < lens.getD e 0 ∨ (lens.getD e' 0 = lens.getD e 0 ∧ e' < e)

/-- The candidates of R122 for entry e of length l, given the codewords of the entries before it. -/
def Candidate (rule : CodeAssignment) (lens : List Nat) (codes : List (Option Codeword)) (e l : Nat) (c : Codeword) : Prop :=
  c.length = l ∧ ∀ (e' : Nat) (d : Codeword), Before rule lens e' e → codes[e']? = some (some d) → ¬c <+: d ∧ ¬d <+: c

/-- R122: what ASSIGN gives each entry. -/
def Assigned (rule : CodeAssignment) (lens : List Nat) (codes : List (Option Codeword)) : Prop :=
  codes.length = lens.length ∧ ∀ (e l : Nat), lens[e]? = some l →
    (l = 0 → codes[e]? = some none) ∧
    (l ≠ 0 → ∃ c, codes[e]? = some (some c) ∧ Candidate rule lens codes e l c ∧
      ∀ d, Candidate rule lens codes e l d → number c ≤ number d)

/-- R126, R127: v is the vector of entry e, for the lookup values lv and multiplicands `mult`. -/
def IsVector (K : Codebook) (mult : List Word) (lv e : Nat) (v : List F32) : Prop :=
  v.length = K.dims.toNat ∧ ∀ (i : Nat) (x : F32), v[i]? = some x → ∃ m d₁ d₂ d₃,
    mult[if K.lookupType = 1 then e / lv ^ i % lv else e * K.dims.toNat + i]? = some m ∧
    x = f32Add d₁ (f32Add d₂ (f32Mul d₃ (f32OfNat m.toNat) K.delta) K.minimum)
      (if K.seqFlag = true ∧ 0 < i then v.getD (i - 1) 0 else 0)

/-- CB_LEN[0..) of slot c holds these lengths. -/
def LengthsAre (s : State) (c : Nat) (lens : List Nat) : Prop :=
  ∀ (e l : Nat), lens[e]? = some l → l < 2 ^ 32 ∧ s.readWord .cbLen c e = some (BitVec.ofNat 32 l)

/-- CB_MULT[0..) of slot c holds these multiplicands. -/
def MultsAre (s : State) (c : Nat) (mults : List Word) : Prop :=
  ∀ (i : Nat) (m : Word), mults[i]? = some m → s.readWord .cbMult c i = some m

/-- lv of R121. -/
def lookupCount (K : Codebook) : Nat :=
  if K.lookupType = 1 then lookup1Values K.entries.toNat K.dims.toNat else K.entries.toNat * K.dims.toNat

/-- R121: the first FormatError that CB_BUILD raises once every code length is at most 32, in the order of its pseudocode. -/
def buildError (P : Params) (K : Codebook) (lens : List Nat) : Option FormatError :=
  let E := K.entries.toNat
  let D := K.dims.toNat
  if 1 < kraft lens then some .cbOverfull
  else if ¬Full lens then some .cbUnderfull
  else if K.lookupType = 0 then none
  else if K.lookupType = 3 then some .cbLookup
  else if D = 0 then some .cbLookup
  else if P.cbMaxDim < D then some .cbCapacity
  else if P.cbMaxVq < E * D then some .cbCapacity
  else if P.cbMaxMult < K.nmult.toNat then some .cbCapacity
  else if K.nmult.toNat < lookupCount K then some .cbLookup
  else none

/-! ## The reference pipeline (R156-R162): scratch arrays as functions of the index -/

/-- R162. -/
def IsTwmul (x y c s u v : F32) : Prop :=
  (∃ d₁ d₂ d₃, u = f32Sub d₁ (f32Mul d₂ x c) (f32Mul d₃ y s)) ∧ ∃ d₁ d₂ d₃, v = f32Add d₁ (f32Mul d₂ x s) (f32Mul d₃ y c)

/-- R156. -/
def Stage1 (n : Nat) (X U : Nat → F32) : Prop :=
  (∀ k, k < n / 2 → ∃ d, U k = f32Mul d 0x3F000000#32 (X k)) ∧
  ∀ k, n / 2 ≤ k → k < n → U k = f32Neg (U (n - 1 - k))

/-- R157, 2a. -/
def Stage2a (n : Nat) (A U V : Nat → F32) : Prop :=
  ∀ k, k < n / 4 → ∃ d₁ d₂,
    IsTwmul (f32Sub d₁ (U (4 * k)) (U (n - 1 - 4 * k))) (f32Sub d₂ (U (4 * k + 2)) (U (n - 3 - 4 * k)))
      (A (2 * k)) (A (2 * k + 1)) (V (n - 1 - 4 * k)) (V (n - 3 - 4 * k))

/-- R157, 2b. -/
def Stage2b (n : Nat) (A V W : Nat → F32) : Prop :=
  ∀ k, k < n / 8 →
    (∃ d, W (n / 2 + 3 + 4 * k) = f32Add d (V (n / 2 + 3 + 4 * k)) (V (4 * k + 3))) ∧
    (∃ d, W (n / 2 + 1 + 4 * k) = f32Add d (V (n / 2 + 1 + 4 * k)) (V (4 * k + 1))) ∧
    ∃ d₁ d₂,
      IsTwmul (f32Sub d₁ (V (n / 2 + 3 + 4 * k)) (V (4 * k + 3))) (f32Sub d₂ (V (n / 2 + 1 + 4 * k)) (V (4 * k + 1)))
        (A (n / 2 - 4 - 4 * k)) (A (n / 2 - 3 - 4 * k)) (W (4 * k + 3)) (W (4 * k + 1))

/-- R158: pass l, from W to U; s2 = 2q. -/
def Pass3 (n l : Nat) (A W U : Nat → F32) : Prop :=
  ∀ r q, r < n / 2 ^ (l + 4) → 2 * q < 2 ^ (l + 2) →
    let k0 := n / 2 ^ (l + 2)
    let a := n - 1 - k0 * (2 * q) - 4 * r
    let b := n - 3 - k0 * (2 * q) - 4 * r
    let c := n - 1 - k0 * (2 * q + 1) - 4 * r
    let d := n - 3 - k0 * (2 * q + 1) - 4 * r
    (∃ t, U a = f32Add t (W a) (W c)) ∧ (∃ t, U b = f32Add t (W b) (W d)) ∧
    ∃ t₁ t₂,
      IsTwmul (f32Sub t₁ (W a) (W c)) (f32Sub t₂ (W b) (W d)) (A (r * 2 ^ (l + 3))) (A (r * 2 ^ (l + 3) + 1)) (U c) (U d)

/-- R158: all m - 3 passes. -/
def Stage3 (m : Nat) (A W U : Nat → F32) : Prop :=
  ∃ P : Nat → Nat → F32, P 0 = W ∧ P (m - 3) = U ∧ ∀ l, l < m - 3 → Pass3 (2 ^ m) l A (P l) (P (l + 1))

/-- R159, with BR = BITREV(n, .). -/
def Stage4 (n : Nat) (BR : Nat → Nat) (U V : Nat → F32) : Prop :=
  ∀ i t, i < n / 8 → t ∈ [1, 3, 5, 7] →
    (i = BR i → V (8 * i + t) = U (8 * i + t)) ∧
    (i < BR i → V (8 * BR i + t) = U (8 * i + t) ∧ V (8 * i + t) = U (8 * BR i + t))

/-- R160, 5a. -/
def Stage5a (n : Nat) (V W : Nat → F32) : Prop := ∀ k, k < n / 2 → W k = V (2 * k + 1)

/-- R160, 5b. -/
def Stage5b (n : Nat) (W U : Nat → F32) : Prop :=
  ∀ k, k < n / 8 → U (n - 1 - 2 * k) = W (4 * k) ∧ U (n - 2 - 2 * k) = W (4 * k + 1) ∧
    U (n - n / 4 - 1 - 2 * k) = W (4 * k + 2) ∧ U (n - n / 4 - 2 - 2 * k) = W (4 * k + 3)

/-- R160, 5c. The values p, q, r, s and t1 to t4 of the rule exist once for each k. -/
def Stage5c (n : Nat) (C U V : Nat → F32) : Prop :=
  ∀ k, k < n / 8 → ∃ p q r s t1 t2 t3 t4,
    (∃ d, p = f32Add d (U (n / 2 + 2 * k)) (U (n - 2 - 2 * k))) ∧
    (∃ d, q = f32Sub d (U (n / 2 + 2 * k)) (U (n - 2 - 2 * k))) ∧
    (∃ d, r = f32Add d (U (n / 2 + 1 + 2 * k)) (U (n - 1 - 2 * k))) ∧
    (∃ d, s = f32Sub d (U (n / 2 + 1 + 2 * k)) (U (n - 1 - 2 * k))) ∧
    (∃ d, t1 = f32Mul d (C (2 * k + 1)) q) ∧ (∃ d, t2 = f32Mul d (C (2 * k)) r) ∧
    (∃ d, t3 = f32Mul d (C (2 * k + 1)) r) ∧ (∃ d, t4 = f32Mul d (C (2 * k)) q) ∧
    (∃ d₁ d₂ d₃, V (n / 2 + 2 * k) = f32Div d₁ (f32Add d₂ (f32Add d₃ p t1) t2) 0x40000000#32) ∧
    (∃ d₁ d₂ d₃, V (n - 2 - 2 * k) = f32Div d₁ (f32Sub d₂ (f32Sub d₃ p t1) t2) 0x40000000#32) ∧
    (∃ d₁ d₂ d₃, V (n / 2 + 1 + 2 * k) = f32Div d₁ (f32Sub d₂ (f32Add d₃ s t3) t4) 0x40000000#32) ∧
    ∃ d₁ d₂ d₃, V (n - 1 - 2 * k) = f32Div d₁ (f32Sub d₂ (f32Add d₃ (f32Neg s) t3) t4) 0x40000000#32

/-- R161, 6a. -/
def Stage6a (n : Nat) (B V Y : Nat → F32) : Prop :=
  ∀ k, k < n / 4 →
    (∃ d₁ d₂ d₃, Y k = f32Add d₁ (f32Mul d₂ (V (n / 2 + 2 * k)) (B (2 * k))) (f32Mul d₃ (V (n / 2 + 1 + 2 * k)) (B (2 * k + 1)))) ∧
    ∃ d₁ d₂ d₃, Y (n / 2 - 1 - k) =
      f32Sub d₁ (f32Mul d₂ (V (n / 2 + 2 * k)) (B (2 * k + 1))) (f32Mul d₃ (V (n / 2 + 1 + 2 * k)) (B (2 * k)))

/-- R161, 6b. -/
def Stage6b (n : Nat) (Y out : Nat → F32) : Prop :=
  (∀ i, i < n / 4 → out i = Y (i + n / 4)) ∧
  (∀ i, n / 4 ≤ i → i < n - n / 4 → out i = f32Neg (Y (n - n / 4 - 1 - i))) ∧
  ∀ i, n - n / 4 ≤ i → i < n → out i = f32Neg (Y (i - (n - n / 4)))

/-- R156-R161 in their order, for n = 2^m and the ROM of a core. -/
def Pipeline (rom : TrigRom) (m : Nat) (X out : Nat → F32) : Prop :=
  ∃ U₁ V₂ W₂ U₃ V₄ W₅ U₅ V₅ Y : Nat → F32,
    Stage1 (2 ^ m) X U₁ ∧ Stage2a (2 ^ m) (twA rom (2 ^ m)) U₁ V₂ ∧ Stage2b (2 ^ m) (twA rom (2 ^ m)) V₂ W₂ ∧
    Stage3 m (twA rom (2 ^ m)) W₂ U₃ ∧ Stage4 (2 ^ m) (bitRev (2 ^ m)) U₃ V₄ ∧ Stage5a (2 ^ m) V₄ W₅ ∧ Stage5b (2 ^ m) W₅ U₅ ∧
    Stage5c (2 ^ m) (twC rom (2 ^ m)) U₅ V₅ ∧ Stage6a (2 ^ m) (twB rom (2 ^ m)) V₅ Y ∧ Stage6b (2 ^ m) Y out

/-! ## IMDCT, WINDOW, OVERLAP -/

/-- R163, R164: the registers that IMDCT writes, for the block size n. -/
abbrev blockRegisters (n : Nat) (long prevlong nextlong zero : Bool) (s : State) : State :=
  let q := 2 ^ s.cfgE0.toNat / 4
  let left : Nat × Nat := if long = true ∧ prevlong = false then (n / 4 - q, n / 4 + q) else (0, n / 2)
  let right : Nat × Nat := if long = true ∧ nextlong = false then (3 * n / 4 - q, 3 * n / 4 + q) else (n / 2, n)
  { s with
    blkN := BitVec.ofNat 14 n, blkLong := long, blkPrevLong := prevlong, blkNextLong := nextlong, blkZero := zero
    lws := BitVec.ofNat 14 left.1, lwe := BitVec.ofNat 14 left.2, rws := BitVec.ofNat 14 right.1, rwe := BitVec.ofNat 14 right.2
    seq := .imdctDone }

/-- R182: what WINDOW makes of x = WORK[i] in the state s. -/
def IsWindowed (s : State) (i : Nat) (x y : F32) : Prop :=
  let lws := s.lws.toNat
  let lwe := s.lwe.toNat
  let rws := s.rws.toNat
  let rwe := s.rwe.toNat
  let lL := 2 * (lwe - lws)
  let rL := 2 * (rwe - rws)
  if i < lws ∨ rwe ≤ i then y = 0
  else if i < lwe then ∃ d, y = f32Mul d x (romW s.params.trigRom lL (i - lws))
  else if i < rws then y = x
  else ∃ d, y = f32Mul d x (romW s.params.trigRom rL (rL / 2 - 1 - (i - rws)))

/-- P of R184 for the sample k, of the words of PREV. -/
def pastTerm (s : State) (prev : Nat → F32) (k : Nat) : F32 := if s.prevN.toNat / 2 + k < s.prevREnd.toNat then prev k else 0

/-- C of R184 for the sample k, of the words of WORK. -/
def currentTerm (s : State) (work : Nat → F32) (k : Nat) : F32 :=
  let n : Int := s.blkN.toNat
  let ic : Int := k + n / 4 - (s.prevN.toNat : Int) / 4
  if 0 ≤ ic ∧ ic < n / 2 then work ic.toNat else 0

/-- emitted of R184, R186. -/
def emitted (s : State) : Nat :=
  min ((s.blkN.toNat + s.prevN.toNat) / 4) (s.sampleCount.toNat - s.pcmCursor.toNat)

/-- BUDGET after OVERLAP (R188). -/
def budgetAfter (s : State) : Word := if s.budgetEn = true then s.budget - BitVec.ofNat 32 (emitted s) else s.budget

/-- The last packet is done (R188). -/
abbrev lastPacket (s : State) : Prop := s.packetIndex + 1 = s.packetCount

/-- The budget ends the decode (R188): completion wins over it. -/
abbrev budgetEnds (s : State) : Prop := ¬lastPacket s ∧ s.budgetEn = true ∧ (budgetAfter s).toInt ≤ 0

/-- R184, R186, R187, R188: the registers after OVERLAP. -/
abbrev packetRegisters (s : State) : State :=
  { s with
    pcmCursor := BitVec.ofNat 32 (s.pcmCursor.toNat + emitted s)
    prevN := s.blkN, prevREnd := s.rwe, prevShort := !s.blkLong
    budget := budgetAfter s
    packetIndex := s.packetIndex + 1
    bound := false, seq := .none
    decState := if lastPacket s then .completed else if budgetEnds s then .cancelled else s.decState
    pcmValid := if lastPacket s then true else if budgetEnds s then false else s.pcmValid }

/-! ## Binary32 (R13) -/

/-- The value of a finite binary32 word. -/
def value (x : F32) : ℚ := f32Int x / 2 ^ 149

/-- The magnitude bits, as a signed number: it orders the values that are no NaNs, infinities included. -/
def order (x : F32) : Int := if f32Sign x then -(x.toNat % 2 ^ 31 : Nat) else (x.toNat % 2 ^ 31 : Nat)

/-- +0.0 or -0.0. -/
def IsZero (x : F32) : Prop := x = 0x00000000#32 ∨ x = 0x80000000#32

/-- y[i] of R155, in real arithmetic. -/
noncomputable def ideal (n : Nat) (X : Nat → F32) (i : Nat) : ℝ :=
  ∑ j ∈ Finset.range (n / 2), (value (X j) : ℝ) * Real.cos (Real.pi / (2 * n) * (2 * i + 1 + n / 2) * (2 * j + 1))

/-- w is a finite value within the bound of P-IMDCT (c) of y[i] (R165). -/
def NearIdeal (n : Nat) (X : Nat → F32) (i : Nat) (w : F32) : Prop :=
  f32IsFinite w = true ∧ |(value w : ℝ) - ideal n X i| ≤ 1 / 2 ^ 18 * ∑ j ∈ Finset.range (n / 2), |(value (X j) : ℝ)|

/-- P-IMDCT (R165). (c) is asked where the coefficients are finite and every y[i] rounds to a finite value, and below a sum of 2^-132 only of
an element that some binary32 value can meet it for (log entry 4). -/
def PImdct (n : Nat) (X out : Nat → F32) : Prop :=
  ((∀ j, j < n / 2 → IsZero (X j)) → ∀ i, i < n → IsZero (out i)) ∧
  ((∀ j, j < n / 2 → f32IsFinite (X j) = true) → (∀ i, i < n → |ideal n X i| < 2 ^ 128 - 2 ^ 103) → ∀ i, i < n →
    NearIdeal n X i (out i) ∨
    (∑ j ∈ Finset.range (n / 2), |(value (X j) : ℝ)| < 1 / 2 ^ 132 ∧ ∀ w, ¬NearIdeal n X i w))

end Sys2Proof.Spec

open Sys2Proof Sys2Proof.Machine

/-! ## Encodings -/

/-- Every well-formed command survives encoding and decoding (R80-R88, R91, R96). -/
def Obligations.DecodeOfEncode : Prop := ∀ i : Instr, WellFormed i → decode (encode i) = .ok i

/-- A word decodes to a command only if it is the encoding of that command and the command is well formed (R90, R91). -/
def Obligations.OnlyEncodingsDecode : Prop := ∀ (w : Word) (i : Instr), decode w = .ok i → WellFormed i ∧ encode i = w

/-- The words of R96's table and its examples, one for each command. -/
def Obligations.SpecWordsDecode : Prop :=
  decode 0x00000000#32 = .ok .nop ∧ decode 0x01000086#32 = .ok (.config 6 8 0) ∧ decode 0x020000FF#32 = .ok (.cbBuild 255) ∧
  decode 0x03000000#32 = .ok .sealSetup ∧ decode 0x04000001#32 = .ok (.fail 1) ∧ decode 0x10000001#32 = .ok (.decBegin true) ∧
  decode 0x11000000#32 = .ok .bind ∧ decode 0x12000020#32 = .ok (.rdbits 32) ∧ decode 0x13000007#32 = .ok (.hdec 7) ∧
  decode 0x14000007#32 = .ok (.vdec 7) ∧ decode 0x20000005#32 = .ok (.imdct true false true false) ∧
  decode 0x21000000#32 = .ok .window ∧ decode 0x22000000#32 = .ok .overlap

/-- A reserved opcode and a reserved operand bit raise their command errors, and the command changes nothing else (R90, R91, R245); BUSY and
the draw counter end it (R24, log entry 5). -/
def Obligations.RejectedWords : Prop := ∀ (s : State) (op x : Nat), op < 256 → x < 2 ^ 24 → s.cmdWord = BitVec.ofNat 32 (op * 2 ^ 24 + x) →
  s.busy = true → (s.busyFor = 0 ∨ s.host = []) →
  ((∀ p ∈ Spec.usedBits, p.1 ≠ op) →
    step s = .next { Spec.cmdErrored .illegalOpcode s with busy := false, draws := s.draws + 1 }) ∧
  (∀ u, (op, u) ∈ Spec.usedBits → 2 ^ u ≤ x →
    step s = .next { Spec.cmdErrored .reservedBits s with busy := false, draws := s.draws + 1 })

/-! ## One step, the busy interlock and reset -/

/-- A step of a busy core whose command is due is the meaning of the decoded command word, after which BUSY is 0 (R24). The draw counter,
the host's events and the pace are the model's own (log entries 1, 5). -/
def Obligations.StepRunsDecoded : Prop := ∀ (s : State) (i : Instr), s.busy = true → (s.busyFor = 0 ∨ s.host = []) →
  decode s.cmdWord = .ok i →
  (∀ t, exec i s = .next t → step s = .next { t with busy := false, draws := t.draws + 1 }) ∧
  (∀ f, exec i s = .fault f → step s = .fault f)

/-- The CMD write, the read of CMD, the two accesses that BUSY = 1 allows, and the hazard of every other access (R24, R66; U5: a fault).
`busyFor`, `latency` and `host` are the model's own (log entry 1). -/
def Obligations.BusyInterlock : Prop := ∀ (s : State) (w : Word) (n : Nat) (rest : List HostEvent),
  (s.busy = false → s.host = .write 0x000008#24 w :: rest →
    step s = .next { s with
      host := rest, busy := true, cmdWord := w, busyFor := s.latency.headD 0, latency := s.latency.tail }) ∧
  (s.busy = false → s.host = .read 0x000008#24 :: rest → step s = .next { s with host := rest, busOut := 0 }) ∧
  (s.busy = true → s.busyFor = n + 1 → s.host = .write 0x000008#24 w :: rest →
    step s = .next { s with
      host := rest, busyFor := n, cmdErr := true, cmdCode := some .busy, errCmd := w }) ∧
  (s.busy = true → s.busyFor = n + 1 → s.host = .read 0x000004#24 :: rest →
    step s = .next { s with host := rest, busyFor := n, busOut := statusWord s }) ∧
  (s.busy = true → s.busyFor = n + 1 → ∀ a : BusAddr,
    (a ≠ 0x000008#24 → s.host = .write a w :: rest → step s = .fault .busyAccess) ∧
    (a ≠ 0x000004#24 → s.host = .read a :: rest → step s = .fault .busyAccess))

/-- The reset value of every register, codebook slot and hidden register (R50, R270). -/
def Obligations.ResetState : Prop :=
  (∀ r : Reg, readReg State.reset r = if r = .id then 0x56444331#32 else 0) ∧
  (∀ c, c < 256 → State.reset.book c =
    { entries := 0, dims := 0, lookupType := 0, seqFlag := false, minimum := 0, delta := 0, nmult := 0, built := false, code := []
      lookupValues := 0, vq := [] }) ∧
  State.reset.lbase = 0 ∧ State.reset.llen = 0 ∧ State.reset.busy = false ∧ ∀ k, State.reset.mem.read k = none

/-- Reset takes effect at once, also while a command runs (R270). The parameters (R7, R10) stay. What the host does next, the pace of the core,
the word on the bus and the draw counter are the model's own (log entries 1, 5, 16). -/
def Obligations.ResetAbandons : Prop := ∀ (s : State) (rest : List HostEvent), s.host = .reset :: rest → (s.busy = true → s.busyFor ≠ 0) →
  step s = .next { State.reset with params := s.params, host := rest, latency := s.latency, busOut := s.busOut, draws := s.draws + 1 }

/-! ## Host accesses -/

/-- The word that a host read of each register but STATUS and CMD returns: the constant of ID (R22), the fields at their places, and 0 in
every reserved bit (R25-R39, R41). -/
def Obligations.RegisterReads : Prop := ∀ s : State,
  (let v := fun (off : Nat) => (hostRead (BitVec.ofNat 24 off) s).busOut
   let K := s.book s.cbSel.toNat
   v 0x000 = 0x56444331#32 ∧ v 0x00C = s.result ∧ v 0x010 = s.errCmd ∧ v 0x014 = s.errPos ∧
   (v 0x018).toNat = s.cfgE0.toNat + s.cfgE1.toNat * 2 ^ 4 + s.cfgCbm1.toNat * 2 ^ 8 ∧ v 0x01C = s.pktBase ∧ v 0x020 = s.pktLen ∧
   v 0x024 = s.bitPos ∧ v 0x028 = s.sampleCount ∧ v 0x02C = s.packetCount ∧ v 0x030 = s.budget ∧ v 0x034 = s.pcmCursor ∧
   v 0x038 = s.packetIndex ∧ (v 0x03C).toNat = s.prevN.toNat + s.prevREnd.toNat * 2 ^ 14 + s.prevShort.toNat * 2 ^ 28 ∧
   (v 0x040).toNat = s.blkN.toNat + s.blkLong.toNat * 2 ^ 16 + s.blkPrevLong.toNat * 2 ^ 17 + s.blkNextLong.toNat * 2 ^ 18 +
     s.blkZero.toNat * 2 ^ 19 ∧
   (v 0x044).toNat = s.lws.toNat + s.lwe.toNat * 2 ^ 16 ∧ (v 0x048).toNat = s.rws.toNat + s.rwe.toNat * 2 ^ 16 ∧ v 0x04C = s.vdim ∧
   (v 0x050).toNat = s.cbSel.toNat ∧ v 0x054 = K.entries ∧ v 0x058 = K.dims ∧
   (v 0x05C).toNat = K.lookupType.toNat + K.seqFlag.toNat * 2 ^ 2 ∧ v 0x060 = K.minimum ∧ v 0x064 = K.delta ∧ v 0x068 = K.nmult ∧
   (v 0x06C).toNat = K.built.toNat ∧ v 0x070 = K.lookupValues)

/-- The fields of STATUS, and what a write to it clears (R23). -/
def Obligations.StatusRegister : Prop := ∀ (s : State) (w : Word),
  (let v := (hostRead 0x000004#24 s).busOut
   v.getLsbD 0 = s.busy ∧ v.getLsbD 1 = decide (s.setupState = .loaded) ∧
   v.extractLsb' 2 2 = (match s.setupState with | .notLoaded => 0 | .loaded => 1 | .failed => 2) ∧ v.getLsbD 4 = s.cfgDone ∧
   v.extractLsb' 5 3 = (match s.decState with | .idle => 0 | .decoding => 1 | .completed => 2 | .cancelled => 3 | .failed => 4) ∧
   v.getLsbD 8 = s.pcmValid ∧ v.getLsbD 9 = s.cmdErr ∧ v.getLsbD 10 = s.ignored ∧ v.getLsbD 11 = s.bound ∧
   v.extractLsb' 12 2 = (match s.seq with | .none => 0 | .imdctDone => 1 | .windowDone => 2) ∧ v.getLsbD 14 = s.budgetEn ∧
   v.getLsbD 15 = false ∧ (v.extractLsb' 16 8).toNat = Spec.formatCode s.fmtCode ∧
   (v.extractLsb' 24 8).toNat = Spec.commandCode s.cmdCode) ∧
  hostWrite 0x000004#24 w s = { s with
    cmdErr := s.cmdErr && !w.getLsbD 9
    cmdCode := if w.getLsbD 9 = true then none else s.cmdCode
    ignored := s.ignored && !w.getLsbD 10 }

/-- What a write to each read/write register does (R29-R32, R39). -/
def Obligations.RegisterWrites : Prop := ∀ (s : State) (w : Word),
  hostWrite 0x00001C#24 w s = { s with pktBase := w } ∧ hostWrite 0x000020#24 w s = { s with pktLen := w } ∧
  hostWrite 0x000030#24 w s = { s with budget := w } ∧ hostWrite 0x000050#24 w s = { s with cbSel := w.extractLsb' 0 8 } ∧
  (s.decState = .decoding → hostWrite 0x000028#24 w s = s ∧ hostWrite 0x00002C#24 w s = s) ∧
  (s.decState ≠ .decoding →
    hostWrite 0x000028#24 w s = { s with sampleCount := w } ∧ hostWrite 0x00002C#24 w s = { s with packetCount := w })

/-- R49. -/
def Obligations.ReadOnlyWritesIgnored : Prop := ∀ (s : State) (w : Word),
  (∀ off ∈ [0x000, 0x00C, 0x010, 0x014, 0x018, 0x024, 0x034, 0x038, 0x03C, 0x040, 0x044, 0x048, 0x04C, 0x06C, 0x070],
    hostWrite (BitVec.ofNat 24 off) w s = s) ∧
  (s.params.Legal → ∀ r ∈ [Region.vout, .work, .prev, .pcm], ∀ i, 4 * i < Spec.size s.params r → hostWrite (Spec.at_ r (4 * i)) w s = s)

/-- R69, with the addresses of R64, R65 and R68, the capacities being those of the core (R7, log entry 2); and no other read is a bus error or
changes the core (R67). -/
def Obligations.BusErrors : Prop := ∀ (s : State) (a : BusAddr) (w : Word),
  (Spec.badAddress s.params a.toNat →
    hostWrite a w s = { s with cmdErr := true, cmdCode := some .bus } ∧
    hostRead a s = { s with cmdErr := true, cmdCode := some .bus, busOut := 0 }) ∧
  (¬Spec.badAddress s.params a.toNat → hostRead a s = { s with busOut := (hostRead a s).busOut })

/-- R70, for the six descriptor registers (R39) and the two codebook windows (R45); CB_SEL itself is written in every state. -/
def Obligations.SetupTableWrites : Prop := ∀ (s : State) (w : Word), s.params.Legal →
  (s.setupState = .notLoaded →
    (let c := s.cbSel.toNat
     let K := { s.book c with built := false, lookupValues := 0 }
     hostWrite 0x000054#24 w s = s.setBook c { K with entries := w } ∧ hostWrite 0x000058#24 w s = s.setBook c { K with dims := w } ∧
     hostWrite 0x00005C#24 w s = s.setBook c { K with lookupType := w.extractLsb' 0 2, seqFlag := w.getLsbD 2 } ∧
     hostWrite 0x000060#24 w s = s.setBook c { K with minimum := w } ∧ hostWrite 0x000064#24 w s = s.setBook c { K with delta := w } ∧
     hostWrite 0x000068#24 w s = s.setBook c { K with nmult := w } ∧
     ∀ r ∈ [Region.cbLen, .cbMult], ∀ i, 4 * i < Spec.size s.params r → ∃ t, hostWrite (Spec.at_ r (4 * i)) w s = t ∧
       t = { s.setBook c K with mem := t.mem } ∧
       t.readWord r c i = some w ∧ (hostRead (Spec.at_ r (4 * i)) t).busOut = w ∧
       ∀ k, ¬(regionKey r c (4 * i) ≤ k ∧ k < regionKey r c (4 * i) + 4) → t.mem.read k = s.mem.read k)) ∧
  (s.setupState ≠ .notLoaded → ∀ a i, (a ∈ [0x000054#24, 0x000058#24, 0x00005C#24, 0x000060#24, 0x000064#24, 0x000068#24] ∨
      ∃ r ∈ [Region.cbLen, .cbMult], 4 * i < Spec.size s.params r ∧ a = Spec.at_ r (4 * i)) →
    hostWrite a w s = { s with ignored := true }) ∧
  hostWrite 0x000050#24 w s = { s with cbSel := w.extractLsb' 0 8 }

/-- R60: PKT and PCM as words. -/
def Obligations.ByteRamWords : Prop := ∀ (s : State) (i : Nat), s.params.Legal →
  (4 * i < s.params.pktBytes → ∀ w, ∃ t, hostWrite (Spec.at_ .pkt (4 * i)) w s = t ∧ t = { s with mem := t.mem } ∧
    (∀ j, j < 4 → t.readByte .pkt (4 * i + j) = some (w.extractLsb' (8 * j) 8)) ∧
    ∀ k, ¬Spec.inRange .pkt (4 * i) 4 k → t.mem.read k = s.mem.read k) ∧
  ∀ r ∈ [Region.pkt, .pcm], 4 * i < Spec.size s.params r → ∀ j b, j < 4 → s.readByte r (4 * i + j) = some b →
    ((hostRead (Spec.at_ r (4 * i)) s).busOut).extractLsb' (8 * j) 8 = b

/-- R61: the words of the binary32 regions are kept bit for bit. -/
def Obligations.FloatWordsKept : Prop := ∀ (s : State) (i : Nat), s.params.Legal →
  (i < 4096 → ∀ w, ∃ t, hostWrite (Spec.at_ .coef (4 * i)) w s = t ∧ t = { s with mem := t.mem } ∧ t.readWord .coef 0 i = some w ∧
    ∀ k, ¬Spec.inRange .coef (4 * i) 4 k → t.mem.read k = s.mem.read k) ∧
  ∀ r ∈ [Region.vout, .coef, .work, .prev], 4 * i < Spec.size s.params r → ∀ w, s.readWord r 0 i = some w →
    (hostRead (Spec.at_ r (4 * i)) s).busOut = w

/-! ## Legality and control commands -/

/-- R246, checks 3 to 5 with their order; checks 1 and 2 are `RejectedWords`. PCM_BYTES and PKT_BYTES are the capacities of the core, which R7
leaves open (log entry 2). -/
def Obligations.LegalityTable : Prop := ∀ (s : State) (i : Instr),
  (Spec.isSetup i → s.setupState = .loaded → exec i s = .next { s with ignored := true }) ∧
  ((Spec.isSetup i → s.setupState ≠ .loaded) → ¬Spec.legal s i → exec i s = .next (Spec.cmdErrored .state s)) ∧
  (Spec.legal s i → Spec.badParam s i → exec i s = .next (Spec.cmdErrored .param s))

/-- R211: CONFIG while setup is NOT_LOADED. -/
def Obligations.ConfigResult : Prop := ∀ (s : State) (e0 e1 cbm1 : Nat), WellFormed (.config e0 e1 cbm1) → s.setupState = .notLoaded →
  (6 ≤ e0 → e1 ≤ 13 → e0 ≤ e1 → ∃ t, exec (.config e0 e1 cbm1) s = .next t ∧
    t = { s with cfgE0 := BitVec.ofNat 4 e0, cfgE1 := BitVec.ofNat 4 e1, cfgCbm1 := BitVec.ofNat 8 cbm1, cfgDone := true, books := t.books } ∧
    t.b0 = 2 ^ e0 ∧ t.b1 = 2 ^ e1 ∧ t.cbCount = cbm1 + 1 ∧
    ∀ c, c < 256 → t.book c = { s.book c with built := false, lookupValues := 0 }) ∧
  (e0 < 6 ∨ 13 < e1 ∨ e1 < e0 → exec (.config e0 e1 cbm1) s = .next (Spec.setupFailed .blockSize s))

/-- R210: NOP, in any state. R212: SEAL after CONFIG, and its command error STATE before CONFIG. -/
def Obligations.NopAndSealResult : Prop := ∀ s : State, exec .nop s = .next s ∧
  (s.setupState = .notLoaded → s.cfgDone = true → exec .sealSetup s = .next { s with setupState := .loaded }) ∧
  (s.setupState = .notLoaded → s.cfgDone = false → exec .sealSetup s = .next (Spec.cmdErrored .state s))

/-- R213: FAIL in each phase, and its command error elsewhere. -/
def Obligations.FailResult : Prop := ∀ (s : State) (cls : Nat), WellFormed (.fail cls) →
  (s.decState = .decoding → exec (.fail cls) s =
    .next (Spec.decodeFailed (if cls = 0 then .hostFormat else .hostUnsupported) 0 s)) ∧
  (s.decState ≠ .decoding → s.setupState = .notLoaded → exec (.fail cls) s =
    .next (Spec.setupFailed (if cls = 0 then .hostFormat else .hostUnsupported) s)) ∧
  (s.decState ≠ .decoding → s.setupState ≠ .notLoaded → exec (.fail cls) s = .next (Spec.cmdErrored .state s))

/-- R214: DEC_BEGIN under a loaded setup, PCM_BYTES being the capacity of the core (log entry 2). That the memory of a decode cancelled at
once is unspecified is R280 (log entry 11). -/
def Obligations.DecBeginResult : Prop := ∀ (s : State) (ben : Bool), s.params.Legal → s.setupState = .loaded →
  s.sampleCount.toNat ≤ s.params.pcmBytes →
  (let cancelled := s.packetCount ≠ 0 ∧ ben = true ∧ s.budget.toInt ≤ 0
   ∃ t, exec (.decBegin ben) s = .next t ∧
    t = { s with
      decState := if s.packetCount = 0 then .completed else if ben = true ∧ s.budget.toInt ≤ 0 then .cancelled else .decoding
      pcmValid := decide (s.packetCount = 0)
      fmtCode := none, pcmCursor := 0, packetIndex := 0
      prevN := BitVec.ofNat 14 (2 ^ s.cfgE0.toNat), prevREnd := BitVec.ofNat 14 (2 ^ s.cfgE0.toNat), prevShort := true
      seq := .none, bound := false, bitPos := 0, lbase := 0, llen := 0, result := 0, vdim := 0
      blkN := 0, blkLong := false, blkPrevLong := false, blkNextLong := false, blkZero := false
      lws := 0, lwe := 0, rws := 0, rwe := 0, budgetEn := ben, mem := t.mem } ∧
    (¬cancelled → (∀ a, a < s.sampleCount.toNat → t.readByte .pcm a = some 0) ∧ (∀ j, j < 4096 → t.readWord .prev 0 j = some 0) ∧
      ∀ k, ¬Spec.inRange .pcm 0 s.sampleCount.toNat k → ¬Spec.inRange .prev 0 0x4000 k → t.mem.read k = s.mem.read k) ∧
    (cancelled → ∀ k, (Spec.inRange .pcm 0 s.params.pcmBytes k ∨ Spec.inRange .prev 0 0x4000 k → t.mem.read k = none) ∧
      (¬Spec.inRange .pcm 0 s.params.pcmBytes k → ¬Spec.inRange .prev 0 0x4000 k → t.mem.read k = s.mem.read k)))

/-! ## The bit reader -/

/-- R102: BIND. PKT_BYTES is the capacity of the core, which R7 leaves open (log entry 2). -/
def Obligations.BindResult : Prop := ∀ s : State,
  (s.decState ≠ .decoding → exec .bind s = .next (Spec.cmdErrored .state s)) ∧
  (s.decState = .decoding → s.params.pktBytes < s.pktBase.toNat + s.pktLen.toNat → exec .bind s = .next (Spec.cmdErrored .param s)) ∧
  (s.decState = .decoding → s.pktBase.toNat + s.pktLen.toNat ≤ s.params.pktBytes →
    exec .bind s = .next { s with lbase := s.pktBase, llen := s.pktLen, bitPos := 0, bound := true })

/-- R101, R103: RDBITS. -/
def Obligations.RdbitsResult : Prop := ∀ (s : State) (n : Nat),
  (s.decState ≠ .decoding ∨ s.bound = false → exec (.rdbits n) s = .next (Spec.cmdErrored .state s)) ∧
  (s.decState = .decoding → s.bound = true → 32 < n → exec (.rdbits n) s = .next (Spec.cmdErrored .param s)) ∧
  (s.decState = .decoding → s.bound = true → n ≤ 32 → 8 * s.llen.toNat < s.bitPos.toNat + n →
    exec (.rdbits n) s = .next (Spec.decodeFailed .overrun s.bitPos s)) ∧
  (s.decState = .decoding → s.bound = true → n ≤ 32 → s.bitPos.toNat + n ≤ 8 * s.llen.toNat →
    ∀ b : Nat → Bool, (∀ k, k < n → Spec.BitIs s (s.bitPos.toNat + k) (b k)) →
    exec (.rdbits n) s = .next { s with
      result := BitVec.ofNat 32 (∑ k ∈ Finset.range n, (b k).toNat * 2 ^ k)
      bitPos := BitVec.ofNat 32 (s.bitPos.toNat + n) })

/-- R104. -/
def Obligations.SplitReads : Prop := ∀ (s t₁ t₂ : State) (a b : Nat), Inv s → s.decState = .decoding → s.bound = true → a + b ≤ 32 →
  exec (.rdbits a) s = .next t₁ → exec (.rdbits b) t₁ = .next t₂ → t₂.decState = .decoding →
  ∃ u, exec (.rdbits (a + b)) s = .next u ∧ u.bitPos = t₂.bitPos ∧ u.result.toNat = t₁.result.toNat + t₂.result.toNat * 2 ^ a

/-! ## The Huffman decoder -/

/-- R128, R129: HDEC finds the entry whose codeword comes next in the packet. -/
def Obligations.HdecResult : Prop := ∀ (s : State) (cb e : Nat) (c : Codeword), s.decState = .decoding → s.bound = true →
  cb < s.cfgCbm1.toNat + 1 → (s.book cb).built = true → Spec.PrefixFree (s.book cb).code → (s.book cb).code[e]? = some (some c) →
  c ≠ [] → Spec.Spells s c →
  exec (.hdec cb) s = .next { s with
    bitPos := BitVec.ofNat 32 (s.bitPos.toNat + c.length), result := BitVec.ofNat 32 e }

/-- R130: VDEC, in addition, writes the entry's vector to VOUT and nothing else to memory. -/
def Obligations.VdecResult : Prop := ∀ (s : State) (cb e : Nat) (c : Codeword) (v : List F32), s.decState = .decoding → s.bound = true →
  cb < s.cfgCbm1.toNat + 1 → (s.book cb).built = true → (s.book cb).lookupType ≠ 0 → Spec.PrefixFree (s.book cb).code →
  (s.book cb).code[e]? = some (some c) → c ≠ [] → Spec.Spells s c → (s.book cb).vq[e]? = some v →
  v.length = (s.book cb).dims.toNat →
  ∃ t, exec (.vdec cb) s = .next t ∧
    t = { s with
      bitPos := BitVec.ofNat 32 (s.bitPos.toNat + c.length), result := BitVec.ofNat 32 e, vdim := (s.book cb).dims, mem := t.mem } ∧
    (∀ i x, v[i]? = some x → t.readWord .vout 0 i = some x) ∧
    ∀ k, ¬Spec.inRange .vout 0 (4 * v.length) k → t.mem.read k = s.mem.read k

/-- R128, R129, R130: the FormatErrors of HDEC and VDEC, with the bits that stay consumed. -/
def Obligations.DecodeErrors : Prop := ∀ (s : State) (cb : Nat) (i : Instr), s.decState = .decoding → s.bound = true →
  (i = .hdec cb ∨ i = .vdec cb) →
  (s.cfgCbm1.toNat + 1 ≤ cb ∨ (s.book cb).built = false → exec i s = .next (Spec.decodeFailed .cbRange s.bitPos s)) ∧
  (cb < s.cfgCbm1.toNat + 1 → (s.book cb).built = true →
    (i = .vdec cb → (s.book cb).lookupType = 0 → exec i s = .next (Spec.decodeFailed .noLookup s.bitPos s)) ∧
    ((i = .hdec cb ∨ (s.book cb).lookupType ≠ 0) → ∀ d : Codeword, Spec.Spells s d →
      (∀ k, 0 < k → k < d.length → Spec.Undecided (s.book cb).code (d.take k)) →
      (let pos := BitVec.ofNat 32 (s.bitPos.toNat + d.length)
       (d ≠ [] → ¬Spec.IsCode (s.book cb).code d → ¬Spec.Undecided (s.book cb).code d →
         exec i s = .next (Spec.decodeFailed .badCode pos { s with bitPos := pos })) ∧
       (s.bitPos.toNat + d.length = 8 * s.llen.toNat → (d ≠ [] → Spec.Undecided (s.book cb).code d) →
         exec i s = .next (Spec.decodeFailed .overrun pos { s with bitPos := pos })))))

/-! ## Building a codebook -/

/-- R122: ASSIGN gives each used entry the least candidate, in entry order or in the order of the length-sorted alternative, as
CODE_ASSIGNMENT says (R10); in entry order it stops at the first entry that has none. What the length-sorted alternative is, is the model's
choice (log entry 4). -/
def Obligations.AssignLeastCandidate : Prop := ∀ (rule : CodeAssignment) (lens : List Nat),
  ((assignCodes rule lens).2 = true → Spec.Assigned rule lens (assignCodes rule lens).1) ∧
  (rule = .inOrder → (assignCodes rule lens).2 = false → ∃ e l, lens[e]? = some l ∧ l ≠ 0 ∧
    Spec.Assigned rule (lens.take e) (assignCodes rule lens).1 ∧ ∀ c, ¬Spec.Candidate rule lens (assignCodes rule lens).1 e l c)

/-- R123: ASSIGN finds a candidate for every entry exactly when the Kraft sum is at most 1, so CB_OVERFULL is the sum above 1; by both rules
of CODE_ASSIGNMENT (log entry 4). -/
def Obligations.AssignSucceedsIffKraft : Prop := ∀ (rule : CodeAssignment) (lens : List Nat),
  (assignCodes rule lens).2 = true ↔ Spec.kraft lens ≤ 1

/-- R123: the integer test of CHECK_FULL is the exact one. -/
def Obligations.CheckFullIsKraft : Prop := ∀ lens : List Nat, (∀ l ∈ lens, l ≤ 32) → (checkFull lens = true ↔ Spec.Full lens)

/-- R125. -/
def Obligations.Lookup1Values : Prop :=
  (∀ E D : Nat, 1 ≤ D → (lookup1Values E D) ^ D ≤ E ∧ E < (lookup1Values E D + 1) ^ D) ∧
  lookup1Values 9 2 = 3 ∧ lookup1Values 10 2 = 3 ∧ lookup1Values 8 3 = 2 ∧ lookup1Values 81 4 = 3 ∧ lookup1Values 80 4 = 2 ∧
  lookup1Values 1 5 = 1 ∧ lookup1Values 5 1 = 5

/-- R131; (a) to (c) by both rules of CODE_ASSIGNMENT, (d) by the in-entry-order rule of R122, which it is about. What the
length-sorted rule is, is the model's choice (log entry 4). -/
def Obligations.BuildProperties : Prop := ∀ (rule : CodeAssignment) (lens : List Nat), (assignCodes rule lens).2 = true → Spec.Full lens →
  Spec.PrefixFree (assignCodes rule lens).1 ∧
  (Spec.kraft lens = 1 ∨ ((lens.filter fun l => decide (0 < l)).length = 1 ∧ Spec.kraft lens = 1 / 2)) ∧
  (Spec.kraft lens = 1 →
    (∀ f : Nat → Bool, ∃! e : Nat, ∃ c : Codeword, (assignCodes rule lens).1[e]? = some (some c) ∧ c = (List.range c.length).map f) ∧
    ∀ (K : Codebook) (s : State) (p : Nat), K.code = (assignCodes rule lens).1 → matchCode K s ≠ .badCode p) ∧
  (rule = .inOrder → ∀ (e : Nat) (lens' : List Nat), e < lens.length → lens'.take (e + 1) = lens.take (e + 1) →
    (assignCodes rule lens').1[e]? = (assignCodes rule lens).1[e]?)

/-- R121 for lookup type 0: CB_BUILD on lengths that fill a code (R122, R123). The codes of the length-sorted CODE_ASSIGNMENT are the model's
reading (log entry 4), and CB_MAX_ENTRIES is the capacity of the core (log entry 2). -/
def Obligations.CbBuildScalar : Prop := ∀ (s : State) (cb : Nat) (lens : List Nat), s.mem.wf → s.setupState = .notLoaded →
  s.cfgDone = true → cb < s.cfgCbm1.toNat + 1 → (s.book cb).entries.toNat = lens.length →
  lens.length ≤ s.params.cbMaxEntries → Spec.LengthsAre s cb lens → (∀ l ∈ lens, l ≤ 32) → Spec.Full lens → (s.book cb).lookupType = 0 →
  ∃ codes, Spec.Assigned s.params.codeAssignment lens codes ∧
    exec (.cbBuild cb) s = .next (s.setBook cb { s.book cb with built := true, lookupValues := 0, code := codes })

/-- R121, R126, R127 for the lookup types 1 and 2: CB_BUILD assigns the codewords as for type 0 (R122, R123) and also computes the vectors.
The codes of the length-sorted CODE_ASSIGNMENT are the model's reading (log entry 4), and the capacities are those of the core (log
entry 2). -/
def Obligations.CbBuildVectors : Prop := ∀ (s : State) (cb : Nat) (lens : List Nat) (mults : List Word), s.mem.wf →
  s.setupState = .notLoaded → s.cfgDone = true → cb < s.cfgCbm1.toNat + 1 → (s.book cb).entries.toNat = lens.length →
  lens.length ≤ s.params.cbMaxEntries → Spec.LengthsAre s cb lens → (∀ l ∈ lens, l ≤ 32) → Spec.buildError s.params (s.book cb) lens = none →
  (s.book cb).lookupType ≠ 0 →
  mults.length = Spec.lookupCount (s.book cb) → Spec.MultsAre s cb mults →
  ∃ codes vq, Spec.Assigned s.params.codeAssignment lens codes ∧ vq.length = lens.length ∧
    (∀ e v, vq[e]? = some v → Spec.IsVector (s.book cb) mults mults.length e v) ∧
    exec (.cbBuild cb) s = .next (s.setBook cb
      { s.book cb with built := true, lookupValues := BitVec.ofNat 32 mults.length, code := codes, vq := vq })

/-- R121, R243: the FormatErrors of CB_BUILD in their order: too many entries, the first length above 32, then those of the lengths and the
lookup tables. The capacities are those of the core, which R7 leaves open (log entry 2). What code[] holds then is not observable (R243). -/
def Obligations.CbBuildErrors : Prop := ∀ (s : State) (cb : Nat), s.mem.wf → s.setupState = .notLoaded → s.cfgDone = true →
  cb < s.cfgCbm1.toNat + 1 →
  (let failed := fun (f : FormatError) (codes : List (Option Codeword)) => Host.Outcome.next (φ := Fault) (ρ := Refusal)
     (Spec.setupFailed f (s.setBook cb { s.book cb with built := false, lookupValues := 0, code := codes }))
   (s.params.cbMaxEntries < (s.book cb).entries.toNat → ∃ codes, exec (.cbBuild cb) s = failed .cbCapacity codes) ∧
   ((s.book cb).entries.toNat ≤ s.params.cbMaxEntries →
    (∀ (e : Nat) (l : Word), e < (s.book cb).entries.toNat → (∀ e', e' < e → (s.readWord .cbLen cb e').isSome = true) →
      s.readWord .cbLen cb e = some l → 32 < l.toNat → ∃ codes, exec (.cbBuild cb) s = failed .cbLength codes) ∧
    ∀ (lens : List Nat) (f : FormatError), (s.book cb).entries.toNat = lens.length → Spec.LengthsAre s cb lens →
      (∀ l ∈ lens, l ≤ 32) → Spec.buildError s.params (s.book cb) lens = some f → ∃ codes, exec (.cbBuild cb) s = failed f codes))

/-- R132: under a loaded setup no command and no host write changes a codebook. -/
def Obligations.TablesImmutable : Prop := ∀ s t : State, Inv s → s.setupState = .loaded →
  ((∃ i, exec i s = .next t) ∨ ∃ a w, t = hostWrite a w s) →
  t.books = s.books ∧ ∀ r ∈ [Region.cbLen, .cbMult], ∀ c off, c < 256 → off < Spec.size s.params r →
    t.mem.read (regionKey r c off) = s.mem.read (regionKey r c off)

/-! ## IMDCT -/

/-- R163 with ZERO = 1. -/
def Obligations.ImdctZero : Prop := ∀ (s : State) (long prevlong nextlong : Bool), s.decState = .decoding → s.seq = .none →
  (let n := if long = true then 2 ^ s.cfgE1.toNat else 2 ^ s.cfgE0.toNat
   ∃ t, exec (.imdct long prevlong nextlong true) s = .next t ∧
    t = { Spec.blockRegisters n long prevlong nextlong true s with mem := t.mem } ∧
    (∀ i, i < n → t.readWord .work 0 i = some 0) ∧ ∀ k, ¬Spec.inRange .work 0 (4 * n) k → t.mem.read k = s.mem.read k)

/-- R163 with ZERO = 0: WORK is the reference pipeline (R156-R162) of COEF, or under a replaced IMDCT_IMPL that or some values that meet
P-IMDCT (R10, R165), which is asked where log entry 4 reads R165 to ask it. -/
def Obligations.ImdctTransform : Prop := ∀ (s : State) (long prevlong nextlong : Bool) (X : Nat → F32), Inv s → s.decState = .decoding →
  s.seq = .none →
  (let m := if long = true then s.cfgE1.toNat else s.cfgE0.toNat
   (∀ j, j < 2 ^ m / 2 → s.readWord .coef 0 j = some (X j)) →
   ∃ t out, exec (.imdct long prevlong nextlong false) s = .next t ∧
    t = { Spec.blockRegisters (2 ^ m) long prevlong nextlong false s with mem := t.mem } ∧
    (Spec.Pipeline s.params.trigRom m X out ∨ (s.params.imdctImpl = .replacement ∧ Spec.PImdct (2 ^ m) X out)) ∧
    (∀ i, i < 2 ^ m → t.readWord .work 0 i = some (out i)) ∧
    ∀ k, ¬Spec.inRange .work 0 (4 * 2 ^ m) k → t.mem.read k = s.mem.read k)

/-- R164: the window regions, and the slope lengths it derives. -/
def Obligations.GeometryRule : Prop := ∀ (s t : State) (long prevlong nextlong zero : Bool), Inv s → s.decState = .decoding →
  s.seq = .none → exec (.imdct long prevlong nextlong zero) s = .next t →
  (let n := if long = true then s.b1 else s.b0
   t.blkN.toNat = n ∧ t.blkLong = long ∧ t.blkPrevLong = prevlong ∧ t.blkNextLong = nextlong ∧ t.blkZero = zero ∧
   (if long = true ∧ prevlong = false then t.lws.toNat + s.b0 / 4 = n / 4 ∧ t.lwe.toNat = n / 4 + s.b0 / 4
     else t.lws.toNat = 0 ∧ t.lwe.toNat = n / 2) ∧
   (if long = true ∧ nextlong = false then t.rws.toNat + s.b0 / 4 = 3 * n / 4 ∧ t.rwe.toNat = 3 * n / 4 + s.b0 / 4
     else t.rws.toNat = n / 2 ∧ t.rwe.toNat = n) ∧
   2 * (t.lwe.toNat - t.lws.toNat) = (if long = true ∧ prevlong = false then s.b0 else n) ∧
   2 * (t.rwe.toNat - t.rws.toNat) = if long = true ∧ nextlong = false then s.b0 else n)

/-- R154. -/
def Obligations.BitReversal : Prop := (∀ m i : Nat, 6 ≤ m → m ≤ 13 → i < 2 ^ m / 8 →
    (∀ t, t < m - 3 → (bitRev (2 ^ m) i).testBit (m - 4 - t) = i.testBit t) ∧ bitRev (2 ^ m) i < 2 ^ m / 8 ∧
    bitRev (2 ^ m) (bitRev (2 ^ m) i) = i) ∧
  (List.range 8).map (bitRev 64) = [0, 4, 2, 6, 1, 5, 3, 7]

/-- R156, R157, R162: stages 1 and 2, at every loop index. -/
def Obligations.StagesOneAndTwo : Prop := ∀ (t : Draw) (m : Nat) (X A U V : Scratch), 6 ≤ m → m ≤ 13 →
  Spec.Stage1 (2 ^ m) (at' X) (at' (stage1 t (2 ^ m) X)) ∧
  Spec.Stage2a (2 ^ m) (at' A) (at' U) (at' (stage2a t (2 ^ m) A U)) ∧
  Spec.Stage2b (2 ^ m) (at' A) (at' V) (at' (stage2b t (2 ^ m) A V))

/-- R158, R162: the m - 3 passes of stage 3, at every loop index; R159: the swap of stage 4. -/
def Obligations.StagesThreeAndFour : Prop := ∀ (t : Draw) (m : Nat) (A W U : Scratch), 6 ≤ m → m ≤ 13 →
  Spec.Stage3 m (at' A) (at' W) (at' (stage3 t (2 ^ m) A W)) ∧
  Spec.Stage4 (2 ^ m) (bitRev (2 ^ m)) (at' U) (at' (stage4 (2 ^ m) U))

/-- R160, R161. -/
def Obligations.StagesFiveAndSix : Prop := ∀ (t : Draw) (m : Nat) (V W C U B Y : Scratch), 6 ≤ m → m ≤ 13 →
  Spec.Stage5a (2 ^ m) (at' V) (at' (stage5a (2 ^ m) V)) ∧ Spec.Stage5b (2 ^ m) (at' W) (at' (stage5b (2 ^ m) W)) ∧
  Spec.Stage5c (2 ^ m) (at' C) (at' U) (at' (stage5c t (2 ^ m) C U)) ∧
  Spec.Stage6a (2 ^ m) (at' B) (at' V) (at' (stage6a t (2 ^ m) B V)) ∧ Spec.Stage6b (2 ^ m) (at' Y) (at' (stage6b (2 ^ m) Y))

/-- R165 (b), for the transform of every core: zeros of either sign give zeros of either sign. -/
def Obligations.ZeroInZeroOut : Prop := ∀ (P : Params) (t : Draw) (m : Nat) (X : List F32), 6 ≤ m → m ≤ 13 → X.length = 2 ^ m / 2 →
  (∀ x ∈ X, Spec.IsZero x) → (imdctBlock P t (2 ^ m) X).length = 2 ^ m ∧ ∀ y ∈ imdctBlock P t (2 ^ m) X, Spec.IsZero y

/-- R151, R152, R153, R180: the default ROM within one unit of 2^-24, which is twice the error that rounding alone can make of a value up to
1 (the bound is the model's choice, log entry 3), and TW_A(N, 0) = +1.0 and TW_A(N, 1) = -0.0 in every ROM; a replaced ROM (R10, D19) within
2^-22, of finite values up to 1. -/
def Obligations.RomAccuracy : Prop := ∀ rom : TrigRom,
  (let bound : ℝ := if rom = .nearest then 1 / 2 ^ 24 else 1 / 2 ^ 22
   let near := fun (x : F32) (r : ℝ) => f32IsFinite x = true ∧ |(Spec.value x : ℝ)| ≤ 1 ∧ |(Spec.value x : ℝ) - r| ≤ bound
   (∀ m k : Nat, 6 ≤ m → m ≤ 13 →
    twA rom (2 ^ m) 0 = 0x3F800000#32 ∧ twA rom (2 ^ m) 1 = 0x80000000#32 ∧
    (k < 2 ^ m / 4 →
      near (twA rom (2 ^ m) (2 * k)) (Real.cos (4 * k * Real.pi / 2 ^ m)) ∧
      near (twA rom (2 ^ m) (2 * k + 1)) (-Real.sin (4 * k * Real.pi / 2 ^ m)) ∧
      near (twB rom (2 ^ m) (2 * k)) (Real.cos ((2 * k + 1) * Real.pi / (2 * 2 ^ m))) ∧
      near (twB rom (2 ^ m) (2 * k + 1)) (Real.sin ((2 * k + 1) * Real.pi / (2 * 2 ^ m)))) ∧
    (k < 2 ^ m / 8 →
      near (twC rom (2 ^ m) (2 * k)) (Real.cos (2 * (2 * k + 1) * Real.pi / 2 ^ m)) ∧
      near (twC rom (2 ^ m) (2 * k + 1)) (-Real.sin (2 * (2 * k + 1) * Real.pi / 2 ^ m)))) ∧
   ∀ m j : Nat, 6 ≤ m → m ≤ 13 → j < 2 ^ m / 2 →
    near (romW rom (2 ^ m) j) (Real.sin (Real.pi / 2 * Real.sin (Real.pi * (j + 1 / 2) / 2 ^ m) ^ 2)))

/-! ## WINDOW and OVERLAP -/

/-- R182: WINDOW after IMDCT. -/
def Obligations.WindowResult : Prop := ∀ s : State, Inv s → s.decState = .decoding → s.seq = .imdctDone →
  ∃ t, exec .window s = .next t ∧ t = { s with seq := .windowDone, mem := t.mem } ∧
    (∀ i, i < s.blkN.toNat → ∃ x y, s.readWord .work 0 i = some x ∧ t.readWord .work 0 i = some y ∧ Spec.IsWindowed s i x y) ∧
    ∀ k, ¬Spec.inRange .work 0 (4 * s.blkN.toNat) k → t.mem.read k = s.mem.read k

/-- R184-R188: OVERLAP after WINDOW. -/
def Obligations.OverlapResult : Prop := ∀ s : State, Inv s → s.decState = .decoding → s.seq = .windowDone →
  ∃ (t : State) (prev work out : Nat → F32), exec .overlap s = .next t ∧ t = { Spec.packetRegisters s with mem := t.mem } ∧
    (∀ j, j < s.prevREnd.toNat - s.prevN.toNat / 2 → s.readWord .prev 0 j = some (prev j)) ∧
    (∀ j, j < s.blkN.toNat → s.readWord .work 0 j = some (work j)) ∧
    (∀ k, k < (s.blkN.toNat + s.prevN.toNat) / 4 → ∃ d, out k = f32Add d (Spec.pastTerm s prev k) (Spec.currentTerm s work k)) ∧
    (¬Spec.budgetEnds s →
      (∀ k, k < Spec.emitted s → ∃ d, t.readByte .pcm (s.pcmCursor.toNat + k) = some (q8 d (out k))) ∧
      (∀ j, j < s.rwe.toNat - s.blkN.toNat / 2 → t.readWord .prev 0 j = some (work (s.blkN.toNat / 2 + j))) ∧
      ∀ k, ¬Spec.inRange .pcm s.pcmCursor.toNat (Spec.emitted s) k →
        ¬Spec.inRange .prev 0 (4 * (s.rwe.toNat - s.blkN.toNat / 2)) k → t.mem.read k = s.mem.read k) ∧
    (Spec.budgetEnds s → ∀ k, (Spec.inRange .pcm 0 s.params.pcmBytes k ∨ Spec.inRange .prev 0 0x4000 k → t.mem.read k = none) ∧
      (¬Spec.inRange .pcm 0 s.params.pcmBytes k → ¬Spec.inRange .prev 0 0x4000 k → t.mem.read k = s.mem.read k))

/-- R185: Q8 of a value that is no NaN after scaling, and the rule's sample values; of a NaN it is any byte (U4). -/
def Obligations.QuantiserRule : Prop := ∀ t : Draw,
  ((q8 t 0x00000000#32).toInt = 0 ∧ (q8 t 0x3F000000#32).toInt = 64 ∧ (q8 t 0x3F800000#32).toInt = 127 ∧
    (q8 t 0xBF800000#32).toInt = -128 ∧ (q8 t 0xBF7F0000#32).toInt = -127 ∧ (q8 t 0x3B7FFFDE#32).toInt = 1) ∧
  ∀ f : F32, ∃ d₁ d₂,
  (let v := f32Add d₁ 0x43000000#32 (f32Mul d₂ 0x43000000#32 f)
   (f32IsFinite v = true → (q8 t f).toInt = min (max ⌊Spec.value v + 1 / 2⌋ 0) 255 - 128) ∧
   (f32IsInf v = true → (q8 t f).toInt = if f32Sign v = true then -128 else 127))

/-- R189 (b). -/
def Obligations.QuantiserIdempotent : Prop := ∀ (t : Draw) (f : F32) (x : Int), -128 ≤ x → x ≤ 127 → f32IsFinite f = true →
  Spec.value f = x / 128 → (q8 t f).toInt = x

/-- R189 (c). -/
def Obligations.QuantiserMonotone : Prop := ∀ (t u : Draw) (f g : F32), f32IsNaN f = false → f32IsNaN g = false →
  Spec.order f ≤ Spec.order g → (q8 t f).toInt ≤ (q8 u g).toInt

/-- R189 (d), one packet's share of it: a block of zeros stays zeros under WINDOW, and OVERLAP of zeros emits bytes 0 and keeps PREV zero. -/
def Obligations.SilenceStaysSilent : Prop := ∀ s t : State, Inv s → s.decState = .decoding →
  (∀ i x, i < s.blkN.toNat → s.readWord .work 0 i = some x → Spec.IsZero x) →
  (s.seq = .imdctDone → exec .window s = .next t →
    ∀ i x, i < s.blkN.toNat → t.readWord .work 0 i = some x → Spec.IsZero x) ∧
  (s.seq = .windowDone → (∀ j x, j < 4096 → s.readWord .prev 0 j = some x → Spec.IsZero x) → exec .overlap s = .next t →
    t.decState ≠ .cancelled →
    (∀ k, k < Spec.emitted s → t.readByte .pcm (s.pcmCursor.toNat + k) = some 0) ∧
    ∀ j x, j < 4096 → t.readWord .prev 0 j = some x → Spec.IsZero x)

/-! ## Binary32 arithmetic -/

/-- RNE32 of R13, on magnitudes in units of 2^-149: the result is a finite value nearest to n/d, even where two are nearest; from half a
unit in the last place above the largest finite value on it is the infinity. -/
def Obligations.RoundingIsNearest : Prop := ∀ n d : Nat, 0 < d →
  (let bits := rneUnits n d
   (n < (2 ^ 25 - 1) * 2 ^ 252 * d → bits < 0x7F800000 ∧ ∀ b, b < 0x7F800000 →
     (let err := fun (x : Nat) => |(f32Units (BitVec.ofNat 32 x) * d : Int) - n|
      err bits ≤ err b ∧ (err bits = err b → b ≠ bits → bits % 2 = 0))) ∧
   ((2 ^ 25 - 1) * 2 ^ 252 * d ≤ n → bits = 0x7F800000))

/-- R13: addition and multiplication of finite values round the exact sum and product once; an exact zero sum is +0.0 unless both terms
are -0.0. R13 takes the sign of a zero sum from IEEE 754 without writing it out (log entry 6). -/
def Obligations.FiniteArithmetic : Prop := ∀ (t : Draw) (x y : F32), f32IsFinite x = true → f32IsFinite y = true →
  (f32Int x + f32Int y ≠ 0 →
    f32Add t x y = f32Round (decide (f32Int x + f32Int y < 0)) (f32Int x + f32Int y).natAbs 1) ∧
  (f32Int x + f32Int y = 0 → f32Add t x y = if x = 0x80000000#32 ∧ y = 0x80000000#32 then 0x80000000#32 else 0) ∧
  f32Mul t x y = f32Round (f32Sign x ^^ f32Sign y) (f32Int x * f32Int y).natAbs (2 ^ 149)

/-! ## The whole machine -/

/-- The invariant holds after reset. -/
def Obligations.InvReset : Prop := Inv State.reset

/-- Every step keeps the invariant, whatever the host does; and every step keeps the parameters (R7, R10). -/
def Obligations.InvPreserved : Prop := ∀ s t : State, step s = .next t → (Inv s → Inv t) ∧ t.params = s.params

/-- R274, R78: the core stops only on RAM that the host must write before use, or on an access that the BUSY hazard forbids; no step is
refused. -/
def Obligations.FaultsAreTheHosts : Prop := ∀ s : State,
  (∀ r, step s ≠ .refused r) ∧
  ∀ f, Inv s → step s = .fault f →
    (f = .busyAccess ∧ s.busy = true) ∨ ∃ r ∈ [Region.pkt, .cbLen, .cbMult, .coef], f = .unwrittenRead r

/-- R275: a host program that waits after each command never meets the BUSY hazard, whatever the pace of the core. -/
def Obligations.BusyRuleIsSafe : Prop := ∀ (s : State) (k : Nat), s.busy = false → keepsBusyRule s.host = true →
  Host.Core.run core k s ≠ .fault .busyAccess

/-- R243, R271: once setup is LOADED or FAILED, only reset changes that. R244: a failed decode is left only by DEC_BEGIN (or reset). -/
def Obligations.LeavingFailure : Prop := ∀ s t : State, (∀ rest, s.host ≠ .reset :: rest) → step s = .next t →
  (s.setupState ≠ .notLoaded → t.setupState = s.setupState) ∧
  (s.decState = .failed → t.decState = .failed ∨ (s.busy = true ∧ ∃ ben, decode s.cmdWord = .ok (.decBegin ben)))

/-- R33: only BIND, DEC_BEGIN, RDBITS, HDEC and VDEC change BITPOS; R34: only OVERLAP and DEC_BEGIN change PCM_CURSOR, and OVERLAP never
moves it back nor beyond SAMPLE_COUNT. -/
def Obligations.CursorWriters : Prop := ∀ (s t : State) (i : Instr), Inv s → exec i s = .next t →
  (t.bitPos ≠ s.bitPos → i = .bind ∨ (∃ b, i = .decBegin b) ∨ (∃ n, i = .rdbits n) ∨ (∃ c, i = .hdec c) ∨ ∃ c, i = .vdec c) ∧
  (t.pcmCursor ≠ s.pcmCursor → (∃ b, i = .decBegin b) ∨
    (i = .overlap ∧ s.pcmCursor.toNat ≤ t.pcmCursor.toNat ∧ t.pcmCursor.toNat ≤ t.sampleCount.toNat))

/-- No command writes what only the host writes: its registers (R29-R31, R39), its fields of the codebook slots (R40), and the RAM regions
PKT, COEF, CB_LEN and CB_MULT (R43-R45); BUDGET changes only in OVERLAP (R32). -/
def Obligations.CommandsKeepHostData : Prop := ∀ (s t : State) (i : Instr), Inv s → exec i s = .next t →
  t.pktBase = s.pktBase ∧ t.pktLen = s.pktLen ∧ t.sampleCount = s.sampleCount ∧ t.packetCount = s.packetCount ∧ t.cbSel = s.cbSel ∧
  (t.budget ≠ s.budget → i = .overlap) ∧
  (∀ c, c < 256 → (t.book c).entries = (s.book c).entries ∧ (t.book c).dims = (s.book c).dims ∧
    (t.book c).lookupType = (s.book c).lookupType ∧ (t.book c).seqFlag = (s.book c).seqFlag ∧
    (t.book c).minimum = (s.book c).minimum ∧ (t.book c).delta = (s.book c).delta ∧ (t.book c).nmult = (s.book c).nmult) ∧
  ∀ r ∈ [Region.pkt, .coef, .cbLen, .cbMult], ∀ c off, c < 256 → off < Spec.size s.params r →
    t.mem.read (regionKey r c off) = s.mem.read (regionKey r c off)
end

