-- ==== Sys2Proof/Laws/Imdct.lean ====
section
/-!
SUPPORT. What the parameters of R10 leave of the ROM and of the transform, and that P-IMDCT can be met.
-/

namespace Sys2Proof.Machine

/-- A ROM entry is the default one, or in a replaced ROM the value offered for it, where the ROM may hold that (R10, D19). -/
theorem romEntry_cases (rom : TrigRom) (table : RomTable) (N i : Nat) (d : F32) : romEntry rom table N i d = d ∨
    (rom = .replacement ∧ romEntry rom table N i d = Config.romValue table N i ∧ romAdmits d (Config.romValue table N i) = true) := by
  cases rom with
  | nearest => exact .inl rfl
  | replacement =>
    simp only [romEntry]
    split
    · exact .inr ⟨trivial, rfl, ‹_›⟩
    · exact .inl rfl

/-- The transform of a core is the reference pipeline, or under a replaced IMDCT_IMPL some values that meet P-IMDCT (R10, R165). -/
theorem imdctBlock_cases (P : Params) (t : Draw) (n : Nat) (X : List F32) :
    imdctBlock P t n X = (imdctPipeline P.trigRom t n X.toArray).toList ∨
    (P.imdctImpl = .replacement ∧ PImdct n X (imdctBlock P t n X)) := by
  unfold imdctBlock
  split
  · exact .inl rfl
  · rename_i hp
    split
    · rename_i f _
      exact .inr ⟨hp, f.property n X⟩
    · exact .inl rfl

/-- A transform of a block of size n has n elements, by the reference pipeline and by every replacement. -/
theorem length_imdctBlock (P : Params) (t : Draw) (n : Nat) (X : List F32) : (imdctBlock P t n X).length = n := by
  rcases imdctBlock_cases P t n X with h | ⟨_, h⟩
  · simp [h, imdctPipeline, stage6b, table]
  · exact h.1

/-! ## P-IMDCT can be met (R165) -/

/-- The word of the value k x 2^e in units of 2^-149, with its sign. -/
theorem f32Int_of_parts {e k : Nat} (neg : Bool) (he : e ≤ 253) (hk : k < 2 ^ 24) (hn : 2 ^ 23 ≤ k ∨ e = 0) :
    ∃ w : F32, f32IsFinite w = true ∧ f32Int w = if neg then -(k * 2 ^ e : Int) else k * 2 ^ e := by
  have ht : ((if neg then 2 ^ 31 else 0) + e * 2 ^ 23 + k) < 2 ^ 32 := by split <;> omega
  refine ⟨BitVec.ofNat 32 ((if neg then 2 ^ 31 else 0) + e * 2 ^ 23 + k), ?_⟩
  have hw : (BitVec.ofNat 32 ((if neg then 2 ^ 31 else 0) + e * 2 ^ 23 + k)).toNat = (if neg then 2 ^ 31 else 0) + e * 2 ^ 23 + k := by
    rw [BitVec.toNat_ofNat, Nat.mod_eq_of_lt ht]
  generalize BitVec.ofNat 32 ((if neg then 2 ^ 31 else 0) + e * 2 ^ 23 + k) = w at hw
  have hs : f32Sign w = neg := by
    rw [f32Sign, BitVec.msb_eq_decide, hw]
    cases neg <;> simp <;> omega
  have hx : f32Exp w = if 2 ^ 23 ≤ k then e + 1 else e := by
    unfold f32Exp
    rw [hw]
    cases neg <;> simp only [if_true, if_false, Bool.false_eq_true] <;> split <;> omega
  have hf : f32Frac w = if 2 ^ 23 ≤ k then k - 2 ^ 23 else k := by
    unfold f32Frac
    rw [hw]
    cases neg <;> simp only [if_true, if_false, Bool.false_eq_true] <;> split <;> omega
  have hu : f32Units w = k * 2 ^ e := by
    unfold f32Units
    rw [hx, hf]
    by_cases hk' : 2 ^ 23 ≤ k
    · simp only [if_pos hk', Nat.add_sub_cancel]
      rw [if_neg (by omega), show 2 ^ 23 + (k - 2 ^ 23) = k by omega]
    · have : e = 0 := by omega
      rw [if_neg hk', if_neg hk', if_pos this, this, pow_zero, mul_one]
  refine ⟨?_, ?_⟩
  · unfold f32IsFinite
    rw [hx]
    simp only [bne_iff_ne, ne_eq]
    split <;> omega
  · unfold f32Int
    rw [hs, hu]
    push_cast
    rfl

/-- Every magnitude r of units below the overflow threshold has a k x 2^e of binary32 within half a unit, or within 2^-23 of r. -/
theorem exists_parts {r : ℝ} (h0 : 0 ≤ r) (h : r < (2 ^ 128 - 2 ^ 103) * 2 ^ 149) :
    ∃ e k : Nat, e ≤ 253 ∧ k < 2 ^ 24 ∧ (2 ^ 23 ≤ k ∨ e = 0) ∧ |(k * 2 ^ e : ℝ) - r| ≤ max (1 / 2) (r / 2 ^ 23) := by
  by_cases hr : r < 2 ^ 23
  · refine ⟨0, ⌊r + 1 / 2⌋₊, by omega, ?_, .inr rfl, le_max_of_le_left ?_⟩
    · rw [Nat.floor_lt (by linarith)]
      push_cast
      linarith
    · have h1 := Nat.floor_le (show 0 ≤ r + 1 / 2 by linarith)
      have h2 := Nat.lt_floor_add_one (r + 1 / 2)
      rw [pow_zero, mul_one, abs_le]
      constructor <;> linarith
  · set N := ⌊r⌋₊ with hN
    have h1 : (N : ℝ) ≤ r := Nat.floor_le h0
    have h2 : r < N + 1 := Nat.lt_floor_add_one r
    have hN1 : 2 ^ 23 ≤ N := Nat.le_floor (by push_cast; linarith)
    have hN2 : N < 2 ^ 277 := by
      rw [hN, Nat.floor_lt h0]
      refine h.trans_le ?_
      rw [Nat.cast_pow, Nat.cast_ofNat]
      rw [show (2 : ℝ) ^ 277 = 2 ^ 128 * 2 ^ 149 by rw [← pow_add]]
      gcongr
      exact sub_le_self _ (by positivity)
    have hlog : 23 ≤ Nat.log 2 N := Nat.le_log_of_pow_le (by norm_num) hN1
    obtain ⟨e, he⟩ := Nat.exists_eq_add_of_le hlog
    have hle : 2 ^ (23 + e) ≤ N := he ▸ Nat.pow_log_le_self 2 (by omega)
    have hlt : N < 2 ^ (23 + e + 1) := he ▸ Nat.lt_pow_succ_log_self (by norm_num) N
    have hpos : 0 < 2 ^ e := by positivity
    refine ⟨e, N / 2 ^ e, ?_, ?_, .inl ?_, le_max_of_le_right ?_⟩
    · by_contra hc
      exact absurd ((Nat.pow_le_pow_right (by decide) (by omega)).trans hle) (not_le.mpr hN2)
    · rw [Nat.div_lt_iff_lt_mul hpos, ← pow_add]
      convert hlt using 2
      omega
    · rw [Nat.le_div_iff_mul_le hpos, ← pow_add]
      exact hle
    · have hm := Nat.div_add_mod N (2 ^ e)
      have hm' := Nat.mod_lt N hpos
      have h3 : ((2 ^ e * (N / 2 ^ e) + N % 2 ^ e : Nat) : ℝ) = N := by rw [hm]
      have h4 : ((N % 2 ^ e : Nat) : ℝ) + 1 ≤ 2 ^ e := by exact_mod_cast hm'
      have h5 : (2 ^ 23 * 2 ^ e : ℝ) ≤ r := by
        refine le_trans ?_ h1
        rw [← pow_add]
        exact_mod_cast hle
      push_cast at h3 ⊢
      have h6 : (0 : ℝ) ≤ ((N % 2 ^ e : Nat) : ℝ) := Nat.cast_nonneg _
      have h7 : (2 ^ e : ℝ) ≤ r / 2 ^ 23 := by
        rw [le_div_iff₀ (by positivity)]
        linarith
      rw [abs_le]
      constructor <;> linarith

/-- Every real below the overflow threshold has a finite binary32 value within 2^-150, or within 2^-23 of its magnitude. -/
theorem exists_f32_near {y : ℝ} (h : |y| < 2 ^ 128 - 2 ^ 103) :
    ∃ w : F32, f32IsFinite w = true ∧ |(f32Int w / 2 ^ 149 : ℝ) - y| ≤ max (1 / 2 ^ 150) (|y| / 2 ^ 23) := by
  obtain ⟨e, k, he, hk, hn, hr⟩ := exists_parts (r := |y| * 2 ^ 149) (by positivity) (by gcongr)
  obtain ⟨w, hf, hw⟩ := f32Int_of_parts (decide (y < 0)) he hk hn
  refine ⟨w, hf, ?_⟩
  have hc : |(f32Int w / 2 ^ 149 : ℝ) - y| = |(k * 2 ^ e : ℝ) - |y| * 2 ^ 149| / 2 ^ 149 := by
    have hp : (0 : ℝ) < 2 ^ 149 := by positivity
    rw [eq_div_iff hp.ne', ← abs_of_pos hp, ← abs_mul, abs_of_pos hp, sub_mul, div_mul_cancel₀ _ hp.ne', hw]
    by_cases hy : y < 0
    · simp only [hy, decide_true, if_true, abs_of_neg hy]
      rw [← abs_neg]
      push_cast
      ring_nf
    · simp only [hy, decide_false, Bool.false_eq_true, if_false, abs_of_nonneg (not_lt.mp hy)]
      push_cast
      rfl
  rw [hc, div_le_iff₀ (by positivity), max_mul_of_nonneg _ _ (by positivity)]
  refine hr.trans (max_le_max (le_of_eq ?_) (le_of_eq ?_))
  · norm_num
  · ring

/-- From a sum of 2^-132 on, every y that does not overflow has a value within the bound of P-IMDCT (c). -/
theorem exists_meetsBound {y total : ℝ} (h : |y| < 2 ^ 128 - 2 ^ 103) (hy : |y| ≤ total) (ht : 1 / 2 ^ 132 ≤ total) :
    ∃ w, MeetsBound y total w := by
  obtain ⟨w, hf, hw⟩ := exists_f32_near h
  refine ⟨w, hf, hw.trans (max_le ?_ ?_)⟩
  · rw [le_div_iff₀ (by positivity)]
    refine le_trans (le_of_eq ?_) ht
    norm_num
  · have := abs_nonneg y
    rw [div_le_div_iff₀ (by positivity) (by positivity)]
    nlinarith

/-- P-IMDCT asks nothing that no function of a block gives: so a replaced IMDCT_IMPL need not be the reference pipeline. -/
theorem exists_imdct : ∃ f : Nat → List F32 → List F32, ∀ n X, PImdct n X (f n X) := by
  suffices h : ∀ n X, ∃ out, PImdct n X out by
    choose f hf using h
    exact ⟨f, hf⟩
  intro n X
  by_cases hz : ∀ x ∈ X, f32Units x = 0
  · have hv (j : Nat) : f32Int (X.getD j f32Zero) = 0 := by
      have : f32Units (X.getD j f32Zero) = 0 := by
        rcases lt_or_ge j X.length with hj | hj
        · rw [List.getD_eq_getElem _ _ hj]
          exact hz _ (List.getElem_mem hj)
        · rw [List.getD_eq_default _ _ hj]
          rfl
      rw [f32Int, this]
      simp
    refine ⟨List.replicate n f32Zero, List.length_replicate, fun _ w hw => by rw [List.eq_of_mem_replicate hw]; rfl, fun _ _ i hi => .inl ?_⟩
    have hg : (List.replicate n f32Zero).getD i f32Zero = f32Zero := by simp [hi]
    rw [hg]
    refine ⟨rfl, ?_⟩
    simp only [hv]
    simp [show f32Int f32Zero = 0 from rfl]
  · classical
    let y (i : Nat) : ℝ := ∑ j ∈ Finset.range (n / 2),
      (f32Int (X.getD j f32Zero) / 2 ^ 149 : ℝ) * Real.cos (Real.pi / (2 * n) * (2 * i + 1 + n / 2) * (2 * j + 1))
    let total : ℝ := ∑ j ∈ Finset.range (n / 2), |(f32Int (X.getD j f32Zero) / 2 ^ 149 : ℝ)|
    have hy (i : Nat) : |y i| ≤ total := by
      refine (Finset.abs_sum_le_sum_abs _ _).trans (Finset.sum_le_sum fun j _ => ?_)
      rw [abs_mul]
      exact mul_le_of_le_one_right (abs_nonneg _) (Real.abs_cos_le_one _)
    let g (i : Nat) : F32 := if h : ∃ w, MeetsBound (y i) total w then h.choose else f32Zero
    refine ⟨(List.range n).map g, by simp, fun h => absurd h hz, fun _ ho i hi => ?_⟩
    have hg : ((List.range n).map g).getD i f32Zero = g i := by simp [hi]
    rw [hg]
    by_cases hw : ∃ w, MeetsBound (y i) total w
    · refine .inl ?_
      show MeetsBound (y i) total (g i)
      simp only [g, dif_pos hw]
      exact hw.choose_spec
    · refine .inr ⟨?_, fun w h => hw ⟨w, h⟩⟩
      by_contra hc
      exact hw (exists_meetsBound (ho i hi) (hy i) (not_lt.mp hc))

end Sys2Proof.Machine
end

