-- ==== Sys2Proof/Laws/Memory.lean ====
section
/-!
SUPPORT. The laws of RAM: every memory operation keeps the canonical form, a read after a write gives the value written, a write leaves
every other key alone, and the one-pass reads agree with reads byte by byte.
-/

namespace Sys2Proof.Machine

/-! ## Reading -/

theorem Memory.read_nil (a : Nat) : Memory.read [] a = none := rfl

theorem Memory.read_cons (k : Nat) (b : Byte) (m : Memory) (a : Nat) :
    Memory.read ((k, b) :: m) a = if k = a then some b else Memory.read m a := rfl

/-- A key that no cell has reads as no value. -/
theorem Memory.read_eq_none {m : Memory} {a : Nat} (h : ∀ c ∈ m, c.1 ≠ a) : Memory.read m a = none := by
  induction m with
  | nil => rfl
  | cons c m ih =>
    obtain ⟨k, b⟩ := c
    rw [Memory.read_cons, if_neg (h (k, b) (by simp)), ih fun c hc => h c (by simp [hc])]

theorem Memory.read_append (m₁ m₂ : Memory) (a : Nat) :
    Memory.read (m₁ ++ m₂) a = (Memory.read m₁ a).or (Memory.read m₂ a) := by
  induction m₁ with
  | nil => simp [Memory.read_nil]
  | cons c m ih =>
    obtain ⟨k, b⟩ := c
    rw [List.cons_append, Memory.read_cons, Memory.read_cons]
    split <;> simp [ih]

/-- Filtering by the key keeps or drops the whole key. -/
theorem Memory.read_filter (p : Nat → Bool) (m : Memory) (a : Nat) :
    Memory.read (m.filter fun c => p c.1) a = if p a then Memory.read m a else none := by
  induction m with
  | nil => simp [Memory.read_nil]
  | cons c m ih =>
    obtain ⟨k, b⟩ := c
    rw [List.filter_cons]
    by_cases hk : k = a
    · subst hk
      split <;> simp_all [Memory.read_cons]
    · split <;> simp [Memory.read_cons, hk, ih]

/-! ## Cells -/

@[simp] theorem cellsFrom_nil (a : Nat) : cellsFrom a [] = [] := rfl

@[simp] theorem cellsFrom_cons (a : Nat) (b : Byte) (bs : List Byte) :
    cellsFrom a (b :: bs) = (a, b) :: cellsFrom (a + 1) bs := by
  simp [cellsFrom, List.zipIdx_cons]

theorem mem_cellsFrom {a : Nat} {bs : List Byte} {c : Host.Cell} (h : c ∈ cellsFrom a bs) :
    a ≤ c.1 ∧ c.1 < a + bs.length := by
  induction bs generalizing a with
  | nil => simp at h
  | cons b bs ih =>
    simp only [cellsFrom_cons, List.mem_cons] at h
    rcases h with rfl | h
    · simp
    · have := ih h
      simp only [List.length_cons]
      omega

theorem read_cellsFrom (a : Nat) (bs : List Byte) (k : Nat) :
    Memory.read (cellsFrom a bs) k = if a ≤ k then bs[k - a]? else none := by
  induction bs generalizing a with
  | nil => simp [Memory.read_nil]
  | cons b bs ih =>
    rw [cellsFrom_cons, Memory.read_cons, ih]
    rcases Nat.lt_trichotomy a k with h | rfl | h
    · obtain ⟨j, rfl⟩ : ∃ j, k = a + 1 + j := ⟨k - a - 1, by omega⟩
      have e : a + 1 + j - a = j + 1 := by omega
      rw [if_neg (by omega), if_pos (by omega), if_pos (by omega), e, List.getElem?_cons_succ]
      congr 1
      omega
    · simp
    · rw [if_neg (by omega), if_neg (by omega), if_neg (by omega)]

/-! ## Writing and forgetting -/

/-- Reading after a write: the bytes written where they lie, everything else as before. -/
theorem Memory.read_writeBytes (m : Memory) (a : Nat) (bs : List Byte) (k : Nat) :
    Memory.read (m.writeBytes a bs) k =
      if a ≤ k ∧ k < a + bs.length then bs[k - a]? else Memory.read m k := by
  unfold Memory.writeBytes
  rw [Memory.read_append, Memory.read_append, Memory.read_filter (fun k => decide (k < a)),
    Memory.read_filter (fun k => decide (a + bs.length ≤ k)), read_cellsFrom]
  simp only [decide_eq_true_eq]
  by_cases h1 : k < a
  · rw [if_pos h1, if_neg (by omega), if_neg (by omega), if_neg (by omega)]
    cases Memory.read m k <;> rfl
  · by_cases h2 : k < a + bs.length
    · rw [if_neg h1, if_pos (by omega), if_neg (by omega), if_pos (by omega),
        List.getElem?_eq_getElem (by omega)]
      rfl
    · rw [if_neg h1, if_pos (by omega), if_pos (by omega), if_neg (by omega),
        List.getElem?_eq_none (by omega)]
      cases Memory.read m k <;> rfl

/-- A write leaves every key outside it alone. -/
theorem Memory.read_writeBytes_of_outside (m : Memory) (a : Nat) (bs : List Byte) (k : Nat)
    (h : k < a ∨ a + bs.length ≤ k) : Memory.read (m.writeBytes a bs) k = Memory.read m k := by
  rw [Memory.read_writeBytes, if_neg (by omega)]

theorem Memory.read_forget (m : Memory) (a n k : Nat) :
    Memory.read (m.forget a n) k = if a ≤ k ∧ k < a + n then none else Memory.read m k := by
  unfold Memory.forget
  rw [Memory.read_filter (fun k => decide (k < a) || decide (a + n ≤ k))]
  by_cases h : a ≤ k ∧ k < a + n
  · rw [if_pos h, if_neg (by simp; omega)]
  · rw [if_neg h, if_pos (by simp; omega)]

/-! ## The canonical form -/

theorem Memory.wf_nil : Memory.wf [] := List.Pairwise.nil

theorem wf_cellsFrom (a : Nat) (bs : List Byte) : Memory.wf (cellsFrom a bs) := by
  induction bs generalizing a with
  | nil => exact Memory.wf_nil
  | cons b bs ih =>
    rw [cellsFrom_cons]
    refine List.Pairwise.cons (fun c hc => ?_) (ih (a + 1))
    have := mem_cellsFrom hc
    show a < c.1
    omega

/-- A write keeps the canonical form. -/
theorem Memory.wf_writeBytes {m : Memory} (h : m.wf) (a : Nat) (bs : List Byte) : (m.writeBytes a bs).wf := by
  unfold Memory.writeBytes Memory.wf
  rw [List.pairwise_append, List.pairwise_append]
  refine ⟨⟨h.filter _, wf_cellsFrom a bs, fun c hc d hd => ?_⟩, h.filter _, fun c hc d hd => ?_⟩
  · have h1 := mem_cellsFrom hd
    have h2 : c.1 < a := by simpa using (List.mem_filter.mp hc).2
    omega
  · have h2 : a + bs.length ≤ d.1 := by simpa using (List.mem_filter.mp hd).2
    rcases List.mem_append.mp hc with hc | hc
    · have h3 : c.1 < a := by simpa using (List.mem_filter.mp hc).2
      omega
    · have h3 := mem_cellsFrom hc
      omega

/-- Forgetting keeps the canonical form. -/
theorem Memory.wf_forget {m : Memory} (h : m.wf) (a n : Nat) : (m.forget a n).wf := h.filter _

theorem Memory.wf_writeWords {m : Memory} (h : m.wf) (a : Nat) (ws : List Word) : (m.writeWords a ws).wf :=
  Memory.wf_writeBytes h a _

/-! ## One-pass reads -/

theorem length_bytesFrom (n a : Nat) (m : Memory) : (bytesFrom n a m).length = n := by
  induction n generalizing a m with
  | zero => simp [bytesFrom]
  | succ n ih =>
    cases m with
    | nil => simp [bytesFrom, ih]
    | cons c m =>
      obtain ⟨k, b⟩ := c
      unfold bytesFrom
      split <;> simp [ih]

theorem bytesFrom_getElem? {m : Memory} (h : m.wf) (n a i : Nat) (ha : ∀ c ∈ m, a ≤ c.1) (hi : i < n) :
    (bytesFrom n a m)[i]? = some (m.read (a + i)) := by
  induction n generalizing a m i with
  | zero => omega
  | succ n ih =>
    cases m with
    | nil =>
      cases i with
      | zero => simp [bytesFrom, Memory.read_nil]
      | succ i =>
        simp only [bytesFrom, List.getElem?_cons_succ]
        rw [ih h (a + 1) i (by simp) (by omega)]
        simp [Memory.read_nil]
    | cons c m =>
      obtain ⟨k, b⟩ := c
      have hk : a ≤ k := ha (k, b) (by simp)
      have hw := List.pairwise_cons.mp h
      have hm : ∀ d ∈ m, k < d.1 := fun d hd => hw.1 d hd
      unfold bytesFrom
      by_cases e : k = a
      · rw [if_pos e]
        subst e
        cases i with
        | zero => simp [Memory.read_cons]
        | succ i =>
          rw [List.getElem?_cons_succ, ih hw.2 (k + 1) i (fun d hd => hm d hd) (by omega), Memory.read_cons,
            if_neg (by omega)]
          congr 2
          omega
      · rw [if_neg e]
        cases i with
        | zero =>
          rw [List.getElem?_cons_zero, Memory.read_eq_none]
          intro d hd
          rcases List.mem_cons.mp hd with rfl | hd
          · simpa using e
          · have := hm d hd
            omega
        | succ i =>
          rw [List.getElem?_cons_succ, ih h (a + 1) i ?_ (by omega)]
          · congr 2
            omega
          · intro d hd
            rcases List.mem_cons.mp hd with rfl | hd
            · show a + 1 ≤ k
              omega
            · have := hm d hd
              omega

theorem read_dropWhile_lt {m : Memory} (h : m.wf) (a k : Nat) (hk : a ≤ k) :
    Memory.read (m.dropWhile fun c => decide (c.1 < a)) k = Memory.read m k := by
  induction m with
  | nil => rfl
  | cons c m ih =>
    obtain ⟨j, b⟩ := c
    rw [List.dropWhile_cons]
    by_cases e : j < a
    · rw [if_pos (by simpa using e), ih (List.pairwise_cons.mp h).2, Memory.read_cons, if_neg (by omega)]
    · rw [if_neg (by simpa using e)]

theorem le_of_mem_dropWhile {m : Memory} (h : m.wf) (a : Nat) :
    ∀ c ∈ m.dropWhile (fun c => decide (c.1 < a)), a ≤ c.1 := by
  induction m with
  | nil => simp
  | cons d m ih =>
    have hw := List.pairwise_cons.mp h
    rw [List.dropWhile_cons]
    by_cases e : d.1 < a
    · rw [if_pos (by simpa using e)]
      exact ih hw.2
    · rw [if_neg (by simpa using e)]
      intro c hc
      rcases List.mem_cons.mp hc with rfl | hc
      · omega
      · have := hw.1 c hc
        omega

@[simp] theorem Memory.length_readBytes (m : Memory) (a n : Nat) : (m.readBytes a n).length = n :=
  length_bytesFrom _ _ _

/-- In a memory in canonical form the one-pass read gives each byte as `Memory.read` does. -/
theorem Memory.readBytes_getElem? {m : Memory} (h : m.wf) (a n i : Nat) (hi : i < n) :
    (m.readBytes a n)[i]? = some (m.read (a + i)) := by
  unfold Memory.readBytes
  rw [bytesFrom_getElem? (h.sublist (List.dropWhile_sublist _)) n a i (le_of_mem_dropWhile h a) hi,
    read_dropWhile_lt h a (a + i) (by omega)]

theorem length_groupWords (n : Nat) (l : List (Option Byte)) (h : l.length = 4 * n) : (groupWords l).length = n := by
  induction n generalizing l with
  | zero =>
    have : l = [] := List.length_eq_zero_iff.mp (by omega)
    subst this
    rfl
  | succ n ih =>
    match l, h with
    | b0 :: b1 :: b2 :: b3 :: rest, h =>
      simp only [groupWords, List.length_cons]
      rw [ih rest (by simp only [List.length_cons] at h; omega)]

theorem groupWords_getElem? (l : List (Option Byte)) (i : Nat) (b0 b1 b2 b3 : Option Byte)
    (h0 : l[4 * i]? = some b0) (h1 : l[4 * i + 1]? = some b1) (h2 : l[4 * i + 2]? = some b2)
    (h3 : l[4 * i + 3]? = some b3) : (groupWords l)[i]? = some (wordOfBytes? b0 b1 b2 b3) := by
  induction i generalizing l with
  | zero =>
    match l, h0, h1, h2, h3 with
    | _ :: _ :: _ :: _ :: rest, h0, h1, h2, h3 => simp_all [groupWords]
  | succ i ih =>
    match l, h3 with
    | c0 :: c1 :: c2 :: c3 :: rest, h3 =>
      have e0 : 4 * (i + 1) = (4 * i) + 1 + 1 + 1 + 1 := by omega
      simp only [e0, List.getElem?_cons_succ] at h0 h1 h2 h3
      simp only [groupWords, List.getElem?_cons_succ]
      exact ih rest h0 h1 h2 h3
    | [], h3 => simp at h3
    | [_], h3 => simp at h3
    | [_, _], h3 => simp at h3
    | [_, _, _], h3 => simp at h3

@[simp] theorem Memory.length_readWords (m : Memory) (a n : Nat) : (m.readWords a n).length = n :=
  length_groupWords n _ (Memory.length_readBytes _ _ _)

/-- In a memory in canonical form the one-pass read of words gives each word as its four bytes read one by one. -/
theorem Memory.readWords_getElem? {m : Memory} (h : m.wf) (a n i : Nat) (hi : i < n) :
    (m.readWords a n)[i]? = some (wordOfBytes? (m.read (a + 4 * i)) (m.read (a + 4 * i + 1)) (m.read (a + 4 * i + 2))
      (m.read (a + 4 * i + 3))) := by
  apply groupWords_getElem?
  · exact Memory.readBytes_getElem? h a (4 * n) (4 * i) (by omega)
  · simpa [Nat.add_assoc] using Memory.readBytes_getElem? h a (4 * n) (4 * i + 1) (by omega)
  · simpa [Nat.add_assoc] using Memory.readBytes_getElem? h a (4 * n) (4 * i + 2) (by omega)
  · simpa [Nat.add_assoc] using Memory.readBytes_getElem? h a (4 * n) (4 * i + 3) (by omega)

/-! ## Words and bytes -/

/-- A word is its four bytes, little-endian (R60). -/
theorem wordOfBytes_bytesOfWord (w : Word) :
    wordOfBytes (w.extractLsb' 0 8) (w.extractLsb' 8 8) (w.extractLsb' 16 8) (w.extractLsb' 24 8) = w := by
  unfold wordOfBytes
  ext i hi
  simp only [BitVec.getElem_append, BitVec.getElem_extractLsb']
  split
  · simp_all
  · split
    · rw [BitVec.getLsbD_eq_getElem (by omega)]; congr 1; omega
    · split
      · rw [BitVec.getLsbD_eq_getElem (by omega)]; congr 1; omega
      · rw [BitVec.getLsbD_eq_getElem (by omega)]; congr 1; omega

theorem length_flatMap_bytesOfWord (ws : List Word) : (ws.flatMap bytesOfWord).length = 4 * ws.length := by
  induction ws with
  | nil => rfl
  | cons w ws ih => simp [List.flatMap_cons, bytesOfWord, ih]; omega

/-- Reading after a write of words, byte by byte. -/
theorem Memory.read_writeWords (m : Memory) (a : Nat) (ws : List Word) (k : Nat) :
    Memory.read (m.writeWords a ws) k =
      if a ≤ k ∧ k < a + 4 * ws.length then (ws.flatMap bytesOfWord)[k - a]? else Memory.read m k := by
  unfold Memory.writeWords
  rw [Memory.read_writeBytes, length_flatMap_bytesOfWord]

/-- A write of words leaves every key outside it alone. -/
theorem Memory.read_writeWords_of_outside (m : Memory) (a : Nat) (ws : List Word) (k : Nat)
    (h : k < a ∨ a + 4 * ws.length ≤ k) : Memory.read (m.writeWords a ws) k = Memory.read m k := by
  rw [Memory.read_writeWords, if_neg (by omega)]

theorem flatMap_bytesOfWord_getElem? (ws : List Word) (i j : Nat) (hj : j < 4) (w : Word) (h : ws[i]? = some w) :
    (ws.flatMap bytesOfWord)[4 * i + j]? = (bytesOfWord w)[j]? := by
  induction ws generalizing i with
  | nil => simp at h
  | cons v ws ih =>
    rw [List.flatMap_cons]
    cases i with
    | zero =>
      obtain rfl : v = w := by simpa using h
      rw [List.getElem?_append_left (by simp [bytesOfWord]; omega)]
      simp
    | succ i =>
      rw [List.getElem?_append_right (by simp [bytesOfWord]; omega)]
      have e : 4 * (i + 1) + j - (bytesOfWord v).length = 4 * i + j := by simp [bytesOfWord]; omega
      rw [e]
      exact ih i (by simpa using h)

/-- Reading the word at index i of a run of words just written gives that word. -/
theorem Memory.word_writeWords (m : Memory) (a : Nat) (ws : List Word) (i : Nat) (w : Word) (h : ws[i]? = some w) :
    wordOfBytes? (Memory.read (m.writeWords a ws) (a + 4 * i)) (Memory.read (m.writeWords a ws) (a + 4 * i + 1))
      (Memory.read (m.writeWords a ws) (a + 4 * i + 2)) (Memory.read (m.writeWords a ws) (a + 4 * i + 3)) = some w := by
  have hi : i < ws.length := by
    by_contra hn
    rw [List.getElem?_eq_none (by omega)] at h
    simp at h
  have key (j : Nat) (hj : j < 4) :
      Memory.read (m.writeWords a ws) (a + 4 * i + j) = (bytesOfWord w)[j]? := by
    rw [Memory.read_writeWords, if_pos (by omega)]
    have e : a + 4 * i + j - a = 4 * i + j := by omega
    rw [e, flatMap_bytesOfWord_getElem? ws i j hj w h]
  have k0 : Memory.read (m.writeWords a ws) (a + 4 * i) = (bytesOfWord w)[0]? := key 0 (by omega)
  rw [k0, key 1 (by omega), key 2 (by omega), key 3 (by omega)]
  simp [bytesOfWord, wordOfBytes?, wordOfBytes_bytesOfWord]

/-! ## Lists of optional values -/

theorem allSome_eq_some {α : Type} {l : List (Option α)} {as : List α} : allSome l = some as ↔ l = as.map some := by
  induction l generalizing as with
  | nil => cases as <;> simp [allSome]
  | cons o l ih =>
    cases o with
    | none => cases as <;> simp [allSome]
    | some a =>
      unfold allSome
      cases h : allSome l with
      | none =>
        have hn : ∀ bs : List α, l ≠ bs.map some := fun bs hb => by rw [ih.mpr hb] at h; simp at h
        cases as with
        | nil => simp
        | cons b bs => simp [hn bs]
      | some bs =>
        have hb := ih.mp h
        subst hb
        cases as with
        | nil => simp
        | cons c cs =>
          simp only [Option.some.injEq, List.cons.injEq, List.map_cons]
          constructor
          · rintro ⟨rfl, rfl⟩; exact ⟨rfl, rfl⟩
          · rintro ⟨rfl, h2⟩
            exact ⟨rfl, List.map_injective_iff.mpr (Option.some_injective α) h2⟩

theorem allSome_eq_none {α : Type} {l : List (Option α)} : allSome l = none ↔ none ∈ l := by
  induction l with
  | nil => simp [allSome]
  | cons o l ih =>
    cases o with
    | none => simp [allSome]
    | some a =>
      unfold allSome
      cases h : allSome l with
      | none => simp [ih.mp h]
      | some bs =>
        have : none ∉ l := fun hn => by rw [ih.mpr hn] at h; simp at h
        simp [this]

theorem length_allSome {α : Type} {l : List (Option α)} {as : List α} (h : allSome l = some as) :
    as.length = l.length := by
  rw [allSome_eq_some.mp h, List.length_map]

end Sys2Proof.Machine
end

