-- ==== Sys2Proof/Laws/State.lean ====
section
/-!
SUPPORT. One lemma per field for each named update of the state: what it writes, and that it leaves every other field as it was.
-/

namespace Sys2Proof.Machine

/-! ## `ignore` of R15 -/

@[simp] theorem takeException_ignored_busy (s : State) (w : Word) : (takeException w .ignored s).busy = s.busy := rfl
@[simp] theorem takeException_ignored_setupState (s : State) (w : Word) : (takeException w .ignored s).setupState = s.setupState := rfl
@[simp] theorem takeException_ignored_cfgDone (s : State) (w : Word) : (takeException w .ignored s).cfgDone = s.cfgDone := rfl
@[simp] theorem takeException_ignored_decState (s : State) (w : Word) : (takeException w .ignored s).decState = s.decState := rfl
@[simp] theorem takeException_ignored_pcmValid (s : State) (w : Word) : (takeException w .ignored s).pcmValid = s.pcmValid := rfl
@[simp] theorem takeException_ignored_cmdErr (s : State) (w : Word) : (takeException w .ignored s).cmdErr = s.cmdErr := rfl
@[simp] theorem takeException_ignored_ignored (s : State) (w : Word) : (takeException w .ignored s).ignored = true := rfl
@[simp] theorem takeException_ignored_bound (s : State) (w : Word) : (takeException w .ignored s).bound = s.bound := rfl
@[simp] theorem takeException_ignored_seq (s : State) (w : Word) : (takeException w .ignored s).seq = s.seq := rfl
@[simp] theorem takeException_ignored_budgetEn (s : State) (w : Word) : (takeException w .ignored s).budgetEn = s.budgetEn := rfl
@[simp] theorem takeException_ignored_fmtCode (s : State) (w : Word) : (takeException w .ignored s).fmtCode = s.fmtCode := rfl
@[simp] theorem takeException_ignored_cmdCode (s : State) (w : Word) : (takeException w .ignored s).cmdCode = s.cmdCode := rfl
@[simp] theorem takeException_ignored_result (s : State) (w : Word) : (takeException w .ignored s).result = s.result := rfl
@[simp] theorem takeException_ignored_errCmd (s : State) (w : Word) : (takeException w .ignored s).errCmd = s.errCmd := rfl
@[simp] theorem takeException_ignored_errPos (s : State) (w : Word) : (takeException w .ignored s).errPos = s.errPos := rfl
@[simp] theorem takeException_ignored_cfgE0 (s : State) (w : Word) : (takeException w .ignored s).cfgE0 = s.cfgE0 := rfl
@[simp] theorem takeException_ignored_cfgE1 (s : State) (w : Word) : (takeException w .ignored s).cfgE1 = s.cfgE1 := rfl
@[simp] theorem takeException_ignored_cfgCbm1 (s : State) (w : Word) : (takeException w .ignored s).cfgCbm1 = s.cfgCbm1 := rfl
@[simp] theorem takeException_ignored_pktBase (s : State) (w : Word) : (takeException w .ignored s).pktBase = s.pktBase := rfl
@[simp] theorem takeException_ignored_pktLen (s : State) (w : Word) : (takeException w .ignored s).pktLen = s.pktLen := rfl
@[simp] theorem takeException_ignored_bitPos (s : State) (w : Word) : (takeException w .ignored s).bitPos = s.bitPos := rfl
@[simp] theorem takeException_ignored_sampleCount (s : State) (w : Word) : (takeException w .ignored s).sampleCount = s.sampleCount := rfl
@[simp] theorem takeException_ignored_packetCount (s : State) (w : Word) : (takeException w .ignored s).packetCount = s.packetCount := rfl
@[simp] theorem takeException_ignored_budget (s : State) (w : Word) : (takeException w .ignored s).budget = s.budget := rfl
@[simp] theorem takeException_ignored_pcmCursor (s : State) (w : Word) : (takeException w .ignored s).pcmCursor = s.pcmCursor := rfl
@[simp] theorem takeException_ignored_packetIndex (s : State) (w : Word) : (takeException w .ignored s).packetIndex = s.packetIndex := rfl
@[simp] theorem takeException_ignored_prevN (s : State) (w : Word) : (takeException w .ignored s).prevN = s.prevN := rfl
@[simp] theorem takeException_ignored_prevREnd (s : State) (w : Word) : (takeException w .ignored s).prevREnd = s.prevREnd := rfl
@[simp] theorem takeException_ignored_prevShort (s : State) (w : Word) : (takeException w .ignored s).prevShort = s.prevShort := rfl
@[simp] theorem takeException_ignored_blkN (s : State) (w : Word) : (takeException w .ignored s).blkN = s.blkN := rfl
@[simp] theorem takeException_ignored_blkLong (s : State) (w : Word) : (takeException w .ignored s).blkLong = s.blkLong := rfl
@[simp] theorem takeException_ignored_blkPrevLong (s : State) (w : Word) : (takeException w .ignored s).blkPrevLong = s.blkPrevLong := rfl
@[simp] theorem takeException_ignored_blkNextLong (s : State) (w : Word) : (takeException w .ignored s).blkNextLong = s.blkNextLong := rfl
@[simp] theorem takeException_ignored_blkZero (s : State) (w : Word) : (takeException w .ignored s).blkZero = s.blkZero := rfl
@[simp] theorem takeException_ignored_lws (s : State) (w : Word) : (takeException w .ignored s).lws = s.lws := rfl
@[simp] theorem takeException_ignored_lwe (s : State) (w : Word) : (takeException w .ignored s).lwe = s.lwe := rfl
@[simp] theorem takeException_ignored_rws (s : State) (w : Word) : (takeException w .ignored s).rws = s.rws := rfl
@[simp] theorem takeException_ignored_rwe (s : State) (w : Word) : (takeException w .ignored s).rwe = s.rwe := rfl
@[simp] theorem takeException_ignored_vdim (s : State) (w : Word) : (takeException w .ignored s).vdim = s.vdim := rfl
@[simp] theorem takeException_ignored_cbSel (s : State) (w : Word) : (takeException w .ignored s).cbSel = s.cbSel := rfl
@[simp] theorem takeException_ignored_books (s : State) (w : Word) : (takeException w .ignored s).books = s.books := rfl
@[simp] theorem takeException_ignored_lbase (s : State) (w : Word) : (takeException w .ignored s).lbase = s.lbase := rfl
@[simp] theorem takeException_ignored_llen (s : State) (w : Word) : (takeException w .ignored s).llen = s.llen := rfl
@[simp] theorem takeException_ignored_cmdWord (s : State) (w : Word) : (takeException w .ignored s).cmdWord = s.cmdWord := rfl
@[simp] theorem takeException_ignored_mem (s : State) (w : Word) : (takeException w .ignored s).mem = s.mem := rfl
@[simp] theorem takeException_ignored_params (s : State) (w : Word) : (takeException w .ignored s).params = s.params := rfl
@[simp] theorem takeException_ignored_host (s : State) (w : Word) : (takeException w .ignored s).host = s.host := rfl
@[simp] theorem takeException_ignored_latency (s : State) (w : Word) : (takeException w .ignored s).latency = s.latency := rfl
@[simp] theorem takeException_ignored_busyFor (s : State) (w : Word) : (takeException w .ignored s).busyFor = s.busyFor := rfl
@[simp] theorem takeException_ignored_busOut (s : State) (w : Word) : (takeException w .ignored s).busOut = s.busOut := rfl
@[simp] theorem takeException_ignored_draws (s : State) (w : Word) : (takeException w .ignored s).draws = s.draws := rfl

/-! ## A command error (R245) -/

@[simp] theorem takeException_command_busy (s : State) (w : Word) (c : CmdError) : (takeException w (.command c) s).busy = s.busy := rfl
@[simp] theorem takeException_command_setupState (s : State) (w : Word) (c : CmdError) : (takeException w (.command c) s).setupState = s.setupState := rfl
@[simp] theorem takeException_command_cfgDone (s : State) (w : Word) (c : CmdError) : (takeException w (.command c) s).cfgDone = s.cfgDone := rfl
@[simp] theorem takeException_command_decState (s : State) (w : Word) (c : CmdError) : (takeException w (.command c) s).decState = s.decState := rfl
@[simp] theorem takeException_command_pcmValid (s : State) (w : Word) (c : CmdError) : (takeException w (.command c) s).pcmValid = s.pcmValid := rfl
@[simp] theorem takeException_command_cmdErr (s : State) (w : Word) (c : CmdError) : (takeException w (.command c) s).cmdErr = true := rfl
@[simp] theorem takeException_command_ignored (s : State) (w : Word) (c : CmdError) : (takeException w (.command c) s).ignored = s.ignored := rfl
@[simp] theorem takeException_command_bound (s : State) (w : Word) (c : CmdError) : (takeException w (.command c) s).bound = s.bound := rfl
@[simp] theorem takeException_command_seq (s : State) (w : Word) (c : CmdError) : (takeException w (.command c) s).seq = s.seq := rfl
@[simp] theorem takeException_command_budgetEn (s : State) (w : Word) (c : CmdError) : (takeException w (.command c) s).budgetEn = s.budgetEn := rfl
@[simp] theorem takeException_command_fmtCode (s : State) (w : Word) (c : CmdError) : (takeException w (.command c) s).fmtCode = s.fmtCode := rfl
@[simp] theorem takeException_command_cmdCode (s : State) (w : Word) (c : CmdError) : (takeException w (.command c) s).cmdCode = some c := rfl
@[simp] theorem takeException_command_result (s : State) (w : Word) (c : CmdError) : (takeException w (.command c) s).result = s.result := rfl
@[simp] theorem takeException_command_errCmd (s : State) (w : Word) (c : CmdError) : (takeException w (.command c) s).errCmd = w := rfl
@[simp] theorem takeException_command_errPos (s : State) (w : Word) (c : CmdError) : (takeException w (.command c) s).errPos = s.errPos := rfl
@[simp] theorem takeException_command_cfgE0 (s : State) (w : Word) (c : CmdError) : (takeException w (.command c) s).cfgE0 = s.cfgE0 := rfl
@[simp] theorem takeException_command_cfgE1 (s : State) (w : Word) (c : CmdError) : (takeException w (.command c) s).cfgE1 = s.cfgE1 := rfl
@[simp] theorem takeException_command_cfgCbm1 (s : State) (w : Word) (c : CmdError) : (takeException w (.command c) s).cfgCbm1 = s.cfgCbm1 := rfl
@[simp] theorem takeException_command_pktBase (s : State) (w : Word) (c : CmdError) : (takeException w (.command c) s).pktBase = s.pktBase := rfl
@[simp] theorem takeException_command_pktLen (s : State) (w : Word) (c : CmdError) : (takeException w (.command c) s).pktLen = s.pktLen := rfl
@[simp] theorem takeException_command_bitPos (s : State) (w : Word) (c : CmdError) : (takeException w (.command c) s).bitPos = s.bitPos := rfl
@[simp] theorem takeException_command_sampleCount (s : State) (w : Word) (c : CmdError) : (takeException w (.command c) s).sampleCount = s.sampleCount := rfl
@[simp] theorem takeException_command_packetCount (s : State) (w : Word) (c : CmdError) : (takeException w (.command c) s).packetCount = s.packetCount := rfl
@[simp] theorem takeException_command_budget (s : State) (w : Word) (c : CmdError) : (takeException w (.command c) s).budget = s.budget := rfl
@[simp] theorem takeException_command_pcmCursor (s : State) (w : Word) (c : CmdError) : (takeException w (.command c) s).pcmCursor = s.pcmCursor := rfl
@[simp] theorem takeException_command_packetIndex (s : State) (w : Word) (c : CmdError) : (takeException w (.command c) s).packetIndex = s.packetIndex := rfl
@[simp] theorem takeException_command_prevN (s : State) (w : Word) (c : CmdError) : (takeException w (.command c) s).prevN = s.prevN := rfl
@[simp] theorem takeException_command_prevREnd (s : State) (w : Word) (c : CmdError) : (takeException w (.command c) s).prevREnd = s.prevREnd := rfl
@[simp] theorem takeException_command_prevShort (s : State) (w : Word) (c : CmdError) : (takeException w (.command c) s).prevShort = s.prevShort := rfl
@[simp] theorem takeException_command_blkN (s : State) (w : Word) (c : CmdError) : (takeException w (.command c) s).blkN = s.blkN := rfl
@[simp] theorem takeException_command_blkLong (s : State) (w : Word) (c : CmdError) : (takeException w (.command c) s).blkLong = s.blkLong := rfl
@[simp] theorem takeException_command_blkPrevLong (s : State) (w : Word) (c : CmdError) : (takeException w (.command c) s).blkPrevLong = s.blkPrevLong := rfl
@[simp] theorem takeException_command_blkNextLong (s : State) (w : Word) (c : CmdError) : (takeException w (.command c) s).blkNextLong = s.blkNextLong := rfl
@[simp] theorem takeException_command_blkZero (s : State) (w : Word) (c : CmdError) : (takeException w (.command c) s).blkZero = s.blkZero := rfl
@[simp] theorem takeException_command_lws (s : State) (w : Word) (c : CmdError) : (takeException w (.command c) s).lws = s.lws := rfl
@[simp] theorem takeException_command_lwe (s : State) (w : Word) (c : CmdError) : (takeException w (.command c) s).lwe = s.lwe := rfl
@[simp] theorem takeException_command_rws (s : State) (w : Word) (c : CmdError) : (takeException w (.command c) s).rws = s.rws := rfl
@[simp] theorem takeException_command_rwe (s : State) (w : Word) (c : CmdError) : (takeException w (.command c) s).rwe = s.rwe := rfl
@[simp] theorem takeException_command_vdim (s : State) (w : Word) (c : CmdError) : (takeException w (.command c) s).vdim = s.vdim := rfl
@[simp] theorem takeException_command_cbSel (s : State) (w : Word) (c : CmdError) : (takeException w (.command c) s).cbSel = s.cbSel := rfl
@[simp] theorem takeException_command_books (s : State) (w : Word) (c : CmdError) : (takeException w (.command c) s).books = s.books := rfl
@[simp] theorem takeException_command_lbase (s : State) (w : Word) (c : CmdError) : (takeException w (.command c) s).lbase = s.lbase := rfl
@[simp] theorem takeException_command_llen (s : State) (w : Word) (c : CmdError) : (takeException w (.command c) s).llen = s.llen := rfl
@[simp] theorem takeException_command_cmdWord (s : State) (w : Word) (c : CmdError) : (takeException w (.command c) s).cmdWord = s.cmdWord := rfl
@[simp] theorem takeException_command_mem (s : State) (w : Word) (c : CmdError) : (takeException w (.command c) s).mem = s.mem := rfl
@[simp] theorem takeException_command_params (s : State) (w : Word) (c : CmdError) : (takeException w (.command c) s).params = s.params := rfl
@[simp] theorem takeException_command_host (s : State) (w : Word) (c : CmdError) : (takeException w (.command c) s).host = s.host := rfl
@[simp] theorem takeException_command_latency (s : State) (w : Word) (c : CmdError) : (takeException w (.command c) s).latency = s.latency := rfl
@[simp] theorem takeException_command_busyFor (s : State) (w : Word) (c : CmdError) : (takeException w (.command c) s).busyFor = s.busyFor := rfl
@[simp] theorem takeException_command_busOut (s : State) (w : Word) (c : CmdError) : (takeException w (.command c) s).busOut = s.busOut := rfl
@[simp] theorem takeException_command_draws (s : State) (w : Word) (c : CmdError) : (takeException w (.command c) s).draws = s.draws := rfl

/-! ## A setup-phase FormatError (R243) -/

@[simp] theorem takeException_setup_busy (s : State) (w : Word) (f : FormatError) : (takeException w (.setup f) s).busy = s.busy := rfl
@[simp] theorem takeException_setup_setupState (s : State) (w : Word) (f : FormatError) : (takeException w (.setup f) s).setupState = .failed := rfl
@[simp] theorem takeException_setup_cfgDone (s : State) (w : Word) (f : FormatError) : (takeException w (.setup f) s).cfgDone = s.cfgDone := rfl
@[simp] theorem takeException_setup_decState (s : State) (w : Word) (f : FormatError) : (takeException w (.setup f) s).decState = s.decState := rfl
@[simp] theorem takeException_setup_pcmValid (s : State) (w : Word) (f : FormatError) : (takeException w (.setup f) s).pcmValid = s.pcmValid := rfl
@[simp] theorem takeException_setup_cmdErr (s : State) (w : Word) (f : FormatError) : (takeException w (.setup f) s).cmdErr = s.cmdErr := rfl
@[simp] theorem takeException_setup_ignored (s : State) (w : Word) (f : FormatError) : (takeException w (.setup f) s).ignored = s.ignored := rfl
@[simp] theorem takeException_setup_bound (s : State) (w : Word) (f : FormatError) : (takeException w (.setup f) s).bound = s.bound := rfl
@[simp] theorem takeException_setup_seq (s : State) (w : Word) (f : FormatError) : (takeException w (.setup f) s).seq = s.seq := rfl
@[simp] theorem takeException_setup_budgetEn (s : State) (w : Word) (f : FormatError) : (takeException w (.setup f) s).budgetEn = s.budgetEn := rfl
@[simp] theorem takeException_setup_fmtCode (s : State) (w : Word) (f : FormatError) : (takeException w (.setup f) s).fmtCode = some f := rfl
@[simp] theorem takeException_setup_cmdCode (s : State) (w : Word) (f : FormatError) : (takeException w (.setup f) s).cmdCode = s.cmdCode := rfl
@[simp] theorem takeException_setup_result (s : State) (w : Word) (f : FormatError) : (takeException w (.setup f) s).result = s.result := rfl
@[simp] theorem takeException_setup_errCmd (s : State) (w : Word) (f : FormatError) : (takeException w (.setup f) s).errCmd = w := rfl
@[simp] theorem takeException_setup_errPos (s : State) (w : Word) (f : FormatError) : (takeException w (.setup f) s).errPos = 0 := rfl
@[simp] theorem takeException_setup_cfgE0 (s : State) (w : Word) (f : FormatError) : (takeException w (.setup f) s).cfgE0 = s.cfgE0 := rfl
@[simp] theorem takeException_setup_cfgE1 (s : State) (w : Word) (f : FormatError) : (takeException w (.setup f) s).cfgE1 = s.cfgE1 := rfl
@[simp] theorem takeException_setup_cfgCbm1 (s : State) (w : Word) (f : FormatError) : (takeException w (.setup f) s).cfgCbm1 = s.cfgCbm1 := rfl
@[simp] theorem takeException_setup_pktBase (s : State) (w : Word) (f : FormatError) : (takeException w (.setup f) s).pktBase = s.pktBase := rfl
@[simp] theorem takeException_setup_pktLen (s : State) (w : Word) (f : FormatError) : (takeException w (.setup f) s).pktLen = s.pktLen := rfl
@[simp] theorem takeException_setup_bitPos (s : State) (w : Word) (f : FormatError) : (takeException w (.setup f) s).bitPos = s.bitPos := rfl
@[simp] theorem takeException_setup_sampleCount (s : State) (w : Word) (f : FormatError) : (takeException w (.setup f) s).sampleCount = s.sampleCount := rfl
@[simp] theorem takeException_setup_packetCount (s : State) (w : Word) (f : FormatError) : (takeException w (.setup f) s).packetCount = s.packetCount := rfl
@[simp] theorem takeException_setup_budget (s : State) (w : Word) (f : FormatError) : (takeException w (.setup f) s).budget = s.budget := rfl
@[simp] theorem takeException_setup_pcmCursor (s : State) (w : Word) (f : FormatError) : (takeException w (.setup f) s).pcmCursor = s.pcmCursor := rfl
@[simp] theorem takeException_setup_packetIndex (s : State) (w : Word) (f : FormatError) : (takeException w (.setup f) s).packetIndex = s.packetIndex := rfl
@[simp] theorem takeException_setup_prevN (s : State) (w : Word) (f : FormatError) : (takeException w (.setup f) s).prevN = s.prevN := rfl
@[simp] theorem takeException_setup_prevREnd (s : State) (w : Word) (f : FormatError) : (takeException w (.setup f) s).prevREnd = s.prevREnd := rfl
@[simp] theorem takeException_setup_prevShort (s : State) (w : Word) (f : FormatError) : (takeException w (.setup f) s).prevShort = s.prevShort := rfl
@[simp] theorem takeException_setup_blkN (s : State) (w : Word) (f : FormatError) : (takeException w (.setup f) s).blkN = s.blkN := rfl
@[simp] theorem takeException_setup_blkLong (s : State) (w : Word) (f : FormatError) : (takeException w (.setup f) s).blkLong = s.blkLong := rfl
@[simp] theorem takeException_setup_blkPrevLong (s : State) (w : Word) (f : FormatError) : (takeException w (.setup f) s).blkPrevLong = s.blkPrevLong := rfl
@[simp] theorem takeException_setup_blkNextLong (s : State) (w : Word) (f : FormatError) : (takeException w (.setup f) s).blkNextLong = s.blkNextLong := rfl
@[simp] theorem takeException_setup_blkZero (s : State) (w : Word) (f : FormatError) : (takeException w (.setup f) s).blkZero = s.blkZero := rfl
@[simp] theorem takeException_setup_lws (s : State) (w : Word) (f : FormatError) : (takeException w (.setup f) s).lws = s.lws := rfl
@[simp] theorem takeException_setup_lwe (s : State) (w : Word) (f : FormatError) : (takeException w (.setup f) s).lwe = s.lwe := rfl
@[simp] theorem takeException_setup_rws (s : State) (w : Word) (f : FormatError) : (takeException w (.setup f) s).rws = s.rws := rfl
@[simp] theorem takeException_setup_rwe (s : State) (w : Word) (f : FormatError) : (takeException w (.setup f) s).rwe = s.rwe := rfl
@[simp] theorem takeException_setup_vdim (s : State) (w : Word) (f : FormatError) : (takeException w (.setup f) s).vdim = s.vdim := rfl
@[simp] theorem takeException_setup_cbSel (s : State) (w : Word) (f : FormatError) : (takeException w (.setup f) s).cbSel = s.cbSel := rfl
@[simp] theorem takeException_setup_books (s : State) (w : Word) (f : FormatError) : (takeException w (.setup f) s).books = s.books := rfl
@[simp] theorem takeException_setup_lbase (s : State) (w : Word) (f : FormatError) : (takeException w (.setup f) s).lbase = s.lbase := rfl
@[simp] theorem takeException_setup_llen (s : State) (w : Word) (f : FormatError) : (takeException w (.setup f) s).llen = s.llen := rfl
@[simp] theorem takeException_setup_cmdWord (s : State) (w : Word) (f : FormatError) : (takeException w (.setup f) s).cmdWord = s.cmdWord := rfl
@[simp] theorem takeException_setup_mem (s : State) (w : Word) (f : FormatError) : (takeException w (.setup f) s).mem = s.mem := rfl
@[simp] theorem takeException_setup_params (s : State) (w : Word) (f : FormatError) : (takeException w (.setup f) s).params = s.params := rfl
@[simp] theorem takeException_setup_host (s : State) (w : Word) (f : FormatError) : (takeException w (.setup f) s).host = s.host := rfl
@[simp] theorem takeException_setup_latency (s : State) (w : Word) (f : FormatError) : (takeException w (.setup f) s).latency = s.latency := rfl
@[simp] theorem takeException_setup_busyFor (s : State) (w : Word) (f : FormatError) : (takeException w (.setup f) s).busyFor = s.busyFor := rfl
@[simp] theorem takeException_setup_busOut (s : State) (w : Word) (f : FormatError) : (takeException w (.setup f) s).busOut = s.busOut := rfl
@[simp] theorem takeException_setup_draws (s : State) (w : Word) (f : FormatError) : (takeException w (.setup f) s).draws = s.draws := rfl

/-! ## A decode-phase FormatError (R244) -/

@[simp] theorem takeException_decode_busy (s : State) (w : Word) (f : FormatError) (p : Word) : (takeException w (.decode f p) s).busy = s.busy := rfl
@[simp] theorem takeException_decode_setupState (s : State) (w : Word) (f : FormatError) (p : Word) : (takeException w (.decode f p) s).setupState = s.setupState := rfl
@[simp] theorem takeException_decode_cfgDone (s : State) (w : Word) (f : FormatError) (p : Word) : (takeException w (.decode f p) s).cfgDone = s.cfgDone := rfl
@[simp] theorem takeException_decode_decState (s : State) (w : Word) (f : FormatError) (p : Word) : (takeException w (.decode f p) s).decState = .failed := rfl
@[simp] theorem takeException_decode_pcmValid (s : State) (w : Word) (f : FormatError) (p : Word) : (takeException w (.decode f p) s).pcmValid = false := rfl
@[simp] theorem takeException_decode_cmdErr (s : State) (w : Word) (f : FormatError) (p : Word) : (takeException w (.decode f p) s).cmdErr = s.cmdErr := rfl
@[simp] theorem takeException_decode_ignored (s : State) (w : Word) (f : FormatError) (p : Word) : (takeException w (.decode f p) s).ignored = s.ignored := rfl
@[simp] theorem takeException_decode_bound (s : State) (w : Word) (f : FormatError) (p : Word) : (takeException w (.decode f p) s).bound = s.bound := rfl
@[simp] theorem takeException_decode_seq (s : State) (w : Word) (f : FormatError) (p : Word) : (takeException w (.decode f p) s).seq = s.seq := rfl
@[simp] theorem takeException_decode_budgetEn (s : State) (w : Word) (f : FormatError) (p : Word) : (takeException w (.decode f p) s).budgetEn = s.budgetEn := rfl
@[simp] theorem takeException_decode_fmtCode (s : State) (w : Word) (f : FormatError) (p : Word) : (takeException w (.decode f p) s).fmtCode = some f := rfl
@[simp] theorem takeException_decode_cmdCode (s : State) (w : Word) (f : FormatError) (p : Word) : (takeException w (.decode f p) s).cmdCode = s.cmdCode := rfl
@[simp] theorem takeException_decode_result (s : State) (w : Word) (f : FormatError) (p : Word) : (takeException w (.decode f p) s).result = s.result := rfl
@[simp] theorem takeException_decode_errCmd (s : State) (w : Word) (f : FormatError) (p : Word) : (takeException w (.decode f p) s).errCmd = w := rfl
@[simp] theorem takeException_decode_errPos (s : State) (w : Word) (f : FormatError) (p : Word) : (takeException w (.decode f p) s).errPos = p := rfl
@[simp] theorem takeException_decode_cfgE0 (s : State) (w : Word) (f : FormatError) (p : Word) : (takeException w (.decode f p) s).cfgE0 = s.cfgE0 := rfl
@[simp] theorem takeException_decode_cfgE1 (s : State) (w : Word) (f : FormatError) (p : Word) : (takeException w (.decode f p) s).cfgE1 = s.cfgE1 := rfl
@[simp] theorem takeException_decode_cfgCbm1 (s : State) (w : Word) (f : FormatError) (p : Word) : (takeException w (.decode f p) s).cfgCbm1 = s.cfgCbm1 := rfl
@[simp] theorem takeException_decode_pktBase (s : State) (w : Word) (f : FormatError) (p : Word) : (takeException w (.decode f p) s).pktBase = s.pktBase := rfl
@[simp] theorem takeException_decode_pktLen (s : State) (w : Word) (f : FormatError) (p : Word) : (takeException w (.decode f p) s).pktLen = s.pktLen := rfl
@[simp] theorem takeException_decode_bitPos (s : State) (w : Word) (f : FormatError) (p : Word) : (takeException w (.decode f p) s).bitPos = s.bitPos := rfl
@[simp] theorem takeException_decode_sampleCount (s : State) (w : Word) (f : FormatError) (p : Word) : (takeException w (.decode f p) s).sampleCount = s.sampleCount := rfl
@[simp] theorem takeException_decode_packetCount (s : State) (w : Word) (f : FormatError) (p : Word) : (takeException w (.decode f p) s).packetCount = s.packetCount := rfl
@[simp] theorem takeException_decode_budget (s : State) (w : Word) (f : FormatError) (p : Word) : (takeException w (.decode f p) s).budget = s.budget := rfl
@[simp] theorem takeException_decode_pcmCursor (s : State) (w : Word) (f : FormatError) (p : Word) : (takeException w (.decode f p) s).pcmCursor = s.pcmCursor := rfl
@[simp] theorem takeException_decode_packetIndex (s : State) (w : Word) (f : FormatError) (p : Word) : (takeException w (.decode f p) s).packetIndex = s.packetIndex := rfl
@[simp] theorem takeException_decode_prevN (s : State) (w : Word) (f : FormatError) (p : Word) : (takeException w (.decode f p) s).prevN = s.prevN := rfl
@[simp] theorem takeException_decode_prevREnd (s : State) (w : Word) (f : FormatError) (p : Word) : (takeException w (.decode f p) s).prevREnd = s.prevREnd := rfl
@[simp] theorem takeException_decode_prevShort (s : State) (w : Word) (f : FormatError) (p : Word) : (takeException w (.decode f p) s).prevShort = s.prevShort := rfl
@[simp] theorem takeException_decode_blkN (s : State) (w : Word) (f : FormatError) (p : Word) : (takeException w (.decode f p) s).blkN = s.blkN := rfl
@[simp] theorem takeException_decode_blkLong (s : State) (w : Word) (f : FormatError) (p : Word) : (takeException w (.decode f p) s).blkLong = s.blkLong := rfl
@[simp] theorem takeException_decode_blkPrevLong (s : State) (w : Word) (f : FormatError) (p : Word) : (takeException w (.decode f p) s).blkPrevLong = s.blkPrevLong := rfl
@[simp] theorem takeException_decode_blkNextLong (s : State) (w : Word) (f : FormatError) (p : Word) : (takeException w (.decode f p) s).blkNextLong = s.blkNextLong := rfl
@[simp] theorem takeException_decode_blkZero (s : State) (w : Word) (f : FormatError) (p : Word) : (takeException w (.decode f p) s).blkZero = s.blkZero := rfl
@[simp] theorem takeException_decode_lws (s : State) (w : Word) (f : FormatError) (p : Word) : (takeException w (.decode f p) s).lws = s.lws := rfl
@[simp] theorem takeException_decode_lwe (s : State) (w : Word) (f : FormatError) (p : Word) : (takeException w (.decode f p) s).lwe = s.lwe := rfl
@[simp] theorem takeException_decode_rws (s : State) (w : Word) (f : FormatError) (p : Word) : (takeException w (.decode f p) s).rws = s.rws := rfl
@[simp] theorem takeException_decode_rwe (s : State) (w : Word) (f : FormatError) (p : Word) : (takeException w (.decode f p) s).rwe = s.rwe := rfl
@[simp] theorem takeException_decode_vdim (s : State) (w : Word) (f : FormatError) (p : Word) : (takeException w (.decode f p) s).vdim = s.vdim := rfl
@[simp] theorem takeException_decode_cbSel (s : State) (w : Word) (f : FormatError) (p : Word) : (takeException w (.decode f p) s).cbSel = s.cbSel := rfl
@[simp] theorem takeException_decode_books (s : State) (w : Word) (f : FormatError) (p : Word) : (takeException w (.decode f p) s).books = s.books := rfl
@[simp] theorem takeException_decode_lbase (s : State) (w : Word) (f : FormatError) (p : Word) : (takeException w (.decode f p) s).lbase = s.lbase := rfl
@[simp] theorem takeException_decode_llen (s : State) (w : Word) (f : FormatError) (p : Word) : (takeException w (.decode f p) s).llen = s.llen := rfl
@[simp] theorem takeException_decode_cmdWord (s : State) (w : Word) (f : FormatError) (p : Word) : (takeException w (.decode f p) s).cmdWord = s.cmdWord := rfl
@[simp] theorem takeException_decode_mem (s : State) (w : Word) (f : FormatError) (p : Word) : (takeException w (.decode f p) s).mem = s.mem := rfl
@[simp] theorem takeException_decode_params (s : State) (w : Word) (f : FormatError) (p : Word) : (takeException w (.decode f p) s).params = s.params := rfl
@[simp] theorem takeException_decode_host (s : State) (w : Word) (f : FormatError) (p : Word) : (takeException w (.decode f p) s).host = s.host := rfl
@[simp] theorem takeException_decode_latency (s : State) (w : Word) (f : FormatError) (p : Word) : (takeException w (.decode f p) s).latency = s.latency := rfl
@[simp] theorem takeException_decode_busyFor (s : State) (w : Word) (f : FormatError) (p : Word) : (takeException w (.decode f p) s).busyFor = s.busyFor := rfl
@[simp] theorem takeException_decode_busOut (s : State) (w : Word) (f : FormatError) (p : Word) : (takeException w (.decode f p) s).busOut = s.busOut := rfl
@[simp] theorem takeException_decode_draws (s : State) (w : Word) (f : FormatError) (p : Word) : (takeException w (.decode f p) s).draws = s.draws := rfl

/-! ## A bus error (R69) -/

@[simp] theorem recordBusError_busy (s : State) : (recordBusError s).busy = s.busy := rfl
@[simp] theorem recordBusError_setupState (s : State) : (recordBusError s).setupState = s.setupState := rfl
@[simp] theorem recordBusError_cfgDone (s : State) : (recordBusError s).cfgDone = s.cfgDone := rfl
@[simp] theorem recordBusError_decState (s : State) : (recordBusError s).decState = s.decState := rfl
@[simp] theorem recordBusError_pcmValid (s : State) : (recordBusError s).pcmValid = s.pcmValid := rfl
@[simp] theorem recordBusError_cmdErr (s : State) : (recordBusError s).cmdErr = true := rfl
@[simp] theorem recordBusError_ignored (s : State) : (recordBusError s).ignored = s.ignored := rfl
@[simp] theorem recordBusError_bound (s : State) : (recordBusError s).bound = s.bound := rfl
@[simp] theorem recordBusError_seq (s : State) : (recordBusError s).seq = s.seq := rfl
@[simp] theorem recordBusError_budgetEn (s : State) : (recordBusError s).budgetEn = s.budgetEn := rfl
@[simp] theorem recordBusError_fmtCode (s : State) : (recordBusError s).fmtCode = s.fmtCode := rfl
@[simp] theorem recordBusError_cmdCode (s : State) : (recordBusError s).cmdCode = some .bus := rfl
@[simp] theorem recordBusError_result (s : State) : (recordBusError s).result = s.result := rfl
@[simp] theorem recordBusError_errCmd (s : State) : (recordBusError s).errCmd = s.errCmd := rfl
@[simp] theorem recordBusError_errPos (s : State) : (recordBusError s).errPos = s.errPos := rfl
@[simp] theorem recordBusError_cfgE0 (s : State) : (recordBusError s).cfgE0 = s.cfgE0 := rfl
@[simp] theorem recordBusError_cfgE1 (s : State) : (recordBusError s).cfgE1 = s.cfgE1 := rfl
@[simp] theorem recordBusError_cfgCbm1 (s : State) : (recordBusError s).cfgCbm1 = s.cfgCbm1 := rfl
@[simp] theorem recordBusError_pktBase (s : State) : (recordBusError s).pktBase = s.pktBase := rfl
@[simp] theorem recordBusError_pktLen (s : State) : (recordBusError s).pktLen = s.pktLen := rfl
@[simp] theorem recordBusError_bitPos (s : State) : (recordBusError s).bitPos = s.bitPos := rfl
@[simp] theorem recordBusError_sampleCount (s : State) : (recordBusError s).sampleCount = s.sampleCount := rfl
@[simp] theorem recordBusError_packetCount (s : State) : (recordBusError s).packetCount = s.packetCount := rfl
@[simp] theorem recordBusError_budget (s : State) : (recordBusError s).budget = s.budget := rfl
@[simp] theorem recordBusError_pcmCursor (s : State) : (recordBusError s).pcmCursor = s.pcmCursor := rfl
@[simp] theorem recordBusError_packetIndex (s : State) : (recordBusError s).packetIndex = s.packetIndex := rfl
@[simp] theorem recordBusError_prevN (s : State) : (recordBusError s).prevN = s.prevN := rfl
@[simp] theorem recordBusError_prevREnd (s : State) : (recordBusError s).prevREnd = s.prevREnd := rfl
@[simp] theorem recordBusError_prevShort (s : State) : (recordBusError s).prevShort = s.prevShort := rfl
@[simp] theorem recordBusError_blkN (s : State) : (recordBusError s).blkN = s.blkN := rfl
@[simp] theorem recordBusError_blkLong (s : State) : (recordBusError s).blkLong = s.blkLong := rfl
@[simp] theorem recordBusError_blkPrevLong (s : State) : (recordBusError s).blkPrevLong = s.blkPrevLong := rfl
@[simp] theorem recordBusError_blkNextLong (s : State) : (recordBusError s).blkNextLong = s.blkNextLong := rfl
@[simp] theorem recordBusError_blkZero (s : State) : (recordBusError s).blkZero = s.blkZero := rfl
@[simp] theorem recordBusError_lws (s : State) : (recordBusError s).lws = s.lws := rfl
@[simp] theorem recordBusError_lwe (s : State) : (recordBusError s).lwe = s.lwe := rfl
@[simp] theorem recordBusError_rws (s : State) : (recordBusError s).rws = s.rws := rfl
@[simp] theorem recordBusError_rwe (s : State) : (recordBusError s).rwe = s.rwe := rfl
@[simp] theorem recordBusError_vdim (s : State) : (recordBusError s).vdim = s.vdim := rfl
@[simp] theorem recordBusError_cbSel (s : State) : (recordBusError s).cbSel = s.cbSel := rfl
@[simp] theorem recordBusError_books (s : State) : (recordBusError s).books = s.books := rfl
@[simp] theorem recordBusError_lbase (s : State) : (recordBusError s).lbase = s.lbase := rfl
@[simp] theorem recordBusError_llen (s : State) : (recordBusError s).llen = s.llen := rfl
@[simp] theorem recordBusError_cmdWord (s : State) : (recordBusError s).cmdWord = s.cmdWord := rfl
@[simp] theorem recordBusError_mem (s : State) : (recordBusError s).mem = s.mem := rfl
@[simp] theorem recordBusError_params (s : State) : (recordBusError s).params = s.params := rfl
@[simp] theorem recordBusError_host (s : State) : (recordBusError s).host = s.host := rfl
@[simp] theorem recordBusError_latency (s : State) : (recordBusError s).latency = s.latency := rfl
@[simp] theorem recordBusError_busyFor (s : State) : (recordBusError s).busyFor = s.busyFor := rfl
@[simp] theorem recordBusError_busOut (s : State) : (recordBusError s).busOut = s.busOut := rfl
@[simp] theorem recordBusError_draws (s : State) : (recordBusError s).draws = s.draws := rfl

/-! ## Writing words of a region -/

@[simp] theorem writeWords_busy (s : State) (r : Region) (bank i : Nat) (ws : List Word) : (s.writeWords r bank i ws).busy = s.busy := rfl
@[simp] theorem writeWords_setupState (s : State) (r : Region) (bank i : Nat) (ws : List Word) : (s.writeWords r bank i ws).setupState = s.setupState := rfl
@[simp] theorem writeWords_cfgDone (s : State) (r : Region) (bank i : Nat) (ws : List Word) : (s.writeWords r bank i ws).cfgDone = s.cfgDone := rfl
@[simp] theorem writeWords_decState (s : State) (r : Region) (bank i : Nat) (ws : List Word) : (s.writeWords r bank i ws).decState = s.decState := rfl
@[simp] theorem writeWords_pcmValid (s : State) (r : Region) (bank i : Nat) (ws : List Word) : (s.writeWords r bank i ws).pcmValid = s.pcmValid := rfl
@[simp] theorem writeWords_cmdErr (s : State) (r : Region) (bank i : Nat) (ws : List Word) : (s.writeWords r bank i ws).cmdErr = s.cmdErr := rfl
@[simp] theorem writeWords_ignored (s : State) (r : Region) (bank i : Nat) (ws : List Word) : (s.writeWords r bank i ws).ignored = s.ignored := rfl
@[simp] theorem writeWords_bound (s : State) (r : Region) (bank i : Nat) (ws : List Word) : (s.writeWords r bank i ws).bound = s.bound := rfl
@[simp] theorem writeWords_seq (s : State) (r : Region) (bank i : Nat) (ws : List Word) : (s.writeWords r bank i ws).seq = s.seq := rfl
@[simp] theorem writeWords_budgetEn (s : State) (r : Region) (bank i : Nat) (ws : List Word) : (s.writeWords r bank i ws).budgetEn = s.budgetEn := rfl
@[simp] theorem writeWords_fmtCode (s : State) (r : Region) (bank i : Nat) (ws : List Word) : (s.writeWords r bank i ws).fmtCode = s.fmtCode := rfl
@[simp] theorem writeWords_cmdCode (s : State) (r : Region) (bank i : Nat) (ws : List Word) : (s.writeWords r bank i ws).cmdCode = s.cmdCode := rfl
@[simp] theorem writeWords_result (s : State) (r : Region) (bank i : Nat) (ws : List Word) : (s.writeWords r bank i ws).result = s.result := rfl
@[simp] theorem writeWords_errCmd (s : State) (r : Region) (bank i : Nat) (ws : List Word) : (s.writeWords r bank i ws).errCmd = s.errCmd := rfl
@[simp] theorem writeWords_errPos (s : State) (r : Region) (bank i : Nat) (ws : List Word) : (s.writeWords r bank i ws).errPos = s.errPos := rfl
@[simp] theorem writeWords_cfgE0 (s : State) (r : Region) (bank i : Nat) (ws : List Word) : (s.writeWords r bank i ws).cfgE0 = s.cfgE0 := rfl
@[simp] theorem writeWords_cfgE1 (s : State) (r : Region) (bank i : Nat) (ws : List Word) : (s.writeWords r bank i ws).cfgE1 = s.cfgE1 := rfl
@[simp] theorem writeWords_cfgCbm1 (s : State) (r : Region) (bank i : Nat) (ws : List Word) : (s.writeWords r bank i ws).cfgCbm1 = s.cfgCbm1 := rfl
@[simp] theorem writeWords_pktBase (s : State) (r : Region) (bank i : Nat) (ws : List Word) : (s.writeWords r bank i ws).pktBase = s.pktBase := rfl
@[simp] theorem writeWords_pktLen (s : State) (r : Region) (bank i : Nat) (ws : List Word) : (s.writeWords r bank i ws).pktLen = s.pktLen := rfl
@[simp] theorem writeWords_bitPos (s : State) (r : Region) (bank i : Nat) (ws : List Word) : (s.writeWords r bank i ws).bitPos = s.bitPos := rfl
@[simp] theorem writeWords_sampleCount (s : State) (r : Region) (bank i : Nat) (ws : List Word) : (s.writeWords r bank i ws).sampleCount = s.sampleCount := rfl
@[simp] theorem writeWords_packetCount (s : State) (r : Region) (bank i : Nat) (ws : List Word) : (s.writeWords r bank i ws).packetCount = s.packetCount := rfl
@[simp] theorem writeWords_budget (s : State) (r : Region) (bank i : Nat) (ws : List Word) : (s.writeWords r bank i ws).budget = s.budget := rfl
@[simp] theorem writeWords_pcmCursor (s : State) (r : Region) (bank i : Nat) (ws : List Word) : (s.writeWords r bank i ws).pcmCursor = s.pcmCursor := rfl
@[simp] theorem writeWords_packetIndex (s : State) (r : Region) (bank i : Nat) (ws : List Word) : (s.writeWords r bank i ws).packetIndex = s.packetIndex := rfl
@[simp] theorem writeWords_prevN (s : State) (r : Region) (bank i : Nat) (ws : List Word) : (s.writeWords r bank i ws).prevN = s.prevN := rfl
@[simp] theorem writeWords_prevREnd (s : State) (r : Region) (bank i : Nat) (ws : List Word) : (s.writeWords r bank i ws).prevREnd = s.prevREnd := rfl
@[simp] theorem writeWords_prevShort (s : State) (r : Region) (bank i : Nat) (ws : List Word) : (s.writeWords r bank i ws).prevShort = s.prevShort := rfl
@[simp] theorem writeWords_blkN (s : State) (r : Region) (bank i : Nat) (ws : List Word) : (s.writeWords r bank i ws).blkN = s.blkN := rfl
@[simp] theorem writeWords_blkLong (s : State) (r : Region) (bank i : Nat) (ws : List Word) : (s.writeWords r bank i ws).blkLong = s.blkLong := rfl
@[simp] theorem writeWords_blkPrevLong (s : State) (r : Region) (bank i : Nat) (ws : List Word) : (s.writeWords r bank i ws).blkPrevLong = s.blkPrevLong := rfl
@[simp] theorem writeWords_blkNextLong (s : State) (r : Region) (bank i : Nat) (ws : List Word) : (s.writeWords r bank i ws).blkNextLong = s.blkNextLong := rfl
@[simp] theorem writeWords_blkZero (s : State) (r : Region) (bank i : Nat) (ws : List Word) : (s.writeWords r bank i ws).blkZero = s.blkZero := rfl
@[simp] theorem writeWords_lws (s : State) (r : Region) (bank i : Nat) (ws : List Word) : (s.writeWords r bank i ws).lws = s.lws := rfl
@[simp] theorem writeWords_lwe (s : State) (r : Region) (bank i : Nat) (ws : List Word) : (s.writeWords r bank i ws).lwe = s.lwe := rfl
@[simp] theorem writeWords_rws (s : State) (r : Region) (bank i : Nat) (ws : List Word) : (s.writeWords r bank i ws).rws = s.rws := rfl
@[simp] theorem writeWords_rwe (s : State) (r : Region) (bank i : Nat) (ws : List Word) : (s.writeWords r bank i ws).rwe = s.rwe := rfl
@[simp] theorem writeWords_vdim (s : State) (r : Region) (bank i : Nat) (ws : List Word) : (s.writeWords r bank i ws).vdim = s.vdim := rfl
@[simp] theorem writeWords_cbSel (s : State) (r : Region) (bank i : Nat) (ws : List Word) : (s.writeWords r bank i ws).cbSel = s.cbSel := rfl
@[simp] theorem writeWords_books (s : State) (r : Region) (bank i : Nat) (ws : List Word) : (s.writeWords r bank i ws).books = s.books := rfl
@[simp] theorem writeWords_lbase (s : State) (r : Region) (bank i : Nat) (ws : List Word) : (s.writeWords r bank i ws).lbase = s.lbase := rfl
@[simp] theorem writeWords_llen (s : State) (r : Region) (bank i : Nat) (ws : List Word) : (s.writeWords r bank i ws).llen = s.llen := rfl
@[simp] theorem writeWords_cmdWord (s : State) (r : Region) (bank i : Nat) (ws : List Word) : (s.writeWords r bank i ws).cmdWord = s.cmdWord := rfl
@[simp] theorem writeWords_mem (s : State) (r : Region) (bank i : Nat) (ws : List Word) : (s.writeWords r bank i ws).mem = s.mem.writeWords (regionKey r bank (4 * i)) ws := rfl
@[simp] theorem writeWords_params (s : State) (r : Region) (bank i : Nat) (ws : List Word) : (s.writeWords r bank i ws).params = s.params := rfl
@[simp] theorem writeWords_host (s : State) (r : Region) (bank i : Nat) (ws : List Word) : (s.writeWords r bank i ws).host = s.host := rfl
@[simp] theorem writeWords_latency (s : State) (r : Region) (bank i : Nat) (ws : List Word) : (s.writeWords r bank i ws).latency = s.latency := rfl
@[simp] theorem writeWords_busyFor (s : State) (r : Region) (bank i : Nat) (ws : List Word) : (s.writeWords r bank i ws).busyFor = s.busyFor := rfl
@[simp] theorem writeWords_busOut (s : State) (r : Region) (bank i : Nat) (ws : List Word) : (s.writeWords r bank i ws).busOut = s.busOut := rfl
@[simp] theorem writeWords_draws (s : State) (r : Region) (bank i : Nat) (ws : List Word) : (s.writeWords r bank i ws).draws = s.draws := rfl

/-! ## Writing bytes of a region -/

@[simp] theorem writeBytes_busy (s : State) (r : Region) (i : Nat) (bs : List Byte) : (s.writeBytes r i bs).busy = s.busy := rfl
@[simp] theorem writeBytes_setupState (s : State) (r : Region) (i : Nat) (bs : List Byte) : (s.writeBytes r i bs).setupState = s.setupState := rfl
@[simp] theorem writeBytes_cfgDone (s : State) (r : Region) (i : Nat) (bs : List Byte) : (s.writeBytes r i bs).cfgDone = s.cfgDone := rfl
@[simp] theorem writeBytes_decState (s : State) (r : Region) (i : Nat) (bs : List Byte) : (s.writeBytes r i bs).decState = s.decState := rfl
@[simp] theorem writeBytes_pcmValid (s : State) (r : Region) (i : Nat) (bs : List Byte) : (s.writeBytes r i bs).pcmValid = s.pcmValid := rfl
@[simp] theorem writeBytes_cmdErr (s : State) (r : Region) (i : Nat) (bs : List Byte) : (s.writeBytes r i bs).cmdErr = s.cmdErr := rfl
@[simp] theorem writeBytes_ignored (s : State) (r : Region) (i : Nat) (bs : List Byte) : (s.writeBytes r i bs).ignored = s.ignored := rfl
@[simp] theorem writeBytes_bound (s : State) (r : Region) (i : Nat) (bs : List Byte) : (s.writeBytes r i bs).bound = s.bound := rfl
@[simp] theorem writeBytes_seq (s : State) (r : Region) (i : Nat) (bs : List Byte) : (s.writeBytes r i bs).seq = s.seq := rfl
@[simp] theorem writeBytes_budgetEn (s : State) (r : Region) (i : Nat) (bs : List Byte) : (s.writeBytes r i bs).budgetEn = s.budgetEn := rfl
@[simp] theorem writeBytes_fmtCode (s : State) (r : Region) (i : Nat) (bs : List Byte) : (s.writeBytes r i bs).fmtCode = s.fmtCode := rfl
@[simp] theorem writeBytes_cmdCode (s : State) (r : Region) (i : Nat) (bs : List Byte) : (s.writeBytes r i bs).cmdCode = s.cmdCode := rfl
@[simp] theorem writeBytes_result (s : State) (r : Region) (i : Nat) (bs : List Byte) : (s.writeBytes r i bs).result = s.result := rfl
@[simp] theorem writeBytes_errCmd (s : State) (r : Region) (i : Nat) (bs : List Byte) : (s.writeBytes r i bs).errCmd = s.errCmd := rfl
@[simp] theorem writeBytes_errPos (s : State) (r : Region) (i : Nat) (bs : List Byte) : (s.writeBytes r i bs).errPos = s.errPos := rfl
@[simp] theorem writeBytes_cfgE0 (s : State) (r : Region) (i : Nat) (bs : List Byte) : (s.writeBytes r i bs).cfgE0 = s.cfgE0 := rfl
@[simp] theorem writeBytes_cfgE1 (s : State) (r : Region) (i : Nat) (bs : List Byte) : (s.writeBytes r i bs).cfgE1 = s.cfgE1 := rfl
@[simp] theorem writeBytes_cfgCbm1 (s : State) (r : Region) (i : Nat) (bs : List Byte) : (s.writeBytes r i bs).cfgCbm1 = s.cfgCbm1 := rfl
@[simp] theorem writeBytes_pktBase (s : State) (r : Region) (i : Nat) (bs : List Byte) : (s.writeBytes r i bs).pktBase = s.pktBase := rfl
@[simp] theorem writeBytes_pktLen (s : State) (r : Region) (i : Nat) (bs : List Byte) : (s.writeBytes r i bs).pktLen = s.pktLen := rfl
@[simp] theorem writeBytes_bitPos (s : State) (r : Region) (i : Nat) (bs : List Byte) : (s.writeBytes r i bs).bitPos = s.bitPos := rfl
@[simp] theorem writeBytes_sampleCount (s : State) (r : Region) (i : Nat) (bs : List Byte) : (s.writeBytes r i bs).sampleCount = s.sampleCount := rfl
@[simp] theorem writeBytes_packetCount (s : State) (r : Region) (i : Nat) (bs : List Byte) : (s.writeBytes r i bs).packetCount = s.packetCount := rfl
@[simp] theorem writeBytes_budget (s : State) (r : Region) (i : Nat) (bs : List Byte) : (s.writeBytes r i bs).budget = s.budget := rfl
@[simp] theorem writeBytes_pcmCursor (s : State) (r : Region) (i : Nat) (bs : List Byte) : (s.writeBytes r i bs).pcmCursor = s.pcmCursor := rfl
@[simp] theorem writeBytes_packetIndex (s : State) (r : Region) (i : Nat) (bs : List Byte) : (s.writeBytes r i bs).packetIndex = s.packetIndex := rfl
@[simp] theorem writeBytes_prevN (s : State) (r : Region) (i : Nat) (bs : List Byte) : (s.writeBytes r i bs).prevN = s.prevN := rfl
@[simp] theorem writeBytes_prevREnd (s : State) (r : Region) (i : Nat) (bs : List Byte) : (s.writeBytes r i bs).prevREnd = s.prevREnd := rfl
@[simp] theorem writeBytes_prevShort (s : State) (r : Region) (i : Nat) (bs : List Byte) : (s.writeBytes r i bs).prevShort = s.prevShort := rfl
@[simp] theorem writeBytes_blkN (s : State) (r : Region) (i : Nat) (bs : List Byte) : (s.writeBytes r i bs).blkN = s.blkN := rfl
@[simp] theorem writeBytes_blkLong (s : State) (r : Region) (i : Nat) (bs : List Byte) : (s.writeBytes r i bs).blkLong = s.blkLong := rfl
@[simp] theorem writeBytes_blkPrevLong (s : State) (r : Region) (i : Nat) (bs : List Byte) : (s.writeBytes r i bs).blkPrevLong = s.blkPrevLong := rfl
@[simp] theorem writeBytes_blkNextLong (s : State) (r : Region) (i : Nat) (bs : List Byte) : (s.writeBytes r i bs).blkNextLong = s.blkNextLong := rfl
@[simp] theorem writeBytes_blkZero (s : State) (r : Region) (i : Nat) (bs : List Byte) : (s.writeBytes r i bs).blkZero = s.blkZero := rfl
@[simp] theorem writeBytes_lws (s : State) (r : Region) (i : Nat) (bs : List Byte) : (s.writeBytes r i bs).lws = s.lws := rfl
@[simp] theorem writeBytes_lwe (s : State) (r : Region) (i : Nat) (bs : List Byte) : (s.writeBytes r i bs).lwe = s.lwe := rfl
@[simp] theorem writeBytes_rws (s : State) (r : Region) (i : Nat) (bs : List Byte) : (s.writeBytes r i bs).rws = s.rws := rfl
@[simp] theorem writeBytes_rwe (s : State) (r : Region) (i : Nat) (bs : List Byte) : (s.writeBytes r i bs).rwe = s.rwe := rfl
@[simp] theorem writeBytes_vdim (s : State) (r : Region) (i : Nat) (bs : List Byte) : (s.writeBytes r i bs).vdim = s.vdim := rfl
@[simp] theorem writeBytes_cbSel (s : State) (r : Region) (i : Nat) (bs : List Byte) : (s.writeBytes r i bs).cbSel = s.cbSel := rfl
@[simp] theorem writeBytes_books (s : State) (r : Region) (i : Nat) (bs : List Byte) : (s.writeBytes r i bs).books = s.books := rfl
@[simp] theorem writeBytes_lbase (s : State) (r : Region) (i : Nat) (bs : List Byte) : (s.writeBytes r i bs).lbase = s.lbase := rfl
@[simp] theorem writeBytes_llen (s : State) (r : Region) (i : Nat) (bs : List Byte) : (s.writeBytes r i bs).llen = s.llen := rfl
@[simp] theorem writeBytes_cmdWord (s : State) (r : Region) (i : Nat) (bs : List Byte) : (s.writeBytes r i bs).cmdWord = s.cmdWord := rfl
@[simp] theorem writeBytes_mem (s : State) (r : Region) (i : Nat) (bs : List Byte) : (s.writeBytes r i bs).mem = s.mem.writeBytes (regionKey r 0 i) bs := rfl
@[simp] theorem writeBytes_params (s : State) (r : Region) (i : Nat) (bs : List Byte) : (s.writeBytes r i bs).params = s.params := rfl
@[simp] theorem writeBytes_host (s : State) (r : Region) (i : Nat) (bs : List Byte) : (s.writeBytes r i bs).host = s.host := rfl
@[simp] theorem writeBytes_latency (s : State) (r : Region) (i : Nat) (bs : List Byte) : (s.writeBytes r i bs).latency = s.latency := rfl
@[simp] theorem writeBytes_busyFor (s : State) (r : Region) (i : Nat) (bs : List Byte) : (s.writeBytes r i bs).busyFor = s.busyFor := rfl
@[simp] theorem writeBytes_busOut (s : State) (r : Region) (i : Nat) (bs : List Byte) : (s.writeBytes r i bs).busOut = s.busOut := rfl
@[simp] theorem writeBytes_draws (s : State) (r : Region) (i : Nat) (bs : List Byte) : (s.writeBytes r i bs).draws = s.draws := rfl

/-! ## Forgetting a region -/

@[simp] theorem forgetRegion_busy (s : State) (r : Region) : (s.forgetRegion r).busy = s.busy := rfl
@[simp] theorem forgetRegion_setupState (s : State) (r : Region) : (s.forgetRegion r).setupState = s.setupState := rfl
@[simp] theorem forgetRegion_cfgDone (s : State) (r : Region) : (s.forgetRegion r).cfgDone = s.cfgDone := rfl
@[simp] theorem forgetRegion_decState (s : State) (r : Region) : (s.forgetRegion r).decState = s.decState := rfl
@[simp] theorem forgetRegion_pcmValid (s : State) (r : Region) : (s.forgetRegion r).pcmValid = s.pcmValid := rfl
@[simp] theorem forgetRegion_cmdErr (s : State) (r : Region) : (s.forgetRegion r).cmdErr = s.cmdErr := rfl
@[simp] theorem forgetRegion_ignored (s : State) (r : Region) : (s.forgetRegion r).ignored = s.ignored := rfl
@[simp] theorem forgetRegion_bound (s : State) (r : Region) : (s.forgetRegion r).bound = s.bound := rfl
@[simp] theorem forgetRegion_seq (s : State) (r : Region) : (s.forgetRegion r).seq = s.seq := rfl
@[simp] theorem forgetRegion_budgetEn (s : State) (r : Region) : (s.forgetRegion r).budgetEn = s.budgetEn := rfl
@[simp] theorem forgetRegion_fmtCode (s : State) (r : Region) : (s.forgetRegion r).fmtCode = s.fmtCode := rfl
@[simp] theorem forgetRegion_cmdCode (s : State) (r : Region) : (s.forgetRegion r).cmdCode = s.cmdCode := rfl
@[simp] theorem forgetRegion_result (s : State) (r : Region) : (s.forgetRegion r).result = s.result := rfl
@[simp] theorem forgetRegion_errCmd (s : State) (r : Region) : (s.forgetRegion r).errCmd = s.errCmd := rfl
@[simp] theorem forgetRegion_errPos (s : State) (r : Region) : (s.forgetRegion r).errPos = s.errPos := rfl
@[simp] theorem forgetRegion_cfgE0 (s : State) (r : Region) : (s.forgetRegion r).cfgE0 = s.cfgE0 := rfl
@[simp] theorem forgetRegion_cfgE1 (s : State) (r : Region) : (s.forgetRegion r).cfgE1 = s.cfgE1 := rfl
@[simp] theorem forgetRegion_cfgCbm1 (s : State) (r : Region) : (s.forgetRegion r).cfgCbm1 = s.cfgCbm1 := rfl
@[simp] theorem forgetRegion_pktBase (s : State) (r : Region) : (s.forgetRegion r).pktBase = s.pktBase := rfl
@[simp] theorem forgetRegion_pktLen (s : State) (r : Region) : (s.forgetRegion r).pktLen = s.pktLen := rfl
@[simp] theorem forgetRegion_bitPos (s : State) (r : Region) : (s.forgetRegion r).bitPos = s.bitPos := rfl
@[simp] theorem forgetRegion_sampleCount (s : State) (r : Region) : (s.forgetRegion r).sampleCount = s.sampleCount := rfl
@[simp] theorem forgetRegion_packetCount (s : State) (r : Region) : (s.forgetRegion r).packetCount = s.packetCount := rfl
@[simp] theorem forgetRegion_budget (s : State) (r : Region) : (s.forgetRegion r).budget = s.budget := rfl
@[simp] theorem forgetRegion_pcmCursor (s : State) (r : Region) : (s.forgetRegion r).pcmCursor = s.pcmCursor := rfl
@[simp] theorem forgetRegion_packetIndex (s : State) (r : Region) : (s.forgetRegion r).packetIndex = s.packetIndex := rfl
@[simp] theorem forgetRegion_prevN (s : State) (r : Region) : (s.forgetRegion r).prevN = s.prevN := rfl
@[simp] theorem forgetRegion_prevREnd (s : State) (r : Region) : (s.forgetRegion r).prevREnd = s.prevREnd := rfl
@[simp] theorem forgetRegion_prevShort (s : State) (r : Region) : (s.forgetRegion r).prevShort = s.prevShort := rfl
@[simp] theorem forgetRegion_blkN (s : State) (r : Region) : (s.forgetRegion r).blkN = s.blkN := rfl
@[simp] theorem forgetRegion_blkLong (s : State) (r : Region) : (s.forgetRegion r).blkLong = s.blkLong := rfl
@[simp] theorem forgetRegion_blkPrevLong (s : State) (r : Region) : (s.forgetRegion r).blkPrevLong = s.blkPrevLong := rfl
@[simp] theorem forgetRegion_blkNextLong (s : State) (r : Region) : (s.forgetRegion r).blkNextLong = s.blkNextLong := rfl
@[simp] theorem forgetRegion_blkZero (s : State) (r : Region) : (s.forgetRegion r).blkZero = s.blkZero := rfl
@[simp] theorem forgetRegion_lws (s : State) (r : Region) : (s.forgetRegion r).lws = s.lws := rfl
@[simp] theorem forgetRegion_lwe (s : State) (r : Region) : (s.forgetRegion r).lwe = s.lwe := rfl
@[simp] theorem forgetRegion_rws (s : State) (r : Region) : (s.forgetRegion r).rws = s.rws := rfl
@[simp] theorem forgetRegion_rwe (s : State) (r : Region) : (s.forgetRegion r).rwe = s.rwe := rfl
@[simp] theorem forgetRegion_vdim (s : State) (r : Region) : (s.forgetRegion r).vdim = s.vdim := rfl
@[simp] theorem forgetRegion_cbSel (s : State) (r : Region) : (s.forgetRegion r).cbSel = s.cbSel := rfl
@[simp] theorem forgetRegion_books (s : State) (r : Region) : (s.forgetRegion r).books = s.books := rfl
@[simp] theorem forgetRegion_lbase (s : State) (r : Region) : (s.forgetRegion r).lbase = s.lbase := rfl
@[simp] theorem forgetRegion_llen (s : State) (r : Region) : (s.forgetRegion r).llen = s.llen := rfl
@[simp] theorem forgetRegion_cmdWord (s : State) (r : Region) : (s.forgetRegion r).cmdWord = s.cmdWord := rfl
@[simp] theorem forgetRegion_mem (s : State) (r : Region) : (s.forgetRegion r).mem = s.mem.forget (regionKey r 0 0) (r.bytes s.params) := rfl
@[simp] theorem forgetRegion_params (s : State) (r : Region) : (s.forgetRegion r).params = s.params := rfl
@[simp] theorem forgetRegion_host (s : State) (r : Region) : (s.forgetRegion r).host = s.host := rfl
@[simp] theorem forgetRegion_latency (s : State) (r : Region) : (s.forgetRegion r).latency = s.latency := rfl
@[simp] theorem forgetRegion_busyFor (s : State) (r : Region) : (s.forgetRegion r).busyFor = s.busyFor := rfl
@[simp] theorem forgetRegion_busOut (s : State) (r : Region) : (s.forgetRegion r).busOut = s.busOut := rfl
@[simp] theorem forgetRegion_draws (s : State) (r : Region) : (s.forgetRegion r).draws = s.draws := rfl

/-! ## Writing a codebook slot -/

@[simp] theorem setBook_busy (s : State) (c : Nat) (K : Codebook) : (s.setBook c K).busy = s.busy := rfl
@[simp] theorem setBook_setupState (s : State) (c : Nat) (K : Codebook) : (s.setBook c K).setupState = s.setupState := rfl
@[simp] theorem setBook_cfgDone (s : State) (c : Nat) (K : Codebook) : (s.setBook c K).cfgDone = s.cfgDone := rfl
@[simp] theorem setBook_decState (s : State) (c : Nat) (K : Codebook) : (s.setBook c K).decState = s.decState := rfl
@[simp] theorem setBook_pcmValid (s : State) (c : Nat) (K : Codebook) : (s.setBook c K).pcmValid = s.pcmValid := rfl
@[simp] theorem setBook_cmdErr (s : State) (c : Nat) (K : Codebook) : (s.setBook c K).cmdErr = s.cmdErr := rfl
@[simp] theorem setBook_ignored (s : State) (c : Nat) (K : Codebook) : (s.setBook c K).ignored = s.ignored := rfl
@[simp] theorem setBook_bound (s : State) (c : Nat) (K : Codebook) : (s.setBook c K).bound = s.bound := rfl
@[simp] theorem setBook_seq (s : State) (c : Nat) (K : Codebook) : (s.setBook c K).seq = s.seq := rfl
@[simp] theorem setBook_budgetEn (s : State) (c : Nat) (K : Codebook) : (s.setBook c K).budgetEn = s.budgetEn := rfl
@[simp] theorem setBook_fmtCode (s : State) (c : Nat) (K : Codebook) : (s.setBook c K).fmtCode = s.fmtCode := rfl
@[simp] theorem setBook_cmdCode (s : State) (c : Nat) (K : Codebook) : (s.setBook c K).cmdCode = s.cmdCode := rfl
@[simp] theorem setBook_result (s : State) (c : Nat) (K : Codebook) : (s.setBook c K).result = s.result := rfl
@[simp] theorem setBook_errCmd (s : State) (c : Nat) (K : Codebook) : (s.setBook c K).errCmd = s.errCmd := rfl
@[simp] theorem setBook_errPos (s : State) (c : Nat) (K : Codebook) : (s.setBook c K).errPos = s.errPos := rfl
@[simp] theorem setBook_cfgE0 (s : State) (c : Nat) (K : Codebook) : (s.setBook c K).cfgE0 = s.cfgE0 := rfl
@[simp] theorem setBook_cfgE1 (s : State) (c : Nat) (K : Codebook) : (s.setBook c K).cfgE1 = s.cfgE1 := rfl
@[simp] theorem setBook_cfgCbm1 (s : State) (c : Nat) (K : Codebook) : (s.setBook c K).cfgCbm1 = s.cfgCbm1 := rfl
@[simp] theorem setBook_pktBase (s : State) (c : Nat) (K : Codebook) : (s.setBook c K).pktBase = s.pktBase := rfl
@[simp] theorem setBook_pktLen (s : State) (c : Nat) (K : Codebook) : (s.setBook c K).pktLen = s.pktLen := rfl
@[simp] theorem setBook_bitPos (s : State) (c : Nat) (K : Codebook) : (s.setBook c K).bitPos = s.bitPos := rfl
@[simp] theorem setBook_sampleCount (s : State) (c : Nat) (K : Codebook) : (s.setBook c K).sampleCount = s.sampleCount := rfl
@[simp] theorem setBook_packetCount (s : State) (c : Nat) (K : Codebook) : (s.setBook c K).packetCount = s.packetCount := rfl
@[simp] theorem setBook_budget (s : State) (c : Nat) (K : Codebook) : (s.setBook c K).budget = s.budget := rfl
@[simp] theorem setBook_pcmCursor (s : State) (c : Nat) (K : Codebook) : (s.setBook c K).pcmCursor = s.pcmCursor := rfl
@[simp] theorem setBook_packetIndex (s : State) (c : Nat) (K : Codebook) : (s.setBook c K).packetIndex = s.packetIndex := rfl
@[simp] theorem setBook_prevN (s : State) (c : Nat) (K : Codebook) : (s.setBook c K).prevN = s.prevN := rfl
@[simp] theorem setBook_prevREnd (s : State) (c : Nat) (K : Codebook) : (s.setBook c K).prevREnd = s.prevREnd := rfl
@[simp] theorem setBook_prevShort (s : State) (c : Nat) (K : Codebook) : (s.setBook c K).prevShort = s.prevShort := rfl
@[simp] theorem setBook_blkN (s : State) (c : Nat) (K : Codebook) : (s.setBook c K).blkN = s.blkN := rfl
@[simp] theorem setBook_blkLong (s : State) (c : Nat) (K : Codebook) : (s.setBook c K).blkLong = s.blkLong := rfl
@[simp] theorem setBook_blkPrevLong (s : State) (c : Nat) (K : Codebook) : (s.setBook c K).blkPrevLong = s.blkPrevLong := rfl
@[simp] theorem setBook_blkNextLong (s : State) (c : Nat) (K : Codebook) : (s.setBook c K).blkNextLong = s.blkNextLong := rfl
@[simp] theorem setBook_blkZero (s : State) (c : Nat) (K : Codebook) : (s.setBook c K).blkZero = s.blkZero := rfl
@[simp] theorem setBook_lws (s : State) (c : Nat) (K : Codebook) : (s.setBook c K).lws = s.lws := rfl
@[simp] theorem setBook_lwe (s : State) (c : Nat) (K : Codebook) : (s.setBook c K).lwe = s.lwe := rfl
@[simp] theorem setBook_rws (s : State) (c : Nat) (K : Codebook) : (s.setBook c K).rws = s.rws := rfl
@[simp] theorem setBook_rwe (s : State) (c : Nat) (K : Codebook) : (s.setBook c K).rwe = s.rwe := rfl
@[simp] theorem setBook_vdim (s : State) (c : Nat) (K : Codebook) : (s.setBook c K).vdim = s.vdim := rfl
@[simp] theorem setBook_cbSel (s : State) (c : Nat) (K : Codebook) : (s.setBook c K).cbSel = s.cbSel := rfl
@[simp] theorem setBook_lbase (s : State) (c : Nat) (K : Codebook) : (s.setBook c K).lbase = s.lbase := rfl
@[simp] theorem setBook_llen (s : State) (c : Nat) (K : Codebook) : (s.setBook c K).llen = s.llen := rfl
@[simp] theorem setBook_cmdWord (s : State) (c : Nat) (K : Codebook) : (s.setBook c K).cmdWord = s.cmdWord := rfl
@[simp] theorem setBook_mem (s : State) (c : Nat) (K : Codebook) : (s.setBook c K).mem = s.mem := rfl
@[simp] theorem setBook_params (s : State) (c : Nat) (K : Codebook) : (s.setBook c K).params = s.params := rfl
@[simp] theorem setBook_host (s : State) (c : Nat) (K : Codebook) : (s.setBook c K).host = s.host := rfl
@[simp] theorem setBook_latency (s : State) (c : Nat) (K : Codebook) : (s.setBook c K).latency = s.latency := rfl
@[simp] theorem setBook_busyFor (s : State) (c : Nat) (K : Codebook) : (s.setBook c K).busyFor = s.busyFor := rfl
@[simp] theorem setBook_busOut (s : State) (c : Nat) (K : Codebook) : (s.setBook c K).busOut = s.busOut := rfl
@[simp] theorem setBook_draws (s : State) (c : Nat) (K : Codebook) : (s.setBook c K).draws = s.draws := rfl

/-! ## Writing every codebook slot -/

@[simp] theorem mapBooks_busy (s : State) (f : Codebook → Codebook) : (s.mapBooks f).busy = s.busy := rfl
@[simp] theorem mapBooks_setupState (s : State) (f : Codebook → Codebook) : (s.mapBooks f).setupState = s.setupState := rfl
@[simp] theorem mapBooks_cfgDone (s : State) (f : Codebook → Codebook) : (s.mapBooks f).cfgDone = s.cfgDone := rfl
@[simp] theorem mapBooks_decState (s : State) (f : Codebook → Codebook) : (s.mapBooks f).decState = s.decState := rfl
@[simp] theorem mapBooks_pcmValid (s : State) (f : Codebook → Codebook) : (s.mapBooks f).pcmValid = s.pcmValid := rfl
@[simp] theorem mapBooks_cmdErr (s : State) (f : Codebook → Codebook) : (s.mapBooks f).cmdErr = s.cmdErr := rfl
@[simp] theorem mapBooks_ignored (s : State) (f : Codebook → Codebook) : (s.mapBooks f).ignored = s.ignored := rfl
@[simp] theorem mapBooks_bound (s : State) (f : Codebook → Codebook) : (s.mapBooks f).bound = s.bound := rfl
@[simp] theorem mapBooks_seq (s : State) (f : Codebook → Codebook) : (s.mapBooks f).seq = s.seq := rfl
@[simp] theorem mapBooks_budgetEn (s : State) (f : Codebook → Codebook) : (s.mapBooks f).budgetEn = s.budgetEn := rfl
@[simp] theorem mapBooks_fmtCode (s : State) (f : Codebook → Codebook) : (s.mapBooks f).fmtCode = s.fmtCode := rfl
@[simp] theorem mapBooks_cmdCode (s : State) (f : Codebook → Codebook) : (s.mapBooks f).cmdCode = s.cmdCode := rfl
@[simp] theorem mapBooks_result (s : State) (f : Codebook → Codebook) : (s.mapBooks f).result = s.result := rfl
@[simp] theorem mapBooks_errCmd (s : State) (f : Codebook → Codebook) : (s.mapBooks f).errCmd = s.errCmd := rfl
@[simp] theorem mapBooks_errPos (s : State) (f : Codebook → Codebook) : (s.mapBooks f).errPos = s.errPos := rfl
@[simp] theorem mapBooks_cfgE0 (s : State) (f : Codebook → Codebook) : (s.mapBooks f).cfgE0 = s.cfgE0 := rfl
@[simp] theorem mapBooks_cfgE1 (s : State) (f : Codebook → Codebook) : (s.mapBooks f).cfgE1 = s.cfgE1 := rfl
@[simp] theorem mapBooks_cfgCbm1 (s : State) (f : Codebook → Codebook) : (s.mapBooks f).cfgCbm1 = s.cfgCbm1 := rfl
@[simp] theorem mapBooks_pktBase (s : State) (f : Codebook → Codebook) : (s.mapBooks f).pktBase = s.pktBase := rfl
@[simp] theorem mapBooks_pktLen (s : State) (f : Codebook → Codebook) : (s.mapBooks f).pktLen = s.pktLen := rfl
@[simp] theorem mapBooks_bitPos (s : State) (f : Codebook → Codebook) : (s.mapBooks f).bitPos = s.bitPos := rfl
@[simp] theorem mapBooks_sampleCount (s : State) (f : Codebook → Codebook) : (s.mapBooks f).sampleCount = s.sampleCount := rfl
@[simp] theorem mapBooks_packetCount (s : State) (f : Codebook → Codebook) : (s.mapBooks f).packetCount = s.packetCount := rfl
@[simp] theorem mapBooks_budget (s : State) (f : Codebook → Codebook) : (s.mapBooks f).budget = s.budget := rfl
@[simp] theorem mapBooks_pcmCursor (s : State) (f : Codebook → Codebook) : (s.mapBooks f).pcmCursor = s.pcmCursor := rfl
@[simp] theorem mapBooks_packetIndex (s : State) (f : Codebook → Codebook) : (s.mapBooks f).packetIndex = s.packetIndex := rfl
@[simp] theorem mapBooks_prevN (s : State) (f : Codebook → Codebook) : (s.mapBooks f).prevN = s.prevN := rfl
@[simp] theorem mapBooks_prevREnd (s : State) (f : Codebook → Codebook) : (s.mapBooks f).prevREnd = s.prevREnd := rfl
@[simp] theorem mapBooks_prevShort (s : State) (f : Codebook → Codebook) : (s.mapBooks f).prevShort = s.prevShort := rfl
@[simp] theorem mapBooks_blkN (s : State) (f : Codebook → Codebook) : (s.mapBooks f).blkN = s.blkN := rfl
@[simp] theorem mapBooks_blkLong (s : State) (f : Codebook → Codebook) : (s.mapBooks f).blkLong = s.blkLong := rfl
@[simp] theorem mapBooks_blkPrevLong (s : State) (f : Codebook → Codebook) : (s.mapBooks f).blkPrevLong = s.blkPrevLong := rfl
@[simp] theorem mapBooks_blkNextLong (s : State) (f : Codebook → Codebook) : (s.mapBooks f).blkNextLong = s.blkNextLong := rfl
@[simp] theorem mapBooks_blkZero (s : State) (f : Codebook → Codebook) : (s.mapBooks f).blkZero = s.blkZero := rfl
@[simp] theorem mapBooks_lws (s : State) (f : Codebook → Codebook) : (s.mapBooks f).lws = s.lws := rfl
@[simp] theorem mapBooks_lwe (s : State) (f : Codebook → Codebook) : (s.mapBooks f).lwe = s.lwe := rfl
@[simp] theorem mapBooks_rws (s : State) (f : Codebook → Codebook) : (s.mapBooks f).rws = s.rws := rfl
@[simp] theorem mapBooks_rwe (s : State) (f : Codebook → Codebook) : (s.mapBooks f).rwe = s.rwe := rfl
@[simp] theorem mapBooks_vdim (s : State) (f : Codebook → Codebook) : (s.mapBooks f).vdim = s.vdim := rfl
@[simp] theorem mapBooks_cbSel (s : State) (f : Codebook → Codebook) : (s.mapBooks f).cbSel = s.cbSel := rfl
@[simp] theorem mapBooks_lbase (s : State) (f : Codebook → Codebook) : (s.mapBooks f).lbase = s.lbase := rfl
@[simp] theorem mapBooks_llen (s : State) (f : Codebook → Codebook) : (s.mapBooks f).llen = s.llen := rfl
@[simp] theorem mapBooks_cmdWord (s : State) (f : Codebook → Codebook) : (s.mapBooks f).cmdWord = s.cmdWord := rfl
@[simp] theorem mapBooks_mem (s : State) (f : Codebook → Codebook) : (s.mapBooks f).mem = s.mem := rfl
@[simp] theorem mapBooks_params (s : State) (f : Codebook → Codebook) : (s.mapBooks f).params = s.params := rfl
@[simp] theorem mapBooks_host (s : State) (f : Codebook → Codebook) : (s.mapBooks f).host = s.host := rfl
@[simp] theorem mapBooks_latency (s : State) (f : Codebook → Codebook) : (s.mapBooks f).latency = s.latency := rfl
@[simp] theorem mapBooks_busyFor (s : State) (f : Codebook → Codebook) : (s.mapBooks f).busyFor = s.busyFor := rfl
@[simp] theorem mapBooks_busOut (s : State) (f : Codebook → Codebook) : (s.mapBooks f).busOut = s.busOut := rfl
@[simp] theorem mapBooks_draws (s : State) (f : Codebook → Codebook) : (s.mapBooks f).draws = s.draws := rfl

/-! ## CONFIG (R211) -/

@[simp] theorem configure_busy (s : State) (e0 e1 cbm1 : Nat) : (configure e0 e1 cbm1 s).busy = s.busy := rfl
@[simp] theorem configure_setupState (s : State) (e0 e1 cbm1 : Nat) : (configure e0 e1 cbm1 s).setupState = s.setupState := rfl
@[simp] theorem configure_cfgDone (s : State) (e0 e1 cbm1 : Nat) : (configure e0 e1 cbm1 s).cfgDone = true := rfl
@[simp] theorem configure_decState (s : State) (e0 e1 cbm1 : Nat) : (configure e0 e1 cbm1 s).decState = s.decState := rfl
@[simp] theorem configure_pcmValid (s : State) (e0 e1 cbm1 : Nat) : (configure e0 e1 cbm1 s).pcmValid = s.pcmValid := rfl
@[simp] theorem configure_cmdErr (s : State) (e0 e1 cbm1 : Nat) : (configure e0 e1 cbm1 s).cmdErr = s.cmdErr := rfl
@[simp] theorem configure_ignored (s : State) (e0 e1 cbm1 : Nat) : (configure e0 e1 cbm1 s).ignored = s.ignored := rfl
@[simp] theorem configure_bound (s : State) (e0 e1 cbm1 : Nat) : (configure e0 e1 cbm1 s).bound = s.bound := rfl
@[simp] theorem configure_seq (s : State) (e0 e1 cbm1 : Nat) : (configure e0 e1 cbm1 s).seq = s.seq := rfl
@[simp] theorem configure_budgetEn (s : State) (e0 e1 cbm1 : Nat) : (configure e0 e1 cbm1 s).budgetEn = s.budgetEn := rfl
@[simp] theorem configure_fmtCode (s : State) (e0 e1 cbm1 : Nat) : (configure e0 e1 cbm1 s).fmtCode = s.fmtCode := rfl
@[simp] theorem configure_cmdCode (s : State) (e0 e1 cbm1 : Nat) : (configure e0 e1 cbm1 s).cmdCode = s.cmdCode := rfl
@[simp] theorem configure_result (s : State) (e0 e1 cbm1 : Nat) : (configure e0 e1 cbm1 s).result = s.result := rfl
@[simp] theorem configure_errCmd (s : State) (e0 e1 cbm1 : Nat) : (configure e0 e1 cbm1 s).errCmd = s.errCmd := rfl
@[simp] theorem configure_errPos (s : State) (e0 e1 cbm1 : Nat) : (configure e0 e1 cbm1 s).errPos = s.errPos := rfl
@[simp] theorem configure_cfgE0 (s : State) (e0 e1 cbm1 : Nat) : (configure e0 e1 cbm1 s).cfgE0 = BitVec.ofNat 4 e0 := rfl
@[simp] theorem configure_cfgE1 (s : State) (e0 e1 cbm1 : Nat) : (configure e0 e1 cbm1 s).cfgE1 = BitVec.ofNat 4 e1 := rfl
@[simp] theorem configure_cfgCbm1 (s : State) (e0 e1 cbm1 : Nat) : (configure e0 e1 cbm1 s).cfgCbm1 = BitVec.ofNat 8 cbm1 := rfl
@[simp] theorem configure_pktBase (s : State) (e0 e1 cbm1 : Nat) : (configure e0 e1 cbm1 s).pktBase = s.pktBase := rfl
@[simp] theorem configure_pktLen (s : State) (e0 e1 cbm1 : Nat) : (configure e0 e1 cbm1 s).pktLen = s.pktLen := rfl
@[simp] theorem configure_bitPos (s : State) (e0 e1 cbm1 : Nat) : (configure e0 e1 cbm1 s).bitPos = s.bitPos := rfl
@[simp] theorem configure_sampleCount (s : State) (e0 e1 cbm1 : Nat) : (configure e0 e1 cbm1 s).sampleCount = s.sampleCount := rfl
@[simp] theorem configure_packetCount (s : State) (e0 e1 cbm1 : Nat) : (configure e0 e1 cbm1 s).packetCount = s.packetCount := rfl
@[simp] theorem configure_budget (s : State) (e0 e1 cbm1 : Nat) : (configure e0 e1 cbm1 s).budget = s.budget := rfl
@[simp] theorem configure_pcmCursor (s : State) (e0 e1 cbm1 : Nat) : (configure e0 e1 cbm1 s).pcmCursor = s.pcmCursor := rfl
@[simp] theorem configure_packetIndex (s : State) (e0 e1 cbm1 : Nat) : (configure e0 e1 cbm1 s).packetIndex = s.packetIndex := rfl
@[simp] theorem configure_prevN (s : State) (e0 e1 cbm1 : Nat) : (configure e0 e1 cbm1 s).prevN = s.prevN := rfl
@[simp] theorem configure_prevREnd (s : State) (e0 e1 cbm1 : Nat) : (configure e0 e1 cbm1 s).prevREnd = s.prevREnd := rfl
@[simp] theorem configure_prevShort (s : State) (e0 e1 cbm1 : Nat) : (configure e0 e1 cbm1 s).prevShort = s.prevShort := rfl
@[simp] theorem configure_blkN (s : State) (e0 e1 cbm1 : Nat) : (configure e0 e1 cbm1 s).blkN = s.blkN := rfl
@[simp] theorem configure_blkLong (s : State) (e0 e1 cbm1 : Nat) : (configure e0 e1 cbm1 s).blkLong = s.blkLong := rfl
@[simp] theorem configure_blkPrevLong (s : State) (e0 e1 cbm1 : Nat) : (configure e0 e1 cbm1 s).blkPrevLong = s.blkPrevLong := rfl
@[simp] theorem configure_blkNextLong (s : State) (e0 e1 cbm1 : Nat) : (configure e0 e1 cbm1 s).blkNextLong = s.blkNextLong := rfl
@[simp] theorem configure_blkZero (s : State) (e0 e1 cbm1 : Nat) : (configure e0 e1 cbm1 s).blkZero = s.blkZero := rfl
@[simp] theorem configure_lws (s : State) (e0 e1 cbm1 : Nat) : (configure e0 e1 cbm1 s).lws = s.lws := rfl
@[simp] theorem configure_lwe (s : State) (e0 e1 cbm1 : Nat) : (configure e0 e1 cbm1 s).lwe = s.lwe := rfl
@[simp] theorem configure_rws (s : State) (e0 e1 cbm1 : Nat) : (configure e0 e1 cbm1 s).rws = s.rws := rfl
@[simp] theorem configure_rwe (s : State) (e0 e1 cbm1 : Nat) : (configure e0 e1 cbm1 s).rwe = s.rwe := rfl
@[simp] theorem configure_vdim (s : State) (e0 e1 cbm1 : Nat) : (configure e0 e1 cbm1 s).vdim = s.vdim := rfl
@[simp] theorem configure_cbSel (s : State) (e0 e1 cbm1 : Nat) : (configure e0 e1 cbm1 s).cbSel = s.cbSel := rfl
@[simp] theorem configure_books (s : State) (e0 e1 cbm1 : Nat) : (configure e0 e1 cbm1 s).books = (s.mapBooks Codebook.unbuild).books := rfl
@[simp] theorem configure_lbase (s : State) (e0 e1 cbm1 : Nat) : (configure e0 e1 cbm1 s).lbase = s.lbase := rfl
@[simp] theorem configure_llen (s : State) (e0 e1 cbm1 : Nat) : (configure e0 e1 cbm1 s).llen = s.llen := rfl
@[simp] theorem configure_cmdWord (s : State) (e0 e1 cbm1 : Nat) : (configure e0 e1 cbm1 s).cmdWord = s.cmdWord := rfl
@[simp] theorem configure_mem (s : State) (e0 e1 cbm1 : Nat) : (configure e0 e1 cbm1 s).mem = s.mem := rfl
@[simp] theorem configure_params (s : State) (e0 e1 cbm1 : Nat) : (configure e0 e1 cbm1 s).params = s.params := rfl
@[simp] theorem configure_host (s : State) (e0 e1 cbm1 : Nat) : (configure e0 e1 cbm1 s).host = s.host := rfl
@[simp] theorem configure_latency (s : State) (e0 e1 cbm1 : Nat) : (configure e0 e1 cbm1 s).latency = s.latency := rfl
@[simp] theorem configure_busyFor (s : State) (e0 e1 cbm1 : Nat) : (configure e0 e1 cbm1 s).busyFor = s.busyFor := rfl
@[simp] theorem configure_busOut (s : State) (e0 e1 cbm1 : Nat) : (configure e0 e1 cbm1 s).busOut = s.busOut := rfl
@[simp] theorem configure_draws (s : State) (e0 e1 cbm1 : Nat) : (configure e0 e1 cbm1 s).draws = s.draws := rfl

/-! ## DEC_BEGIN (R214) -/

@[simp] theorem startDecode_busy (s : State) (ben : Bool) : (startDecode ben s).busy = s.busy := rfl
@[simp] theorem startDecode_setupState (s : State) (ben : Bool) : (startDecode ben s).setupState = s.setupState := rfl
@[simp] theorem startDecode_cfgDone (s : State) (ben : Bool) : (startDecode ben s).cfgDone = s.cfgDone := rfl
@[simp] theorem startDecode_decState (s : State) (ben : Bool) : (startDecode ben s).decState = .decoding := rfl
@[simp] theorem startDecode_pcmValid (s : State) (ben : Bool) : (startDecode ben s).pcmValid = false := rfl
@[simp] theorem startDecode_cmdErr (s : State) (ben : Bool) : (startDecode ben s).cmdErr = s.cmdErr := rfl
@[simp] theorem startDecode_ignored (s : State) (ben : Bool) : (startDecode ben s).ignored = s.ignored := rfl
@[simp] theorem startDecode_bound (s : State) (ben : Bool) : (startDecode ben s).bound = false := rfl
@[simp] theorem startDecode_seq (s : State) (ben : Bool) : (startDecode ben s).seq = .none := rfl
@[simp] theorem startDecode_budgetEn (s : State) (ben : Bool) : (startDecode ben s).budgetEn = ben := rfl
@[simp] theorem startDecode_fmtCode (s : State) (ben : Bool) : (startDecode ben s).fmtCode = none := rfl
@[simp] theorem startDecode_cmdCode (s : State) (ben : Bool) : (startDecode ben s).cmdCode = s.cmdCode := rfl
@[simp] theorem startDecode_result (s : State) (ben : Bool) : (startDecode ben s).result = 0 := rfl
@[simp] theorem startDecode_errCmd (s : State) (ben : Bool) : (startDecode ben s).errCmd = s.errCmd := rfl
@[simp] theorem startDecode_errPos (s : State) (ben : Bool) : (startDecode ben s).errPos = s.errPos := rfl
@[simp] theorem startDecode_cfgE0 (s : State) (ben : Bool) : (startDecode ben s).cfgE0 = s.cfgE0 := rfl
@[simp] theorem startDecode_cfgE1 (s : State) (ben : Bool) : (startDecode ben s).cfgE1 = s.cfgE1 := rfl
@[simp] theorem startDecode_cfgCbm1 (s : State) (ben : Bool) : (startDecode ben s).cfgCbm1 = s.cfgCbm1 := rfl
@[simp] theorem startDecode_pktBase (s : State) (ben : Bool) : (startDecode ben s).pktBase = s.pktBase := rfl
@[simp] theorem startDecode_pktLen (s : State) (ben : Bool) : (startDecode ben s).pktLen = s.pktLen := rfl
@[simp] theorem startDecode_bitPos (s : State) (ben : Bool) : (startDecode ben s).bitPos = 0 := rfl
@[simp] theorem startDecode_sampleCount (s : State) (ben : Bool) : (startDecode ben s).sampleCount = s.sampleCount := rfl
@[simp] theorem startDecode_packetCount (s : State) (ben : Bool) : (startDecode ben s).packetCount = s.packetCount := rfl
@[simp] theorem startDecode_budget (s : State) (ben : Bool) : (startDecode ben s).budget = s.budget := rfl
@[simp] theorem startDecode_pcmCursor (s : State) (ben : Bool) : (startDecode ben s).pcmCursor = 0 := rfl
@[simp] theorem startDecode_packetIndex (s : State) (ben : Bool) : (startDecode ben s).packetIndex = 0 := rfl
@[simp] theorem startDecode_prevN (s : State) (ben : Bool) : (startDecode ben s).prevN = BitVec.ofNat 14 s.b0 := rfl
@[simp] theorem startDecode_prevREnd (s : State) (ben : Bool) : (startDecode ben s).prevREnd = BitVec.ofNat 14 s.b0 := rfl
@[simp] theorem startDecode_prevShort (s : State) (ben : Bool) : (startDecode ben s).prevShort = true := rfl
@[simp] theorem startDecode_blkN (s : State) (ben : Bool) : (startDecode ben s).blkN = 0 := rfl
@[simp] theorem startDecode_blkLong (s : State) (ben : Bool) : (startDecode ben s).blkLong = false := rfl
@[simp] theorem startDecode_blkPrevLong (s : State) (ben : Bool) : (startDecode ben s).blkPrevLong = false := rfl
@[simp] theorem startDecode_blkNextLong (s : State) (ben : Bool) : (startDecode ben s).blkNextLong = false := rfl
@[simp] theorem startDecode_blkZero (s : State) (ben : Bool) : (startDecode ben s).blkZero = false := rfl
@[simp] theorem startDecode_lws (s : State) (ben : Bool) : (startDecode ben s).lws = 0 := rfl
@[simp] theorem startDecode_lwe (s : State) (ben : Bool) : (startDecode ben s).lwe = 0 := rfl
@[simp] theorem startDecode_rws (s : State) (ben : Bool) : (startDecode ben s).rws = 0 := rfl
@[simp] theorem startDecode_rwe (s : State) (ben : Bool) : (startDecode ben s).rwe = 0 := rfl
@[simp] theorem startDecode_vdim (s : State) (ben : Bool) : (startDecode ben s).vdim = 0 := rfl
@[simp] theorem startDecode_cbSel (s : State) (ben : Bool) : (startDecode ben s).cbSel = s.cbSel := rfl
@[simp] theorem startDecode_books (s : State) (ben : Bool) : (startDecode ben s).books = s.books := rfl
@[simp] theorem startDecode_lbase (s : State) (ben : Bool) : (startDecode ben s).lbase = 0 := rfl
@[simp] theorem startDecode_llen (s : State) (ben : Bool) : (startDecode ben s).llen = 0 := rfl
@[simp] theorem startDecode_cmdWord (s : State) (ben : Bool) : (startDecode ben s).cmdWord = s.cmdWord := rfl
@[simp] theorem startDecode_mem (s : State) (ben : Bool) : (startDecode ben s).mem = ((s.writeBytes .pcm 0 (List.replicate s.sampleCount.toNat 0)).writeWords .prev 0 0 (List.replicate Config.prevWords f32Zero)).mem := rfl
@[simp] theorem startDecode_params (s : State) (ben : Bool) : (startDecode ben s).params = s.params := rfl
@[simp] theorem startDecode_host (s : State) (ben : Bool) : (startDecode ben s).host = s.host := rfl
@[simp] theorem startDecode_latency (s : State) (ben : Bool) : (startDecode ben s).latency = s.latency := rfl
@[simp] theorem startDecode_busyFor (s : State) (ben : Bool) : (startDecode ben s).busyFor = s.busyFor := rfl
@[simp] theorem startDecode_busOut (s : State) (ben : Bool) : (startDecode ben s).busOut = s.busOut := rfl
@[simp] theorem startDecode_draws (s : State) (ben : Bool) : (startDecode ben s).draws = s.draws := rfl

/-! ## Completion (R188, R214) -/

@[simp] theorem completeDecode_busy (s : State) : (completeDecode s).busy = s.busy := rfl
@[simp] theorem completeDecode_setupState (s : State) : (completeDecode s).setupState = s.setupState := rfl
@[simp] theorem completeDecode_cfgDone (s : State) : (completeDecode s).cfgDone = s.cfgDone := rfl
@[simp] theorem completeDecode_decState (s : State) : (completeDecode s).decState = .completed := rfl
@[simp] theorem completeDecode_pcmValid (s : State) : (completeDecode s).pcmValid = true := rfl
@[simp] theorem completeDecode_cmdErr (s : State) : (completeDecode s).cmdErr = s.cmdErr := rfl
@[simp] theorem completeDecode_ignored (s : State) : (completeDecode s).ignored = s.ignored := rfl
@[simp] theorem completeDecode_bound (s : State) : (completeDecode s).bound = s.bound := rfl
@[simp] theorem completeDecode_seq (s : State) : (completeDecode s).seq = s.seq := rfl
@[simp] theorem completeDecode_budgetEn (s : State) : (completeDecode s).budgetEn = s.budgetEn := rfl
@[simp] theorem completeDecode_fmtCode (s : State) : (completeDecode s).fmtCode = s.fmtCode := rfl
@[simp] theorem completeDecode_cmdCode (s : State) : (completeDecode s).cmdCode = s.cmdCode := rfl
@[simp] theorem completeDecode_result (s : State) : (completeDecode s).result = s.result := rfl
@[simp] theorem completeDecode_errCmd (s : State) : (completeDecode s).errCmd = s.errCmd := rfl
@[simp] theorem completeDecode_errPos (s : State) : (completeDecode s).errPos = s.errPos := rfl
@[simp] theorem completeDecode_cfgE0 (s : State) : (completeDecode s).cfgE0 = s.cfgE0 := rfl
@[simp] theorem completeDecode_cfgE1 (s : State) : (completeDecode s).cfgE1 = s.cfgE1 := rfl
@[simp] theorem completeDecode_cfgCbm1 (s : State) : (completeDecode s).cfgCbm1 = s.cfgCbm1 := rfl
@[simp] theorem completeDecode_pktBase (s : State) : (completeDecode s).pktBase = s.pktBase := rfl
@[simp] theorem completeDecode_pktLen (s : State) : (completeDecode s).pktLen = s.pktLen := rfl
@[simp] theorem completeDecode_bitPos (s : State) : (completeDecode s).bitPos = s.bitPos := rfl
@[simp] theorem completeDecode_sampleCount (s : State) : (completeDecode s).sampleCount = s.sampleCount := rfl
@[simp] theorem completeDecode_packetCount (s : State) : (completeDecode s).packetCount = s.packetCount := rfl
@[simp] theorem completeDecode_budget (s : State) : (completeDecode s).budget = s.budget := rfl
@[simp] theorem completeDecode_pcmCursor (s : State) : (completeDecode s).pcmCursor = s.pcmCursor := rfl
@[simp] theorem completeDecode_packetIndex (s : State) : (completeDecode s).packetIndex = s.packetIndex := rfl
@[simp] theorem completeDecode_prevN (s : State) : (completeDecode s).prevN = s.prevN := rfl
@[simp] theorem completeDecode_prevREnd (s : State) : (completeDecode s).prevREnd = s.prevREnd := rfl
@[simp] theorem completeDecode_prevShort (s : State) : (completeDecode s).prevShort = s.prevShort := rfl
@[simp] theorem completeDecode_blkN (s : State) : (completeDecode s).blkN = s.blkN := rfl
@[simp] theorem completeDecode_blkLong (s : State) : (completeDecode s).blkLong = s.blkLong := rfl
@[simp] theorem completeDecode_blkPrevLong (s : State) : (completeDecode s).blkPrevLong = s.blkPrevLong := rfl
@[simp] theorem completeDecode_blkNextLong (s : State) : (completeDecode s).blkNextLong = s.blkNextLong := rfl
@[simp] theorem completeDecode_blkZero (s : State) : (completeDecode s).blkZero = s.blkZero := rfl
@[simp] theorem completeDecode_lws (s : State) : (completeDecode s).lws = s.lws := rfl
@[simp] theorem completeDecode_lwe (s : State) : (completeDecode s).lwe = s.lwe := rfl
@[simp] theorem completeDecode_rws (s : State) : (completeDecode s).rws = s.rws := rfl
@[simp] theorem completeDecode_rwe (s : State) : (completeDecode s).rwe = s.rwe := rfl
@[simp] theorem completeDecode_vdim (s : State) : (completeDecode s).vdim = s.vdim := rfl
@[simp] theorem completeDecode_cbSel (s : State) : (completeDecode s).cbSel = s.cbSel := rfl
@[simp] theorem completeDecode_books (s : State) : (completeDecode s).books = s.books := rfl
@[simp] theorem completeDecode_lbase (s : State) : (completeDecode s).lbase = s.lbase := rfl
@[simp] theorem completeDecode_llen (s : State) : (completeDecode s).llen = s.llen := rfl
@[simp] theorem completeDecode_cmdWord (s : State) : (completeDecode s).cmdWord = s.cmdWord := rfl
@[simp] theorem completeDecode_mem (s : State) : (completeDecode s).mem = s.mem := rfl
@[simp] theorem completeDecode_params (s : State) : (completeDecode s).params = s.params := rfl
@[simp] theorem completeDecode_host (s : State) : (completeDecode s).host = s.host := rfl
@[simp] theorem completeDecode_latency (s : State) : (completeDecode s).latency = s.latency := rfl
@[simp] theorem completeDecode_busyFor (s : State) : (completeDecode s).busyFor = s.busyFor := rfl
@[simp] theorem completeDecode_busOut (s : State) : (completeDecode s).busOut = s.busOut := rfl
@[simp] theorem completeDecode_draws (s : State) : (completeDecode s).draws = s.draws := rfl

/-! ## Cancellation (R188, R214) -/

@[simp] theorem cancelDecode_busy (s : State) : (cancelDecode s).busy = s.busy := rfl
@[simp] theorem cancelDecode_setupState (s : State) : (cancelDecode s).setupState = s.setupState := rfl
@[simp] theorem cancelDecode_cfgDone (s : State) : (cancelDecode s).cfgDone = s.cfgDone := rfl
@[simp] theorem cancelDecode_decState (s : State) : (cancelDecode s).decState = .cancelled := rfl
@[simp] theorem cancelDecode_pcmValid (s : State) : (cancelDecode s).pcmValid = false := rfl
@[simp] theorem cancelDecode_cmdErr (s : State) : (cancelDecode s).cmdErr = s.cmdErr := rfl
@[simp] theorem cancelDecode_ignored (s : State) : (cancelDecode s).ignored = s.ignored := rfl
@[simp] theorem cancelDecode_bound (s : State) : (cancelDecode s).bound = s.bound := rfl
@[simp] theorem cancelDecode_seq (s : State) : (cancelDecode s).seq = s.seq := rfl
@[simp] theorem cancelDecode_budgetEn (s : State) : (cancelDecode s).budgetEn = s.budgetEn := rfl
@[simp] theorem cancelDecode_fmtCode (s : State) : (cancelDecode s).fmtCode = s.fmtCode := rfl
@[simp] theorem cancelDecode_cmdCode (s : State) : (cancelDecode s).cmdCode = s.cmdCode := rfl
@[simp] theorem cancelDecode_result (s : State) : (cancelDecode s).result = s.result := rfl
@[simp] theorem cancelDecode_errCmd (s : State) : (cancelDecode s).errCmd = s.errCmd := rfl
@[simp] theorem cancelDecode_errPos (s : State) : (cancelDecode s).errPos = s.errPos := rfl
@[simp] theorem cancelDecode_cfgE0 (s : State) : (cancelDecode s).cfgE0 = s.cfgE0 := rfl
@[simp] theorem cancelDecode_cfgE1 (s : State) : (cancelDecode s).cfgE1 = s.cfgE1 := rfl
@[simp] theorem cancelDecode_cfgCbm1 (s : State) : (cancelDecode s).cfgCbm1 = s.cfgCbm1 := rfl
@[simp] theorem cancelDecode_pktBase (s : State) : (cancelDecode s).pktBase = s.pktBase := rfl
@[simp] theorem cancelDecode_pktLen (s : State) : (cancelDecode s).pktLen = s.pktLen := rfl
@[simp] theorem cancelDecode_bitPos (s : State) : (cancelDecode s).bitPos = s.bitPos := rfl
@[simp] theorem cancelDecode_sampleCount (s : State) : (cancelDecode s).sampleCount = s.sampleCount := rfl
@[simp] theorem cancelDecode_packetCount (s : State) : (cancelDecode s).packetCount = s.packetCount := rfl
@[simp] theorem cancelDecode_budget (s : State) : (cancelDecode s).budget = s.budget := rfl
@[simp] theorem cancelDecode_pcmCursor (s : State) : (cancelDecode s).pcmCursor = s.pcmCursor := rfl
@[simp] theorem cancelDecode_packetIndex (s : State) : (cancelDecode s).packetIndex = s.packetIndex := rfl
@[simp] theorem cancelDecode_prevN (s : State) : (cancelDecode s).prevN = s.prevN := rfl
@[simp] theorem cancelDecode_prevREnd (s : State) : (cancelDecode s).prevREnd = s.prevREnd := rfl
@[simp] theorem cancelDecode_prevShort (s : State) : (cancelDecode s).prevShort = s.prevShort := rfl
@[simp] theorem cancelDecode_blkN (s : State) : (cancelDecode s).blkN = s.blkN := rfl
@[simp] theorem cancelDecode_blkLong (s : State) : (cancelDecode s).blkLong = s.blkLong := rfl
@[simp] theorem cancelDecode_blkPrevLong (s : State) : (cancelDecode s).blkPrevLong = s.blkPrevLong := rfl
@[simp] theorem cancelDecode_blkNextLong (s : State) : (cancelDecode s).blkNextLong = s.blkNextLong := rfl
@[simp] theorem cancelDecode_blkZero (s : State) : (cancelDecode s).blkZero = s.blkZero := rfl
@[simp] theorem cancelDecode_lws (s : State) : (cancelDecode s).lws = s.lws := rfl
@[simp] theorem cancelDecode_lwe (s : State) : (cancelDecode s).lwe = s.lwe := rfl
@[simp] theorem cancelDecode_rws (s : State) : (cancelDecode s).rws = s.rws := rfl
@[simp] theorem cancelDecode_rwe (s : State) : (cancelDecode s).rwe = s.rwe := rfl
@[simp] theorem cancelDecode_vdim (s : State) : (cancelDecode s).vdim = s.vdim := rfl
@[simp] theorem cancelDecode_cbSel (s : State) : (cancelDecode s).cbSel = s.cbSel := rfl
@[simp] theorem cancelDecode_books (s : State) : (cancelDecode s).books = s.books := rfl
@[simp] theorem cancelDecode_lbase (s : State) : (cancelDecode s).lbase = s.lbase := rfl
@[simp] theorem cancelDecode_llen (s : State) : (cancelDecode s).llen = s.llen := rfl
@[simp] theorem cancelDecode_cmdWord (s : State) : (cancelDecode s).cmdWord = s.cmdWord := rfl
@[simp] theorem cancelDecode_mem (s : State) : (cancelDecode s).mem = (s.mem.forget (regionKey .pcm 0 0) (Region.pcm.bytes s.params)).forget (regionKey .prev 0 0) (Region.prev.bytes s.params) := rfl
@[simp] theorem cancelDecode_params (s : State) : (cancelDecode s).params = s.params := rfl
@[simp] theorem cancelDecode_host (s : State) : (cancelDecode s).host = s.host := rfl
@[simp] theorem cancelDecode_latency (s : State) : (cancelDecode s).latency = s.latency := rfl
@[simp] theorem cancelDecode_busyFor (s : State) : (cancelDecode s).busyFor = s.busyFor := rfl
@[simp] theorem cancelDecode_busOut (s : State) : (cancelDecode s).busOut = s.busOut := rfl
@[simp] theorem cancelDecode_draws (s : State) : (cancelDecode s).draws = s.draws := rfl

/-! ## GEOMETRY (R164) -/

@[simp] theorem setGeometry_busy (s : State) (n : Nat) (l p x z : Bool) : (setGeometry n l p x z s).busy = s.busy := rfl
@[simp] theorem setGeometry_setupState (s : State) (n : Nat) (l p x z : Bool) : (setGeometry n l p x z s).setupState = s.setupState := rfl
@[simp] theorem setGeometry_cfgDone (s : State) (n : Nat) (l p x z : Bool) : (setGeometry n l p x z s).cfgDone = s.cfgDone := rfl
@[simp] theorem setGeometry_decState (s : State) (n : Nat) (l p x z : Bool) : (setGeometry n l p x z s).decState = s.decState := rfl
@[simp] theorem setGeometry_pcmValid (s : State) (n : Nat) (l p x z : Bool) : (setGeometry n l p x z s).pcmValid = s.pcmValid := rfl
@[simp] theorem setGeometry_cmdErr (s : State) (n : Nat) (l p x z : Bool) : (setGeometry n l p x z s).cmdErr = s.cmdErr := rfl
@[simp] theorem setGeometry_ignored (s : State) (n : Nat) (l p x z : Bool) : (setGeometry n l p x z s).ignored = s.ignored := rfl
@[simp] theorem setGeometry_bound (s : State) (n : Nat) (l p x z : Bool) : (setGeometry n l p x z s).bound = s.bound := rfl
@[simp] theorem setGeometry_seq (s : State) (n : Nat) (l p x z : Bool) : (setGeometry n l p x z s).seq = s.seq := rfl
@[simp] theorem setGeometry_budgetEn (s : State) (n : Nat) (l p x z : Bool) : (setGeometry n l p x z s).budgetEn = s.budgetEn := rfl
@[simp] theorem setGeometry_fmtCode (s : State) (n : Nat) (l p x z : Bool) : (setGeometry n l p x z s).fmtCode = s.fmtCode := rfl
@[simp] theorem setGeometry_cmdCode (s : State) (n : Nat) (l p x z : Bool) : (setGeometry n l p x z s).cmdCode = s.cmdCode := rfl
@[simp] theorem setGeometry_result (s : State) (n : Nat) (l p x z : Bool) : (setGeometry n l p x z s).result = s.result := rfl
@[simp] theorem setGeometry_errCmd (s : State) (n : Nat) (l p x z : Bool) : (setGeometry n l p x z s).errCmd = s.errCmd := rfl
@[simp] theorem setGeometry_errPos (s : State) (n : Nat) (l p x z : Bool) : (setGeometry n l p x z s).errPos = s.errPos := rfl
@[simp] theorem setGeometry_cfgE0 (s : State) (n : Nat) (l p x z : Bool) : (setGeometry n l p x z s).cfgE0 = s.cfgE0 := rfl
@[simp] theorem setGeometry_cfgE1 (s : State) (n : Nat) (l p x z : Bool) : (setGeometry n l p x z s).cfgE1 = s.cfgE1 := rfl
@[simp] theorem setGeometry_cfgCbm1 (s : State) (n : Nat) (l p x z : Bool) : (setGeometry n l p x z s).cfgCbm1 = s.cfgCbm1 := rfl
@[simp] theorem setGeometry_pktBase (s : State) (n : Nat) (l p x z : Bool) : (setGeometry n l p x z s).pktBase = s.pktBase := rfl
@[simp] theorem setGeometry_pktLen (s : State) (n : Nat) (l p x z : Bool) : (setGeometry n l p x z s).pktLen = s.pktLen := rfl
@[simp] theorem setGeometry_bitPos (s : State) (n : Nat) (l p x z : Bool) : (setGeometry n l p x z s).bitPos = s.bitPos := rfl
@[simp] theorem setGeometry_sampleCount (s : State) (n : Nat) (l p x z : Bool) : (setGeometry n l p x z s).sampleCount = s.sampleCount := rfl
@[simp] theorem setGeometry_packetCount (s : State) (n : Nat) (l p x z : Bool) : (setGeometry n l p x z s).packetCount = s.packetCount := rfl
@[simp] theorem setGeometry_budget (s : State) (n : Nat) (l p x z : Bool) : (setGeometry n l p x z s).budget = s.budget := rfl
@[simp] theorem setGeometry_pcmCursor (s : State) (n : Nat) (l p x z : Bool) : (setGeometry n l p x z s).pcmCursor = s.pcmCursor := rfl
@[simp] theorem setGeometry_packetIndex (s : State) (n : Nat) (l p x z : Bool) : (setGeometry n l p x z s).packetIndex = s.packetIndex := rfl
@[simp] theorem setGeometry_prevN (s : State) (n : Nat) (l p x z : Bool) : (setGeometry n l p x z s).prevN = s.prevN := rfl
@[simp] theorem setGeometry_prevREnd (s : State) (n : Nat) (l p x z : Bool) : (setGeometry n l p x z s).prevREnd = s.prevREnd := rfl
@[simp] theorem setGeometry_prevShort (s : State) (n : Nat) (l p x z : Bool) : (setGeometry n l p x z s).prevShort = s.prevShort := rfl
@[simp] theorem setGeometry_blkN (s : State) (n : Nat) (l p x z : Bool) : (setGeometry n l p x z s).blkN = BitVec.ofNat 14 n := rfl
@[simp] theorem setGeometry_blkLong (s : State) (n : Nat) (l p x z : Bool) : (setGeometry n l p x z s).blkLong = l := rfl
@[simp] theorem setGeometry_blkPrevLong (s : State) (n : Nat) (l p x z : Bool) : (setGeometry n l p x z s).blkPrevLong = p := rfl
@[simp] theorem setGeometry_blkNextLong (s : State) (n : Nat) (l p x z : Bool) : (setGeometry n l p x z s).blkNextLong = x := rfl
@[simp] theorem setGeometry_blkZero (s : State) (n : Nat) (l p x z : Bool) : (setGeometry n l p x z s).blkZero = z := rfl
@[simp] theorem setGeometry_lws (s : State) (n : Nat) (l p x z : Bool) : (setGeometry n l p x z s).lws = BitVec.ofNat 14 (geometryLws s.b0 n l p) := rfl
@[simp] theorem setGeometry_lwe (s : State) (n : Nat) (l p x z : Bool) : (setGeometry n l p x z s).lwe = BitVec.ofNat 14 (geometryLwe s.b0 n l p) := rfl
@[simp] theorem setGeometry_rws (s : State) (n : Nat) (l p x z : Bool) : (setGeometry n l p x z s).rws = BitVec.ofNat 14 (geometryRws s.b0 n l x) := rfl
@[simp] theorem setGeometry_rwe (s : State) (n : Nat) (l p x z : Bool) : (setGeometry n l p x z s).rwe = BitVec.ofNat 14 (geometryRwe s.b0 n l x) := rfl
@[simp] theorem setGeometry_vdim (s : State) (n : Nat) (l p x z : Bool) : (setGeometry n l p x z s).vdim = s.vdim := rfl
@[simp] theorem setGeometry_cbSel (s : State) (n : Nat) (l p x z : Bool) : (setGeometry n l p x z s).cbSel = s.cbSel := rfl
@[simp] theorem setGeometry_books (s : State) (n : Nat) (l p x z : Bool) : (setGeometry n l p x z s).books = s.books := rfl
@[simp] theorem setGeometry_lbase (s : State) (n : Nat) (l p x z : Bool) : (setGeometry n l p x z s).lbase = s.lbase := rfl
@[simp] theorem setGeometry_llen (s : State) (n : Nat) (l p x z : Bool) : (setGeometry n l p x z s).llen = s.llen := rfl
@[simp] theorem setGeometry_cmdWord (s : State) (n : Nat) (l p x z : Bool) : (setGeometry n l p x z s).cmdWord = s.cmdWord := rfl
@[simp] theorem setGeometry_mem (s : State) (n : Nat) (l p x z : Bool) : (setGeometry n l p x z s).mem = s.mem := rfl
@[simp] theorem setGeometry_params (s : State) (n : Nat) (l p x z : Bool) : (setGeometry n l p x z s).params = s.params := rfl
@[simp] theorem setGeometry_host (s : State) (n : Nat) (l p x z : Bool) : (setGeometry n l p x z s).host = s.host := rfl
@[simp] theorem setGeometry_latency (s : State) (n : Nat) (l p x z : Bool) : (setGeometry n l p x z s).latency = s.latency := rfl
@[simp] theorem setGeometry_busyFor (s : State) (n : Nat) (l p x z : Bool) : (setGeometry n l p x z s).busyFor = s.busyFor := rfl
@[simp] theorem setGeometry_busOut (s : State) (n : Nat) (l p x z : Bool) : (setGeometry n l p x z s).busOut = s.busOut := rfl
@[simp] theorem setGeometry_draws (s : State) (n : Nat) (l p x z : Bool) : (setGeometry n l p x z s).draws = s.draws := rfl

/-! ## Consuming bits (R128) -/

@[simp] theorem consumeTo_busy (s : State) (pos : Nat) : (consumeTo pos s).busy = s.busy := rfl
@[simp] theorem consumeTo_setupState (s : State) (pos : Nat) : (consumeTo pos s).setupState = s.setupState := rfl
@[simp] theorem consumeTo_cfgDone (s : State) (pos : Nat) : (consumeTo pos s).cfgDone = s.cfgDone := rfl
@[simp] theorem consumeTo_decState (s : State) (pos : Nat) : (consumeTo pos s).decState = s.decState := rfl
@[simp] theorem consumeTo_pcmValid (s : State) (pos : Nat) : (consumeTo pos s).pcmValid = s.pcmValid := rfl
@[simp] theorem consumeTo_cmdErr (s : State) (pos : Nat) : (consumeTo pos s).cmdErr = s.cmdErr := rfl
@[simp] theorem consumeTo_ignored (s : State) (pos : Nat) : (consumeTo pos s).ignored = s.ignored := rfl
@[simp] theorem consumeTo_bound (s : State) (pos : Nat) : (consumeTo pos s).bound = s.bound := rfl
@[simp] theorem consumeTo_seq (s : State) (pos : Nat) : (consumeTo pos s).seq = s.seq := rfl
@[simp] theorem consumeTo_budgetEn (s : State) (pos : Nat) : (consumeTo pos s).budgetEn = s.budgetEn := rfl
@[simp] theorem consumeTo_fmtCode (s : State) (pos : Nat) : (consumeTo pos s).fmtCode = s.fmtCode := rfl
@[simp] theorem consumeTo_cmdCode (s : State) (pos : Nat) : (consumeTo pos s).cmdCode = s.cmdCode := rfl
@[simp] theorem consumeTo_result (s : State) (pos : Nat) : (consumeTo pos s).result = s.result := rfl
@[simp] theorem consumeTo_errCmd (s : State) (pos : Nat) : (consumeTo pos s).errCmd = s.errCmd := rfl
@[simp] theorem consumeTo_errPos (s : State) (pos : Nat) : (consumeTo pos s).errPos = s.errPos := rfl
@[simp] theorem consumeTo_cfgE0 (s : State) (pos : Nat) : (consumeTo pos s).cfgE0 = s.cfgE0 := rfl
@[simp] theorem consumeTo_cfgE1 (s : State) (pos : Nat) : (consumeTo pos s).cfgE1 = s.cfgE1 := rfl
@[simp] theorem consumeTo_cfgCbm1 (s : State) (pos : Nat) : (consumeTo pos s).cfgCbm1 = s.cfgCbm1 := rfl
@[simp] theorem consumeTo_pktBase (s : State) (pos : Nat) : (consumeTo pos s).pktBase = s.pktBase := rfl
@[simp] theorem consumeTo_pktLen (s : State) (pos : Nat) : (consumeTo pos s).pktLen = s.pktLen := rfl
@[simp] theorem consumeTo_bitPos (s : State) (pos : Nat) : (consumeTo pos s).bitPos = BitVec.ofNat 32 pos := rfl
@[simp] theorem consumeTo_sampleCount (s : State) (pos : Nat) : (consumeTo pos s).sampleCount = s.sampleCount := rfl
@[simp] theorem consumeTo_packetCount (s : State) (pos : Nat) : (consumeTo pos s).packetCount = s.packetCount := rfl
@[simp] theorem consumeTo_budget (s : State) (pos : Nat) : (consumeTo pos s).budget = s.budget := rfl
@[simp] theorem consumeTo_pcmCursor (s : State) (pos : Nat) : (consumeTo pos s).pcmCursor = s.pcmCursor := rfl
@[simp] theorem consumeTo_packetIndex (s : State) (pos : Nat) : (consumeTo pos s).packetIndex = s.packetIndex := rfl
@[simp] theorem consumeTo_prevN (s : State) (pos : Nat) : (consumeTo pos s).prevN = s.prevN := rfl
@[simp] theorem consumeTo_prevREnd (s : State) (pos : Nat) : (consumeTo pos s).prevREnd = s.prevREnd := rfl
@[simp] theorem consumeTo_prevShort (s : State) (pos : Nat) : (consumeTo pos s).prevShort = s.prevShort := rfl
@[simp] theorem consumeTo_blkN (s : State) (pos : Nat) : (consumeTo pos s).blkN = s.blkN := rfl
@[simp] theorem consumeTo_blkLong (s : State) (pos : Nat) : (consumeTo pos s).blkLong = s.blkLong := rfl
@[simp] theorem consumeTo_blkPrevLong (s : State) (pos : Nat) : (consumeTo pos s).blkPrevLong = s.blkPrevLong := rfl
@[simp] theorem consumeTo_blkNextLong (s : State) (pos : Nat) : (consumeTo pos s).blkNextLong = s.blkNextLong := rfl
@[simp] theorem consumeTo_blkZero (s : State) (pos : Nat) : (consumeTo pos s).blkZero = s.blkZero := rfl
@[simp] theorem consumeTo_lws (s : State) (pos : Nat) : (consumeTo pos s).lws = s.lws := rfl
@[simp] theorem consumeTo_lwe (s : State) (pos : Nat) : (consumeTo pos s).lwe = s.lwe := rfl
@[simp] theorem consumeTo_rws (s : State) (pos : Nat) : (consumeTo pos s).rws = s.rws := rfl
@[simp] theorem consumeTo_rwe (s : State) (pos : Nat) : (consumeTo pos s).rwe = s.rwe := rfl
@[simp] theorem consumeTo_vdim (s : State) (pos : Nat) : (consumeTo pos s).vdim = s.vdim := rfl
@[simp] theorem consumeTo_cbSel (s : State) (pos : Nat) : (consumeTo pos s).cbSel = s.cbSel := rfl
@[simp] theorem consumeTo_books (s : State) (pos : Nat) : (consumeTo pos s).books = s.books := rfl
@[simp] theorem consumeTo_lbase (s : State) (pos : Nat) : (consumeTo pos s).lbase = s.lbase := rfl
@[simp] theorem consumeTo_llen (s : State) (pos : Nat) : (consumeTo pos s).llen = s.llen := rfl
@[simp] theorem consumeTo_cmdWord (s : State) (pos : Nat) : (consumeTo pos s).cmdWord = s.cmdWord := rfl
@[simp] theorem consumeTo_mem (s : State) (pos : Nat) : (consumeTo pos s).mem = s.mem := rfl
@[simp] theorem consumeTo_params (s : State) (pos : Nat) : (consumeTo pos s).params = s.params := rfl
@[simp] theorem consumeTo_host (s : State) (pos : Nat) : (consumeTo pos s).host = s.host := rfl
@[simp] theorem consumeTo_latency (s : State) (pos : Nat) : (consumeTo pos s).latency = s.latency := rfl
@[simp] theorem consumeTo_busyFor (s : State) (pos : Nat) : (consumeTo pos s).busyFor = s.busyFor := rfl
@[simp] theorem consumeTo_busOut (s : State) (pos : Nat) : (consumeTo pos s).busOut = s.busOut := rfl
@[simp] theorem consumeTo_draws (s : State) (pos : Nat) : (consumeTo pos s).draws = s.draws := rfl

/-! ## PCM emission (R186) -/

@[simp] theorem emitSamples_busy (s : State) (bs : List Byte) : (emitSamples bs s).busy = s.busy := rfl
@[simp] theorem emitSamples_setupState (s : State) (bs : List Byte) : (emitSamples bs s).setupState = s.setupState := rfl
@[simp] theorem emitSamples_cfgDone (s : State) (bs : List Byte) : (emitSamples bs s).cfgDone = s.cfgDone := rfl
@[simp] theorem emitSamples_decState (s : State) (bs : List Byte) : (emitSamples bs s).decState = s.decState := rfl
@[simp] theorem emitSamples_pcmValid (s : State) (bs : List Byte) : (emitSamples bs s).pcmValid = s.pcmValid := rfl
@[simp] theorem emitSamples_cmdErr (s : State) (bs : List Byte) : (emitSamples bs s).cmdErr = s.cmdErr := rfl
@[simp] theorem emitSamples_ignored (s : State) (bs : List Byte) : (emitSamples bs s).ignored = s.ignored := rfl
@[simp] theorem emitSamples_bound (s : State) (bs : List Byte) : (emitSamples bs s).bound = s.bound := rfl
@[simp] theorem emitSamples_seq (s : State) (bs : List Byte) : (emitSamples bs s).seq = s.seq := rfl
@[simp] theorem emitSamples_budgetEn (s : State) (bs : List Byte) : (emitSamples bs s).budgetEn = s.budgetEn := rfl
@[simp] theorem emitSamples_fmtCode (s : State) (bs : List Byte) : (emitSamples bs s).fmtCode = s.fmtCode := rfl
@[simp] theorem emitSamples_cmdCode (s : State) (bs : List Byte) : (emitSamples bs s).cmdCode = s.cmdCode := rfl
@[simp] theorem emitSamples_result (s : State) (bs : List Byte) : (emitSamples bs s).result = s.result := rfl
@[simp] theorem emitSamples_errCmd (s : State) (bs : List Byte) : (emitSamples bs s).errCmd = s.errCmd := rfl
@[simp] theorem emitSamples_errPos (s : State) (bs : List Byte) : (emitSamples bs s).errPos = s.errPos := rfl
@[simp] theorem emitSamples_cfgE0 (s : State) (bs : List Byte) : (emitSamples bs s).cfgE0 = s.cfgE0 := rfl
@[simp] theorem emitSamples_cfgE1 (s : State) (bs : List Byte) : (emitSamples bs s).cfgE1 = s.cfgE1 := rfl
@[simp] theorem emitSamples_cfgCbm1 (s : State) (bs : List Byte) : (emitSamples bs s).cfgCbm1 = s.cfgCbm1 := rfl
@[simp] theorem emitSamples_pktBase (s : State) (bs : List Byte) : (emitSamples bs s).pktBase = s.pktBase := rfl
@[simp] theorem emitSamples_pktLen (s : State) (bs : List Byte) : (emitSamples bs s).pktLen = s.pktLen := rfl
@[simp] theorem emitSamples_bitPos (s : State) (bs : List Byte) : (emitSamples bs s).bitPos = s.bitPos := rfl
@[simp] theorem emitSamples_sampleCount (s : State) (bs : List Byte) : (emitSamples bs s).sampleCount = s.sampleCount := rfl
@[simp] theorem emitSamples_packetCount (s : State) (bs : List Byte) : (emitSamples bs s).packetCount = s.packetCount := rfl
@[simp] theorem emitSamples_budget (s : State) (bs : List Byte) : (emitSamples bs s).budget = s.budget := rfl
@[simp] theorem emitSamples_pcmCursor (s : State) (bs : List Byte) : (emitSamples bs s).pcmCursor = s.pcmCursor + BitVec.ofNat 32 bs.length := rfl
@[simp] theorem emitSamples_packetIndex (s : State) (bs : List Byte) : (emitSamples bs s).packetIndex = s.packetIndex := rfl
@[simp] theorem emitSamples_prevN (s : State) (bs : List Byte) : (emitSamples bs s).prevN = s.prevN := rfl
@[simp] theorem emitSamples_prevREnd (s : State) (bs : List Byte) : (emitSamples bs s).prevREnd = s.prevREnd := rfl
@[simp] theorem emitSamples_prevShort (s : State) (bs : List Byte) : (emitSamples bs s).prevShort = s.prevShort := rfl
@[simp] theorem emitSamples_blkN (s : State) (bs : List Byte) : (emitSamples bs s).blkN = s.blkN := rfl
@[simp] theorem emitSamples_blkLong (s : State) (bs : List Byte) : (emitSamples bs s).blkLong = s.blkLong := rfl
@[simp] theorem emitSamples_blkPrevLong (s : State) (bs : List Byte) : (emitSamples bs s).blkPrevLong = s.blkPrevLong := rfl
@[simp] theorem emitSamples_blkNextLong (s : State) (bs : List Byte) : (emitSamples bs s).blkNextLong = s.blkNextLong := rfl
@[simp] theorem emitSamples_blkZero (s : State) (bs : List Byte) : (emitSamples bs s).blkZero = s.blkZero := rfl
@[simp] theorem emitSamples_lws (s : State) (bs : List Byte) : (emitSamples bs s).lws = s.lws := rfl
@[simp] theorem emitSamples_lwe (s : State) (bs : List Byte) : (emitSamples bs s).lwe = s.lwe := rfl
@[simp] theorem emitSamples_rws (s : State) (bs : List Byte) : (emitSamples bs s).rws = s.rws := rfl
@[simp] theorem emitSamples_rwe (s : State) (bs : List Byte) : (emitSamples bs s).rwe = s.rwe := rfl
@[simp] theorem emitSamples_vdim (s : State) (bs : List Byte) : (emitSamples bs s).vdim = s.vdim := rfl
@[simp] theorem emitSamples_cbSel (s : State) (bs : List Byte) : (emitSamples bs s).cbSel = s.cbSel := rfl
@[simp] theorem emitSamples_books (s : State) (bs : List Byte) : (emitSamples bs s).books = s.books := rfl
@[simp] theorem emitSamples_lbase (s : State) (bs : List Byte) : (emitSamples bs s).lbase = s.lbase := rfl
@[simp] theorem emitSamples_llen (s : State) (bs : List Byte) : (emitSamples bs s).llen = s.llen := rfl
@[simp] theorem emitSamples_cmdWord (s : State) (bs : List Byte) : (emitSamples bs s).cmdWord = s.cmdWord := rfl
@[simp] theorem emitSamples_mem (s : State) (bs : List Byte) : (emitSamples bs s).mem = s.mem.writeBytes (regionKey .pcm 0 s.pcmCursor.toNat) bs := rfl
@[simp] theorem emitSamples_params (s : State) (bs : List Byte) : (emitSamples bs s).params = s.params := rfl
@[simp] theorem emitSamples_host (s : State) (bs : List Byte) : (emitSamples bs s).host = s.host := rfl
@[simp] theorem emitSamples_latency (s : State) (bs : List Byte) : (emitSamples bs s).latency = s.latency := rfl
@[simp] theorem emitSamples_busyFor (s : State) (bs : List Byte) : (emitSamples bs s).busyFor = s.busyFor := rfl
@[simp] theorem emitSamples_busOut (s : State) (bs : List Byte) : (emitSamples bs s).busOut = s.busOut := rfl
@[simp] theorem emitSamples_draws (s : State) (bs : List Byte) : (emitSamples bs s).draws = s.draws := rfl

/-! ## SAVE_PREV (R187) -/

@[simp] theorem savePrev_busy (s : State) (ws : List F32) : (savePrev ws s).busy = s.busy := rfl
@[simp] theorem savePrev_setupState (s : State) (ws : List F32) : (savePrev ws s).setupState = s.setupState := rfl
@[simp] theorem savePrev_cfgDone (s : State) (ws : List F32) : (savePrev ws s).cfgDone = s.cfgDone := rfl
@[simp] theorem savePrev_decState (s : State) (ws : List F32) : (savePrev ws s).decState = s.decState := rfl
@[simp] theorem savePrev_pcmValid (s : State) (ws : List F32) : (savePrev ws s).pcmValid = s.pcmValid := rfl
@[simp] theorem savePrev_cmdErr (s : State) (ws : List F32) : (savePrev ws s).cmdErr = s.cmdErr := rfl
@[simp] theorem savePrev_ignored (s : State) (ws : List F32) : (savePrev ws s).ignored = s.ignored := rfl
@[simp] theorem savePrev_bound (s : State) (ws : List F32) : (savePrev ws s).bound = s.bound := rfl
@[simp] theorem savePrev_seq (s : State) (ws : List F32) : (savePrev ws s).seq = s.seq := rfl
@[simp] theorem savePrev_budgetEn (s : State) (ws : List F32) : (savePrev ws s).budgetEn = s.budgetEn := rfl
@[simp] theorem savePrev_fmtCode (s : State) (ws : List F32) : (savePrev ws s).fmtCode = s.fmtCode := rfl
@[simp] theorem savePrev_cmdCode (s : State) (ws : List F32) : (savePrev ws s).cmdCode = s.cmdCode := rfl
@[simp] theorem savePrev_result (s : State) (ws : List F32) : (savePrev ws s).result = s.result := rfl
@[simp] theorem savePrev_errCmd (s : State) (ws : List F32) : (savePrev ws s).errCmd = s.errCmd := rfl
@[simp] theorem savePrev_errPos (s : State) (ws : List F32) : (savePrev ws s).errPos = s.errPos := rfl
@[simp] theorem savePrev_cfgE0 (s : State) (ws : List F32) : (savePrev ws s).cfgE0 = s.cfgE0 := rfl
@[simp] theorem savePrev_cfgE1 (s : State) (ws : List F32) : (savePrev ws s).cfgE1 = s.cfgE1 := rfl
@[simp] theorem savePrev_cfgCbm1 (s : State) (ws : List F32) : (savePrev ws s).cfgCbm1 = s.cfgCbm1 := rfl
@[simp] theorem savePrev_pktBase (s : State) (ws : List F32) : (savePrev ws s).pktBase = s.pktBase := rfl
@[simp] theorem savePrev_pktLen (s : State) (ws : List F32) : (savePrev ws s).pktLen = s.pktLen := rfl
@[simp] theorem savePrev_bitPos (s : State) (ws : List F32) : (savePrev ws s).bitPos = s.bitPos := rfl
@[simp] theorem savePrev_sampleCount (s : State) (ws : List F32) : (savePrev ws s).sampleCount = s.sampleCount := rfl
@[simp] theorem savePrev_packetCount (s : State) (ws : List F32) : (savePrev ws s).packetCount = s.packetCount := rfl
@[simp] theorem savePrev_budget (s : State) (ws : List F32) : (savePrev ws s).budget = s.budget := rfl
@[simp] theorem savePrev_pcmCursor (s : State) (ws : List F32) : (savePrev ws s).pcmCursor = s.pcmCursor := rfl
@[simp] theorem savePrev_packetIndex (s : State) (ws : List F32) : (savePrev ws s).packetIndex = s.packetIndex := rfl
@[simp] theorem savePrev_prevN (s : State) (ws : List F32) : (savePrev ws s).prevN = s.blkN := rfl
@[simp] theorem savePrev_prevREnd (s : State) (ws : List F32) : (savePrev ws s).prevREnd = s.rwe := rfl
@[simp] theorem savePrev_prevShort (s : State) (ws : List F32) : (savePrev ws s).prevShort = !s.blkLong := rfl
@[simp] theorem savePrev_blkN (s : State) (ws : List F32) : (savePrev ws s).blkN = s.blkN := rfl
@[simp] theorem savePrev_blkLong (s : State) (ws : List F32) : (savePrev ws s).blkLong = s.blkLong := rfl
@[simp] theorem savePrev_blkPrevLong (s : State) (ws : List F32) : (savePrev ws s).blkPrevLong = s.blkPrevLong := rfl
@[simp] theorem savePrev_blkNextLong (s : State) (ws : List F32) : (savePrev ws s).blkNextLong = s.blkNextLong := rfl
@[simp] theorem savePrev_blkZero (s : State) (ws : List F32) : (savePrev ws s).blkZero = s.blkZero := rfl
@[simp] theorem savePrev_lws (s : State) (ws : List F32) : (savePrev ws s).lws = s.lws := rfl
@[simp] theorem savePrev_lwe (s : State) (ws : List F32) : (savePrev ws s).lwe = s.lwe := rfl
@[simp] theorem savePrev_rws (s : State) (ws : List F32) : (savePrev ws s).rws = s.rws := rfl
@[simp] theorem savePrev_rwe (s : State) (ws : List F32) : (savePrev ws s).rwe = s.rwe := rfl
@[simp] theorem savePrev_vdim (s : State) (ws : List F32) : (savePrev ws s).vdim = s.vdim := rfl
@[simp] theorem savePrev_cbSel (s : State) (ws : List F32) : (savePrev ws s).cbSel = s.cbSel := rfl
@[simp] theorem savePrev_books (s : State) (ws : List F32) : (savePrev ws s).books = s.books := rfl
@[simp] theorem savePrev_lbase (s : State) (ws : List F32) : (savePrev ws s).lbase = s.lbase := rfl
@[simp] theorem savePrev_llen (s : State) (ws : List F32) : (savePrev ws s).llen = s.llen := rfl
@[simp] theorem savePrev_cmdWord (s : State) (ws : List F32) : (savePrev ws s).cmdWord = s.cmdWord := rfl
@[simp] theorem savePrev_mem (s : State) (ws : List F32) : (savePrev ws s).mem = s.mem.writeWords (regionKey .prev 0 0) ((ws.drop (s.blkN.toNat / 2)).take (s.rwe.toNat - s.blkN.toNat / 2)) := rfl
@[simp] theorem savePrev_params (s : State) (ws : List F32) : (savePrev ws s).params = s.params := rfl
@[simp] theorem savePrev_host (s : State) (ws : List F32) : (savePrev ws s).host = s.host := rfl
@[simp] theorem savePrev_latency (s : State) (ws : List F32) : (savePrev ws s).latency = s.latency := rfl
@[simp] theorem savePrev_busyFor (s : State) (ws : List F32) : (savePrev ws s).busyFor = s.busyFor := rfl
@[simp] theorem savePrev_busOut (s : State) (ws : List F32) : (savePrev ws s).busOut = s.busOut := rfl
@[simp] theorem savePrev_draws (s : State) (ws : List F32) : (savePrev ws s).draws = s.draws := rfl

/-! ## PACKET_DONE (R188) -/

@[simp] theorem countPacket_busy (s : State) (n : Nat) : (countPacket n s).busy = s.busy := rfl
@[simp] theorem countPacket_setupState (s : State) (n : Nat) : (countPacket n s).setupState = s.setupState := rfl
@[simp] theorem countPacket_cfgDone (s : State) (n : Nat) : (countPacket n s).cfgDone = s.cfgDone := rfl
@[simp] theorem countPacket_decState (s : State) (n : Nat) : (countPacket n s).decState = s.decState := rfl
@[simp] theorem countPacket_pcmValid (s : State) (n : Nat) : (countPacket n s).pcmValid = s.pcmValid := rfl
@[simp] theorem countPacket_cmdErr (s : State) (n : Nat) : (countPacket n s).cmdErr = s.cmdErr := rfl
@[simp] theorem countPacket_ignored (s : State) (n : Nat) : (countPacket n s).ignored = s.ignored := rfl
@[simp] theorem countPacket_bound (s : State) (n : Nat) : (countPacket n s).bound = false := rfl
@[simp] theorem countPacket_seq (s : State) (n : Nat) : (countPacket n s).seq = .none := rfl
@[simp] theorem countPacket_budgetEn (s : State) (n : Nat) : (countPacket n s).budgetEn = s.budgetEn := rfl
@[simp] theorem countPacket_fmtCode (s : State) (n : Nat) : (countPacket n s).fmtCode = s.fmtCode := rfl
@[simp] theorem countPacket_cmdCode (s : State) (n : Nat) : (countPacket n s).cmdCode = s.cmdCode := rfl
@[simp] theorem countPacket_result (s : State) (n : Nat) : (countPacket n s).result = s.result := rfl
@[simp] theorem countPacket_errCmd (s : State) (n : Nat) : (countPacket n s).errCmd = s.errCmd := rfl
@[simp] theorem countPacket_errPos (s : State) (n : Nat) : (countPacket n s).errPos = s.errPos := rfl
@[simp] theorem countPacket_cfgE0 (s : State) (n : Nat) : (countPacket n s).cfgE0 = s.cfgE0 := rfl
@[simp] theorem countPacket_cfgE1 (s : State) (n : Nat) : (countPacket n s).cfgE1 = s.cfgE1 := rfl
@[simp] theorem countPacket_cfgCbm1 (s : State) (n : Nat) : (countPacket n s).cfgCbm1 = s.cfgCbm1 := rfl
@[simp] theorem countPacket_pktBase (s : State) (n : Nat) : (countPacket n s).pktBase = s.pktBase := rfl
@[simp] theorem countPacket_pktLen (s : State) (n : Nat) : (countPacket n s).pktLen = s.pktLen := rfl
@[simp] theorem countPacket_bitPos (s : State) (n : Nat) : (countPacket n s).bitPos = s.bitPos := rfl
@[simp] theorem countPacket_sampleCount (s : State) (n : Nat) : (countPacket n s).sampleCount = s.sampleCount := rfl
@[simp] theorem countPacket_packetCount (s : State) (n : Nat) : (countPacket n s).packetCount = s.packetCount := rfl
@[simp] theorem countPacket_budget (s : State) (n : Nat) : (countPacket n s).budget = if s.budgetEn then s.budget - BitVec.ofNat 32 n else s.budget := rfl
@[simp] theorem countPacket_pcmCursor (s : State) (n : Nat) : (countPacket n s).pcmCursor = s.pcmCursor := rfl
@[simp] theorem countPacket_packetIndex (s : State) (n : Nat) : (countPacket n s).packetIndex = s.packetIndex + 1 := rfl
@[simp] theorem countPacket_prevN (s : State) (n : Nat) : (countPacket n s).prevN = s.prevN := rfl
@[simp] theorem countPacket_prevREnd (s : State) (n : Nat) : (countPacket n s).prevREnd = s.prevREnd := rfl
@[simp] theorem countPacket_prevShort (s : State) (n : Nat) : (countPacket n s).prevShort = s.prevShort := rfl
@[simp] theorem countPacket_blkN (s : State) (n : Nat) : (countPacket n s).blkN = s.blkN := rfl
@[simp] theorem countPacket_blkLong (s : State) (n : Nat) : (countPacket n s).blkLong = s.blkLong := rfl
@[simp] theorem countPacket_blkPrevLong (s : State) (n : Nat) : (countPacket n s).blkPrevLong = s.blkPrevLong := rfl
@[simp] theorem countPacket_blkNextLong (s : State) (n : Nat) : (countPacket n s).blkNextLong = s.blkNextLong := rfl
@[simp] theorem countPacket_blkZero (s : State) (n : Nat) : (countPacket n s).blkZero = s.blkZero := rfl
@[simp] theorem countPacket_lws (s : State) (n : Nat) : (countPacket n s).lws = s.lws := rfl
@[simp] theorem countPacket_lwe (s : State) (n : Nat) : (countPacket n s).lwe = s.lwe := rfl
@[simp] theorem countPacket_rws (s : State) (n : Nat) : (countPacket n s).rws = s.rws := rfl
@[simp] theorem countPacket_rwe (s : State) (n : Nat) : (countPacket n s).rwe = s.rwe := rfl
@[simp] theorem countPacket_vdim (s : State) (n : Nat) : (countPacket n s).vdim = s.vdim := rfl
@[simp] theorem countPacket_cbSel (s : State) (n : Nat) : (countPacket n s).cbSel = s.cbSel := rfl
@[simp] theorem countPacket_books (s : State) (n : Nat) : (countPacket n s).books = s.books := rfl
@[simp] theorem countPacket_lbase (s : State) (n : Nat) : (countPacket n s).lbase = s.lbase := rfl
@[simp] theorem countPacket_llen (s : State) (n : Nat) : (countPacket n s).llen = s.llen := rfl
@[simp] theorem countPacket_cmdWord (s : State) (n : Nat) : (countPacket n s).cmdWord = s.cmdWord := rfl
@[simp] theorem countPacket_mem (s : State) (n : Nat) : (countPacket n s).mem = s.mem := rfl
@[simp] theorem countPacket_params (s : State) (n : Nat) : (countPacket n s).params = s.params := rfl
@[simp] theorem countPacket_host (s : State) (n : Nat) : (countPacket n s).host = s.host := rfl
@[simp] theorem countPacket_latency (s : State) (n : Nat) : (countPacket n s).latency = s.latency := rfl
@[simp] theorem countPacket_busyFor (s : State) (n : Nat) : (countPacket n s).busyFor = s.busyFor := rfl
@[simp] theorem countPacket_busOut (s : State) (n : Nat) : (countPacket n s).busOut = s.busOut := rfl
@[simp] theorem countPacket_draws (s : State) (n : Nat) : (countPacket n s).draws = s.draws := rfl

/-! ## Accepting a command (R24) -/

@[simp] theorem acceptCommand_busy (s : State) (w : Word) : (acceptCommand w s).busy = true := rfl
@[simp] theorem acceptCommand_setupState (s : State) (w : Word) : (acceptCommand w s).setupState = s.setupState := rfl
@[simp] theorem acceptCommand_cfgDone (s : State) (w : Word) : (acceptCommand w s).cfgDone = s.cfgDone := rfl
@[simp] theorem acceptCommand_decState (s : State) (w : Word) : (acceptCommand w s).decState = s.decState := rfl
@[simp] theorem acceptCommand_pcmValid (s : State) (w : Word) : (acceptCommand w s).pcmValid = s.pcmValid := rfl
@[simp] theorem acceptCommand_cmdErr (s : State) (w : Word) : (acceptCommand w s).cmdErr = s.cmdErr := rfl
@[simp] theorem acceptCommand_ignored (s : State) (w : Word) : (acceptCommand w s).ignored = s.ignored := rfl
@[simp] theorem acceptCommand_bound (s : State) (w : Word) : (acceptCommand w s).bound = s.bound := rfl
@[simp] theorem acceptCommand_seq (s : State) (w : Word) : (acceptCommand w s).seq = s.seq := rfl
@[simp] theorem acceptCommand_budgetEn (s : State) (w : Word) : (acceptCommand w s).budgetEn = s.budgetEn := rfl
@[simp] theorem acceptCommand_fmtCode (s : State) (w : Word) : (acceptCommand w s).fmtCode = s.fmtCode := rfl
@[simp] theorem acceptCommand_cmdCode (s : State) (w : Word) : (acceptCommand w s).cmdCode = s.cmdCode := rfl
@[simp] theorem acceptCommand_result (s : State) (w : Word) : (acceptCommand w s).result = s.result := rfl
@[simp] theorem acceptCommand_errCmd (s : State) (w : Word) : (acceptCommand w s).errCmd = s.errCmd := rfl
@[simp] theorem acceptCommand_errPos (s : State) (w : Word) : (acceptCommand w s).errPos = s.errPos := rfl
@[simp] theorem acceptCommand_cfgE0 (s : State) (w : Word) : (acceptCommand w s).cfgE0 = s.cfgE0 := rfl
@[simp] theorem acceptCommand_cfgE1 (s : State) (w : Word) : (acceptCommand w s).cfgE1 = s.cfgE1 := rfl
@[simp] theorem acceptCommand_cfgCbm1 (s : State) (w : Word) : (acceptCommand w s).cfgCbm1 = s.cfgCbm1 := rfl
@[simp] theorem acceptCommand_pktBase (s : State) (w : Word) : (acceptCommand w s).pktBase = s.pktBase := rfl
@[simp] theorem acceptCommand_pktLen (s : State) (w : Word) : (acceptCommand w s).pktLen = s.pktLen := rfl
@[simp] theorem acceptCommand_bitPos (s : State) (w : Word) : (acceptCommand w s).bitPos = s.bitPos := rfl
@[simp] theorem acceptCommand_sampleCount (s : State) (w : Word) : (acceptCommand w s).sampleCount = s.sampleCount := rfl
@[simp] theorem acceptCommand_packetCount (s : State) (w : Word) : (acceptCommand w s).packetCount = s.packetCount := rfl
@[simp] theorem acceptCommand_budget (s : State) (w : Word) : (acceptCommand w s).budget = s.budget := rfl
@[simp] theorem acceptCommand_pcmCursor (s : State) (w : Word) : (acceptCommand w s).pcmCursor = s.pcmCursor := rfl
@[simp] theorem acceptCommand_packetIndex (s : State) (w : Word) : (acceptCommand w s).packetIndex = s.packetIndex := rfl
@[simp] theorem acceptCommand_prevN (s : State) (w : Word) : (acceptCommand w s).prevN = s.prevN := rfl
@[simp] theorem acceptCommand_prevREnd (s : State) (w : Word) : (acceptCommand w s).prevREnd = s.prevREnd := rfl
@[simp] theorem acceptCommand_prevShort (s : State) (w : Word) : (acceptCommand w s).prevShort = s.prevShort := rfl
@[simp] theorem acceptCommand_blkN (s : State) (w : Word) : (acceptCommand w s).blkN = s.blkN := rfl
@[simp] theorem acceptCommand_blkLong (s : State) (w : Word) : (acceptCommand w s).blkLong = s.blkLong := rfl
@[simp] theorem acceptCommand_blkPrevLong (s : State) (w : Word) : (acceptCommand w s).blkPrevLong = s.blkPrevLong := rfl
@[simp] theorem acceptCommand_blkNextLong (s : State) (w : Word) : (acceptCommand w s).blkNextLong = s.blkNextLong := rfl
@[simp] theorem acceptCommand_blkZero (s : State) (w : Word) : (acceptCommand w s).blkZero = s.blkZero := rfl
@[simp] theorem acceptCommand_lws (s : State) (w : Word) : (acceptCommand w s).lws = s.lws := rfl
@[simp] theorem acceptCommand_lwe (s : State) (w : Word) : (acceptCommand w s).lwe = s.lwe := rfl
@[simp] theorem acceptCommand_rws (s : State) (w : Word) : (acceptCommand w s).rws = s.rws := rfl
@[simp] theorem acceptCommand_rwe (s : State) (w : Word) : (acceptCommand w s).rwe = s.rwe := rfl
@[simp] theorem acceptCommand_vdim (s : State) (w : Word) : (acceptCommand w s).vdim = s.vdim := rfl
@[simp] theorem acceptCommand_cbSel (s : State) (w : Word) : (acceptCommand w s).cbSel = s.cbSel := rfl
@[simp] theorem acceptCommand_books (s : State) (w : Word) : (acceptCommand w s).books = s.books := rfl
@[simp] theorem acceptCommand_lbase (s : State) (w : Word) : (acceptCommand w s).lbase = s.lbase := rfl
@[simp] theorem acceptCommand_llen (s : State) (w : Word) : (acceptCommand w s).llen = s.llen := rfl
@[simp] theorem acceptCommand_cmdWord (s : State) (w : Word) : (acceptCommand w s).cmdWord = w := rfl
@[simp] theorem acceptCommand_mem (s : State) (w : Word) : (acceptCommand w s).mem = s.mem := rfl
@[simp] theorem acceptCommand_params (s : State) (w : Word) : (acceptCommand w s).params = s.params := rfl
@[simp] theorem acceptCommand_host (s : State) (w : Word) : (acceptCommand w s).host = s.host := rfl
@[simp] theorem acceptCommand_latency (s : State) (w : Word) : (acceptCommand w s).latency = s.latency.tail := rfl
@[simp] theorem acceptCommand_busyFor (s : State) (w : Word) : (acceptCommand w s).busyFor = s.latency.headD 0 := rfl
@[simp] theorem acceptCommand_busOut (s : State) (w : Word) : (acceptCommand w s).busOut = s.busOut := rfl
@[simp] theorem acceptCommand_draws (s : State) (w : Word) : (acceptCommand w s).draws = s.draws := rfl

/-! ## Command completion (R24) -/

@[simp] theorem complete_busy (s : State) : (complete s).busy = false := rfl
@[simp] theorem complete_setupState (s : State) : (complete s).setupState = s.setupState := rfl
@[simp] theorem complete_cfgDone (s : State) : (complete s).cfgDone = s.cfgDone := rfl
@[simp] theorem complete_decState (s : State) : (complete s).decState = s.decState := rfl
@[simp] theorem complete_pcmValid (s : State) : (complete s).pcmValid = s.pcmValid := rfl
@[simp] theorem complete_cmdErr (s : State) : (complete s).cmdErr = s.cmdErr := rfl
@[simp] theorem complete_ignored (s : State) : (complete s).ignored = s.ignored := rfl
@[simp] theorem complete_bound (s : State) : (complete s).bound = s.bound := rfl
@[simp] theorem complete_seq (s : State) : (complete s).seq = s.seq := rfl
@[simp] theorem complete_budgetEn (s : State) : (complete s).budgetEn = s.budgetEn := rfl
@[simp] theorem complete_fmtCode (s : State) : (complete s).fmtCode = s.fmtCode := rfl
@[simp] theorem complete_cmdCode (s : State) : (complete s).cmdCode = s.cmdCode := rfl
@[simp] theorem complete_result (s : State) : (complete s).result = s.result := rfl
@[simp] theorem complete_errCmd (s : State) : (complete s).errCmd = s.errCmd := rfl
@[simp] theorem complete_errPos (s : State) : (complete s).errPos = s.errPos := rfl
@[simp] theorem complete_cfgE0 (s : State) : (complete s).cfgE0 = s.cfgE0 := rfl
@[simp] theorem complete_cfgE1 (s : State) : (complete s).cfgE1 = s.cfgE1 := rfl
@[simp] theorem complete_cfgCbm1 (s : State) : (complete s).cfgCbm1 = s.cfgCbm1 := rfl
@[simp] theorem complete_pktBase (s : State) : (complete s).pktBase = s.pktBase := rfl
@[simp] theorem complete_pktLen (s : State) : (complete s).pktLen = s.pktLen := rfl
@[simp] theorem complete_bitPos (s : State) : (complete s).bitPos = s.bitPos := rfl
@[simp] theorem complete_sampleCount (s : State) : (complete s).sampleCount = s.sampleCount := rfl
@[simp] theorem complete_packetCount (s : State) : (complete s).packetCount = s.packetCount := rfl
@[simp] theorem complete_budget (s : State) : (complete s).budget = s.budget := rfl
@[simp] theorem complete_pcmCursor (s : State) : (complete s).pcmCursor = s.pcmCursor := rfl
@[simp] theorem complete_packetIndex (s : State) : (complete s).packetIndex = s.packetIndex := rfl
@[simp] theorem complete_prevN (s : State) : (complete s).prevN = s.prevN := rfl
@[simp] theorem complete_prevREnd (s : State) : (complete s).prevREnd = s.prevREnd := rfl
@[simp] theorem complete_prevShort (s : State) : (complete s).prevShort = s.prevShort := rfl
@[simp] theorem complete_blkN (s : State) : (complete s).blkN = s.blkN := rfl
@[simp] theorem complete_blkLong (s : State) : (complete s).blkLong = s.blkLong := rfl
@[simp] theorem complete_blkPrevLong (s : State) : (complete s).blkPrevLong = s.blkPrevLong := rfl
@[simp] theorem complete_blkNextLong (s : State) : (complete s).blkNextLong = s.blkNextLong := rfl
@[simp] theorem complete_blkZero (s : State) : (complete s).blkZero = s.blkZero := rfl
@[simp] theorem complete_lws (s : State) : (complete s).lws = s.lws := rfl
@[simp] theorem complete_lwe (s : State) : (complete s).lwe = s.lwe := rfl
@[simp] theorem complete_rws (s : State) : (complete s).rws = s.rws := rfl
@[simp] theorem complete_rwe (s : State) : (complete s).rwe = s.rwe := rfl
@[simp] theorem complete_vdim (s : State) : (complete s).vdim = s.vdim := rfl
@[simp] theorem complete_cbSel (s : State) : (complete s).cbSel = s.cbSel := rfl
@[simp] theorem complete_books (s : State) : (complete s).books = s.books := rfl
@[simp] theorem complete_lbase (s : State) : (complete s).lbase = s.lbase := rfl
@[simp] theorem complete_llen (s : State) : (complete s).llen = s.llen := rfl
@[simp] theorem complete_cmdWord (s : State) : (complete s).cmdWord = s.cmdWord := rfl
@[simp] theorem complete_mem (s : State) : (complete s).mem = s.mem := rfl
@[simp] theorem complete_params (s : State) : (complete s).params = s.params := rfl
@[simp] theorem complete_host (s : State) : (complete s).host = s.host := rfl
@[simp] theorem complete_latency (s : State) : (complete s).latency = s.latency := rfl
@[simp] theorem complete_busyFor (s : State) : (complete s).busyFor = s.busyFor := rfl
@[simp] theorem complete_busOut (s : State) : (complete s).busOut = s.busOut := rfl
@[simp] theorem complete_draws (s : State) : (complete s).draws = s.draws + 1 := rfl

end Sys2Proof.Machine
end

