-- ==== Sys2Proof/Laws/Regions.lean ====
section
/-!
SUPPORT. The laws of RAM regions and codebook slots: regions and banks do not overlap, a read after a write in a region, writes never make a
byte undefined, and reads of a codebook slot after a write of one.
-/

namespace Sys2Proof.Machine

/-! ## Keys -/

theorem Region.code_inj {r r' : Region} (h : r.code = r'.code) : r = r' := by
  cases r <;> cases r' <;> simp_all [Region.code]

theorem Region.code_lt (r : Region) : 1 ≤ r.code ∧ r.code ≤ 8 := by
  cases r <;> simp [Region.code]

/-- Two keys in bounds are equal only for the same region, bank and offset. -/
theorem regionKey_inj {r r' : Region} {b b' o o' : Nat} (ho : o < 2 ^ 20) (ho' : o' < 2 ^ 20)
    (h : regionKey r b o = regionKey r' b' o') : r = r' ∧ b = b' ∧ o = o' := by
  have h1 := r.code_lt
  have h2 := r'.code_lt
  unfold regionKey at h
  have hc : r.code = r'.code := by omega
  exact ⟨Region.code_inj hc, by omega, by omega⟩

theorem Region.bytes_le {P : Params} (h : P.Legal) (r : Region) : r.bytes P ≤ 2 ^ 20 := by
  cases r <;> simp only [Region.bytes, Config.coefWords, Config.workWords, Config.prevWords] <;> omega

/-! ## Bytes after writes -/

/-- A run of bytes written in one region leaves the bytes of every other region and bank alone. -/
theorem read_writeBytes_of_ne {s : State} {r r' : Region} {b b' i o : Nat} {bs : List Byte} (hr : r ≠ r' ∨ b ≠ b')
    (hi : i + bs.length ≤ 2 ^ 20) (ho : o < 2 ^ 20) :
    (s.mem.writeBytes (regionKey r b i) bs).read (regionKey r' b' o) = s.mem.read (regionKey r' b' o) := by
  apply Memory.read_writeBytes_of_outside
  by_contra hn
  have h1 := r.code_lt
  have h2 := r'.code_lt
  unfold regionKey at hn
  have hc : r.code = r'.code := by omega
  have hb : b = b' := by omega
  exact hr.elim (fun h => h (Region.code_inj hc)) fun h => h hb

/-- The bytes of other regions are untouched by a write of words in bounds. -/
theorem readByte_writeWords_of_ne {s : State} {r r' : Region} {b i o : Nat} {ws : List Word} (hr : r ≠ r')
    (hi : 4 * i + 4 * ws.length ≤ 2 ^ 20) (ho : o < 2 ^ 20) :
    (s.writeWords r b i ws).readByte r' o = s.readByte r' o :=
  read_writeBytes_of_ne (.inl hr) (by rw [length_flatMap_bytesOfWord]; omega) ho

theorem readByte_writeBytes_of_ne {s : State} {r r' : Region} {i o : Nat} {bs : List Byte} (hr : r ≠ r')
    (hi : i + bs.length ≤ 2 ^ 20) (ho : o < 2 ^ 20) : (s.writeBytes r i bs).readByte r' o = s.readByte r' o :=
  read_writeBytes_of_ne (.inl hr) hi ho

/-- Reading a byte of the region that was written. -/
theorem readByte_writeBytes (s : State) (r : Region) (i o : Nat) (bs : List Byte) :
    (s.writeBytes r i bs).readByte r o = if i ≤ o ∧ o < i + bs.length then bs[o - i]? else s.readByte r o := by
  unfold State.readByte State.writeBytes
  simp only [Memory.read_writeBytes, regionKey]
  by_cases h : i ≤ o ∧ o < i + bs.length
  · rw [if_pos (by omega), if_pos h]
    congr 1
    omega
  · rw [if_neg (by omega), if_neg h]

/-! ## Words after writes -/

/-- The word at element index i + j of a run of words just written. -/
theorem readWord_writeWords (s : State) (r : Region) (b i j : Nat) (ws : List Word) (w : Word) (h : ws[j]? = some w) :
    (s.writeWords r b i ws).readWord r b (i + j) = some w := by
  have e : regionKey r b (4 * (i + j)) = regionKey r b (4 * i) + 4 * j := by unfold regionKey; omega
  unfold State.readWord State.writeWords
  simp only [e]
  exact Memory.word_writeWords s.mem _ ws j w h

/-- A word outside the run of words written in the same region. -/
theorem readWord_writeWords_outside (s : State) (r : Region) (b i k : Nat) (ws : List Word)
    (h : k < i ∨ i + ws.length ≤ k) : (s.writeWords r b i ws).readWord r b k = s.readWord r b k := by
  unfold State.readWord State.writeWords
  simp only
  rw [Memory.read_writeWords_of_outside, Memory.read_writeWords_of_outside, Memory.read_writeWords_of_outside,
    Memory.read_writeWords_of_outside] <;> (unfold regionKey; omega)

/-- A word of another region or bank. -/
theorem readWord_writeWords_of_ne (s : State) (r r' : Region) (b b' i k : Nat) (ws : List Word) (hr : r ≠ r' ∨ b ≠ b')
    (hi : 4 * i + 4 * ws.length ≤ 2 ^ 20) (hk : 4 * k + 3 < 2 ^ 20) :
    (s.writeWords r b i ws).readWord r' b' k = s.readWord r' b' k := by
  have key (j : Nat) (hj : j < 4) :
      (s.mem.writeWords (regionKey r b (4 * i)) ws).read (regionKey r' b' (4 * k) + j) =
        s.mem.read (regionKey r' b' (4 * k) + j) := by
    have e : regionKey r' b' (4 * k) + j = regionKey r' b' (4 * k + j) := by unfold regionKey; omega
    rw [e]
    exact read_writeBytes_of_ne hr (by rw [length_flatMap_bytesOfWord]; omega) (by omega)
  have key0 := key 0 (by omega)
  rw [Nat.add_zero] at key0
  unfold State.readWord State.writeWords
  simp only
  rw [key0, key 1 (by omega), key 2 (by omega), key 3 (by omega)]

@[simp] theorem length_readWords (s : State) (r : Region) (b i n : Nat) : (s.readWords r b i n).length = n :=
  Memory.length_readWords _ _ _

/-- In a memory in canonical form the one-pass read agrees with reading element by element. -/
theorem readWords_getElem? {s : State} (h : s.mem.wf) (r : Region) (b i n j : Nat) (hj : j < n) :
    (s.readWords r b i n)[j]? = some (s.readWord r b (i + j)) := by
  have e : regionKey r b (4 * (i + j)) = regionKey r b (4 * i) + 4 * j := by unfold regionKey; omega
  unfold State.readWords State.readWord
  simp only [e]
  exact Memory.readWords_getElem? h _ n j hj

/-- A run of words all of which have values is read as the list of them. -/
theorem allSome_readWords {s : State} (h : s.mem.wf) (r : Region) (b i : Nat) (ws : List Word)
    (hw : ∀ j w, ws[j]? = some w → s.readWord r b (i + j) = some w) :
    allSome (s.readWords r b i ws.length) = some ws := by
  rw [allSome_eq_some]
  apply List.ext_getElem?
  intro j
  by_cases hj : j < ws.length
  · rw [readWords_getElem? h r b i _ j hj, List.getElem?_map, List.getElem?_eq_getElem hj,
      hw j ws[j] (List.getElem?_eq_getElem hj)]
    rfl
  · rw [List.getElem?_eq_none (by simpa using hj), List.getElem?_eq_none (by simpa using hj)]

/-! ## Defined values -/

/-- A write makes no byte undefined. -/
theorem isSome_read_writeBytes (m : Memory) (a : Nat) (bs : List Byte) (k : Nat) (h : (m.read k).isSome = true) :
    ((m.writeBytes a bs).read k).isSome = true := by
  rw [Memory.read_writeBytes]
  split
  · rw [List.getElem?_eq_getElem (by omega)]
    rfl
  · exact h

theorem Written.writeWords {s : State} {r : Region} {n : Nat} (h : Written s r n) (r' : Region) (b i : Nat)
    (ws : List Word) : Written (s.writeWords r' b i ws) r n := fun j hj => isSome_read_writeBytes _ _ _ _ (h j hj)

theorem Written.writeBytes {s : State} {r : Region} {n : Nat} (h : Written s r n) (r' : Region) (i : Nat)
    (bs : List Byte) : Written (s.writeBytes r' i bs) r n := fun j hj => isSome_read_writeBytes _ _ _ _ (h j hj)

/-- A run of words written from the start of a region has defined values. -/
theorem written_writeWords (s : State) (r : Region) (ws : List Word) :
    Written (s.writeWords r 0 0 ws) r (4 * ws.length) := by
  intro i hi
  unfold State.readByte State.writeWords
  simp only [Memory.read_writeWords, regionKey]
  rw [if_pos (by omega), List.getElem?_eq_getElem (by rw [length_flatMap_bytesOfWord]; omega)]
  rfl

/-- Words in a defined part of a region have values. -/
theorem Written.readWord {s : State} {r : Region} {n : Nat} (h : Written s r n) (i : Nat) (hi : 4 * i + 3 < n) :
    (s.readWord r 0 i).isSome = true := by
  have key (j : Nat) (hj : j < 4) : (s.mem.read (regionKey r 0 (4 * i) + j)).isSome = true := by
    have e : regionKey r 0 (4 * i) + j = regionKey r 0 (4 * i + j) := by unfold regionKey; omega
    rw [e]
    exact h _ (by omega)
  obtain ⟨b0, h0⟩ := Option.isSome_iff_exists.mp (key 0 (by omega))
  obtain ⟨b1, h1⟩ := Option.isSome_iff_exists.mp (key 1 (by omega))
  obtain ⟨b2, h2⟩ := Option.isSome_iff_exists.mp (key 2 (by omega))
  obtain ⟨b3, h3⟩ := Option.isSome_iff_exists.mp (key 3 (by omega))
  unfold State.readWord
  simp only [Nat.add_zero] at h0
  simp [h0, h1, h2, h3, wordOfBytes?]

/-- A defined part of a region is read without a fault. -/
theorem Written.allSome_readWords {s : State} {r : Region} {n : Nat} (h : Written s r n) (hm : s.mem.wf) (k : Nat)
    (hk : 4 * k ≤ n) : ∃ ws, allSome (s.readWords r 0 0 k) = some ws ∧ ws.length = k := by
  cases e : allSome (s.readWords r 0 0 k) with
  | some ws => exact ⟨ws, rfl, by rw [length_allSome e, length_readWords]⟩
  | none =>
    exfalso
    obtain ⟨j, hj, hjn⟩ := List.getElem_of_mem (allSome_eq_none.mp e)
    rw [length_readWords] at hj
    have h1 := readWords_getElem? hm r 0 0 k j hj
    rw [List.getElem?_eq_getElem (by simpa using hj), hjn] at h1
    have h2 := h.readWord j (by omega)
    rw [Nat.zero_add] at h1
    simp [← Option.some.inj h1] at h2

/-! ## Codebook slots -/

theorem book_eq (s : State) (c : Nat) (h : c < 256) : s.book c = s.books[c] := by
  unfold State.book
  rw [List.getD_eq_getElem?_getD, List.getElem?_eq_getElem (by simpa using h)]
  simp

theorem book_congr {s t : State} (h : t.books = s.books) (c : Nat) : t.book c = s.book c := by
  unfold State.book
  rw [h]

@[simp] theorem book_setBook_same (s : State) (c : Nat) (K : Codebook) (h : c < 256) : (s.setBook c K).book c = K := by
  unfold State.book State.setBook
  simp [List.getD_eq_getElem?_getD, h]

theorem book_setBook_ne (s : State) (c c' : Nat) (K : Codebook) (h : c ≠ c') : (s.setBook c K).book c' = s.book c' := by
  unfold State.book State.setBook
  simp [List.getD_eq_getElem?_getD, h]

theorem book_mapBooks (s : State) (f : Codebook → Codebook) (c : Nat) (h : c < 256) :
    (s.mapBooks f).book c = f (s.book c) := by
  unfold State.book State.mapBooks
  simp [List.getD_eq_getElem?_getD, h]

@[simp] theorem unbuild_built (K : Codebook) : K.unbuild.built = false := rfl

end Sys2Proof.Machine
end

