-- ==== Sys2Proof/Laws/Ops.lean ====
section
/-!
SUPPORT. What the shared operations can answer: one lemma for each, which proofs about commands cite instead of unfolding it.
-/

namespace Sys2Proof.Machine

theorem raise_eq (e : Exc) (s : State) : raise e s = .next (takeException s.cmdWord e s) := rfl

@[simp] theorem raise_next {e : Exc} {s t : State} : raise e s = .next t ↔ t = takeException s.cmdWord e s := by
  rw [raise_eq, Host.Outcome.next.injEq, eq_comm]

@[simp] theorem raise_ne_fault (e : Exc) (s : State) (f : Fault) : raise e s ≠ .fault f := by simp [raise_eq]

@[simp] theorem raise_ne_refused (e : Exc) (s : State) (r : Refusal) : raise e s ≠ .refused r := by simp [raise_eq]

theorem whenLegal_next {b : Bool} {s t : State} {k : Res} :
    whenLegal b s k = .next t ↔
      (b = false ∧ t = takeException s.cmdWord (.command .state) s) ∨ (b = true ∧ k = .next t) := by
  cases b <;> simp [whenLegal]

theorem whenLegal_fault {b : Bool} {s : State} {k : Res} {f : Fault} :
    whenLegal b s k = .fault f ↔ b = true ∧ k = .fault f := by
  cases b <;> simp [whenLegal]

theorem whenLegal_refused {b : Bool} {s : State} {k : Res} {r : Refusal} :
    whenLegal b s k = .refused r ↔ b = true ∧ k = .refused r := by
  cases b <;> simp [whenLegal]

theorem whenSetup_next {s t : State} {k : Res} :
    whenSetup s k = .next t ↔
      (s.setupState = .loaded ∧ t = takeException s.cmdWord .ignored s) ∨
      (s.setupState = .failed ∧ t = takeException s.cmdWord (.command .state) s) ∨
      (s.setupState = .notLoaded ∧ k = .next t) := by
  cases h : s.setupState <;> simp [whenSetup, h]

theorem whenSetup_fault {s : State} {k : Res} {f : Fault} :
    whenSetup s k = .fault f ↔ s.setupState = .notLoaded ∧ k = .fault f := by
  cases h : s.setupState <;> simp [whenSetup, h]

theorem whenSetup_refused {s : State} {k : Res} {r : Refusal} :
    whenSetup s k = .refused r ↔ s.setupState = .notLoaded ∧ k = .refused r := by
  cases h : s.setupState <;> simp [whenSetup, h]

theorem orFault_next {α : Type} {f : Fault} {o : Option α} {k : α → Res} {t : State} :
    orFault f o k = .next t ↔ ∃ a, o = some a ∧ k a = .next t := by
  cases o <;> simp [orFault]

theorem orFault_fault {α : Type} {f g : Fault} {o : Option α} {k : α → Res} :
    orFault f o k = .fault g ↔ (o = none ∧ f = g) ∨ ∃ a, o = some a ∧ k a = .fault g := by
  cases o <;> simp [orFault]

theorem orFault_refused {α : Type} {f : Fault} {o : Option α} {k : α → Res} {r : Refusal} :
    orFault f o k = .refused r ↔ ∃ a, o = some a ∧ k a = .refused r := by
  cases o <;> simp [orFault]

/-- The four ways in which the prefix walk ends (R129). -/
theorem withMatch_next {K : Codebook} {s t : State} {k : Nat → State → Res} :
    withMatch K s k = .next t ↔
      (∃ e p, matchCode K s = .entry e p ∧ k e (consumeTo p s) = .next t) ∨
      (∃ p, matchCode K s = .badCode p ∧
        t = takeException s.cmdWord (.decode .badCode (BitVec.ofNat 32 p)) (consumeTo p s)) ∨
      (∃ p, matchCode K s = .overrun p ∧
        t = takeException s.cmdWord (.decode .overrun (BitVec.ofNat 32 p)) (consumeTo p s)) := by
  unfold withMatch
  cases h : matchCode K s <;> simp

theorem withMatch_fault {K : Codebook} {s : State} {k : Nat → State → Res} {f : Fault} :
    withMatch K s k = .fault f ↔
      (matchCode K s = .unwritten ∧ f = .unwrittenRead .pkt) ∨
      (∃ e p, matchCode K s = .entry e p ∧ k e (consumeTo p s) = .fault f) := by
  unfold withMatch
  cases h : matchCode K s with
  | unwritten => simp [eq_comm]
  | _ => simp

theorem withMatch_refused {K : Codebook} {s : State} {k : Nat → State → Res} {r : Refusal} :
    withMatch K s k = .refused r ↔ ∃ e p, matchCode K s = .entry e p ∧ k e (consumeTo p s) = .refused r := by
  unfold withMatch
  cases h : matchCode K s <;> simp

/-- Which bits the walk has consumed when it ends: at least one but for an overrun at once, and never beyond the packet. -/
theorem matchFrom_pos (s : State) (codes : List (Option Codeword)) (left pos : Nat) (c : Codeword) :
    (∀ e p, matchFrom s codes left pos c = .entry e p → pos < p ∧ p ≤ pos + left) ∧
    (∀ p, matchFrom s codes left pos c = .badCode p → pos < p ∧ p ≤ pos + left) ∧
    (∀ p, matchFrom s codes left pos c = .overrun p → p = pos + left) := by
  induction left generalizing pos c with
  | zero => simp [matchFrom]
  | succ left ih =>
    unfold matchFrom
    cases packetBit s pos with
    | none => simp
    | some b =>
      simp only
      cases entryOf codes (c ++ [b]) with
      | some e =>
        simp only [MatchResult.entry.injEq, reduceCtorEq, false_imp_iff, implies_true, and_true]
        rintro e p ⟨rfl, rfl⟩
        omega
      | none =>
        simp only
        split
        · have h := ih (pos + 1) (c ++ [b])
          refine ⟨fun e p h1 => ?_, fun p h1 => ?_, fun p h1 => ?_⟩
          · have := h.1 e p h1; omega
          · have := h.2.1 p h1; omega
          · have := h.2.2 p h1; omega
        · simp

/-- The entry that the walk finds has a codeword. -/
theorem matchFrom_entry_lt (s : State) (codes : List (Option Codeword)) (left pos : Nat) (c : Codeword) (e p : Nat)
    (h : matchFrom s codes left pos c = .entry e p) : e < codes.length := by
  induction left generalizing pos c with
  | zero => simp [matchFrom] at h
  | succ left ih =>
    unfold matchFrom at h
    cases hb : packetBit s pos with
    | none => simp [hb] at h
    | some b =>
      simp only [hb] at h
      cases he : entryOf codes (c ++ [b]) with
      | some e' =>
        simp only [he, MatchResult.entry.injEq] at h
        obtain ⟨rfl, rfl⟩ := h
        exact (List.findIdx?_eq_some_iff_findIdx_eq.mp he).1
      | none =>
        simp only [he] at h
        split at h
        · exact ih _ _ h
        · simp at h

theorem setBook_setBook (s : State) (c : Nat) (K K' : Codebook) : (s.setBook c K).setBook c K' = s.setBook c K' := by
  unfold State.setBook
  simp

end Sys2Proof.Machine
end

