-- ==== Sys2Proof/Laws/Exec.lean ====
section
/-!
SUPPORT. What each command can answer: one inversion lemma per meaning, with its guards. Invariants and frames are derived from these, not
by unfolding the meanings again.
-/

namespace Sys2Proof.Machine

theorem execConfig_next {e0 e1 cbm1 : Nat} {s t : State} (h : execConfig e0 e1 cbm1 s = .next t) :
    (∃ e, t = takeException s.cmdWord e s ∧ (e = .ignored ∨ e = .command .state)) ∨
    (s.setupState = .notLoaded ∧ t = takeException s.cmdWord (.setup .blockSize) s) ∨
    (s.setupState = .notLoaded ∧ 6 ≤ e0 ∧ e1 ≤ 13 ∧ e0 ≤ e1 ∧ t = configure e0 e1 cbm1 s) := by
  rcases whenSetup_next.mp h with ⟨_, h⟩ | ⟨_, h⟩ | ⟨hs, h⟩
  · exact .inl ⟨_, h, .inl rfl⟩
  · exact .inl ⟨_, h, .inr rfl⟩
  · split at h
    · rename_i hl
      simp only [legalBlockSizes, Bool.and_eq_true, decide_eq_true_eq] at hl
      exact .inr (.inr ⟨hs, hl.1.1, hl.1.2, hl.2, (Host.Outcome.next.inj h).symm⟩)
    · exact .inr (.inl ⟨hs, raise_next.mp h⟩)

theorem execSeal_next {s t : State} (h : execSeal s = .next t) :
    (∃ e, t = takeException s.cmdWord e s ∧ (e = .ignored ∨ e = .command .state)) ∨
    (s.setupState = .notLoaded ∧ s.cfgDone = true ∧ t = { s with setupState := .loaded }) := by
  rcases whenSetup_next.mp h with ⟨_, h⟩ | ⟨_, h⟩ | ⟨hs, h⟩
  · exact .inl ⟨_, h, .inl rfl⟩
  · exact .inl ⟨_, h, .inr rfl⟩
  · rcases whenLegal_next.mp h with ⟨_, h⟩ | ⟨hc, h⟩
    · exact .inl ⟨_, h, .inr rfl⟩
    · exact .inr ⟨hs, hc, (Host.Outcome.next.inj h).symm⟩

theorem isDecoding_iff {s : State} : s.isDecoding = true ↔ s.decState = .decoding := by
  simp [State.isDecoding]

theorem execFail_next {cls : Nat} {s t : State} (h : execFail cls s = .next t) :
    (s.decState = .decoding ∧ t = takeException s.cmdWord (.decode (failCode cls) 0) s) ∨
    (s.decState ≠ .decoding ∧ s.setupState = .notLoaded ∧ t = takeException s.cmdWord (.setup (failCode cls)) s) ∨
    (s.decState ≠ .decoding ∧ s.setupState ≠ .notLoaded ∧ t = takeException s.cmdWord (.command .state) s) := by
  unfold execFail at h
  split at h
  · rename_i hd
    exact .inl ⟨isDecoding_iff.mp hd, raise_next.mp h⟩
  · rename_i hd
    have hd' : s.decState ≠ .decoding := fun e => hd (isDecoding_iff.mpr e)
    rcases whenLegal_next.mp h with ⟨hs, h⟩ | ⟨hs, h⟩
    · exact .inr (.inr ⟨hd', by simpa using hs, h⟩)
    · exact .inr (.inl ⟨hd', by simpa using hs, raise_next.mp h⟩)

theorem execDecBegin_next {ben : Bool} {s t : State} (h : execDecBegin ben s = .next t) :
    (∃ c, t = takeException s.cmdWord (.command c) s) ∨
    (s.setupState = .loaded ∧ s.sampleCount.toNat ≤ s.params.pcmBytes ∧
      ((s.packetCount = 0 ∧ t = completeDecode (startDecode ben s)) ∨
       (s.packetCount ≠ 0 ∧ ben = true ∧ s.budget.toInt ≤ 0 ∧ t = cancelDecode (startDecode ben s)) ∨
       (s.packetCount ≠ 0 ∧ ¬(ben = true ∧ s.budget.toInt ≤ 0) ∧ t = startDecode ben s))) := by
  rcases whenLegal_next.mp h with ⟨_, h⟩ | ⟨hs, h⟩
  · exact .inl ⟨_, h⟩
  · split at h
    · exact .inl ⟨_, raise_next.mp h⟩
    · rename_i hp
      refine .inr ⟨by simpa using hs, by omega, ?_⟩
      split at h
      · rename_i h0
        exact .inl ⟨h0, (Host.Outcome.next.inj h).symm⟩
      · rename_i h0
        split at h
        · rename_i hb
          simp only [State.budgetSpent, Bool.and_eq_true, decide_eq_true_eq] at hb
          exact .inr (.inl ⟨h0, hb.1, hb.2, (Host.Outcome.next.inj h).symm⟩)
        · rename_i hb
          simp only [State.budgetSpent, Bool.and_eq_true, decide_eq_true_eq] at hb
          exact .inr (.inr ⟨h0, hb, (Host.Outcome.next.inj h).symm⟩)

theorem execBind_next {s t : State} (h : execBind s = .next t) :
    (∃ c, t = takeException s.cmdWord (.command c) s) ∨
    (s.decState = .decoding ∧ s.pktBase.toNat + s.pktLen.toNat ≤ s.params.pktBytes ∧
      t = { s with lbase := s.pktBase, llen := s.pktLen, bitPos := 0, bound := true }) := by
  rcases whenLegal_next.mp h with ⟨_, h⟩ | ⟨hs, h⟩
  · exact .inl ⟨_, h⟩
  · split at h
    · rename_i hp
      exact .inr ⟨isDecoding_iff.mp hs, by simpa [packetFits] using hp, (Host.Outcome.next.inj h).symm⟩
    · exact .inl ⟨_, raise_next.mp h⟩

theorem execRdbits_next {n : Nat} {s t : State} (h : execRdbits n s = .next t) :
    (∃ c, t = takeException s.cmdWord (.command c) s) ∨
    (s.decState = .decoding ∧ s.bound = true ∧ t = takeException s.cmdWord (.decode .overrun s.bitPos) s) ∨
    (s.decState = .decoding ∧ s.bound = true ∧ n ≤ 32 ∧ s.bitPos.toNat + n ≤ packetBits s ∧
      ∃ r, readBits s s.bitPos.toNat n = some r ∧
        t = { s with result := BitVec.ofNat 32 r, bitPos := BitVec.ofNat 32 (s.bitPos.toNat + n) }) := by
  rcases whenLegal_next.mp h with ⟨_, h⟩ | ⟨hs, h⟩
  · exact .inl ⟨_, h⟩
  · rw [Bool.and_eq_true] at hs
    have hd := isDecoding_iff.mp hs.1
    split at h
    · exact .inl ⟨_, raise_next.mp h⟩
    · split at h
      · exact .inr (.inl ⟨hd, hs.2, raise_next.mp h⟩)
      · obtain ⟨r, hr, h⟩ := orFault_next.mp h
        exact .inr (.inr ⟨hd, hs.2, by omega, by omega, r, hr, (Host.Outcome.next.inj h).symm⟩)

/-- What CB_BUILD leaves in the slot when it raises nothing (R121). -/
theorem buildLookup_next {c : Nat} {K : Codebook} {s t : State} (h : buildLookup c K s = .next t) :
    (∃ f, t = takeException s.cmdWord (.setup f) s) ∨
    (K.lookupType ≠ 3 ∧ 1 ≤ K.dims.toNat ∧ K.dims.toNat ≤ s.params.cbMaxDim ∧
      K.entries.toNat * K.dims.toNat ≤ s.params.cbMaxVq ∧ K.nmult.toNat ≤ s.params.cbMaxMult ∧
      ∃ lv mults, lv = (if K.lookupType = 1 then lookup1Values K.entries.toNat K.dims.toNat
          else K.entries.toNat * K.dims.toNat) ∧ lv ≤ K.nmult.toNat ∧
        allSome (s.readWords .cbMult c 0 lv) = some mults ∧
        t = s.setBook c { K with
          vq := (List.range K.entries.toNat).map (vqVector [s.draws] K mults.toArray lv)
          lookupValues := BitVec.ofNat 32 lv
          built := true }) := by
  unfold buildLookup at h
  simp only at h
  generalize hlv : (if K.lookupType = 1 then lookup1Values K.entries.toNat K.dims.toNat
    else K.entries.toNat * K.dims.toNat) = lv at h
  split at h
  · exact .inl ⟨_, raise_next.mp h⟩
  · split at h
    · exact .inl ⟨_, raise_next.mp h⟩
    · split at h
      · exact .inl ⟨_, raise_next.mp h⟩
      · split at h
        · exact .inl ⟨_, raise_next.mp h⟩
        · split at h
          · exact .inl ⟨_, raise_next.mp h⟩
          · split at h
            · exact .inl ⟨_, raise_next.mp h⟩
            · obtain ⟨m, hm, h⟩ := orFault_next.mp h
              exact .inr ⟨by assumption, by omega, by omega, by omega, by omega, lv, m, rfl, by omega, hm,
                (Host.Outcome.next.inj h).symm⟩

theorem length_assignFrom (t : FreeTree) (lens : List Nat) (h : (assignFrom t lens).2 = true) :
    (assignFrom t lens).1.length = lens.length := by
  induction lens generalizing t with
  | nil => rfl
  | cons l ls ih =>
    unfold assignFrom at h ⊢
    by_cases hl : l = 0
    · rw [if_pos hl] at h ⊢
      simp only [List.length_cons] at h ⊢
      rw [ih t h]
    · rw [if_neg hl] at h ⊢
      cases e : FreeTree.take l t with
      | none => simp [e] at h
      | some p =>
        obtain ⟨c, t'⟩ := p
        simp only [e, List.length_cons] at h ⊢
        rw [ih t' h]

theorem length_assignCodes (rule : CodeAssignment) (lens : List Nat) (h : (assignCodes rule lens).2 = true) :
    (assignCodes rule lens).1.length = lens.length := by
  cases rule with
  | inOrder => exact length_assignFrom _ _ h
  | lengthSorted => simp [assignCodes, assignSorted]

theorem length_vectorFrom (t : Draw) (K : Codebook) (mult : Nat → Word) (n i : Nat) (last : F32) :
    (vectorFrom t K mult n i last).length = n := by
  induction n generalizing i last with
  | zero => rfl
  | succ n ih => simp [vectorFrom, ih]

/-- CB_BUILD changes nothing but the slot it builds and the error record, and leaves the slot unbuilt or well shaped. -/
theorem buildBook_next {c : Nat} {K : Codebook} {s t : State} (hK : K.built = false) (h : buildBook c K s = .next t) :
    (∃ f, t = takeException s.cmdWord (.setup f) s) ∨
    (∃ f K', K'.built = false ∧ t = takeException s.cmdWord (.setup f) (s.setBook c K')) ∨
    (∃ K' : Codebook, K'.Shape s.params ∧ t = s.setBook c K') := by
  unfold buildBook at h
  simp only at h
  split at h
  · exact .inl ⟨_, raise_next.mp h⟩
  · rename_i hE
    split at h
    · simp at h
    · exact .inl ⟨_, raise_next.mp h⟩
    · split at h
      · exact .inr (.inl ⟨_, { K with code := (assignCodes _ _).1 }, hK, raise_next.mp h⟩)
      · split at h
        · exact .inr (.inl ⟨_, { K with code := (assignCodes _ _).1 }, hK, raise_next.mp h⟩)
        · rename_i hc _
          have hc' : (assignCodes s.params.codeAssignment ((s.readWords .cbLen c 0 K.entries.toNat).map fun o => (o.getD 0).toNat)).2 = true := by
            simpa using hc
          have hlen := length_assignCodes _ _ hc'
          rw [List.length_map, length_readWords] at hlen
          split at h
          · rename_i h0
            refine .inr (.inr ⟨_, ⟨?_, ?_, ?_, ?_, ?_⟩, (Host.Outcome.next.inj h).symm⟩)
            · show K.entries.toNat ≤ _; omega
            · exact hlen
            · exact fun hn => absurd h0 hn
            · exact fun hn => absurd h0 hn
            · exact fun hn => absurd h0 hn
          · rcases buildLookup_next h with ⟨f, h⟩ | ⟨_, h1, h2, _, _, lv, m, _, _, _, h⟩
            · exact .inr (.inl ⟨f, { K with code := (assignCodes _ _).1 }, hK, h⟩)
            · rw [setBook_setBook] at h
              refine .inr (.inr ⟨_, ⟨?_, ?_, ?_, ?_, ?_⟩, h⟩)
              · show K.entries.toNat ≤ _; omega
              · exact hlen
              · exact fun _ => ⟨h1, h2⟩
              · exact fun _ => by simp
              · intro _ v hv
                obtain ⟨e, _, rfl⟩ := List.mem_map.mp hv
                exact length_vectorFrom _ _ _ _ _ _

theorem cbCount_le (s : State) : s.cbCount ≤ 256 := by
  unfold State.cbCount
  have := s.cfgCbm1.isLt
  omega

theorem execCbBuild_next {cb : Nat} {s t : State} (h : execCbBuild cb s = .next t) :
    (∃ e, t = takeException s.cmdWord e s ∧ (e = .ignored ∨ ∃ c, e = .command c)) ∨
    (s.setupState = .notLoaded ∧ cb < 256 ∧ ∃ f K, K.built = false ∧
      t = takeException s.cmdWord (.setup f) (s.setBook cb K)) ∨
    (s.setupState = .notLoaded ∧ s.cfgDone = true ∧ cb < s.cbCount ∧ ∃ K : Codebook, K.Shape s.params ∧ t = s.setBook cb K) := by
  rcases whenSetup_next.mp h with ⟨_, h⟩ | ⟨_, h⟩ | ⟨hs, h⟩
  · exact .inl ⟨_, h, .inl rfl⟩
  · exact .inl ⟨_, h, .inr ⟨_, rfl⟩⟩
  · rcases whenLegal_next.mp h with ⟨_, h⟩ | ⟨hc, h⟩
    · exact .inl ⟨_, h, .inr ⟨_, rfl⟩⟩
    · split at h
      · exact .inl ⟨_, raise_next.mp h, .inr ⟨_, rfl⟩⟩
      · have hlt : cb < 256 := by have := cbCount_le s; omega
        rcases buildBook_next rfl h with ⟨f, h⟩ | ⟨f, K, hK, h⟩ | ⟨K, hK, h⟩
        · exact .inr (.inl ⟨hs, hlt, f, _, rfl, h⟩)
        · rw [setBook_setBook] at h
          exact .inr (.inl ⟨hs, hlt, f, K, hK, h⟩)
        · rw [setBook_setBook] at h
          exact .inr (.inr ⟨hs, hc, by omega, K, hK, h⟩)

/-- Where BITPOS stands when the walk of a bound packet ends: within the packet. -/
theorem matchCode_pos {K : Codebook} {s : State} (hb : s.bitPos.toNat ≤ packetBits s) :
    (∀ e p, matchCode K s = .entry e p → s.bitPos.toNat < p ∧ p ≤ packetBits s) ∧
    (∀ p, matchCode K s = .badCode p → s.bitPos.toNat < p ∧ p ≤ packetBits s) ∧
    (∀ p, matchCode K s = .overrun p → p = packetBits s) := by
  have h := matchFrom_pos s K.code (packetBits s - s.bitPos.toNat) s.bitPos.toNat []
  refine ⟨fun e p h1 => ?_, fun p h1 => ?_, fun p h1 => ?_⟩
  · have := h.1 e p h1; omega
  · have := h.2.1 p h1; omega
  · have := h.2.2 p h1; omega

theorem bookReady_iff {s : State} {cb : Nat} :
    s.bookReady cb = true ↔ cb < s.cbCount ∧ (s.book cb).built = true := by
  simp [State.bookReady]

/-- A command error, a decode error that leaves BITPOS alone, or the walk's error after the bits it consumed. -/
def DecodeEnd (K : Codebook) (s t : State) : Prop :=
  t = takeException s.cmdWord (.command .state) s ∨
  (s.decState = .decoding ∧ s.bound = true ∧ ∃ f, t = takeException s.cmdWord (.decode f s.bitPos) s) ∨
  (s.decState = .decoding ∧ s.bound = true ∧ ∃ f p, (matchCode K s = .badCode p ∧ f = .badCode ∨
      matchCode K s = .overrun p ∧ f = .overrun) ∧
    t = takeException s.cmdWord (.decode f (BitVec.ofNat 32 p)) (consumeTo p s))

theorem execHdec_next {cb : Nat} {s t : State} (h : execHdec cb s = .next t) :
    DecodeEnd (s.book cb) s t ∨
    (s.decState = .decoding ∧ s.bound = true ∧ s.bookReady cb = true ∧ ∃ e p, matchCode (s.book cb) s = .entry e p ∧
      t = { consumeTo p s with result := BitVec.ofNat 32 e }) := by
  rcases whenLegal_next.mp h with ⟨_, h⟩ | ⟨hs, h⟩
  · exact .inl (.inl h)
  · rw [Bool.and_eq_true] at hs
    have hd := isDecoding_iff.mp hs.1
    split at h
    · rename_i hr
      rcases withMatch_next.mp h with ⟨e, p, hm, h⟩ | ⟨p, hm, h⟩ | ⟨p, hm, h⟩
      · exact .inr ⟨hd, hs.2, hr, e, p, hm, (Host.Outcome.next.inj h).symm⟩
      · exact .inl (.inr (.inr ⟨hd, hs.2, _, p, .inl ⟨hm, rfl⟩, h⟩))
      · exact .inl (.inr (.inr ⟨hd, hs.2, _, p, .inr ⟨hm, rfl⟩, h⟩))
    · exact .inl (.inr (.inl ⟨hd, hs.2, _, raise_next.mp h⟩))

theorem vqEntry_eq_some {K : Codebook} {e : Nat} {v : List F32} (h : vqEntry K e = some v) :
    ∃ w ∈ K.vq, K.vq[e]? = some w ∧ K.dims.toNat ≤ w.length ∧ v = w.take K.dims.toNat := by
  unfold vqEntry at h
  cases hw : K.vq[e]? with
  | none => simp [hw] at h
  | some w =>
    simp only [hw] at h
    split at h
    · exact ⟨w, List.mem_of_getElem? hw, rfl, by assumption, (Option.some.inj h).symm⟩
    · simp at h

theorem execVdec_next {cb : Nat} {s t : State} (h : execVdec cb s = .next t) :
    DecodeEnd (s.book cb) s t ∨
    (s.decState = .decoding ∧ s.bound = true ∧ s.bookReady cb = true ∧ (s.book cb).lookupType ≠ 0 ∧
      ∃ e p v, matchCode (s.book cb) s = .entry e p ∧ vqEntry (s.book cb) e = some v ∧
        t = { (consumeTo p s).writeWords .vout 0 0 v with vdim := (s.book cb).dims, result := BitVec.ofNat 32 e }) := by
  rcases whenLegal_next.mp h with ⟨_, h⟩ | ⟨hs, h⟩
  · exact .inl (.inl h)
  · rw [Bool.and_eq_true] at hs
    have hd := isDecoding_iff.mp hs.1
    split at h
    · rename_i hr
      split at h
      · exact .inl (.inr (.inl ⟨hd, hs.2, _, raise_next.mp h⟩))
      · rename_i hl
        rcases withMatch_next.mp h with ⟨e, p, hm, h⟩ | ⟨p, hm, h⟩ | ⟨p, hm, h⟩
        · obtain ⟨v, hv, h⟩ := orFault_next.mp h
          exact .inr ⟨hd, hs.2, hr, hl, e, p, v, hm, hv, (Host.Outcome.next.inj h).symm⟩
        · exact .inl (.inr (.inr ⟨hd, hs.2, _, p, .inl ⟨hm, rfl⟩, h⟩))
        · exact .inl (.inr (.inr ⟨hd, hs.2, _, p, .inr ⟨hm, rfl⟩, h⟩))
    · exact .inl (.inr (.inl ⟨hd, hs.2, _, raise_next.mp h⟩))

theorem execImdct_next {l p x z : Bool} {s t : State} (h : execImdct l p x z s = .next t) :
    t = takeException s.cmdWord (.command .state) s ∨
    (s.decState = .decoding ∧ s.seq = .none ∧ ∃ ws, ws.length = s.blockSize l ∧
      t = ({ setGeometry (s.blockSize l) l p x z s with seq := .imdctDone } : State).writeWords .work 0 0 ws) := by
  rcases whenLegal_next.mp h with ⟨_, h⟩ | ⟨hs, h⟩
  · exact .inl h
  · rw [Bool.and_eq_true] at hs
    have hd := isDecoding_iff.mp hs.1
    have hq : s.seq = .none := by simpa using hs.2
    simp only at h
    split at h
    · exact .inr ⟨hd, hq, _, List.length_replicate .., (Host.Outcome.next.inj h).symm⟩
    · obtain ⟨X, _, h⟩ := orFault_next.mp h
      exact .inr ⟨hd, hq, _, length_imdctBlock .., (Host.Outcome.next.inj h).symm⟩

theorem length_windowBlock (rom : TrigRom) (t : Draw) (a b c d : Nat) (ws : List F32) :
    (windowBlock rom t a b c d ws).length = ws.length := by
  simp [windowBlock]

theorem execWindow_next {s t : State} (h : execWindow s = .next t) :
    t = takeException s.cmdWord (.command .state) s ∨
    (s.decState = .decoding ∧ s.seq = .imdctDone ∧ ∃ work, currentBlock s = some work ∧
      t = { s.writeWords .work 0 0
        (windowBlock s.params.trigRom [s.draws] s.lws.toNat s.lwe.toNat s.rws.toNat s.rwe.toNat work) with seq := .windowDone }) := by
  rcases whenLegal_next.mp h with ⟨_, h⟩ | ⟨hs, h⟩
  · exact .inl h
  · rw [Bool.and_eq_true] at hs
    obtain ⟨work, hw, h⟩ := orFault_next.mp h
    exact .inr ⟨isDecoding_iff.mp hs.1, by simpa using hs.2, work, hw, (Host.Outcome.next.inj h).symm⟩

theorem execOverlap_next {s t : State} (h : execOverlap s = .next t) :
    t = takeException s.cmdWord (.command .state) s ∨
    (s.decState = .decoding ∧ s.seq = .windowDone ∧ ∃ work prev, currentBlock s = some work ∧
      allSome (s.readWords .prev 0 0 (prevCount s)) = some prev ∧
      t = packetDone (emittedCount s)
        (savePrev work (emitSamples (emittedBytes [s.draws] s prev.toArray work.toArray) s))) := by
  rcases whenLegal_next.mp h with ⟨_, h⟩ | ⟨hs, h⟩
  · exact .inl h
  · rw [Bool.and_eq_true] at hs
    obtain ⟨work, hw, h⟩ := orFault_next.mp h
    obtain ⟨prev, hp, h⟩ := orFault_next.mp h
    exact .inr ⟨isDecoding_iff.mp hs.1, by simpa using hs.2, work, prev, hw, hp, (Host.Outcome.next.inj h).symm⟩

/-- The three ways a packet ends (R188). -/
theorem packetDone_cases (n : Nat) (s : State) :
    ((countPacket n s).packetIndex = (countPacket n s).packetCount ∧
      packetDone n s = completeDecode (countPacket n s)) ∨
    ((countPacket n s).packetIndex ≠ (countPacket n s).packetCount ∧ s.budgetEn = true ∧
      (countPacket n s).budget.toInt ≤ 0 ∧ packetDone n s = cancelDecode (countPacket n s)) ∨
    ((countPacket n s).packetIndex ≠ (countPacket n s).packetCount ∧
      ¬(s.budgetEn = true ∧ (countPacket n s).budget.toInt ≤ 0) ∧ packetDone n s = countPacket n s) := by
  unfold packetDone
  simp only
  by_cases h : (countPacket n s).packetIndex = (countPacket n s).packetCount
  · exact .inl ⟨h, by rw [if_pos h]⟩
  · rw [if_neg h]
    by_cases hb : s.budgetEn = true ∧ (countPacket n s).budget.toInt ≤ 0
    · exact .inr (.inl ⟨h, hb.1, hb.2, by rw [if_pos]; simp only [State.budgetSpent, countPacket_budgetEn, hb.1, hb.2, Bool.true_and, decide_true]⟩)
    · refine .inr (.inr ⟨h, hb, ?_⟩)
      rw [if_neg]
      simpa only [State.budgetSpent, Bool.and_eq_true, decide_eq_true_eq, countPacket_budgetEn] using hb

/-- The four ways of a step (R24, R66). -/
theorem step_cases (s : State) :
    (s.busy = true ∧ ∃ n e rest, s.busyFor = n + 1 ∧ s.host = e :: rest ∧
      step s = busyEvent e { s with busyFor := n, host := rest }) ∨
    (s.busy = true ∧ (s.busyFor = 0 ∨ s.host = []) ∧ step s = runCommand s) ∨
    (s.busy = false ∧ s.host = [] ∧ step s = .next s) ∨
    (s.busy = false ∧ ∃ e rest, s.host = e :: rest ∧ step s = .next (idleEvent e { s with host := rest })) := by
  unfold step stepOnce
  cases hb : s.busy with
  | true =>
    cases hn : s.busyFor with
    | zero => exact .inr (.inl ⟨rfl, .inl rfl, by simp⟩)
    | succ n =>
      cases hh : s.host with
      | nil => exact .inr (.inl ⟨rfl, .inr rfl, by simp⟩)
      | cons e rest => exact .inl ⟨rfl, n, e, rest, rfl, rfl, by simp⟩
  | false =>
    cases hh : s.host with
    | nil => exact .inr (.inr (.inl ⟨rfl, rfl, by simp⟩))
    | cons e rest => exact .inr (.inr (.inr ⟨rfl, e, rest, rfl, by simp⟩))

/-- A command completes with a next state only by way of its meaning or a rejected word (R90, R91). -/
theorem runCommand_next {s t : State} (h : runCommand s = .next t) :
    (∃ c, t = complete (takeException s.cmdWord (.command c) s)) ∨
    (∃ i u, decode s.cmdWord = .ok i ∧ exec i s = .next u ∧ t = complete u) := by
  unfold runCommand perform at h
  cases hd : decode s.cmdWord with
  | error r =>
    simp only [hd, raise_eq] at h
    exact .inl ⟨_, (Host.Outcome.next.inj h).symm⟩
  | ok i =>
    simp only [hd] at h
    cases he : exec i s with
    | next u =>
      simp only [he] at h
      exact .inr ⟨i, u, rfl, he, (Host.Outcome.next.inj h).symm⟩
    | fault f => simp [he] at h
    | refused r => simp [he] at h

/-- A command faults only by way of its meaning. -/
theorem runCommand_fault {s : State} {f : Fault} (h : runCommand s = .fault f) :
    ∃ i, decode s.cmdWord = .ok i ∧ exec i s = .fault f := by
  unfold runCommand perform at h
  cases hd : decode s.cmdWord with
  | error r => simp [hd, raise_eq] at h
  | ok i =>
    simp only [hd] at h
    cases he : exec i s with
    | next u => simp [he] at h
    | fault g =>
      simp only [he, Host.Outcome.fault.injEq] at h
      exact ⟨i, rfl, by rw [he, h]⟩
    | refused r => simp [he] at h

end Sys2Proof.Machine
end

