-- ==== Sys2Proof/Laws/Inv.lean ====
section
/-!
SUPPORT. The shared updates keep the invariant of the machine (`Sys2Proof/Safety.lean`): one lemma for each, from which what a command or a
host event keeps is assembled.
-/

namespace Sys2Proof.Machine

theorem two_pow_le_of_le {e : Nat} (h : e ≤ 13) : 2 ^ e ≤ 8192 := by
  have : 2 ^ e ≤ 2 ^ 13 := Nat.pow_le_pow_right (by omega) h
  simpa using this

theorem toNat_ofNat14 {n : Nat} (h : n ≤ 8192) : (BitVec.ofNat 14 n).toNat = n := by
  rw [BitVec.toNat_ofNat, Nat.mod_eq_of_lt (by omega)]

theorem toNat_ofNat32 {n : Nat} (h : n < 2^32) : (BitVec.ofNat 32 n).toNat = n := by
  rw [BitVec.toNat_ofNat, Nat.mod_eq_of_lt (by omega)]

theorem two_pow_mod_64 {e : Nat} (h : 6 ≤ e) : 2 ^ e % 64 = 0 := by
  have : 2 ^ 6 ∣ 2 ^ e := Nat.pow_dvd_pow 2 h
  exact Nat.mod_eq_zero_of_dvd (by simpa using this)

/-- The host side of the state, BUSY and the command word are free. -/
theorem Inv.withHost {s : State} (h : Inv s) (bs : Bool) (hs : List HostEvent) (lat : List Nat) (bf : Nat) (bo : Word) (d : Nat) (cw : Word) :
    Inv { s with busy := bs, host := hs, latency := lat, busyFor := bf, busOut := bo, draws := d, cmdWord := cw } :=
  ⟨h.params, h.mem, h.loaded, h.configured, h.exponents, h.pcmValid, h.fmtCode, h.cursor, h.packet, h.prev, h.prevWritten, h.block,
   h.workWritten, h.books⟩

theorem Inv.cmdError {s : State} (h : Inv s) (w : Word) (c : CmdError) : Inv (takeException w (.command c) s) :=
  ⟨h.params, h.mem, h.loaded, h.configured, h.exponents, h.pcmValid, h.fmtCode, h.cursor, h.packet, h.prev, h.prevWritten, h.block,
   h.workWritten, h.books⟩

theorem Inv.recordBusError {s : State} (h : Inv s) : Inv (recordBusError s) :=
  ⟨h.params, h.mem, h.loaded, h.configured, h.exponents, h.pcmValid, h.fmtCode, h.cursor, h.packet, h.prev, h.prevWritten, h.block,
   h.workWritten, h.books⟩

theorem Inv.ignored {s : State} (h : Inv s) (w : Word) : Inv (takeException w .ignored s) :=
  ⟨h.params, h.mem, h.loaded, h.configured, h.exponents, h.pcmValid, h.fmtCode, h.cursor, h.packet, h.prev, h.prevWritten, h.block,
   h.workWritten, h.books⟩

/-- Without a loaded setup there is no decode. -/
theorem Inv.idle {s : State} (h : Inv s) (hs : s.setupState ≠ .loaded) : s.decState = .idle := by
  by_contra hn; exact hs (h.loaded hn)

theorem Inv.setupError {s : State} (h : Inv s) (hs : s.setupState = .notLoaded) (w : Word) (f : FormatError) :
    Inv (takeException w (.setup f) s) := by
  have hi := h.idle (by simp [hs])
  refine ⟨h.params, h.mem, fun hn => absurd hi hn, fun hn => ?_, h.exponents, h.pcmValid, ?_, h.cursor, h.packet, h.prev, h.prevWritten, h.block,
   h.workWritten, h.books⟩
  · simp [takeException] at hn
  · simp [takeException]

theorem Inv.decodeError {s : State} (h : Inv s) (hs : s.decState = .decoding) (w : Word) (f : FormatError) (p : Word) :
    Inv (takeException w (.decode f p) s) := by
  have hl := h.loaded (by simp [hs])
  refine ⟨h.params, h.mem, fun _ => hl, h.configured, h.exponents, ?_, ?_, ?_, h.packet, ?_, ?_, ?_, ?_, h.books⟩ <;> simp [takeException]

theorem Inv.setBook {s : State} (h : Inv s) (c : Nat) (K : Codebook) (hK : K.built = true → K.Shape s.params) : Inv (s.setBook c K) := by
  refine ⟨h.params, h.mem, h.loaded, h.configured, h.exponents, h.pcmValid, h.fmtCode, h.cursor, h.packet, h.prev, h.prevWritten, h.block,
   h.workWritten, fun c' hc hb => ?_⟩
  by_cases e : c = c'
  · subst e
    rw [book_setBook_same _ _ _ hc] at hb ⊢
    exact hK hb
  · rw [book_setBook_ne _ _ _ _ e] at hb ⊢
    exact h.books c' hc hb

theorem Inv.writeWords {s : State} (h : Inv s) (r : Region) (b i : Nat) (ws : List Word) : Inv (s.writeWords r b i ws) :=
  ⟨h.params, Memory.wf_writeWords h.mem _ _, h.loaded, h.configured, h.exponents, h.pcmValid, h.fmtCode, h.cursor, h.packet, h.prev,
   fun hd => (h.prevWritten hd).writeWords _ _ _ _, h.block, fun hd hq => (h.workWritten hd hq).writeWords _ _ _ _, h.books⟩

theorem Inv.writeBytes {s : State} (h : Inv s) (r : Region) (i : Nat) (ws : List Byte) : Inv (s.writeBytes r i ws) :=
  ⟨h.params, Memory.wf_writeBytes h.mem _ _, h.loaded, h.configured, h.exponents, h.pcmValid, h.fmtCode, h.cursor, h.packet, h.prev,
   fun hd => (h.prevWritten hd).writeBytes _ _ _, h.block, fun hd hq => (h.workWritten hd hq).writeBytes _ _ _, h.books⟩

theorem Inv.consumeTo {s : State} (h : Inv s) (p : Nat) (hp : p ≤ packetBits s) : Inv (consumeTo p s) := by
  have hk := h.packet
  have hp' := h.params.1
  refine ⟨h.params, h.mem, h.loaded, h.configured, h.exponents, h.pcmValid, h.fmtCode, h.cursor, ⟨h.packet.1, ?_⟩, h.prev, h.prevWritten, h.block,
   h.workWritten, h.books⟩
  simp only [Machine.consumeTo, packetBits] at *
  rw [toNat_ofNat32 (by omega)]
  omega

theorem Inv.withResult {s : State} (h : Inv s) (r d : Word) : Inv { s with result := r, vdim := d } :=
  ⟨h.params, h.mem, h.loaded, h.configured, h.exponents, h.pcmValid, h.fmtCode, h.cursor, h.packet, h.prev, h.prevWritten, h.block,
   h.workWritten, h.books⟩

theorem Inv.prevRegs {s : State} (h : Inv s) (a b : BitVec 14) (c : Bool)
    (hp : s.IsBlockSize a.toNat ∧ a.toNat / 2 ≤ b.toNat ∧ b.toNat ≤ a.toNat) :
    Inv { s with prevN := a, prevREnd := b, prevShort := c } :=
  ⟨h.params, h.mem, h.loaded, h.configured, h.exponents, h.pcmValid, h.fmtCode, h.cursor, h.packet, fun _ => hp, h.prevWritten, h.block,
   h.workWritten, h.books⟩

/-- The block sizes of a loaded setup (R8, R211). -/
theorem Inv.blockSizes {s : State} (h : Inv s) (hs : s.setupState = .loaded) : s.b0 ≤ s.b1 ∧ s.b1 ≤ 8192 ∧ 64 ≤ s.b0 := by
  have he := h.exponents (h.configured hs)
  refine ⟨Nat.pow_le_pow_right (by omega) he.2.1, two_pow_le_of_le he.2.2, ?_⟩
  have : 2 ^ 6 ≤ s.b0 := Nat.pow_le_pow_right (by omega) he.1
  simpa using this

/-- DEC_BEGIN establishes what holds while decoding (R214). -/
theorem Inv.startDecode {s : State} (h : Inv s) (ben : Bool) (hs : s.setupState = .loaded)
    (hc : s.sampleCount.toNat ≤ s.params.pcmBytes) : Inv (startDecode ben s) := by
  have hb := h.blockSizes hs
  refine ⟨h.params, ?_, fun _ => hs, h.configured, h.exponents, ?_, ?_, ?_, ?_, ?_, ?_, ?_, ?_, h.books⟩
  · exact Memory.wf_writeWords (Memory.wf_writeBytes h.mem _ _) _ _
  · simp
  · simp [hs]
  · intro _; exact ⟨by simp, hc⟩
  · simp
  · intro _
    have e : ((Machine.startDecode ben s).prevN.toNat) = s.b0 := toNat_ofNat14 (by omega)
    have e' : ((Machine.startDecode ben s).prevREnd.toNat) = s.b0 := toNat_ofNat14 (by omega)
    rw [e, e']
    exact ⟨.inl rfl, by omega, le_refl _⟩
  · intro _
    have := written_writeWords (s.writeBytes .pcm 0 (List.replicate s.sampleCount.toNat 0)) .prev (List.replicate Config.prevWords f32Zero)
    rw [List.length_replicate] at this
    exact this
  · simp
  · simp

theorem Inv.completeDecode {s : State} (h : Inv s) (hs : s.decState = .decoding) : Inv (completeDecode s) := by
  have hl := h.loaded (by simp [hs])
  have hf := h.fmtCode
  refine ⟨h.params, h.mem, fun _ => hl, h.configured, h.exponents, ?_, ?_, ?_, h.packet, ?_, ?_, ?_, ?_, h.books⟩ <;> simp_all

theorem Inv.cancelDecode {s : State} (h : Inv s) (hs : s.decState = .decoding) : Inv (cancelDecode s) := by
  have hl := h.loaded (by simp [hs])
  have hf := h.fmtCode
  refine ⟨h.params, ?_, fun _ => hl, h.configured, h.exponents, ?_, ?_, ?_, h.packet, ?_, ?_, ?_, ?_, h.books⟩
  · exact Memory.wf_forget (Memory.wf_forget h.mem _ _) _ _
  all_goals simp_all

theorem Inv.countPacket {s : State} (h : Inv s) (n : Nat) : Inv (countPacket n s) :=
  ⟨h.params, h.mem, h.loaded, h.configured, h.exponents, h.pcmValid, h.fmtCode, h.cursor, h.packet, h.prev, h.prevWritten,
   fun _ hq => absurd rfl hq, fun _ hq => absurd rfl hq, h.books⟩

/-- The window regions of R164 lie in the block, in their order. -/
theorem geometry_ordered {b0 n : Nat} (l p x : Bool) (h : b0 ≤ n) (hb : b0 % 64 = 0) (hn : n % 64 = 0) :
    geometryLws b0 n l p ≤ geometryLwe b0 n l p ∧ geometryLwe b0 n l p ≤ geometryRws b0 n l x ∧
    geometryRws b0 n l x ≤ geometryRwe b0 n l x ∧ geometryRwe b0 n l x ≤ n ∧ n / 2 ≤ geometryRwe b0 n l x := by
  unfold geometryLws geometryLwe geometryRws geometryRwe
  cases l <;> cases p <;> cases x <;> simp <;> omega

theorem length_emittedBytes (d : Draw) (s : State) (p w : Array F32) : (emittedBytes d s p w).length = emittedCount s := by
  simp [emittedBytes]

/-- The state after an IMDCT, whatever words it wrote to WORK (R163, R164). -/
theorem Inv.imdctDone {s : State} (h : Inv s) (hd : s.decState = .decoding) (l p x z : Bool) (ws : List Word)
    (hws : ws.length = s.blockSize l) :
    Inv (({ setGeometry (s.blockSize l) l p x z s with seq := .imdctDone } : State).writeWords .work 0 0 ws) := by
  have hl := h.loaded (by simp [hd])
  have he := h.exponents (h.configured hl)
  have hb := h.blockSizes hl
  have hn : s.blockSize l ≤ 8192 ∧ s.b0 ≤ s.blockSize l ∧ s.blockSize l % 64 = 0 ∧ s.IsBlockSize (s.blockSize l) := by
    unfold State.blockSize
    cases l
    · exact ⟨by simp; omega, by simp, two_pow_mod_64 he.1, .inl rfl⟩
    · exact ⟨by simp; omega, by simp; omega, two_pow_mod_64 (by omega), .inr rfl⟩
  generalize hne : s.blockSize l = n at *
  have hg := geometry_ordered l p x hn.2.1 (two_pow_mod_64 he.1) hn.2.2.1
  have hw := written_writeWords ({ setGeometry n l p x z s with seq := .imdctDone } : State) .work ws
  refine ⟨h.params, Memory.wf_writeWords h.mem _ _, h.loaded, h.configured, h.exponents, h.pcmValid, h.fmtCode, h.cursor, h.packet, h.prev,
    fun hd => (h.prevWritten hd).writeWords _ _ _ _, ?_, ?_, h.books⟩
  · intro _ _
    simp only [writeWords_blkN, writeWords_lws, writeWords_lwe, writeWords_rws, writeWords_rwe, setGeometry]
    rw [toNat_ofNat14, toNat_ofNat14, toNat_ofNat14, toNat_ofNat14, toNat_ofNat14] <;> first | omega | skip
    exact ⟨hn.2.2.2, hg⟩
  · intro _ _
    simp only [writeWords_blkN, setGeometry]
    rw [toNat_ofNat14 hn.1, ← hws]
    exact hw

/-- Once a block is there, SEQ may go on to any other stage of it. -/
theorem Inv.withSeq {s : State} (h : Inv s) (hs : s.seq ≠ .none) (q : SynthSeq) : Inv { s with seq := q } :=
  ⟨h.params, h.mem, h.loaded, h.configured, h.exponents, h.pcmValid, h.fmtCode, h.cursor, h.packet, h.prev, h.prevWritten,
   fun hd _ => h.block hd hs, fun hd _ => h.workWritten hd hs, h.books⟩

end Sys2Proof.Machine
end

