-- ==== Sys2Proof/Laws/PerInstr.lean ====
section
/-!
SUPPORT. What is said of every command, one lemma for each constructor. The family `EncodeOperand`: a well-formed command's operand stays
within the 24 bits below its opcode (R80), so that no encoding reaches into the opcode of another.
-/

namespace Sys2Proof.Laws

/-- The opcode of a command (R89). -/
def opcode : Instr → Nat
  | .nop => 0x00
  | .config _ _ _ => 0x01
  | .cbBuild _ => 0x02
  | .sealSetup => 0x03
  | .fail _ => 0x04
  | .decBegin _ => 0x10
  | .bind => 0x11
  | .rdbits _ => 0x12
  | .hdec _ => 0x13
  | .vdec _ => 0x14
  | .imdct _ _ _ _ => 0x20
  | .window => 0x21
  | .overlap => 0x22

/-- The encoding of a well-formed command is its opcode over an operand of 24 bits. -/
def EncodeOperand.Statement (i : Instr) : Prop := WellFormed i → ∃ x, x < 2 ^ 24 ∧ encode i = commandWord (opcode i) x

theorem EncodeOperand.nop : EncodeOperand.Statement .nop := fun _ => ⟨0, by decide, rfl⟩

theorem EncodeOperand.config (e0 e1 cbm1 : Nat) : EncodeOperand.Statement (.config e0 e1 cbm1) := fun h => by
  simp only [WellFormed, Instr.wf, Bool.and_eq_true, decide_eq_true_eq] at h
  exact ⟨_, by omega, rfl⟩

theorem EncodeOperand.cbBuild (cb : Nat) : EncodeOperand.Statement (.cbBuild cb) := fun h => by
  simp only [WellFormed, Instr.wf, decide_eq_true_eq] at h
  exact ⟨_, by omega, rfl⟩

theorem EncodeOperand.sealSetup : EncodeOperand.Statement .sealSetup := fun _ => ⟨0, by decide, rfl⟩

theorem EncodeOperand.fail (cls : Nat) : EncodeOperand.Statement (.fail cls) := fun h => by
  simp only [WellFormed, Instr.wf, decide_eq_true_eq] at h
  exact ⟨_, by omega, rfl⟩

theorem EncodeOperand.decBegin (ben : Bool) : EncodeOperand.Statement (.decBegin ben) := fun _ =>
  ⟨_, by cases ben <;> decide, rfl⟩

theorem EncodeOperand.bind : EncodeOperand.Statement .bind := fun _ => ⟨0, by decide, rfl⟩

theorem EncodeOperand.rdbits (n : Nat) : EncodeOperand.Statement (.rdbits n) := fun h => by
  simp only [WellFormed, Instr.wf, decide_eq_true_eq] at h
  exact ⟨_, by omega, rfl⟩

theorem EncodeOperand.hdec (cb : Nat) : EncodeOperand.Statement (.hdec cb) := fun h => by
  simp only [WellFormed, Instr.wf, decide_eq_true_eq] at h
  exact ⟨_, by omega, rfl⟩

theorem EncodeOperand.vdec (cb : Nat) : EncodeOperand.Statement (.vdec cb) := fun h => by
  simp only [WellFormed, Instr.wf, decide_eq_true_eq] at h
  exact ⟨_, by omega, rfl⟩

theorem EncodeOperand.imdct (long prevlong nextlong zero : Bool) : EncodeOperand.Statement (.imdct long prevlong nextlong zero) := fun _ =>
  ⟨_, by cases long <;> cases prevlong <;> cases nextlong <;> cases zero <;> decide, rfl⟩

theorem EncodeOperand.window : EncodeOperand.Statement .window := fun _ => ⟨0, by decide, rfl⟩

theorem EncodeOperand.overlap : EncodeOperand.Statement .overlap := fun _ => ⟨0, by decide, rfl⟩

end Sys2Proof.Laws
end

