-- ==== Sys2Proof/Machine/Script.lean ====
section
/-!
DEFINITION. Host scripts (`spec/30_encoding.md` R94-R96): the lines a host program is made of, and the bus events they assemble to. A script
is data here; its text form, with comments and number spellings, is the assembler's.
-/

namespace Sys2Proof.Machine

/-- `<reg-or-addr>` of R94: a register name, or `<REGION>[<index>]` for a word of a region, or a bus address. -/
inductive ScriptPlace where
  | reg (r : Reg)
  | elem (r : Region) (i : Nat)
  | addr (a : BusAddr)
  deriving DecidableEq, Repr

/-- The bus address of a script place (R68, R94). -/
def ScriptPlace.busAddr : ScriptPlace → BusAddr
  | .reg r => BitVec.ofNat 24 r.offset
  | .elem r i => BitVec.ofNat 24 (r.code * 2 ^ 20 + 4 * i)
  | .addr a => a

/-- A line of a host script (R94, R95). -/
inductive ScriptLine where
  | wr (p : ScriptPlace) (v : Word)
  | rd (p : ScriptPlace)
  | cmd (i : Instr)
  | wait
  | synth (long prevlong nextlong zero : Bool)
  | loadpkt (base : Nat) (bytes : List Byte)
  deriving DecidableEq, Repr

/-- Bytes packed into words by R60, with 0 bytes padding the last one. -/
def packWords : List Byte → List Word
  | [] => []
  | [b0] => [wordOfBytes b0 0 0 0]
  | [b0, b1] => [wordOfBytes b0 b1 0 0]
  | [b0, b1, b2] => [wordOfBytes b0 b1 b2 0]
  | b0 :: b1 :: b2 :: b3 :: rest => wordOfBytes b0 b1 b2 b3 :: packWords rest

/-- A command mnemonic with its operands assembles to `WR CMD, <encoding>` (R94, R96). -/
def commandEvent (i : Instr) : HostEvent := .write (ScriptPlace.reg .cmd).busAddr (encode i)

/-- What a line assembles to (R94, R95). -/
def ScriptLine.events : ScriptLine → List HostEvent
  | .wr p v => [.write p.busAddr v]
  | .rd p => [.read p.busAddr]
  | .cmd i => [commandEvent i]
  | .wait => [.wait]
  | .synth long prevlong nextlong zero =>
    [commandEvent (.imdct long prevlong nextlong zero), .wait, commandEvent .window, .wait, commandEvent .overlap, .wait]
  | .loadpkt base bytes =>
    ((packWords bytes).zipIdx (base / 4)).map (fun p => .write (ScriptPlace.elem .pkt p.2).busAddr p.1) ++
      [.write (ScriptPlace.reg .pktBase).busAddr (BitVec.ofNat 32 base),
       .write (ScriptPlace.reg .pktLen).busAddr (BitVec.ofNat 32 bytes.length)]

/-- A host script as the events of the bus. -/
def assemble (lines : List ScriptLine) : List HostEvent := lines.flatMap ScriptLine.events

end Sys2Proof.Machine
end

