-- ==== Sys2Proof/Tests/Slice0.lean ====
section
/-!
SUPPORT. Tests: each constructor's decoding from a word written out from the spec's encoding, the ill-formed terms that WellFormed refuses,
vectors of `spec/95_test_vectors.md` (and of the rules' own examples), and for each obligation with hypotheses a state that meets them.
-/

namespace Sys2Proof.Tests

open Sys2Proof.Machine

/-! ## WellFormed refuses (R82-R86) -/

theorem test_wf_e0 : ¬WellFormed (.config 16 8 0) := by decide
theorem test_wf_e1 : ¬WellFormed (.config 6 16 0) := by decide
theorem test_wf_cbm1 : ¬WellFormed (.config 6 8 256) := by decide
theorem test_wf_cbBuild : ¬WellFormed (.cbBuild 256) := by decide
theorem test_wf_hdec : ¬WellFormed (.hdec 256) := by decide
theorem test_wf_vdec : ¬WellFormed (.vdec 256) := by decide
theorem test_wf_fail : ¬WellFormed (.fail 2) := by decide
theorem test_wf_rdbits : ¬WellFormed (.rdbits 64) := by decide

/-! ## Decoding (R81-R87, R89; the bits from the most significant one down: opcode, then operand) -/

theorem test_decode_nop : decode 0b00000000_000000000000000000000000#32 = .ok .nop := by decide
theorem test_decode_config : decode 0b00000001_00000000_11111111_1101_0110#32 = .ok (.config 6 13 255) := by decide
theorem test_decode_cbBuild : decode 0b00000010_0000000000000000_10000001#32 = .ok (.cbBuild 129) := by decide
theorem test_decode_seal : decode 0b00000011_000000000000000000000000#32 = .ok .sealSetup := by decide
theorem test_decode_fail : decode 0b00000100_00000000000000000000000_1#32 = .ok (.fail 1) := by decide
theorem test_decode_decBegin : decode 0b00010000_00000000000000000000000_1#32 = .ok (.decBegin true) := by decide
theorem test_decode_bind : decode 0b00010001_000000000000000000000000#32 = .ok .bind := by decide
theorem test_decode_rdbits : decode 0b00010010_000000000000000000_100001#32 = .ok (.rdbits 33) := by decide
theorem test_decode_hdec : decode 0b00010011_0000000000000000_01000000#32 = .ok (.hdec 64) := by decide
theorem test_decode_vdec : decode 0b00010100_0000000000000000_00000011#32 = .ok (.vdec 3) := by decide
theorem test_decode_imdct_long : decode 0b00100000_00000000000000000000_0001#32 = .ok (.imdct true false false false) := by decide
theorem test_decode_imdct_flags : decode 0b00100000_00000000000000000000_1110#32 = .ok (.imdct false true true true) := by decide
theorem test_decode_window : decode 0b00100001_000000000000000000000000#32 = .ok .window := by decide
theorem test_decode_overlap : decode 0b00100010_000000000000000000000000#32 = .ok .overlap := by decide

/-- L2.1: the words that are turned away. -/
theorem test_decode_rejects :
    decode 0x00000001#32 = .error .reservedBits ∧ decode 0x01010086#32 = .error .reservedBits ∧
    decode 0x04000002#32 = .error .reservedBits ∧ decode 0x12000040#32 = .error .reservedBits ∧
    decode 0x20000010#32 = .error .reservedBits ∧ decode 0x05000000#32 = .error .illegalOpcode ∧
    decode 0xFF000000#32 = .error .illegalOpcode := by decide

/-- The encoding table's own row numbering: one 32-bit word. -/
theorem test_decodeTableWord : decodeTableWord 32 0x12000020 = some (.rdbits 32) ∧ decodeTableWord 32 0x15000000 = none := by decide

/-! ## States -/

/-- b0 = 64, b1 = 256, two codebooks; setup NOT_LOADED. -/
def configured : State := { State.reset with cfgDone := true, cfgE0 := 6, cfgE1 := 8, cfgCbm1 := 1 }

/-- The same after SEAL, with a target of 100 samples in two packets. -/
def loaded : State := { configured with setupState := .loaded, sampleCount := 100, packetCount := 2 }

/-- A decode under way, no RAM written. -/
def small : State := { loaded with decState := .decoding }

/-- A decode just begun, as DEC_BEGIN leaves it. -/
def decoding : State := startDecode false loaded

/-- A packet of the given bytes at PKT[0], bound. -/
def boundTo (bytes : List Byte) (s : State) : State :=
  { s.writeBytes .pkt 0 bytes with lbase := 0, llen := BitVec.ofNat 32 bytes.length, bitPos := 0, bound := true }

/-- The codebook [2, 1, 2] of L2.4, built. -/
def bookABC : Codebook :=
  { Codebook.reset with entries := 3, built := true, code := [some [false, false], some [true], some [false, true]] }

/-- The single-entry codebook of L2.4, built. -/
def bookSingle : Codebook := { Codebook.reset with entries := 1, built := true, code := [some [false]] }

/-- A codebook of two entries and vectors of two elements (type 2 of L2.4), built. -/
def bookVq : Codebook :=
  { Codebook.reset with
    entries := 2, dims := 2, lookupType := 2, delta := 0x3F800000, nmult := 4, built := true, code := [some [false], some [true]]
    lookupValues := 4, vq := [[0x00000000, 0x3F800000], [0x40000000, 0x40400000]] }

/-- A configured core whose slot 0 holds K and whose tables hold these lengths and multiplicands. -/
def tables (K : Codebook) (lens mults : List Word) : State :=
  ((configured.setBook 0 K).writeWords .cbLen 0 0 lens).writeWords .cbMult 0 0 mults

/-- A short silent block in WORK, as IMDCT short, zero leaves it. -/
def blocked : State :=
  ({ setGeometry 64 false false false true decoding with seq := .imdctDone } : State).writeWords .work 0 0 (List.replicate 64 0)

/-- The same after WINDOW. -/
def windowed : State := { blocked with seq := .windowDone }

/-- The same with a budget that the packet uses up. -/
def budgeted : State := { windowed with budgetEn := true, budget := 10 }

/-- A first short silent packet before OVERLAP, with no more of PREV and WORK written than OVERLAP reads. -/
def silentPacket : State :=
  { setGeometry 64 false false false true ((small.writeWords .prev 0 0 (List.replicate 32 0)).writeWords .work 0 0 (List.replicate 64 0)) with
    seq := .windowDone, prevN := 64, prevREnd := 64, prevShort := true }

/-- Whether an outcome is a next state that passes a check. -/
def nextIs (r : Res) (p : State → Bool) : Bool := match r with | .next t => p t | .fault _ => false | .refused _ => false

theorem nextIs_iff {r : Res} {p : State → Bool} (h : nextIs r p = true) : ∃ t, r = .next t ∧ p t = true := by
  cases r with
  | next t => exact ⟨t, rfl, h⟩
  | fault f => cases h
  | refused f => cases h

/-- Whether an outcome is this fault. -/
def faultIs (r : Res) (f : Fault) : Bool := match r with | .fault g => g == f | .next _ => false | .refused _ => false

theorem faultIs_iff {r : Res} {f : Fault} (h : faultIs r f = true) : r = .fault f := by
  cases r with
  | fault g => rw [eq_of_beq h]
  | next t => cases h
  | refused f => cases h

/-! Evaluation of a meaning without unfolding the state that it runs in. -/

theorem rdbits_eval {s : State} {n r : Nat} (hl : (s.isDecoding && s.bound) = true) (hn : ¬32 < n) (hp : ¬packetBits s < s.bitPos.toNat + n)
    (hr : readBits s s.bitPos.toNat n = some r) : exec (.rdbits n) s =
      .next { s with result := BitVec.ofNat 32 r, bitPos := BitVec.ofNat 32 (s.bitPos.toNat + n) } := by
  simp only [exec, execRdbits, whenLegal, hl, hn, hp, hr, orFault, if_true, if_false]

theorem bind_eval {s : State} (hl : s.isDecoding = true) (hp : packetFits s = true) : exec .bind s =
    .next { s with lbase := s.pktBase, llen := s.pktLen, bitPos := 0, bound := true } := by
  simp only [exec, execBind, whenLegal, hl, hp, if_true]

theorem window_eval {s : State} {ws : List F32} (hl : (s.isDecoding && s.seq == .imdctDone) = true) (hw : currentBlock s = some ws) :
    ∃ t, exec .window s = .next t := by
  simp only [exec, execWindow, whenLegal, hl, hw, orFault, if_true]
  exact ⟨_, rfl⟩

theorem overlap_eval {s : State} {ws ps : List F32} (hl : (s.isDecoding && s.seq == .windowDone) = true) (hw : currentBlock s = some ws)
    (hp : allSome (s.readWords .prev 0 0 (prevCount s)) = some ps) (hb : s.budgetEn = false) :
    ∃ t, exec .overlap s = .next t ∧ t.decState ≠ .cancelled := by
  have hd : s.decState = .decoding := isDecoding_iff.mp (Bool.and_eq_true _ _ ▸ hl).1
  simp only [exec, execOverlap, whenLegal, hl, hw, hp, orFault, if_true]
  refine ⟨_, rfl, ?_⟩
  rcases packetDone_cases (emittedCount s) (savePrev ws (emitSamples (emittedBytes [s.draws] s ps.toArray ws.toArray) s)) with
    ⟨_, e⟩ | ⟨_, h, _⟩ | ⟨_, _, e⟩
  · rw [e]
    simp
  · rw [savePrev_budgetEn, emitSamples_budgetEn, hb] at h
    cases h
  · rw [e, countPacket_decState, savePrev_decState, emitSamples_decState, hd]
    decide

theorem inv_configured : Inv configured where
  params := by decide
  mem := List.Pairwise.nil
  loaded := fun h => absurd rfl h
  configured := fun h => by cases h
  exponents := fun _ => by decide
  pcmValid := by decide
  fmtCode := by decide
  cursor := fun h => by cases h
  packet := by decide
  prev := fun h => by cases h
  prevWritten := fun h => by cases h
  block := fun h => by cases h
  workWritten := fun h => by cases h
  books := fun c hc h => by
    rw [book_eq _ _ hc] at h
    simp [configured, State.reset, Codebook.reset] at h

theorem inv_loaded : Inv loaded :=
  ⟨inv_configured.params, inv_configured.mem, fun _ => rfl, fun _ => rfl, inv_configured.exponents, inv_configured.pcmValid, by decide, (fun h => by cases h),
   inv_configured.packet, inv_configured.prev, inv_configured.prevWritten, inv_configured.block, inv_configured.workWritten,
   inv_configured.books⟩

theorem inv_decoding : Inv decoding := inv_loaded.startDecode false rfl (by decide)

theorem inv_boundTo {s : State} (h : Inv s) (bytes : List Byte) (hb : bytes.length ≤ s.params.pktBytes) : Inv (boundTo bytes s) := by
  have h1 := h.writeBytes .pkt 0 bytes
  refine ⟨h1.params, h1.mem, h1.loaded, h1.configured, h1.exponents, h1.pcmValid, h1.fmtCode, h1.cursor, ⟨?_, by simp [boundTo]⟩, h1.prev,
    h1.prevWritten, h1.block, h1.workWritten, h1.books⟩
  have hk := h.params.1
  simp only [boundTo]
  rw [toNat_ofNat32 (by omega)]
  simpa using hb

theorem inv_blocked : Inv blocked := inv_decoding.imdctDone rfl false false false true (List.replicate 64 0) (by decide)

theorem inv_windowed : Inv windowed := inv_blocked.withSeq (by decide) _

theorem inv_budgeted : Inv budgeted :=
  ⟨inv_windowed.params, inv_windowed.mem, inv_windowed.loaded, inv_windowed.configured, inv_windowed.exponents, inv_windowed.pcmValid, inv_windowed.fmtCode,
   inv_windowed.cursor, inv_windowed.packet, inv_windowed.prev, inv_windowed.prevWritten, inv_windowed.block, inv_windowed.workWritten,
   inv_windowed.books⟩

/-! ## One command each (the rules' examples, and L2 of the test vectors) -/

/-- R210. -/
theorem test_nop : exec .nop small = .next small := rfl

/-- R211's example: CONFIG 6, 8, 1. -/
theorem test_config : nextIs (exec (.config 6 8 0) State.reset) (fun t => readReg t .cfg == 0x00000086 && t.cfgDone) = true := by
  decide +kernel

/-- R211: e0 > e1. -/
theorem test_config_blocksize :
    nextIs (exec (.config 8 7 0) State.reset) (fun t => t.setupState == .failed && t.fmtCode == some .blockSize && !t.cfgDone) = true := by
  decide +kernel

/-- R212's example: STATUS = 0x00000016 after CONFIG and SEAL. -/
theorem test_seal : nextIs (exec .sealSetup configured) (fun t => statusWord t == 0x00000016) = true := by decide +kernel

/-- R213's example: DEC_STATE = FAILED, FMTCODE = 0x0B. -/
theorem test_fail : nextIs (exec (.fail 0) small) (fun t => t.decState == .failed && t.fmtCodeBits == 0x0B) = true := by decide +kernel

/-- R213: UnsupportedVariant during setup. -/
theorem test_fail_setup :
    nextIs (exec (.fail 1) State.reset) (fun t => t.setupState == .failed && t.fmtCodeBits == 0x0C && t.decState == .idle) = true := by
  decide +kernel

/-- R214's example: DEC_STATE = DECODING and PREV_INFO = 0x10100040. -/
theorem test_decBegin :
    nextIs (exec (.decBegin false) loaded) (fun t =>
      t.decState == .decoding && readReg t .prevInfo == 0x10100040) = true := by decide +kernel

/-- L1.7: no packets complete at once, STATUS = 0x00000156. -/
theorem test_decBegin_empty :
    nextIs (exec (.decBegin false) { loaded with sampleCount := 0, packetCount := 0 }) (fun t => statusWord t == 0x00000156) = true := by
  decide +kernel

/-- R102's example. -/
theorem test_bind :
    nextIs (exec .bind { small with pktBase := 4, pktLen := 2, bitPos := 9 }) (fun t =>
      t.lbase == 4 && t.llen == 2 && t.bitPos == 0 && t.bound) = true := by decide +kernel

/-- L2.3: 65535 + 2 is beyond PKT. -/
theorem test_bind_param :
    nextIs (exec .bind { small with pktBase := 65535, pktLen := 2 }) (fun t => t.cmdCodeBits == 0x23 && !t.bound) = true := by decide +kernel

/-- R103's example, second read: RDBITS 5 after RDBITS 3 of 0xB5. -/
theorem test_rdbits :
    nextIs (exec (.rdbits 5) { boundTo [0xB5] small with bitPos := 3 }) (fun t => t.result == 22 && t.bitPos == 8) = true := by
  decide +kernel

/-- L2.3: 32 bits over four bytes. -/
theorem test_rdbits_word :
    nextIs (exec (.rdbits 32) (boundTo [0x78, 0x56, 0x34, 0x12] small)) (fun t => t.result == 0x12345678 && t.bitPos == 32) = true := by
  decide +kernel

/-- R128's example: codes 00, 1, 01 and the byte 0x06. -/
theorem test_hdec :
    nextIs (exec (.hdec 0) ((boundTo [0x06] small).setBook 0 bookABC)) (fun t => t.result == 2 && t.bitPos == 2) = true := by decide +kernel

/-- L2.4: the bit 1 of the single-entry codebook is BAD_CODE with ERRPOS 1. -/
theorem test_hdec_badCode :
    nextIs (exec (.hdec 0) ((boundTo [0x01] small).setBook 0 bookSingle)) (fun t =>
      t.decState == .failed && t.fmtCodeBits == 0x08 && t.errPos == 1 && t.bitPos == 1) = true := by decide +kernel

/-- L2.4: the type-2 vectors, entry 1. -/
theorem test_vdec :
    nextIs (exec (.vdec 0) ((boundTo [0x01] small).setBook 0 bookVq)) (fun t =>
      t.result == 1 && t.vdim == 2 && t.readWord .vout 0 0 == some 0x40000000 && t.readWord .vout 0 1 == some 0x40400000) = true := by
  decide +kernel

/-- L2.4: NO_LOOKUP before any bit is read. -/
theorem test_vdec_noLookup :
    nextIs (exec (.vdec 0) ((boundTo [0x06] small).setBook 0 bookABC)) (fun t => t.fmtCodeBits == 0x09 && t.bitPos == 0) = true := by
  decide +kernel

/-- R121's example, on lengths [2, 1, 2]. -/
theorem test_cbBuild :
    nextIs (exec (.cbBuild 0) (tables { Codebook.reset with entries := 3 } [2, 1, 2] [])) (fun t =>
      t.book 0 == { bookABC with lookupValues := 0 }) = true := by decide +kernel

/-- L2.4: the lattice codebook of nine entries, entries 5 and 7 with seqFlag = 1. -/
theorem test_cbBuild_lattice :
    nextIs (exec (.cbBuild 0) (tables
      { Codebook.reset with entries := 9, dims := 2, lookupType := 1, seqFlag := true, minimum := 0xBF800000, delta := 0x3F000000, nmult := 3 }
      [3, 3, 3, 3, 3, 3, 3, 4, 4] [0, 1, 2])) (fun t =>
      (t.book 0).lookupValues == 3 && (t.book 0).vq[5]? == some [0x00000000, 0xBF000000] &&
        (t.book 0).vq[7]? == some [0xBF000000, 0xBF000000] && (t.book 0).code[7]? == some (some [true, true, true, false])) = true := by
  decide +kernel

/-- L2.5: the short block of COEF[0] = 1.0, first and fourth quarter points. -/
theorem test_imdct :
    nextIs (exec (.imdct false false false false) (small.writeWords .coef 0 0 (0x3F800000 :: List.replicate 31 0))) (fun t =>
      t.readWord .work 0 0 == some 0x3F3085BB && t.readWord .work 0 15 == some 0x3CC90AB0 && t.readWord .work 0 47 == some 0xBF7FEC43) = true := by
  decide +kernel

/-- R164 for a long block after a short one (n = 256, b0 = 64), and R163 with ZERO = 1. -/
theorem test_imdct_zero :
    nextIs (exec (.imdct true false true true) small) (fun t =>
      readReg t .blkLeft == 0x00500030 && readReg t .blkRight == 0x01000080 && readReg t .blkN == 0x000D0100 &&
        t.readWord .work 0 255 == some 0 && t.readWord .work 0 256 == none) = true := by decide +kernel

/-- R182's example: WORK[0] = 1.0 of a short block. -/
theorem test_window :
    nextIs (exec .window { setGeometry 64 false false false false (small.writeWords .work 0 0 (List.replicate 64 0x3F800000)) with
        seq := .imdctDone }) (fun t =>
      t.readWord .work 0 0 == some 0x3A780018 && t.readWord .work 0 31 == some 0x3F7FFFF8 && t.readWord .work 0 63 == some 0x3A780018) = true := by
  decide +kernel

/-- R184's example: the first short packet of silence. -/
theorem test_overlap :
    nextIs (exec .overlap silentPacket) (fun t =>
      t.pcmCursor == 32 && t.packetIndex == 1 && t.prevN == 64 && t.prevREnd == 64 && t.readByte .pcm 31 == some 0 && t.seq == .none &&
        t.decState == .decoding) = true := by decide +kernel

/-- L1.15: a budget of 10 cancels after the packet. -/
theorem test_overlap_cancel :
    nextIs (exec .overlap { silentPacket with budgetEn := true, budget := 10 }) (fun t =>
      t.decState == .cancelled && !t.pcmValid && t.budget == 0xFFFFFFEA && t.readByte .pcm 0 == none) = true := by decide +kernel

/-! ## Values of the rules -/

/-- R151, R154, R180: entries of the ROMs (L2.5, L2.6). -/
theorem test_rom :
    twA .nearest 64 0 = 0x3F800000#32 ∧ twA .nearest 64 1 = 0x80000000#32 ∧ twA .nearest 64 3 = 0xBE47C5C2#32 ∧ twB .nearest 64 1 = 0x3CC90AB0#32 ∧
    twC .nearest 64 7 = 0xBF226799#32 ∧ romW .nearest 64 0 = 0x3A780018#32 ∧ romW .nearest 64 31 = 0x3F7FFFF8#32 ∧ romW .nearest 256 127 = 0x3F800000#32 := by decide +kernel

/-- R185's values. -/
theorem test_q8 :
    q8 [] 0x00000000#32 = 0 ∧ q8 [] 0x3F000000#32 = 64 ∧ q8 [] 0x3F800000#32 = 127 ∧ q8 [] 0xBF800000#32 = -128 ∧
    q8 [] 0xBF7F0000#32 = -127 ∧ q8 [] 0x3B7FFFDE#32 = 1 := by decide +kernel

/-- R13: rounding to nearest even, subnormals kept, and overflow to the infinity (worked by hand: 1 + 2^-24 is a tie; 2^-149 + 2^-149;
twice the largest finite value). -/
theorem test_float :
    f32Add [] 0x3F800000#32 0x33800000#32 = 0x3F800000#32 ∧ f32Add [] 0x3F800001#32 0x33800000#32 = 0x3F800002#32 ∧
    f32Add [] 0x00000001#32 0x00000001#32 = 0x00000002#32 ∧ f32Mul [] 0x40000000#32 0xFF7FFFFF#32 = 0xFF800000#32 := by decide +kernel

/-- R122, L2.4: lengths [3, 1, 3, 2]; and [1, 1, 1] has no candidate for its third entry. -/
theorem test_assign :
    assignCodes .inOrder [3, 1, 3, 2] =
      ([some [false, false, false], some [true], some [false, false, true], some [false, true]], true) ∧
    assignCodes .inOrder [1, 1, 1] = ([some [false], some [true]], false) := by decide

/-- D9: the same lengths under the length-sorted canonical code (worked by hand: entry 1, then 3, then 0 and 2). -/
theorem test_assign_sorted :
    assignCodes .lengthSorted [3, 1, 3, 2] =
      ([some [true, true, false], some [false], some [true, true, true], some [true, false]], true) := by decide +kernel

/-- D19: what a replaced ROM may hold. A neighbour of 0.5 but not the next one, a value of about 6e-17 for an exact 0, nothing above 1 (worked
by hand). -/
theorem test_replaced_rom :
    romAdmits 0x3F000000#32 0x3EFFFFFF#32 = true ∧ romAdmits 0x3F000000#32 0x3F000002#32 = false ∧
    romAdmits 0x00000000#32 0x248D3132#32 = true ∧ romAdmits 0x3F800000#32 0x3F800001#32 = false := by decide

/-- R165 (b): zeros give zeros. -/
theorem test_pimdct_zero (out : List F32) : ¬PImdct 64 (List.replicate 32 0) (0x00000001#32 :: out) := fun h =>
  absurd (h.2.1 (fun _ hx => by rw [List.eq_of_mem_replicate hx]; rfl) _ (List.mem_cons_self ..)) (by decide)

/-- R165 (c): the one coefficient 2^127 overflows nothing, so no NaN comes of it. -/
theorem test_pimdct_large (out : List F32) : ¬PImdct 64 (0x7F000000#32 :: List.replicate 31 f32Zero) (0x7FC00000#32 :: out) := by
  intro h
  have hr (k j : Nat) : (List.replicate k f32Zero).getD j f32Zero = f32Zero := by
    rw [List.getD_eq_getElem?_getD, List.getElem?_replicate]
    split <;> rfl
  have hv (j : Nat) : (f32Int ((0x7F000000#32 :: List.replicate 31 f32Zero).getD j f32Zero) / 2 ^ 149 : ℝ) = if j = 0 then 2 ^ 127 else 0 := by
    rcases j with _ | j
    · rw [List.getD_cons_zero, show f32Int 0x7F000000#32 = 2 ^ 127 * 2 ^ 149 by decide +kernel]
      norm_num
    · rw [List.getD_cons_succ, hr, show f32Int f32Zero = 0 by decide, if_neg (by omega), Int.cast_zero, zero_div]
  have h2 := h.2.2
  simp only [hv] at h2
  have hx : ∀ x ∈ 0x7F000000#32 :: List.replicate 31 f32Zero, f32IsFinite x = true := fun x hx => by
    rcases List.mem_cons.mp hx with rfl | hx
    · decide
    · rw [List.eq_of_mem_replicate hx]
      decide
  obtain h0 | h0 := h2 hx (fun i _ => by
    rw [Finset.sum_eq_single 0 (fun j _ hj => by rw [if_neg hj, zero_mul]) (fun h => absurd (by decide) h), if_pos rfl, abs_mul]
    exact lt_of_le_of_lt (mul_le_of_le_one_right (abs_nonneg _) (Real.abs_cos_le_one _)) (by norm_num)) 0 (by decide)
  · exact absurd (show f32IsFinite 0x7FC00000#32 = true from h0.1) (by decide)
  · have := h0.1
    rw [Finset.sum_eq_single 0 (fun j _ hj => by rw [if_neg hj, abs_zero]) (fun h => absurd (by decide) h), if_pos rfl] at this
    norm_num at this

/-- R7: the capacities are the core's. With 32768 bytes of PKT, a packet of 32769 bytes and the bus address of byte 32768 are out of range. -/
theorem test_capacity :
    let small : State := { small with params := { Params.default with pktBytes := 32768 }, pktLen := 32769 }
    nextIs (exec .bind small) (fun t => t.cmdCodeBits == 0x23) = true ∧ (hostRead 0x108000#24 small).cmdCodeBits = 0x25 ∧
    (hostRead 0x107FFC#24 small).cmdErr = false := by decide +kernel

/-- L2.2: the bus errors, and a read of PKT[0]. -/
theorem test_bus :
    (hostRead 0x000074#24 small).cmdCodeBits = 0x25 ∧ (hostRead 0x000002#24 small).busOut = 0 ∧ (hostRead 0x504000#24 small).cmdErr = true ∧
    (hostWrite 0x900000#24 1 small).cmdErr = true ∧
    (hostRead 0x100000#24 (boundTo [0xB5, 0x12, 0x34, 0x56] small)).busOut = 0x563412B5 := by decide +kernel

/-- L2.2: a codebook write after SEAL is ignored. -/
theorem test_setup_write : (hostWrite 0x200000#24 3 loaded).ignored = true ∧ (hostWrite 0x200000#24 3 loaded).mem = [] := by decide +kernel

/-- R94-R96: lines of a script as bus events. -/
theorem test_script :
    assemble [.cmd (.config 6 8 0), .wait, .loadpkt 4 [0xB5, 0x12, 0x34, 0x56, 0x78]] =
      [.write 0x000008#24 0x01000086#32, .wait, .write 0x100004#24 0x563412B5#32, .write 0x100008#24 0x00000078#32,
       .write 0x00001C#24 4#32, .write 0x000020#24 5#32] := by decide

/-- The fixed names: from reset, the accepted word is what the next step performs. -/
theorem test_withFetchWord : nextIs (step (State.reset.withFetchWord 32 0x01000086)) (fun t => t.cfgDone && !t.busy) = true := by
  decide +kernel

/-! ## Witnesses: for each obligation with hypotheses, a state and operands that meet them, for each clause -/

theorem witness_DecodeOfEncode :
    WellFormed (.config 15 15 255) ∧ WellFormed (.cbBuild 255) ∧ WellFormed (.fail 1) ∧ WellFormed (.decBegin true) ∧
    WellFormed (.rdbits 63) ∧ WellFormed (.hdec 255) ∧ WellFormed (.vdec 0) ∧ WellFormed (.imdct true true true true) ∧ WellFormed .nop ∧
    WellFormed .sealSetup ∧ WellFormed .bind ∧ WellFormed .window ∧ WellFormed .overlap := by decide

theorem witness_OnlyEncodingsDecode : decode 0x0100FFDD#32 = .ok (.config 13 13 255) := by decide

/-- A reserved opcode, and operand bit 6 of RDBITS, the first beyond its format. -/
theorem witness_RejectedWords :
    (let s : State := { small with busy := true, cmdWord := 0x05000000 }
     s.cmdWord = BitVec.ofNat 32 (0x05 * 2 ^ 24 + 0) ∧ s.busyFor = 0 ∧ ∀ p ∈ Spec.usedBits, p.1 ≠ 0x05) ∧
    (let s : State := { small with busy := true, cmdWord := 0x12000040, busyFor := 3 }
     s.cmdWord = BitVec.ofNat 32 (0x12 * 2 ^ 24 + 0x40) ∧ s.host = [] ∧ (0x12, 6) ∈ Spec.usedBits ∧ 2 ^ 6 ≤ 0x40) := by decide

/-- A command that completes, and one that faults. -/
theorem witness_StepRunsDecoded :
    (decode ({ small with busy := true, cmdWord := 0 } : State).cmdWord = .ok .nop ∧ exec .nop small = .next small) ∧
    (let s : State := { small with busy := true, cmdWord := 0x12000001, bound := true, llen := 1 }
     s.busyFor = 0 ∧ decode s.cmdWord = .ok (.rdbits 1) ∧ exec (.rdbits 1) s = .fault (.unwrittenRead .pkt)) :=
  ⟨⟨by decide, rfl⟩, rfl, by decide, rfl⟩

theorem witness_BusyInterlock :
    (let s : State := { small with host := [.write 0x000008#24 0x12000001#32, .wait] }
     s.busy = false ∧ s.host = .write 0x000008#24 0x12000001#32 :: [.wait]) ∧
    (let s : State := { small with host := [.read 0x000008#24] }
     s.busy = false ∧ s.host = .read 0x000008#24 :: []) ∧
    (let s : State := { small with busy := true, busyFor := 1, host := [.write 0x000008#24 0x00000000#32] }
     s.busy = true ∧ s.busyFor = 0 + 1 ∧ s.host = .write 0x000008#24 0x00000000#32 :: []) ∧
    (let s : State := { small with busy := true, busyFor := 1, host := [.read 0x000004#24] }
     s.busy = true ∧ s.busyFor = 0 + 1 ∧ s.host = .read 0x000004#24 :: []) ∧
    (let s : State := { small with busy := true, busyFor := 1, host := [.write 0x000004#24 0x00000600#32] }
     s.busy = true ∧ s.busyFor = 0 + 1 ∧ 0x000004#24 ≠ 0x000008#24 ∧ s.host = .write 0x000004#24 0x00000600#32 :: []) ∧
    (let s : State := { small with busy := true, busyFor := 1, host := [.read 0x000008#24] }
     s.busy = true ∧ s.busyFor = 0 + 1 ∧ 0x000008#24 ≠ 0x000004#24 ∧ s.host = .read 0x000008#24 :: []) := by decide

/-- An idle core, and one that runs a command. -/
theorem witness_ResetAbandons :
    (let s : State := { small with host := [.reset] }
     s.host = .reset :: [] ∧ (s.busy = true → s.busyFor ≠ 0)) ∧
    (let s : State := { small with busy := true, busyFor := 2, host := [.reset, .wait] }
     s.host = .reset :: [.wait] ∧ (s.busy = true → s.busyFor ≠ 0)) := by decide

theorem witness_RegisterWrites : small.decState = .decoding ∧ loaded.decState ≠ .decoding := by decide

theorem witness_ReadOnlyWritesIgnored : loaded.params.Legal ∧ 4 * 255 < Spec.size loaded.params .vout ∧
    4 * 8191 < Spec.size loaded.params .work ∧ 4 * 4095 < Spec.size loaded.params .prev ∧ 4 * 262143 < Spec.size loaded.params .pcm := by decide

/-- Misaligned, the first reserved register, the first word beyond COEF, the first reserved region; and the last good ones before them. -/
theorem witness_BusErrors :
    let P := Params.default
    Spec.badAddress P 0x000002 ∧ Spec.badAddress P 0x000074 ∧ Spec.badAddress P 0x504000 ∧ Spec.badAddress P 0x900000 ∧
    Spec.badAddress { P with pktBytes := 32768 } 0x108000 ∧ ¬Spec.badAddress P 0x000070 ∧ ¬Spec.badAddress P 0x503FFC ∧
    ¬Spec.badAddress P 0x8FFFFC := by
  refine ⟨.inl (by decide), .inr (.inl (by decide)), .inr (.inr (.inr ⟨.coef, by decide⟩)), .inr (.inr (.inl (by decide))),
    .inr (.inr (.inr ⟨.pkt, by decide⟩)), ?_, ?_, ?_⟩
  all_goals
    rintro (h | h | h | ⟨r, h1, h2⟩)
    · omega
    · omega
    · omega
    · cases r <;> simp [Spec.base, Spec.size, Params.default] at h1 h2

theorem witness_SetupTableWrites : configured.params.Legal ∧ configured.setupState = .notLoaded ∧ loaded.setupState ≠ .notLoaded ∧
    4 * 65535 < Spec.size loaded.params .cbLen ∧ Spec.at_ .cbLen (4 * 65535) = 0x23FFFC#24 := by decide

theorem witness_ByteRamWords : small.params.Legal ∧ 4 * 16383 < small.params.pktBytes ∧ 4 * 262143 < Spec.size small.params .pcm ∧
    (small.writeBytes .pcm (4 * 262143) [1, 2, 3, 4]).readByte .pcm (4 * 262143 + 3) = some 4 := by decide +kernel

theorem witness_FloatWordsKept : small.params.Legal ∧ 4095 < 4096 ∧ 4 * 4095 < Spec.size small.params .prev ∧
    (small.writeWords .prev 0 4095 [0x7F800001]).readWord .prev 0 4095 = some 0x7F800001#32 := by decide +kernel

/-- The guard, a command out of its state, and a parameter out of range, each at its boundary. -/
theorem witness_LegalityTable :
    (Spec.isSetup .sealSetup ∧ loaded.setupState = .loaded) ∧ ((Spec.isSetup .window → small.setupState ≠ .loaded) ∧ ¬Spec.legal small .window) ∧
    (Spec.legal configured (.cbBuild 2) ∧ Spec.badParam configured (.cbBuild 2)) ∧
    (Spec.legal { loaded with sampleCount := 1048577 } (.decBegin false) ∧ Spec.badParam { loaded with sampleCount := 1048577 } (.decBegin false)) ∧
    (Spec.legal { small with pktLen := 65537 } .bind ∧ Spec.badParam { small with pktLen := 65537 } .bind) ∧
    (Spec.legal { small with bound := true } (.rdbits 33) ∧ Spec.badParam { small with bound := true } (.rdbits 33)) :=
  ⟨⟨trivial, rfl⟩, ⟨fun h => h.elim, by unfold Spec.legal; decide⟩, ⟨by unfold Spec.legal; decide, by unfold Spec.badParam; decide⟩,
   ⟨by unfold Spec.legal; decide, by unfold Spec.badParam; decide⟩, ⟨by unfold Spec.legal; decide, by unfold Spec.badParam; decide⟩,
   by unfold Spec.legal; decide, by unfold Spec.badParam; decide⟩

/-- The largest legal CONFIG; e0 too small, e1 too large, e0 above e1. -/
theorem witness_ConfigResult :
    (WellFormed (.config 6 13 255) ∧ State.reset.setupState = .notLoaded ∧ 6 ≤ 6 ∧ 13 ≤ 13 ∧ 6 ≤ 13) ∧
    (WellFormed (.config 5 8 0) ∧ 5 < 6) ∧ (WellFormed (.config 6 14 0) ∧ 13 < 14) ∧ (WellFormed (.config 8 7 0) ∧ 7 < 8) := by decide

theorem witness_NopAndSealResult : (configured.setupState = .notLoaded ∧ configured.cfgDone = true) ∧
    State.reset.setupState = .notLoaded ∧ State.reset.cfgDone = false := by decide

theorem witness_FailResult :
    WellFormed (.fail 0) ∧ WellFormed (.fail 1) ∧ small.decState = .decoding ∧
    (State.reset.decState ≠ .decoding ∧ State.reset.setupState = .notLoaded) ∧
    (loaded.decState ≠ .decoding ∧ loaded.setupState ≠ .notLoaded) := by decide

/-- The largest SAMPLE_COUNT; a decode that starts, one that completes at once, and one that is cancelled at once with BUDGET = 0. -/
theorem witness_DecBeginResult :
    (loaded.params.Legal ∧ loaded.setupState = .loaded ∧
      ({ loaded with sampleCount := 1048576 } : State).sampleCount.toNat ≤ loaded.params.pcmBytes) ∧
    (loaded.packetCount ≠ 0 ∧ ¬(false = true ∧ loaded.budget.toInt ≤ 0)) ∧ ({ loaded with packetCount := 0 } : State).packetCount = 0 ∧
    (loaded.packetCount ≠ 0 ∧ true = true ∧ loaded.budget.toInt ≤ 0) := by decide

/-- Not decoding; one byte too long; the last range that fits. -/
theorem witness_BindResult :
    loaded.decState ≠ .decoding ∧
    (small.decState = .decoding ∧ small.params.pktBytes < ({ small with pktBase := 65535, pktLen := 2 } : State).pktBase.toNat + (2#32).toNat) ∧
    (small.decState = .decoding ∧ ({ small with pktBase := 65534, pktLen := 2 } : State).pktBase.toNat + (2#32).toNat ≤ small.params.pktBytes) := by decide

/-- Not bound; 33 bits; a read one bit beyond the packet; 8 bits that end exactly at its end. -/
theorem witness_RdbitsResult :
    small.bound = false ∧ 32 < 33 ∧
    (let s := boundTo [0xB5] small
     s.decState = .decoding ∧ s.bound = true ∧ 9 ≤ 32 ∧ 8 * s.llen.toNat < s.bitPos.toNat + 9 ∧
     8 ≤ 32 ∧ s.bitPos.toNat + 8 ≤ 8 * s.llen.toNat ∧
     ∀ k, k < 8 → Spec.BitIs s (s.bitPos.toNat + k) ([true, false, true, false, true, true, false, true].getD k false)) := by
  refine ⟨rfl, by decide, rfl, rfl, by decide, by decide, by decide, by decide, fun k hk => ⟨0xB5, ?_, ?_⟩⟩ <;>
    (interval_cases k <;> decide +kernel)

/-- A full codebook, and one whose third entry has no candidate. -/
theorem witness_AssignLeastCandidate : (assignCodes .inOrder [2, 1, 2]).2 = true ∧ (assignCodes .inOrder [1, 1, 1]).2 = false ∧
    (assignCodes .lengthSorted [2, 1, 2]).2 = true := by decide +kernel

theorem witness_CheckFullIsKraft : ∀ l ∈ [1, 2, 32, 0], l ≤ 32 := by decide

theorem witness_Lookup1Values : 1 ≤ 1 := by decide

/-- The full code of three entries, the single-entry code, and a longer list of lengths that begins alike. -/
theorem witness_BuildProperties :
    ((assignCodes .inOrder [2, 1, 2]).2 = true ∧ Spec.Full [2, 1, 2] ∧ Spec.kraft [2, 1, 2] = 1) ∧
    ((assignCodes .lengthSorted [1]).2 = true ∧ Spec.Full [1]) ∧
    ({ bookABC with lookupType := 1 } : Codebook).code = (assignCodes .inOrder [2, 1, 2]).1 ∧ (assignCodes .lengthSorted [2, 1, 2]).2 = true ∧
    (1 < [2, 1, 2].length ∧ [2, 1, 3, 3].take 2 = [2, 1, 2].take 2) := by decide +kernel

theorem bitIs_of_packetBit {s : State} {j : Nat} {b : Bool} (h : packetBit s j = some b) : Spec.BitIs s j b := by
  unfold packetBit at h
  cases e : s.readByte .pkt (s.lbase.toNat + j / 8) with
  | none => simp [e] at h
  | some x => exact ⟨x, e, by simpa [e] using h⟩

/-- `Spells` by evaluation. -/
theorem spells_of_check {s : State} {d : Codeword} (h : (decide (s.bitPos.toNat + d.length ≤ 8 * s.llen.toNat) &&
    (List.range d.length).all fun k => packetBit s (s.bitPos.toNat + k) == some (d.getD k false)) = true) : Spec.Spells s d := by
  simp only [Bool.and_eq_true, decide_eq_true_eq, List.all_eq_true, List.mem_range, beq_iff_eq] at h
  refine ⟨h.1, fun k hk => bitIs_of_packetBit ?_⟩
  rw [h.2 k hk, List.getD_eq_getElem _ _ hk]

/-- `PrefixFree` by evaluation. -/
theorem prefixFree_of_check {codes : List (Option Codeword)} (h : ∀ e, e < codes.length → ∀ e', e' < codes.length → e = e' ∨
    (match codes[e]?, codes[e']? with | some (some c), some (some c') => !c.isPrefixOf c' | _, _ => true) = true) : Spec.PrefixFree codes := by
  intro e e' c c' he h1 h2
  have l1 := (List.getElem?_eq_some_iff.mp h1).1
  have l2 := (List.getElem?_eq_some_iff.mp h2).1
  have h3 := (h e l1 e' l2).resolve_left he
  rw [h1, h2] at h3
  have h4 : c.isPrefixOf c' = false := by simpa using h3
  rw [← List.isPrefixOf_iff_prefix, h4]
  decide

/-- The codeword 01 of entry 2 at the start of the byte 0x06. -/
theorem witness_HdecResult :
    let s := (boundTo [0x06] small).setBook 0 bookABC
    s.decState = .decoding ∧ s.bound = true ∧ 0 < s.cfgCbm1.toNat + 1 ∧ (s.book 0).built = true ∧ Spec.PrefixFree (s.book 0).code ∧
    (s.book 0).code[2]? = some (some [false, true]) ∧ [false, true] ≠ [] ∧ Spec.Spells s [false, true] :=
  ⟨rfl, rfl, by decide, by decide +kernel, prefixFree_of_check (by decide +kernel), by decide +kernel, by decide,
   spells_of_check (by decide +kernel)⟩

theorem witness_VdecResult :
    let s := (boundTo [0x01] small).setBook 0 bookVq
    s.decState = .decoding ∧ s.bound = true ∧ 0 < s.cfgCbm1.toNat + 1 ∧ (s.book 0).built = true ∧ (s.book 0).lookupType ≠ 0 ∧
    Spec.PrefixFree (s.book 0).code ∧ (s.book 0).code[1]? = some (some [true]) ∧ [true] ≠ [] ∧ Spec.Spells s [true] ∧
    (s.book 0).vq[1]? = some [0x40000000#32, 0x40400000#32] ∧ [0x40000000#32, 0x40400000#32].length = (s.book 0).dims.toNat :=
  ⟨rfl, rfl, by decide, by decide +kernel, by decide +kernel, prefixFree_of_check (by decide +kernel), by decide +kernel, by decide,
   spells_of_check (by decide +kernel), by decide +kernel, by decide +kernel⟩

/-- Out of range (cbCount = 2), not built, no lookup, a bit that begins no codeword, and one bit left of a longer codeword. -/
theorem witness_DecodeErrors :
    ((boundTo [0x06] small).cfgCbm1.toNat + 1 ≤ 2 ∧ ((boundTo [0x06] small).book 1).built = false) ∧
    (let s := (boundTo [0x06] small).setBook 0 bookABC
     s.decState = .decoding ∧ s.bound = true ∧ 0 < s.cfgCbm1.toNat + 1 ∧ (s.book 0).built = true ∧ (s.book 0).lookupType = 0) ∧
    (let s := (boundTo [0x01] small).setBook 0 bookSingle
     Spec.Spells s [true] ∧ ¬Spec.IsCode (s.book 0).code [true] ∧ ¬Spec.Undecided (s.book 0).code [true]) ∧
    (let s : State := { (boundTo [0x06] small).setBook 0 bookABC with bitPos := 7 }
     Spec.Spells s [false] ∧ s.bitPos.toNat + [false].length = 8 * s.llen.toNat ∧ Spec.Undecided (s.book 0).code [false]) := by
  have hb (s : State) (K : Codebook) : (s.setBook 0 K).book 0 = K := book_setBook_same s 0 K (by decide)
  refine ⟨⟨by decide, by decide +kernel⟩, ⟨rfl, rfl, by decide, by decide +kernel, by decide +kernel⟩,
    ⟨spells_of_check (by decide +kernel), ?_, ?_⟩, spells_of_check (by decide +kernel), by decide +kernel, ?_⟩
  · rw [hb]
    simp [Spec.IsCode, bookSingle]
  · rw [hb]
    simp [Spec.Undecided, Spec.IsCode, bookSingle]
  · show Spec.Undecided (((boundTo [0x06] small).setBook 0 bookABC).book 0).code [false]
    rw [hb]
    exact ⟨by simp [Spec.IsCode, bookABC], [false, false], by simp [Spec.IsCode, bookABC], by decide, by decide⟩

/-- Two reads that meet in the middle of the packet 0xB5, in a state that keeps the invariant. -/
theorem witness_SplitReads :
    let s := boundTo [0xB5] decoding
    Inv s ∧ s.decState = .decoding ∧ s.bound = true ∧ 3 + 5 ≤ 32 ∧
    ∃ t₁ t₂, exec (.rdbits 3) s = .next t₁ ∧ exec (.rdbits 5) t₁ = .next t₂ ∧ t₂.decState = .decoding := by
  refine ⟨inv_boundTo inv_decoding _ (by decide), rfl, rfl, by decide, ?_⟩
  have hb (t : State) (hm : t.mem = (boundTo [0xB5] decoding).mem) (hl : t.lbase = 0) (o : Nat) (h : o < 8) :
      packetBit t o = some ((0xB5 : Byte).getLsbD o) := by
    have h1 : (boundTo [0xB5] decoding).readByte .pkt 0 = some 0xB5 := readByte_writeBytes decoding .pkt 0 0 [0xB5]
    have h2 : t.readByte .pkt 0 = some 0xB5 := by
      rw [← h1]
      unfold State.readByte
      rw [hm]
    unfold packetBit
    rw [hl, show (0 : Word).toNat + o / 8 = 0 by show 0 + o / 8 = 0; omega, h2, Nat.mod_eq_of_lt h]
  have h0 : readBits (boundTo [0xB5] decoding) 0 3 = some 5 := by
    simp only [readBits, hb _ rfl rfl 0 (by decide), hb _ rfl rfl 1 (by decide), hb _ rfl rfl 2 (by decide)]
    decide
  have h1 (t : State) (hm : t.mem = (boundTo [0xB5] decoding).mem) (hl : t.lbase = 0) : readBits t 3 5 = some 22 := by
    simp only [readBits, hb t hm hl 3 (by decide), hb t hm hl 4 (by decide), hb t hm hl 5 (by decide), hb t hm hl 6 (by decide),
      hb t hm hl 7 (by decide)]
    decide
  exact ⟨_, _, rdbits_eval (by rfl) (by decide) (by decide) h0, rdbits_eval (by rfl) (by decide) (by decide) (h1 _ rfl rfl), rfl⟩

/-- Lengths [2, 1, 2] in the table of slot 0, for any descriptor. -/
theorem lengthsAre_tables (K : Codebook) (mults : List Word) (hm : mults.length ≤ 6) :
    (tables K [2, 1, 2] mults).mem.wf ∧ Spec.LengthsAre (tables K [2, 1, 2] mults) 0 [2, 1, 2] ∧
    Spec.MultsAre (tables K [2, 1, 2] mults) 0 mults ∧ (tables K [2, 1, 2] mults).book 0 = K := by
  refine ⟨Memory.wf_writeWords (Memory.wf_writeWords List.Pairwise.nil _ _) _ _, fun e l h => ?_, fun i m h => ?_, ?_⟩
  · have hw : ([2, 1, 2] : List Word)[e]? = some (BitVec.ofNat 32 l) ∧ l < 2 ^ 32 ∧ e < 3 := by
      rcases e with _ | _ | _ | e <;> simp at h <;> subst h <;> simp
    refine ⟨hw.2.1, ?_⟩
    unfold tables
    rw [readWord_writeWords_of_ne _ _ _ _ _ _ _ _ (.inl (by decide)) (by omega) (by omega)]
    have := readWord_writeWords (configured.setBook 0 K) .cbLen 0 0 e [2, 1, 2] _ hw.1
    rwa [Nat.zero_add] at this
  · have := readWord_writeWords ((configured.setBook 0 K).writeWords .cbLen 0 0 [2, 1, 2]) .cbMult 0 0 i mults m h
    rwa [Nat.zero_add] at this
  · exact (book_congr rfl 0).trans (book_setBook_same configured 0 K (by decide))

theorem witness_CbBuildScalar :
    let s := tables { Codebook.reset with entries := 3 } [2, 1, 2] []
    s.mem.wf ∧ s.setupState = .notLoaded ∧ s.cfgDone = true ∧ 0 < s.cfgCbm1.toNat + 1 ∧ (s.book 0).entries.toNat = [2, 1, 2].length ∧
    [2, 1, 2].length ≤ s.params.cbMaxEntries ∧ Spec.LengthsAre s 0 [2, 1, 2] ∧ (∀ l ∈ [2, 1, 2], l ≤ 32) ∧ Spec.Full [2, 1, 2] ∧
    (s.book 0).lookupType = 0 := by
  obtain ⟨h1, h2, _, h4⟩ := lengthsAre_tables { Codebook.reset with entries := 3 } [] (by decide)
  exact ⟨h1, rfl, rfl, by decide, by rw [h4]; rfl, by decide, h2, by decide, by decide +kernel, by rw [h4]; rfl⟩

/-- With dimension 2, lookup type 1, where one multiplicand serves three entries (lookup1_values(3, 2) = 1), and type 2, which needs six. -/
theorem witness_CbBuildVectors : ∀ p ∈ [((1#2, 1#32), [7#32]), ((2#2, 6#32), [7, 8, 9, 10, 11, 12#32])],
    let K : Codebook := { Codebook.reset with entries := 3, dims := 2, lookupType := p.1.1, nmult := p.1.2 }
    let s := tables K [2, 1, 2] p.2
    s.mem.wf ∧ s.setupState = .notLoaded ∧ s.cfgDone = true ∧ 0 < s.cfgCbm1.toNat + 1 ∧ (s.book 0).entries.toNat = [2, 1, 2].length ∧
    [2, 1, 2].length ≤ s.params.cbMaxEntries ∧ Spec.LengthsAre s 0 [2, 1, 2] ∧ (∀ l ∈ [2, 1, 2], l ≤ 32) ∧
    Spec.buildError s.params (s.book 0) [2, 1, 2] = none ∧ (s.book 0).lookupType ≠ 0 ∧
    p.2.length = Spec.lookupCount (s.book 0) ∧ Spec.MultsAre s 0 p.2 := by
  intro p hp K s
  obtain ⟨h1, h2, h3, h4⟩ := lengthsAre_tables K p.2 (by fin_cases hp <;> decide)
  have hk : s.book 0 = K := h4
  refine ⟨h1, rfl, rfl, Nat.succ_pos _, ?_, show 3 ≤ 65536 by decide, h2, by decide, ?_, ?_, ?_, h3⟩ <;> (rw [hk]; fin_cases hp <;> decide +kernel)

/-- One descriptor or list of lengths for each FormatError of CB_BUILD, at the boundary. -/
theorem witness_CbBuildErrors :
    (let s := tables { Codebook.reset with entries := 65537 } [2, 1, 2] []
     s.mem.wf ∧ s.setupState = .notLoaded ∧ s.cfgDone = true ∧ 0 < s.cfgCbm1.toNat + 1 ∧ s.params.cbMaxEntries < (s.book 0).entries.toNat) ∧
    (let s := tables { Codebook.reset with entries := 1 } [33] []
     (s.book 0).entries.toNat ≤ s.params.cbMaxEntries ∧ 0 < (s.book 0).entries.toNat ∧ s.readWord .cbLen 0 0 = some 33 ∧ 32 < (33 : Word).toNat) ∧
    Spec.buildError Params.default { Codebook.reset with entries := 3 } [1, 1, 1] = some .cbOverfull ∧
    Spec.buildError Params.default { Codebook.reset with entries := 2 } [1, 2] = some .cbUnderfull ∧
    Spec.buildError Params.default { Codebook.reset with entries := 3, lookupType := 3 } [2, 1, 2] = some .cbLookup ∧
    Spec.buildError Params.default { Codebook.reset with entries := 3, lookupType := 1 } [2, 1, 2] = some .cbLookup ∧
    Spec.buildError Params.default { Codebook.reset with entries := 3, lookupType := 1, dims := 257 } [2, 1, 2] = some .cbCapacity ∧
    Spec.buildError Params.default { Codebook.reset with entries := 3, lookupType := 2, dims := 2, nmult := 65537 } [2, 1, 2] = some .cbCapacity ∧
    Spec.buildError { Params.default with cbMaxVq := 5 } { Codebook.reset with entries := 3, lookupType := 2, dims := 2, nmult := 6 } [2, 1, 2] =
      some .cbCapacity ∧
    Spec.buildError { Params.default with cbMaxVq := 6 } { Codebook.reset with entries := 3, lookupType := 2, dims := 2, nmult := 6 } [2, 1, 2] = none ∧
    (let K : Codebook := { Codebook.reset with entries := 3, lookupType := 2, dims := 2, nmult := 5 }
     let s := tables K [2, 1, 2] []
     (s.book 0).entries.toNat = [2, 1, 2].length ∧ Spec.LengthsAre s 0 [2, 1, 2] ∧ (∀ l ∈ [2, 1, 2], l ≤ 32) ∧
     Spec.buildError s.params (s.book 0) [2, 1, 2] = some .cbLookup) := by
  refine ⟨⟨(lengthsAre_tables _ [] (by decide)).1, rfl, rfl, by decide, by decide +kernel⟩,
    ⟨by decide +kernel, by decide +kernel, by decide +kernel, by decide⟩, by decide +kernel, by decide +kernel, by decide +kernel,
    by decide +kernel, by decide +kernel, by decide +kernel, by decide +kernel, by decide +kernel, ?_⟩
  intro K s
  obtain ⟨_, h2, _, h4⟩ := lengthsAre_tables K [] (by decide)
  exact ⟨by rw [show s.book 0 = K from h4]; rfl, h2, by decide, by rw [show s.book 0 = K from h4]; decide +kernel⟩

/-- A command and a host write under a loaded setup. -/
theorem witness_TablesImmutable : Inv loaded ∧ loaded.setupState = .loaded ∧ (∃ i, exec i loaded = .next loaded) ∧
    ∃ a w, hostWrite 0x200000#24 3 loaded = hostWrite a w loaded := ⟨inv_loaded, rfl, ⟨.nop, rfl⟩, _, _, rfl⟩

theorem witness_ImdctZero : small.decState = .decoding ∧ small.seq = .none := by decide

/-- A short block whose 32 coefficients are written. -/
theorem witness_ImdctTransform :
    let s := decoding.writeWords .coef 0 0 (List.replicate 32 0x3F800000)
    Inv s ∧ s.decState = .decoding ∧ s.seq = .none ∧
    ∀ j, j < 2 ^ (if false = true then s.cfgE1.toNat else s.cfgE0.toNat) / 2 → s.readWord .coef 0 j = some 0x3F800000#32 := by
  refine ⟨inv_decoding.writeWords _ _ _ _, rfl, rfl, fun j hj => ?_⟩
  have hj : j < 32 := hj
  have := readWord_writeWords decoding .coef 0 0 j (List.replicate 32 0x3F800000#32) 0x3F800000#32
    (by rw [List.getElem?_replicate, if_pos hj])
  rwa [Nat.zero_add] at this

theorem witness_GeometryRule : Inv decoding ∧ decoding.decState = .decoding ∧ decoding.seq = .none ∧
    ∃ t, exec (.imdct true false true true) decoding = .next t := ⟨inv_decoding, rfl, rfl, _, rfl⟩

/-- The smallest and the largest block size, for the statements about the pipeline and the ROMs. -/
theorem witness_BitReversal : 6 ≤ 6 ∧ 6 ≤ 13 ∧ 7 < 2 ^ 6 / 8 ∧ 13 ≤ 13 ∧ 1023 < 2 ^ 13 / 8 := by decide

theorem witness_StagesOneAndTwo : 6 ≤ 6 ∧ 6 ≤ 13 ∧ 13 ≤ 13 := by decide

theorem witness_StagesThreeAndFour : 6 ≤ 6 ∧ 6 ≤ 13 ∧ 13 ≤ 13 := by decide

theorem witness_StagesFiveAndSix : 6 ≤ 6 ∧ 6 ≤ 13 ∧ 13 ≤ 13 := by decide

theorem witness_ZeroInZeroOut :
    6 ≤ 6 ∧ 6 ≤ 13 ∧ (List.replicate 32 0x80000000#32).length = 2 ^ 6 / 2 ∧ ∀ x ∈ List.replicate 32 0x80000000#32, Spec.IsZero x :=
  ⟨by decide, by decide, rfl, fun _ hx => .inr (List.eq_of_mem_replicate hx)⟩

theorem witness_RomAccuracy : 6 ≤ 13 ∧ 13 ≤ 13 ∧ 2047 < 2 ^ 13 / 4 ∧ 1023 < 2 ^ 13 / 8 ∧ 4095 < 2 ^ 13 / 2 := by decide

theorem witness_WindowResult : Inv blocked ∧ blocked.decState = .decoding ∧ blocked.seq = .imdctDone := ⟨inv_blocked, rfl, rfl⟩

/-- A packet after which the decode goes on, and one after which the budget ends it. -/
theorem witness_OverlapResult :
    (Inv windowed ∧ windowed.decState = .decoding ∧ windowed.seq = .windowDone ∧ ¬Spec.budgetEnds windowed) ∧
    (Inv budgeted ∧ budgeted.decState = .decoding ∧ budgeted.seq = .windowDone ∧ Spec.budgetEnds budgeted) :=
  ⟨⟨inv_windowed, rfl, rfl, by decide +kernel⟩, inv_budgeted, rfl, rfl, by decide +kernel⟩

/-- A finite scaled value, and one that overflows to the infinity, whatever the draws. -/
theorem witness_QuantiserRule :
    (∀ d₁ d₂, f32IsFinite (f32Add d₁ 0x43000000#32 (f32Mul d₂ 0x43000000#32 0x3F800000#32)) = true) ∧
    ∀ d₁ d₂, f32IsInf (f32Add d₁ 0x43000000#32 (f32Mul d₂ 0x43000000#32 0xFF7FFFFF#32)) = true := by
  refine ⟨fun d₁ d₂ => ?_, fun d₁ d₂ => ?_⟩
  · have h1 : f32Mul d₂ 0x43000000#32 0x3F800000#32 = 0x43000000#32 := by
      simp only [f32Mul]
      rw [if_neg (by decide), if_neg (by decide), if_neg (by decide)]
      decide +kernel
    have h2 : f32Add d₁ 0x43000000#32 0x43000000#32 = 0x43800000#32 := by
      simp only [f32Add]
      rw [if_neg (by decide), if_neg (by decide), if_neg (by decide), if_pos (by decide)]
      decide +kernel
    rw [h1, h2]
    decide
  · have h1 : f32Mul d₂ 0x43000000#32 0xFF7FFFFF#32 = 0xFF800000#32 := by
      simp only [f32Mul]
      rw [if_neg (by decide), if_neg (by decide), if_neg (by decide)]
      decide +kernel
    have h2 : f32Add d₁ 0x43000000#32 0xFF800000#32 = 0xFF800000#32 := by
      simp only [f32Add]
      rw [if_neg (by decide), if_neg (by decide), if_pos (by decide)]
    rw [h1, h2]
    decide

/-- 127 / 128 and -1. -/
theorem witness_QuantiserIdempotent :
    f32IsFinite 0x3F7E0000#32 = true ∧ Spec.value 0x3F7E0000#32 = ((127 : Int) : ℚ) / 128 ∧
    f32IsFinite 0xBF800000#32 = true ∧ Spec.value 0xBF800000#32 = ((-128 : Int) : ℚ) / 128 := by decide +kernel

/-- From -infinity to +infinity, and from +0.0 to -0.0. -/
theorem witness_QuantiserMonotone :
    (f32IsNaN 0xFF800000#32 = false ∧ f32IsNaN 0x7F800000#32 = false ∧ Spec.order 0xFF800000#32 ≤ Spec.order 0x7F800000#32) ∧
    Spec.order 0x00000000#32 ≤ Spec.order 0x80000000#32 := by decide

theorem isZero_work {i : Nat} {x : F32} (h : blocked.readWord .work 0 i = some x) (hi : i < 64) : Spec.IsZero x := by
  have := readWord_writeWords ({ setGeometry 64 false false false true decoding with seq := .imdctDone } : State) .work 0 0 i
    (List.replicate 64 0#32) 0#32 (by rw [List.getElem?_replicate, if_pos hi])
  rw [Nat.zero_add] at this
  exact .inl (Option.some.inj (h.symm.trans this))

/-- A silent first packet, before WINDOW and before OVERLAP. -/
theorem witness_SilenceStaysSilent :
    (Inv blocked ∧ blocked.decState = .decoding ∧ blocked.seq = .imdctDone ∧ (∃ t, exec .window blocked = .next t) ∧
      ∀ i x, i < blocked.blkN.toNat → blocked.readWord .work 0 i = some x → Spec.IsZero x) ∧
    (Inv windowed ∧ windowed.seq = .windowDone ∧ (∃ t, exec .overlap windowed = .next t ∧ t.decState ≠ .cancelled) ∧
      (∀ i x, i < windowed.blkN.toNat → windowed.readWord .work 0 i = some x → Spec.IsZero x) ∧
      ∀ j x, j < 4096 → windowed.readWord .prev 0 j = some x → Spec.IsZero x) := by
  have hn : blocked.blkN.toNat = 64 := rfl
  obtain ⟨ws, hw, _⟩ := (inv_blocked.workWritten rfl (by decide)).allSome_readWords inv_blocked.mem 64 (by decide)
  obtain ⟨ps, hp, _⟩ := (inv_windowed.prevWritten rfl).allSome_readWords inv_windowed.mem 32 (by decide)
  refine ⟨⟨inv_blocked, rfl, rfl, window_eval (by rfl) hw, fun i x hi h => isZero_work h hi⟩, inv_windowed, rfl,
    overlap_eval (by rfl) (show currentBlock windowed = some ws from hw) hp rfl, fun i x hi h => isZero_work h hi, ?_⟩
  · intro j x hj h
    have h1 := readWord_writeWords (loaded.writeBytes .pcm 0 (List.replicate loaded.sampleCount.toNat 0)) .prev 0 0 j
      (List.replicate Config.prevWords f32Zero) f32Zero (by rw [List.getElem?_replicate, if_pos (show j < Config.prevWords from hj)])
    rw [Nat.zero_add] at h1
    have hlen (ws : List Word) (hw : ws.length = 64) : 4 * 0 + 4 * ws.length ≤ 2 ^ 20 := by omega
    have h2 (s : State) (ws : List Word) (hw : ws.length = 64) : (s.writeWords .work 0 0 ws).readWord .prev 0 j = s.readWord .prev 0 j :=
      readWord_writeWords_of_ne s .work .prev 0 0 0 j ws (.inl (by decide)) (hlen ws hw) (by omega)
    have h3 : windowed.readWord .prev 0 j = some f32Zero := by
      rw [show windowed.readWord .prev 0 j = blocked.readWord .prev 0 j from rfl]
      unfold blocked
      rw [h2 _ _ (List.length_replicate ..)]
      exact h1
    exact .inl (Option.some.inj (h.symm.trans h3))

/-- Below the overflow threshold, and on it. -/
theorem witness_RoundingIsNearest :
    (0 < 3 ∧ 1 < (2 ^ 25 - 1) * 2 ^ 252 * 3) ∧ (0 < 1 ∧ (2 ^ 25 - 1) * 2 ^ 252 * 1 ≤ (2 ^ 25 - 1) * 2 ^ 252) := by decide

/-- A sum that is not zero, a sum of opposite terms, and the sum of two negative zeros. -/
theorem witness_FiniteArithmetic :
    f32IsFinite 0x3F800000#32 = true ∧ f32IsFinite 0xBF800000#32 = true ∧ f32IsFinite 0x80000000#32 = true ∧
    f32Int 0x3F800000#32 + f32Int 0x3F800000#32 ≠ 0 ∧ f32Int 0x3F800000#32 + f32Int 0xBF800000#32 = 0 ∧
    f32Int 0x80000000#32 + f32Int 0x80000000#32 = 0 := by decide +kernel

theorem witness_InvPreserved : Inv loaded ∧ step loaded = .next loaded := ⟨inv_loaded, rfl⟩

/-- The faults that the statement allows can be met: the BUSY hazard, and a packet that nothing has written. -/
theorem witness_FaultsAreTheHosts :
    (let s : State := { loaded with busy := true, busyFor := 1, host := [.read 0x000000#24] }
     Inv s ∧ step s = .fault .busyAccess) ∧
    (let s : State := { small with busy := true, cmdWord := 0x12000001, bound := true, llen := 1 }
     step s = .fault (.unwrittenRead .pkt)) ∧
    (let s : State := { configured.setBook 0 { Codebook.reset with entries := 1 } with busy := true, cmdWord := 0x02000000 }
     Inv s ∧ step s = .fault (.unwrittenRead .cbLen)) :=
  ⟨⟨inv_loaded.withHost _ _ _ _ _ _ _, rfl⟩, rfl, (inv_configured.setBook 0 _ (fun h => by cases h)).withHost _ _ _ _ _ _ _, faultIs_iff (by decide +kernel)⟩

theorem witness_BusyRuleIsSafe :
    (let s : State := { loaded with latency := [2, 0], host :=
        [.write 0x000028#24 100#32, .write 0x000008#24 0x10000000#32, .wait, .read 0x000034#24, .write 0x000008#24 0#32, .reset] }
     s.busy = false ∧ keepsBusyRule s.host = true) := by decide

/-- A failed decode under a loaded setup. -/
theorem witness_LeavingFailure :
    (let s : State := { loaded with decState := .failed }
     (∀ rest, s.host ≠ .reset :: rest) ∧ step s = .next s ∧ s.setupState ≠ .notLoaded ∧ s.decState = .failed) :=
  ⟨by simp [loaded, configured, State.reset], rfl, by decide, rfl⟩

/-- A command that moves BITPOS and one that moves PCM_CURSOR. -/
theorem witness_CursorWriters :
    (let s := consumeTo 3 (boundTo [0xB5] decoding)
     Inv s ∧ ∃ t, exec .bind s = .next t ∧ t.bitPos ≠ s.bitPos) ∧
    (let s : State := { loaded with pcmCursor := 5 }
     Inv s ∧ ∃ t, exec (.decBegin false) s = .next t ∧ t.pcmCursor ≠ s.pcmCursor) :=
  ⟨⟨(inv_boundTo inv_decoding _ (by decide)).consumeTo 3 (by decide), _, bind_eval (by rfl) (by decide), by decide⟩,
   ⟨inv_loaded.params, inv_loaded.mem, inv_loaded.loaded, inv_loaded.configured, inv_loaded.exponents, inv_loaded.pcmValid, inv_loaded.fmtCode,
    (fun h => by cases h), inv_loaded.packet, inv_loaded.prev, inv_loaded.prevWritten, inv_loaded.block, inv_loaded.workWritten,
    inv_loaded.books⟩, _, rfl, by decide⟩

theorem witness_CommandsKeepHostData : Inv windowed ∧ exec .nop windowed = .next windowed := ⟨inv_windowed, rfl⟩

end Sys2Proof.Tests
end

section
/-!
What every command, every host event and every step keeps: the invariant of the machine (`Inv`), and the parameters of the core. Each proof
goes through the inversion lemma of its meaning (`execConfig_next` and the others) and the lemmas on the shared updates.
-/

namespace Sys2Proof.Machine

/-! ## The commands keep the invariant -/

/-- Once setup is over or failed it is not entered again, so CONFIG meets no decode (R211). -/
theorem Inv.configure {s : State} (h : Inv s) (hs : s.setupState = .notLoaded) {e0 e1 : Nat} (cbm1 : Nat) (h0 : 6 ≤ e0) (h1 : e1 ≤ 13)
    (h01 : e0 ≤ e1) : Inv (configure e0 e1 cbm1 s) := by
  have hi : s.decState = .idle := h.idle (by simp [hs])
  have hd : (Machine.configure e0 e1 cbm1 s).decState ≠ .decoding := by simp [hi]
  refine ⟨h.params, h.mem, h.loaded, fun _ => rfl, fun _ => ?_, h.pcmValid, h.fmtCode, fun e => absurd e hd, h.packet, fun e => absurd e hd,
    fun e => absurd e hd, fun e => absurd e hd, fun e => absurd e hd, fun c hc hb => ?_⟩
  · simp only [Machine.configure, BitVec.toNat_ofNat]
    omega
  · have hu : (Machine.configure e0 e1 cbm1 s).book c = (s.book c).unbuild := book_mapBooks s _ c hc
    rw [hu, unbuild_built] at hb
    cases hb

theorem Inv.sealed {s : State} (h : Inv s) (hs : s.setupState = .notLoaded) (hc : s.cfgDone = true) : Inv { s with setupState := .loaded } := by
  have hi : s.decState = .idle := h.idle (by simp [hs])
  refine ⟨h.params, h.mem, fun _ => rfl, fun _ => hc, h.exponents, h.pcmValid, ?_, h.cursor, h.packet, h.prev, h.prevWritten, h.block,
    h.workWritten, h.books⟩
  have hf := h.fmtCode
  simp_all

/-- BIND latches a packet that lies in PKT and starts at its first bit (R102). -/
theorem Inv.latched {s : State} (h : Inv s) (hp : s.pktBase.toNat + s.pktLen.toNat ≤ s.params.pktBytes) :
    Inv { s with lbase := s.pktBase, llen := s.pktLen, bitPos := 0, bound := true } :=
  ⟨h.params, h.mem, h.loaded, h.configured, h.exponents, h.pcmValid, h.fmtCode, h.cursor, ⟨hp, Nat.zero_le _⟩, h.prev, h.prevWritten, h.block,
   h.workWritten, h.books⟩

/-- The samples of a packet stay within SAMPLE_COUNT, and the cursor with them (R34, R186). -/
theorem Inv.emitSamples {s : State} (h : Inv s) {bs : List Byte} (hb : bs.length ≤ s.sampleCount.toNat - s.pcmCursor.toNat) :
    Inv (emitSamples bs s) := by
  have hw := h.writeBytes .pcm s.pcmCursor.toNat bs
  refine ⟨hw.params, hw.mem, hw.loaded, hw.configured, hw.exponents, hw.pcmValid, hw.fmtCode, fun hd => ?_, hw.packet, hw.prev, hw.prevWritten,
    hw.block, hw.workWritten, hw.books⟩
  obtain ⟨hc, hn⟩ := h.cursor hd
  have hlt := s.sampleCount.isLt
  refine ⟨?_, hn⟩
  simp only [Machine.emitSamples, writeBytes_sampleCount, BitVec.toNat_add, BitVec.toNat_ofNat]
  omega

theorem Inv.savePrev {s : State} (h : Inv s) (work : List F32) (hd : s.decState = .decoding) (hq : s.seq ≠ .none) :
    Inv (savePrev work s) := by
  obtain ⟨hsize, _, _, _, hle, hge⟩ := h.block hd hq
  exact (h.writeWords .prev 0 0 _).prevRegs s.blkN s.rwe (!s.blkLong) ⟨hsize, hge, hle⟩

theorem Inv.packetDone {s : State} (h : Inv s) (n : Nat) (hd : s.decState = .decoding) : Inv (packetDone n s) := by
  rcases packetDone_cases n s with ⟨_, e⟩ | ⟨_, _, _, e⟩ | ⟨_, _, e⟩ <;> rw [e]
  · exact (h.countPacket n).completeDecode (by simpa using hd)
  · exact (h.countPacket n).cancelDecode (by simpa using hd)
  · exact h.countPacket n

/-- What `ignored` and the command errors record leaves the invariant alone. -/
theorem Inv.commandEnd {s t : State} (h : Inv s) {e : Exc} (ht : t = takeException s.cmdWord e s) (he : e = .ignored ∨ ∃ c, e = .command c) :
    Inv t := by
  subst ht
  rcases he with rfl | ⟨c, rfl⟩
  · exact h.ignored _
  · exact h.cmdError _ c

theorem Inv.execConfig {s t : State} (h : Inv s) {e0 e1 cbm1 : Nat} (ht : execConfig e0 e1 cbm1 s = .next t) : Inv t := by
  rcases execConfig_next ht with ⟨e, ht, he⟩ | ⟨hs, rfl⟩ | ⟨hs, h0, h1, h01, rfl⟩
  · exact h.commandEnd ht (he.imp_right fun hc => ⟨_, hc⟩)
  · exact h.setupError hs _ _
  · exact h.configure hs cbm1 h0 h1 h01

theorem Inv.execCbBuild {s t : State} (h : Inv s) {cb : Nat} (ht : execCbBuild cb s = .next t) : Inv t := by
  rcases execCbBuild_next ht with ⟨e, ht, he⟩ | ⟨hs, _, f, K, hK, rfl⟩ | ⟨_, _, _, K, hK, rfl⟩
  · exact h.commandEnd ht he
  · exact (h.setBook cb K fun hb => by simp [hK] at hb).setupError hs _ f
  · exact h.setBook cb K fun _ => hK

theorem Inv.execSeal {s t : State} (h : Inv s) (ht : execSeal s = .next t) : Inv t := by
  rcases execSeal_next ht with ⟨e, ht, he⟩ | ⟨hs, hc, rfl⟩
  · exact h.commandEnd ht (he.imp_right fun hc => ⟨_, hc⟩)
  · exact h.sealed hs hc

theorem Inv.execFail {s t : State} (h : Inv s) {cls : Nat} (ht : execFail cls s = .next t) : Inv t := by
  rcases execFail_next ht with ⟨hd, rfl⟩ | ⟨_, hs, rfl⟩ | ⟨_, _, rfl⟩
  · exact h.decodeError hd _ _ _
  · exact h.setupError hs _ _
  · exact h.cmdError _ _

theorem Inv.execDecBegin {s t : State} (h : Inv s) {ben : Bool} (ht : execDecBegin ben s = .next t) : Inv t := by
  rcases execDecBegin_next ht with ⟨c, rfl⟩ | ⟨hs, hc, hcases⟩
  · exact h.cmdError _ c
  · have hb := h.startDecode ben hs hc
    rcases hcases with ⟨_, rfl⟩ | ⟨_, _, _, rfl⟩ | ⟨_, _, rfl⟩
    · exact hb.completeDecode rfl
    · exact hb.cancelDecode rfl
    · exact hb

theorem Inv.execBind {s t : State} (h : Inv s) (ht : execBind s = .next t) : Inv t := by
  rcases execBind_next ht with ⟨c, rfl⟩ | ⟨_, hp, rfl⟩
  · exact h.cmdError _ c
  · exact h.latched hp

theorem Inv.execRdbits {s t : State} (h : Inv s) {n : Nat} (ht : execRdbits n s = .next t) : Inv t := by
  rcases execRdbits_next ht with ⟨c, rfl⟩ | ⟨hd, _, rfl⟩ | ⟨_, _, _, hp, r, _, rfl⟩
  · exact h.cmdError _ c
  · exact h.decodeError hd _ _ _
  · exact (h.consumeTo _ hp).withResult (BitVec.ofNat 32 r) s.vdim

/-- The errors of HDEC and VDEC leave BITPOS within the packet (R128). -/
theorem Inv.decodeEnd {s t : State} (h : Inv s) {K : Codebook} (ht : DecodeEnd K s t) : Inv t := by
  obtain ⟨_, hbad, hover⟩ := matchCode_pos (K := K) h.packet.2
  rcases ht with rfl | ⟨hd, _, f, rfl⟩ | ⟨hd, _, f, p, hm, rfl⟩
  · exact h.cmdError _ _
  · exact h.decodeError hd _ f _
  · have hp : p ≤ packetBits s := hm.elim (fun hm => (hbad p hm.1).2) fun hm => (hover p hm.1).le
    exact (h.consumeTo p hp).decodeError hd _ f _

theorem Inv.execHdec {s t : State} (h : Inv s) {cb : Nat} (ht : execHdec cb s = .next t) : Inv t := by
  rcases execHdec_next ht with hend | ⟨_, _, _, e, p, hm, rfl⟩
  · exact h.decodeEnd hend
  · exact (h.consumeTo p ((matchCode_pos h.packet.2).1 e p hm).2).withResult (BitVec.ofNat 32 e) s.vdim

theorem Inv.execVdec {s t : State} (h : Inv s) {cb : Nat} (ht : execVdec cb s = .next t) : Inv t := by
  rcases execVdec_next ht with hend | ⟨_, _, _, _, e, p, v, hm, _, rfl⟩
  · exact h.decodeEnd hend
  · have hc := h.consumeTo p ((matchCode_pos h.packet.2).1 e p hm).2
    exact (hc.writeWords .vout 0 0 v).withResult (BitVec.ofNat 32 e) (s.book cb).dims

theorem Inv.execImdct {s t : State} (h : Inv s) {l p x z : Bool} (ht : execImdct l p x z s = .next t) : Inv t := by
  rcases execImdct_next ht with rfl | ⟨hd, _, ws, hws, rfl⟩
  · exact h.cmdError _ _
  · exact h.imdctDone hd l p x z ws hws

theorem Inv.execWindow {s t : State} (h : Inv s) (ht : execWindow s = .next t) : Inv t := by
  rcases execWindow_next ht with rfl | ⟨_, hq, work, _, rfl⟩
  · exact h.cmdError _ _
  · exact (h.writeWords .work 0 0 _).withSeq (by simp [hq]) .windowDone

theorem Inv.execOverlap {s t : State} (h : Inv s) (ht : execOverlap s = .next t) : Inv t := by
  rcases execOverlap_next ht with rfl | ⟨hd, hq, work, prev, _, _, rfl⟩
  · exact h.cmdError _ _
  · have he : Inv (Machine.emitSamples (emittedBytes [s.draws] s prev.toArray work.toArray) s) :=
      h.emitSamples (by rw [length_emittedBytes]; exact Nat.min_le_right _ _)
    exact (he.savePrev work (by simpa using hd) (by simp [hq])).packetDone _ (by simpa using hd)

/-- Every command keeps the invariant. -/
theorem Inv.exec {s t : State} (h : Inv s) {i : Instr} (ht : exec i s = .next t) : Inv t := by
  cases i with
  | nop => exact Host.Outcome.next.inj ht ▸ h
  | config e0 e1 cbm1 => exact h.execConfig ht
  | cbBuild cb => exact h.execCbBuild ht
  | sealSetup => exact h.execSeal ht
  | fail cls => exact h.execFail ht
  | decBegin ben => exact h.execDecBegin ht
  | bind => exact h.execBind ht
  | rdbits n => exact h.execRdbits ht
  | hdec cb => exact h.execHdec ht
  | vdec cb => exact h.execVdec ht
  | imdct l p x z => exact h.execImdct ht
  | window => exact h.execWindow ht
  | overlap => exact h.execOverlap ht

/-! ## The host keeps the invariant -/

/-- The host's registers and flags that no part of the invariant speaks of. -/
theorem Inv.hostRegs {s : State} (h : Inv s) (pb pl pc bu : Word) (cs : BitVec 8) (ce ig : Bool) (cc : Option CmdError) :
    Inv { s with pktBase := pb, pktLen := pl, packetCount := pc, budget := bu, cbSel := cs, cmdErr := ce, ignored := ig, cmdCode := cc } :=
  ⟨h.params, h.mem, h.loaded, h.configured, h.exponents, h.pcmValid, h.fmtCode, h.cursor, h.packet, h.prev, h.prevWritten, h.block,
   h.workWritten, h.books⟩

/-- SAMPLE_COUNT may change outside a decode (R30). -/
theorem Inv.sampleCount {s : State} (h : Inv s) (hd : s.decState ≠ .decoding) (w : Word) : Inv { s with sampleCount := w } :=
  ⟨h.params, h.mem, h.loaded, h.configured, h.exponents, h.pcmValid, h.fmtCode, fun e => absurd e hd, h.packet, h.prev, h.prevWritten, h.block,
   h.workWritten, h.books⟩

/-- A setup-table write leaves its slot unbuilt (R70), so the shape of a built codebook asks nothing of what it stores. -/
theorem Inv.writeBookReg {s : State} (h : Inv s) (f : Codebook → Codebook) : Inv (writeBookReg f s) := by
  unfold Machine.writeBookReg setupTableWrite
  split
  · rw [setBook_setBook]
    exact h.setBook _ _ fun hb => by simp at hb
  · exact h.ignored 0

theorem Inv.writeCodebookWindow {s : State} (h : Inv s) (r : Region) (i : Nat) (ws : List Word) :
    Inv (setupTableWrite (fun s => s.writeWords r s.cbSel.toNat i ws) s) := by
  unfold setupTableWrite
  split
  · exact (h.writeWords r _ i ws).setBook _ _ fun hb => by simp at hb
  · exact h.ignored 0

theorem Inv.writeReg {s : State} (h : Inv s) (w : Word) (r : Reg) : Inv (writeReg w s r) := by
  cases r with
  | status => exact h.hostRegs ..
  | cmd => exact h.withHost ..
  | pktBase | pktLen | budget | cbSel => exact h.hostRegs ..
  | sampleCount =>
    simp only [Machine.writeReg]
    split
    · exact h
    · exact h.sampleCount (fun hd => ‹¬_› (isDecoding_iff.mpr hd)) w
  | packetCount =>
    simp only [Machine.writeReg]
    split
    · exact h
    · exact h.hostRegs ..
  | cbEntries | cbDims | cbLookup | cbMin | cbDelta | cbNmult =>
    simp only [Machine.writeReg]
    exact h.writeBookReg _
  | id | result | errCmd | errPos | cfg | bitPos | pcmCursor | packetIndex | prevInfo | blkN | blkLeft | blkRight | vdim | cbStatus
  | cbLvalues => exact h

theorem Inv.hostWrite {s : State} (h : Inv s) (a : BusAddr) (w : Word) : Inv (hostWrite a w s) := by
  unfold Machine.hostWrite
  split
  · exact h.recordBusError
  · exact h.writeReg w _
  · split
    · exact h.writeWords ..
    · exact h.writeWords ..
    · exact h.writeCodebookWindow ..
    · exact h.writeCodebookWindow ..
    all_goals exact h

theorem Inv.hostRead {s : State} (h : Inv s) (a : BusAddr) : Inv (hostRead a s) := by
  unfold Machine.hostRead
  split
  · exact h.recordBusError.withHost ..
  · exact h.withHost ..
  · exact h.withHost ..

theorem book_applyReset (s : State) {c : Nat} (hc : c < 256) : (applyReset s).book c = Codebook.reset := by
  rw [book_eq _ _ hc]
  simp [applyReset, State.reset]

/-- The reset values keep the invariant for every core whose parameters do (R270). -/
theorem Inv.applyReset {s : State} (h : Inv s) : Inv (applyReset s) where
  params := h.params
  mem := Memory.wf_nil
  loaded := fun hd => absurd rfl hd
  configured := fun hs => by cases hs
  exponents := fun hc => by cases hc
  pcmValid := by simp [Machine.applyReset, State.reset]
  fmtCode := by simp [Machine.applyReset, State.reset]
  cursor := fun hd => by cases hd
  packet := ⟨Nat.zero_le _, Nat.zero_le _⟩
  prev := fun hd => by cases hd
  prevWritten := fun hd => by cases hd
  block := fun hd => by cases hd
  workWritten := fun hd => by cases hd
  books := fun c hc hb => by
    rw [book_applyReset s hc] at hb
    cases hb

theorem Inv.idleEvent {s : State} (h : Inv s) (e : HostEvent) : Inv (idleEvent e s) := by
  cases e with
  | write a w => exact h.hostWrite a w
  | read a => exact h.hostRead a
  | wait => exact h.hostRead statusAddr
  | reset => exact h.applyReset

theorem Inv.busyEvent {s t : State} (h : Inv s) {e : HostEvent} (ht : busyEvent e s = .next t) : Inv t := by
  cases e with
  | write a w =>
    simp only [Machine.busyEvent] at ht
    split at ht
    · exact Host.Outcome.next.inj ht ▸ h.cmdError w .busy
    · cases ht
  | read a =>
    simp only [Machine.busyEvent] at ht
    split at ht
    · exact Host.Outcome.next.inj ht ▸ h.withHost ..
    · cases ht
  | wait => exact Host.Outcome.next.inj ht ▸ h.withHost ..
  | reset => exact Host.Outcome.next.inj ht ▸ h.applyReset

/-- Every step keeps the invariant. -/
theorem Inv.step {s t : State} (h : Inv s) (ht : step s = .next t) : Inv t := by
  rcases step_cases s with ⟨_, n, e, rest, _, _, hs⟩ | ⟨_, _, hs⟩ | ⟨_, _, hs⟩ | ⟨_, e, rest, _, hs⟩ <;> rw [hs] at ht
  · exact Inv.busyEvent (h.withHost s.busy rest s.latency n s.busOut s.draws s.cmdWord) ht
  · rcases runCommand_next ht with ⟨c, rfl⟩ | ⟨i, u, _, hu, rfl⟩
    · exact (h.cmdError _ c).withHost ..
    · exact (h.exec hu).withHost ..
  · exact Host.Outcome.next.inj ht ▸ h
  · exact Host.Outcome.next.inj ht ▸ Inv.idleEvent (h.withHost s.busy rest s.latency s.busyFor s.busOut s.draws s.cmdWord) e

/-! ## Every step keeps the parameters (R7, R10), from any state -/

@[simp] theorem takeException_params (w : Word) (e : Exc) (s : State) : (takeException w e s).params = s.params := by
  cases e <;> rfl

@[simp] theorem packetDone_params (n : Nat) (s : State) : (packetDone n s).params = s.params := by
  rcases packetDone_cases n s with ⟨_, e⟩ | ⟨_, _, _, e⟩ | ⟨_, _, e⟩ <;> simp [e]

theorem DecodeEnd.params {K : Codebook} {s t : State} (h : DecodeEnd K s t) : t.params = s.params := by
  rcases h with rfl | ⟨_, _, f, rfl⟩ | ⟨_, _, f, p, _, rfl⟩ <;> simp

theorem exec_params {s t : State} {i : Instr} (h : exec i s = .next t) : t.params = s.params := by
  cases i with
  | nop => rw [← Host.Outcome.next.inj h]
  | config e0 e1 cbm1 => rcases execConfig_next h with ⟨e, rfl, _⟩ | ⟨_, rfl⟩ | ⟨_, _, _, _, rfl⟩ <;> simp
  | cbBuild cb => rcases execCbBuild_next h with ⟨e, rfl, _⟩ | ⟨_, _, f, K, _, rfl⟩ | ⟨_, _, _, K, _, rfl⟩ <;> simp
  | sealSetup => rcases execSeal_next h with ⟨e, rfl, _⟩ | ⟨_, _, rfl⟩ <;> simp
  | fail cls => rcases execFail_next h with ⟨_, rfl⟩ | ⟨_, _, rfl⟩ | ⟨_, _, rfl⟩ <;> simp
  | decBegin ben =>
    rcases execDecBegin_next h with ⟨c, rfl⟩ | ⟨_, _, ⟨_, rfl⟩ | ⟨_, _, _, rfl⟩ | ⟨_, _, rfl⟩⟩ <;> simp
  | bind => rcases execBind_next h with ⟨c, rfl⟩ | ⟨_, _, rfl⟩ <;> simp
  | rdbits n => rcases execRdbits_next h with ⟨c, rfl⟩ | ⟨_, _, rfl⟩ | ⟨_, _, _, _, r, _, rfl⟩ <;> simp
  | hdec cb =>
    rcases execHdec_next h with hend | ⟨_, _, _, e, p, _, rfl⟩
    · exact hend.params
    · simp
  | vdec cb =>
    rcases execVdec_next h with hend | ⟨_, _, _, _, e, p, v, _, _, rfl⟩
    · exact hend.params
    · simp
  | imdct l p x z => rcases execImdct_next h with rfl | ⟨_, _, ws, _, rfl⟩ <;> simp
  | window => rcases execWindow_next h with rfl | ⟨_, _, work, _, rfl⟩ <;> simp
  | overlap => rcases execOverlap_next h with rfl | ⟨_, _, work, prev, _, _, rfl⟩ <;> simp

theorem setupTableWrite_params {store : State → State} (h : ∀ s, (store s).params = s.params) (s : State) :
    (setupTableWrite store s).params = s.params := by
  unfold setupTableWrite
  split
  · simpa using h s
  · rfl

theorem writeReg_params (w : Word) (s : State) (r : Reg) : (writeReg w s r).params = s.params := by
  cases r with
  | sampleCount | packetCount =>
    simp only [writeReg]
    split <;> rfl
  | cbEntries | cbDims | cbLookup | cbMin | cbDelta | cbNmult => exact setupTableWrite_params (fun s => by simp) s
  | _ => rfl

theorem hostWrite_params (a : BusAddr) (w : Word) (s : State) : (hostWrite a w s).params = s.params := by
  unfold hostWrite
  split
  · rfl
  · exact writeReg_params w s _
  · split
    · simp
    · simp
    · exact setupTableWrite_params (fun s => by simp) s
    · exact setupTableWrite_params (fun s => by simp) s
    all_goals rfl

theorem hostRead_params (a : BusAddr) (s : State) : (hostRead a s).params = s.params := by
  unfold hostRead
  split <;> rfl

theorem idleEvent_params (e : HostEvent) (s : State) : (idleEvent e s).params = s.params := by
  cases e with
  | write a w => exact hostWrite_params a w s
  | read a => exact hostRead_params a s
  | wait => exact hostRead_params statusAddr s
  | reset => rfl

theorem busyEvent_params {e : HostEvent} {s t : State} (h : busyEvent e s = .next t) : t.params = s.params := by
  cases e with
  | write a w =>
    simp only [busyEvent] at h
    split at h
    · rw [← Host.Outcome.next.inj h]
      simp [refuseBusy]
    · cases h
  | read a =>
    simp only [busyEvent] at h
    split at h
    · rw [← Host.Outcome.next.inj h]
    · cases h
  | wait => rw [← Host.Outcome.next.inj h]
  | reset => rw [← Host.Outcome.next.inj h]; rfl

theorem step_params {s t : State} (h : step s = .next t) : t.params = s.params := by
  rcases step_cases s with ⟨_, n, e, rest, _, _, hs⟩ | ⟨_, _, hs⟩ | ⟨_, _, hs⟩ | ⟨_, e, rest, _, hs⟩ <;> rw [hs] at h
  · rw [busyEvent_params h]
  · rcases runCommand_next h with ⟨c, rfl⟩ | ⟨i, u, _, hu, rfl⟩
    · simp
    · simpa using exec_params hu
  · rw [← Host.Outcome.next.inj h]
  · rw [← Host.Outcome.next.inj h]
    exact idleEvent_params e _

end Sys2Proof.Machine

namespace Sys2Proof.Proofs

open Sys2Proof.Machine

/-- Settles O55: by the ways of a step, and the lemma of each command and host event. -/
theorem invPreserved : Obligations.InvPreserved := fun _ _ h => ⟨fun hi => hi.step h, step_params h⟩

end Sys2Proof.Proofs
end

section
/-!
One step of a busy core, and the guards of every command (R24, R246).
-/

namespace Sys2Proof.Machine

/-- A busy core whose command is due performs it. -/
theorem step_of_due {s : State} (hb : s.busy = true) (hd : s.busyFor = 0 ∨ s.host = []) : step s = runCommand s := by
  rcases step_cases s with ⟨_, n, e, rest, hn, hh, _⟩ | ⟨_, _, hs⟩ | ⟨hf, _⟩ | ⟨hf, _⟩
  · simp [hn, hh] at hd
  · exact hs
  all_goals simp [hb] at hf

theorem perform_of_decode {w : Word} {i : Instr} (h : decode w = .ok i) (s : State) : perform w s = exec i s := by
  simp only [perform, h]

/-! ## The guards (R246), case by case -/

theorem whenSetup_loaded {s : State} (h : s.setupState = .loaded) (k : Res) : whenSetup s k = raise .ignored s := by
  simp only [whenSetup, h]

theorem whenSetup_failed {s : State} (h : s.setupState = .failed) (k : Res) : whenSetup s k = raise (.command .state) s := by
  simp only [whenSetup, h]

theorem whenSetup_notLoaded {s : State} (h : s.setupState = .notLoaded) (k : Res) : whenSetup s k = k := by
  simp only [whenSetup, h]

theorem whenLegal_of {b : Bool} (h : b = true) (s : State) (k : Res) : whenLegal b s k = k := by
  simp [whenLegal, h]

theorem whenLegal_of_not {b : Bool} (h : ¬b = true) (s : State) (k : Res) : whenLegal b s k = raise (.command .state) s := by
  simp [whenLegal, h]

/-- A setup command that is not legal, where setup is not loaded: it is FAILED, or CONFIG has not been performed. -/
theorem whenSetup_whenLegal_of_not {s : State} {b : Bool} (hl : s.setupState ≠ .loaded) (h : ¬(s.setupState = .notLoaded ∧ b = true)) (k : Res) :
    whenSetup s (whenLegal b s k) = raise (.command .state) s := by
  cases hs : s.setupState with
  | loaded => exact absurd hs hl
  | failed => exact whenSetup_failed hs _
  | notLoaded => rw [whenSetup_notLoaded hs, whenLegal_of_not (fun hb => h ⟨hs, hb⟩)]

end Sys2Proof.Machine

namespace Sys2Proof.Proofs

open Sys2Proof.Machine

/-- Settles O5: a step of a busy core whose command is due is `runCommand`, which performs the decoded command. -/
theorem stepRunsDecoded : Obligations.StepRunsDecoded := by
  intro s i hb hd hi
  refine ⟨fun t ht => ?_, fun f hf => ?_⟩
  · simp only [step_of_due hb hd, runCommand, perform_of_decode hi, ht, complete]
  · simp only [step_of_due hb hd, runCommand, perform_of_decode hi, hf]

/-- Check 3 of R246: a loaded setup ignores the setup commands. -/
theorem exec_ignored {s : State} {i : Instr} (hi : Spec.isSetup i) (hs : s.setupState = .loaded) : exec i s = raise .ignored s := by
  cases i with
  | config | cbBuild | sealSetup => exact whenSetup_loaded hs _
  | _ => exact hi.elim

/-- Check 4 of R246: a command that is not legal in the state, and that check 3 has not ignored. -/
theorem exec_illegal {s : State} {i : Instr} (hi : Spec.isSetup i → s.setupState ≠ .loaded) (hl : ¬Spec.legal s i) :
    exec i s = raise (.command .state) s := by
  cases i with
  | nop => exact absurd trivial hl
  | config =>
    have hf : s.setupState = .failed := by
      cases hs : s.setupState with
      | loaded => exact absurd hs (hi trivial)
      | notLoaded => exact absurd hs hl
      | failed => rfl
    exact whenSetup_failed hf _
  | cbBuild | sealSetup => exact whenSetup_whenLegal_of_not (hi trivial) hl _
  | fail =>
    simp only [Spec.legal, not_or] at hl
    have hd : ¬s.isDecoding = true := fun h => hl.1 (isDecoding_iff.mp h)
    simp only [exec, execFail, if_neg hd]
    exact whenLegal_of_not (by simpa using hl.2) _ _
  | decBegin | bind | rdbits | hdec | vdec | imdct | window | overlap =>
    exact whenLegal_of_not (by simpa [Spec.legal, isDecoding_iff] using hl) _ _

/-- Check 5 of R246: a legal command whose parameter is out of range. -/
theorem exec_badParam {s : State} {i : Instr} (hl : Spec.legal s i) (hp : Spec.badParam s i) : exec i s = raise (.command .param) s := by
  cases i with
  | cbBuild cb =>
    obtain ⟨hs, hc⟩ := hl
    simp only [exec, execCbBuild, whenSetup_notLoaded hs, whenLegal_of hc]
    exact if_pos hp
  | decBegin ben =>
    have hs : (s.setupState == .loaded) = true := beq_iff_eq.mpr hl
    simp only [exec, execDecBegin, whenLegal_of hs]
    exact if_pos hp
  | bind =>
    have hf : ¬packetFits s = true := by simpa [packetFits, Spec.badParam] using hp
    simp only [exec, execBind, whenLegal_of (isDecoding_iff.mpr hl), if_neg hf]
  | rdbits n =>
    obtain ⟨hd, hb⟩ := hl
    have hs : (s.isDecoding && s.bound) = true := by simp [isDecoding_iff.mpr hd, hb]
    simp only [exec, execRdbits, whenLegal_of hs]
    exact if_pos hp
  | _ => exact hp.elim

/-- Settles O17: checks 3, 4 and 5 of R246, each a lemma over the commands. -/
theorem legalityTable : Obligations.LegalityTable := fun _ _ =>
  ⟨fun hi hs => exec_ignored hi hs, fun hi hl => exec_illegal hi hl, fun hl hp => exec_badParam hl hp⟩

end Sys2Proof.Proofs
end

section
/-!
Binary32 arithmetic (R13): the values that the encodings stand for, rounding to nearest, and the sums and products of finite values.

The magnitude of the bits `k * 2^23 + r`, for a mantissa r of 24 bits at the scale `2^k`, is `r * 2^k`: `f32Units_of_scaled` says so once, and
the rest is about multiples of `2^k`.
-/

namespace Sys2Proof.Machine

/-! ## Magnitude bits -/

theorem f32Exp_eq (x : F32) : f32Exp x = x.toNat % 2 ^ 31 / 2 ^ 23 := by
  unfold f32Exp
  omega

theorem f32Frac_eq (x : F32) : f32Frac x = x.toNat % 2 ^ 31 % 2 ^ 23 := by
  unfold f32Frac
  omega

theorem f32IsFinite_iff (x : F32) : f32IsFinite x = true ↔ x.toNat % 2 ^ 31 < 0x7F800000 := by
  rw [f32IsFinite, bne_iff_ne, f32Exp_eq]
  omega

/-- A mantissa r and a scale 2^k whose magnitude bits are `k * 2^23 + r`: r has 24 bits (2^24 is the next scale's 2^23), or the scale is that
of the subnormals. -/
def Scaled (k r : Nat) : Prop := r ≤ 2 ^ 24 ∧ (k = 0 ∨ 2 ^ 23 ≤ r)

theorem f32Units_of_scaled {x : F32} {k r : Nat} (hs : Scaled k r) (hx : x.toNat % 2 ^ 31 = k * 2 ^ 23 + r) :
    f32Units x = r * 2 ^ k := by
  obtain ⟨hr, hk⟩ := hs
  unfold f32Units
  rw [f32Exp_eq, f32Frac_eq, hx]
  rcases Nat.lt_or_ge r (2 ^ 23) with hlt | hge
  · obtain rfl : k = 0 := by omega
    rw [if_pos (by omega), pow_zero]
    omega
  · rw [if_neg (by omega)]
    rcases Nat.lt_or_eq_of_le hr with h24 | rfl
    · rw [show (k * 2 ^ 23 + r) / 2 ^ 23 - 1 = k by omega]
      congr 1
      omega
    · rw [show (k * 2 ^ 23 + 2 ^ 24) / 2 ^ 23 - 1 = k + 1 by omega, show (k * 2 ^ 23 + 2 ^ 24) % 2 ^ 23 = 0 by omega, pow_succ]
      omega

/-- Every magnitude has a scale and a mantissa below 2^24. -/
theorem exists_scaled (b : Nat) : ∃ k r, Scaled k r ∧ r < 2 ^ 24 ∧ b = k * 2 ^ 23 + r := by
  rcases Nat.lt_or_ge b (2 ^ 23) with h | h
  · exact ⟨0, b, ⟨by omega, .inl rfl⟩, by omega, by omega⟩
  · exact ⟨b / 2 ^ 23 - 1, 2 ^ 23 + b % 2 ^ 23, ⟨by omega, .inr (by omega)⟩, by omega, by omega⟩

theorem toNat_mag {b : Nat} (hb : b < 2 ^ 31) : (BitVec.ofNat 32 b).toNat % 2 ^ 31 = b := by
  rw [BitVec.toNat_ofNat]
  omega

theorem f32Units_ofNat {b k r : Nat} (hs : Scaled k r) (hb : b < 2 ^ 31) (h : b = k * 2 ^ 23 + r) :
    f32Units (BitVec.ofNat 32 b) = r * 2 ^ k :=
  f32Units_of_scaled hs (by rw [toNat_mag hb, h])

/-- Larger magnitude bits are larger magnitudes. -/
theorem f32Units_lt_of_lt {b c : Nat} (hbc : b < c) (hc : c < 2 ^ 31) : f32Units (BitVec.ofNat 32 b) < f32Units (BitVec.ofNat 32 c) := by
  obtain ⟨k, r, hs, hr, hb⟩ := exists_scaled b
  obtain ⟨l, q, ht, hq, rfl⟩ := exists_scaled c
  rw [f32Units_ofNat hs (by omega) hb, f32Units_ofNat ht hc rfl]
  have hkl : k ≤ l := by
    have := hs.2
    omega
  rcases Nat.eq_or_lt_of_le hkl with rfl | hlt
  · exact Nat.mul_lt_mul_of_pos_right (by omega) (by positivity)
  · have hq23 : 2 ^ 23 ≤ q := by
      have := ht.2
      omega
    calc r * 2 ^ k < 2 ^ 24 * 2 ^ k := Nat.mul_lt_mul_of_pos_right hr (by positivity)
      _ = 2 ^ 23 * 2 ^ (k + 1) := by ring
      _ ≤ q * 2 ^ l := Nat.mul_le_mul hq23 (Nat.pow_le_pow_right (by decide) hlt)

theorem f32Units_inj {b c : Nat} (hb : b < 2 ^ 31) (hc : c < 2 ^ 31) (h : f32Units (BitVec.ofNat 32 b) = f32Units (BitVec.ofNat 32 c)) :
    b = c := by
  rcases Nat.lt_trichotomy b c with hlt | he | hlt
  · exact absurd h (f32Units_lt_of_lt hlt hc).ne
  · exact he
  · exact absurd h (f32Units_lt_of_lt hlt hb).ne'

/-! ## Rounding to an integer -/

/-- `rneDiv n d` is within a half of n / d, and even where it is exactly a half away. -/
theorem rneDiv_spec (n : Nat) {d : Nat} (hd : 0 < d) :
    2 * n ≤ 2 * (rneDiv n d * d) + d ∧ 2 * (rneDiv n d * d) ≤ 2 * n + d ∧
    (2 * n = 2 * (rneDiv n d * d) + d ∨ 2 * (rneDiv n d * d) = 2 * n + d → rneDiv n d % 2 = 0) := by
  have hm := Nat.div_add_mod' n d
  have hlt := Nat.mod_lt n hd
  unfold rneDiv
  simp only
  split
  · omega
  · split
    · rw [Nat.add_mul]
      omega
    · rcases Nat.mod_two_eq_zero_or_one (n / d) with h | h <;> rw [h]
      · rw [Nat.add_zero]
        omega
      · rw [Nat.add_mul]
        omega

/-- No multiple of d is nearer to n than that of `rneDiv n d`, and where another is as near it is even. -/
theorem rneDiv_nearest (n : Nat) {d : Nat} (hd : 0 < d) (j : Nat) :
    |((rneDiv n d * d : Nat) : Int) - n| ≤ |((j * d : Nat) : Int) - n| ∧
    (|((rneDiv n d * d : Nat) : Int) - n| = |((j * d : Nat) : Int) - n| → j ≠ rneDiv n d → rneDiv n d % 2 = 0) := by
  obtain ⟨hlo, hhi, heven⟩ := rneDiv_spec n hd
  generalize rneDiv n d = q at *
  simp only [Int.abs_eq_natAbs]
  rcases Nat.lt_trichotomy j q with h | rfl | h
  · have hjq : j * d + d ≤ q * d := Nat.succ_mul j d ▸ Nat.mul_le_mul_right d h
    omega
  · exact ⟨le_refl _, fun _ hn => absurd rfl hn⟩
  · have hjq : q * d + d ≤ j * d := Nat.succ_mul q d ▸ Nat.mul_le_mul_right d h
    omega

/-! ## Rounding to binary32 -/

/-- The scale at which `rneUnits` rounds: the quotient has 24 bits there, or the scale is that of the subnormals. -/
theorem rneUnits_parts (n : Nat) {d : Nat} (hd : 0 < d) : ∃ k, (k = 0 ∨ 2 ^ 23 * (d * 2 ^ k) ≤ n) ∧ n < 2 ^ 24 * (d * 2 ^ k) ∧
    rneUnits n d = min (k * 2 ^ 23 + rneDiv n (d * 2 ^ k)) 0x7F800000 := by
  refine ⟨Nat.log2 (n / d) - 23, ?_, ?_, rfl⟩
  · rcases Nat.lt_or_ge 23 (Nat.log2 (n / d)) with h | h
    · refine .inr ?_
      have h0 : n / d ≠ 0 := fun e => by rw [e] at h; exact absurd h (by decide)
      have hle : 2 ^ Nat.log2 (n / d) ≤ n / d := Nat.log2_self_le h0
      calc 2 ^ 23 * (d * 2 ^ (Nat.log2 (n / d) - 23)) = 2 ^ (23 + (Nat.log2 (n / d) - 23)) * d := by rw [pow_add]; ring
        _ = 2 ^ Nat.log2 (n / d) * d := by rw [Nat.add_sub_of_le h.le]
        _ ≤ n := (Nat.le_div_iff_mul_le hd).mp hle
    · exact .inl (by omega)
  · have hlt : n / d < 2 ^ (Nat.log2 (n / d) + 1) := Nat.lt_log2_self
    have hle : 2 ^ (Nat.log2 (n / d) + 1) ≤ 2 ^ (24 + (Nat.log2 (n / d) - 23)) := Nat.pow_le_pow_right (by decide) (by omega)
    calc n < 2 ^ (24 + (Nat.log2 (n / d) - 23)) * d := (Nat.div_lt_iff_lt_mul hd).mp (hlt.trans_le hle)
      _ = 2 ^ 24 * (d * 2 ^ (Nat.log2 (n / d) - 23)) := by rw [pow_add]; ring

/-- At such a scale the rounded quotient is a mantissa. -/
theorem scaled_rneDiv {n d k : Nat} (hd : 0 < d) (hlo : k = 0 ∨ 2 ^ 23 * (d * 2 ^ k) ≤ n) (hhi : n < 2 ^ 24 * (d * 2 ^ k)) :
    Scaled k (rneDiv n (d * 2 ^ k)) := by
  have hD : 0 < d * 2 ^ k := by positivity
  obtain ⟨h1, h2, _⟩ := rneDiv_spec n hD
  generalize d * 2 ^ k = D at *
  generalize rneDiv n D = q at *
  refine ⟨?_, hlo.imp_right fun hlo => ?_⟩
  · by_contra hc
    have := Nat.mul_le_mul_right D (show 2 ^ 24 + 1 ≤ q by omega)
    omega
  · by_contra hc
    have := Nat.succ_mul q D ▸ Nat.mul_le_mul_right D (show q + 1 ≤ 2 ^ 23 by omega)
    omega

/-- The overflow threshold, for the scale D and E = 2^252 in the same unit: the mantissa q of n / D at the scale 253 overflows from 2^24 - 1/2 on,
and at the tie it is rounded up to even. -/
theorem bits_lt_iff_of_scale {n q k D E : Nat} (hs : Scaled k q) (hlo : k = 0 ∨ 2 ^ 23 * D ≤ n) (hhi : n < 2 ^ 24 * D)
    (h1 : 2 * n ≤ 2 * (q * D) + D) (h2 : 2 * (q * D) ≤ 2 * n + D) (h3 : 2 * n = 2 * (q * D) + D ∨ 2 * (q * D) = 2 * n + D → q % 2 = 0)
    (hE : (k < 253 ∧ D ≤ E) ∨ (k = 253 ∧ D = 2 * E) ∨ (253 < k ∧ 4 * E ≤ D)) :
    k * 2 ^ 23 + q < 0x7F800000 ↔ n < (2 ^ 25 - 1) * E := by
  obtain ⟨hq24, hq23⟩ := hs
  rcases hE with ⟨hk, hD⟩ | ⟨rfl, rfl⟩ | ⟨hk, hD⟩
  · omega
  · rcases Nat.lt_trichotomy q (2 ^ 24 - 1) with hq | rfl | hq
    · have := Nat.mul_le_mul_right (2 * E) (show q + 2 ≤ 2 ^ 24 by omega)
      rw [Nat.add_mul] at this
      omega
    · omega
    · obtain rfl : q = 2 ^ 24 := by omega
      omega
  · omega

theorem bits_lt_iff {n d k : Nat} (hd : 0 < d) (hlo : k = 0 ∨ 2 ^ 23 * (d * 2 ^ k) ≤ n) (hhi : n < 2 ^ 24 * (d * 2 ^ k)) :
    k * 2 ^ 23 + rneDiv n (d * 2 ^ k) < 0x7F800000 ↔ n < (2 ^ 25 - 1) * 2 ^ 252 * d := by
  obtain ⟨h1, h2, h3⟩ := rneDiv_spec n (show 0 < d * 2 ^ k by positivity)
  rw [show (2 ^ 25 - 1) * 2 ^ 252 * d = (2 ^ 25 - 1) * (d * 2 ^ 252) by ring]
  refine bits_lt_iff_of_scale (scaled_rneDiv hd hlo hhi) hlo hhi h1 h2 h3 ?_
  rcases Nat.lt_trichotomy k 253 with hk | hk | hk
  · exact .inl ⟨hk, Nat.mul_le_mul_left d (Nat.pow_le_pow_right (by decide) (by omega))⟩
  · exact .inr (.inl ⟨hk, by rw [hk, pow_succ 2 252]; ring⟩)
  · refine .inr (.inr ⟨hk, ?_⟩)
    calc 4 * (d * 2 ^ 252) = d * 2 ^ (252 + 2) := by rw [pow_add]; ring
      _ ≤ d * 2 ^ k := Nat.mul_le_mul_left d (Nat.pow_le_pow_right (by decide) hk)

/-- Where nothing overflows: the scale and the mantissa of the rounded value. -/
theorem rneUnits_scaled {n d : Nat} (hd : 0 < d) (hn : n < (2 ^ 25 - 1) * 2 ^ 252 * d) :
    ∃ k, (k = 0 ∨ 2 ^ 23 * (d * 2 ^ k) ≤ n) ∧ rneUnits n d < 0x7F800000 ∧ rneUnits n d = k * 2 ^ 23 + rneDiv n (d * 2 ^ k) ∧
      f32Units (BitVec.ofNat 32 (rneUnits n d)) = rneDiv n (d * 2 ^ k) * 2 ^ k := by
  obtain ⟨k, hlo, hhi, he⟩ := rneUnits_parts n hd
  have hlt := (bits_lt_iff hd hlo hhi).mpr hn
  rw [Nat.min_eq_left hlt.le] at he
  exact ⟨k, hlo, he ▸ hlt, he, f32Units_ofNat (scaled_rneDiv hd hlo hhi) (by omega) he⟩

theorem rneUnits_overflow {n d : Nat} (hd : 0 < d) (hn : (2 ^ 25 - 1) * 2 ^ 252 * d ≤ n) : rneUnits n d = 0x7F800000 := by
  obtain ⟨k, hlo, hhi, he⟩ := rneUnits_parts n hd
  have hge := mt (bits_lt_iff hd hlo hhi).mp (by omega)
  rw [he, Nat.min_eq_right (by omega)]

/-- Every finite value is a multiple of the scale 2^k, or it lies below the mantissas of that scale. -/
theorem f32Units_multiple_or_lt {b : Nat} (hb : b < 2 ^ 31) (k : Nat) :
    (∃ j, f32Units (BitVec.ofNat 32 b) = j * 2 ^ k) ∨ (k ≠ 0 ∧ f32Units (BitVec.ofNat 32 b) < 2 ^ 23 * 2 ^ k) := by
  obtain ⟨l, r, hs, hr, he⟩ := exists_scaled b
  rw [f32Units_ofNat hs hb he]
  rcases Nat.lt_or_ge l k with hlt | hge
  · refine .inr ⟨by omega, ?_⟩
    calc r * 2 ^ l < 2 ^ 24 * 2 ^ l := Nat.mul_lt_mul_of_pos_right hr (by positivity)
      _ = 2 ^ 23 * 2 ^ (l + 1) := by ring
      _ ≤ 2 ^ 23 * 2 ^ k := Nat.mul_le_mul_left _ (Nat.pow_le_pow_right (by decide) hlt)
  · exact .inl ⟨r * 2 ^ (l - k), by rw [mul_assoc, ← pow_add, Nat.sub_add_cancel hge]⟩

/-- No finite value is nearer to n / d than the rounded one, and where another is as near its bits are even. -/
theorem rneUnits_nearest {n d : Nat} (hd : 0 < d) (hn : n < (2 ^ 25 - 1) * 2 ^ 252 * d) {b : Nat} (hb : b < 0x7F800000) :
    |(f32Units (BitVec.ofNat 32 (rneUnits n d)) * d : Int) - n| ≤ |(f32Units (BitVec.ofNat 32 b) * d : Int) - n| ∧
    (|(f32Units (BitVec.ofNat 32 (rneUnits n d)) * d : Int) - n| = |(f32Units (BitVec.ofNat 32 b) * d : Int) - n| →
      b ≠ rneUnits n d → rneUnits n d % 2 = 0) := by
  obtain ⟨k, hlo, hlt, he, hu⟩ := rneUnits_scaled hd hn
  have hD : 0 < d * 2 ^ k := by positivity
  have hcast (j : Nat) : ((j * 2 ^ k : Nat) * d : Int) = ((j * (d * 2 ^ k) : Nat) : Int) := by push_cast; ring
  rcases f32Units_multiple_or_lt (show b < 2 ^ 31 by omega) k with ⟨j, hj⟩ | ⟨hk, hsmall⟩
  · obtain ⟨hle, htie⟩ := rneDiv_nearest n hD j
    rw [hu, hj, hcast, hcast]
    refine ⟨hle, fun heq hne => ?_⟩
    have hjne : j ≠ rneDiv n (d * 2 ^ k) := fun hj' => hne (f32Units_inj (by omega) (by omega) (by rw [hj, hu, hj']))
    have := htie heq hjne
    omega
  · have hle := (rneDiv_nearest n hD (2 ^ 23)).1
    have hlow : 2 ^ 23 * (d * 2 ^ k) ≤ n := hlo.resolve_left hk
    have hb' : f32Units (BitVec.ofNat 32 b) * d < 2 ^ 23 * (d * 2 ^ k) := by
      calc _ < 2 ^ 23 * 2 ^ k * d := Nat.mul_lt_mul_of_pos_right hsmall hd
        _ = _ := by ring
    rw [hu, hcast]
    rw [← Nat.cast_mul]
    simp only [Int.abs_eq_natAbs] at hle ⊢
    omega

end Sys2Proof.Machine

namespace Sys2Proof.Proofs

open Sys2Proof.Machine

/-- Settles O52: the values near n / d are multiples of the scale at which it is rounded, or lie below the mantissas of that scale. -/
theorem roundingIsNearest : Obligations.RoundingIsNearest := by
  intro n d hd
  refine ⟨fun hn => ⟨?_, fun b hb => rneUnits_nearest hd hn hb⟩, rneUnits_overflow hd⟩
  obtain ⟨_, _, hlt, _⟩ := rneUnits_scaled hd hn
  exact hlt

end Sys2Proof.Proofs
end

section
/-!
Sums and products of finite binary32 values (R13): the exact result, rounded once.
-/

namespace Sys2Proof.Machine

theorem f32IsNaN_of_finite {x : F32} (h : f32IsFinite x = true) : f32IsNaN x = false := by
  simp_all [f32IsFinite, f32IsNaN]

theorem f32IsInf_of_finite {x : F32} (h : f32IsFinite x = true) : f32IsInf x = false := by
  simp_all [f32IsFinite, f32IsInf]

theorem f32Int_of_neg {x : F32} (h : f32Sign x = true) : f32Int x = -(f32Units x : Int) := by
  simp [f32Int, h]

theorem f32Int_of_nonneg {x : F32} (h : f32Sign x = false) : f32Int x = f32Units x := by
  simp [f32Int, h]

theorem natAbs_f32Int (x : F32) : (f32Int x).natAbs = f32Units x := by
  cases h : f32Sign x with
  | true => rw [f32Int_of_neg h, Int.natAbs_neg, Int.natAbs_natCast]
  | false => rw [f32Int_of_nonneg h, Int.natAbs_natCast]

/-- The only words of magnitude 0 are +0.0 and -0.0. -/
theorem eq_zero_of_units {x : F32} (h : f32Units x = 0) : x = if f32Sign x then 0x80000000#32 else 0x00000000#32 := by
  have hm : x.toNat % 2 ^ 31 = 0 := by
    unfold f32Units at h
    rw [f32Exp_eq, f32Frac_eq] at h
    split at h
    · omega
    · have := Nat.mul_pos (show 0 < 2 ^ 23 + x.toNat % 2 ^ 31 % 2 ^ 23 by omega) (Nat.two_pow_pos (x.toNat % 2 ^ 31 / 2 ^ 23 - 1))
      omega
  have hx := x.isLt
  apply BitVec.eq_of_toNat_eq
  rw [f32Sign, BitVec.msb_eq_decide]
  by_cases hs : 2 ^ 31 ≤ x.toNat
  · simp only [hs, decide_true, if_true]
    simp only [BitVec.toNat_ofNat]
    omega
  · simp only [hs, decide_false, Bool.false_eq_true, if_false]
    simp only [BitVec.toNat_ofNat]
    omega

theorem f32Round_zero (neg : Bool) : f32Round neg 0 1 = if neg then 0x80000000#32 else 0x00000000#32 := by
  cases neg <;> decide

/-- The sum of finite values, by their signs: neither the NaN nor the infinity rules apply. -/
theorem f32Add_of_finite (t : Draw) {x y : F32} (hx : f32IsFinite x = true) (hy : f32IsFinite y = true) :
    f32Add t x y =
      if f32Sign x = f32Sign y then f32Round (f32Sign x) (f32Units x + f32Units y) 1
      else if f32Units y < f32Units x then f32Round (f32Sign x) (f32Units x - f32Units y) 1
      else if f32Units x < f32Units y then f32Round (f32Sign y) (f32Units y - f32Units x) 1
      else f32Zero := by
  simp [f32Add, f32IsNaN_of_finite hx, f32IsNaN_of_finite hy, f32IsInf_of_finite hx, f32IsInf_of_finite hy]

/-- A magnitude that is not zero, rounded with its sign, is the signed value rounded. -/
theorem f32Round_of_int {z : Int} (hz : z ≠ 0) {neg : Bool} {m : Nat} (h : z = if neg then -(m : Int) else m) :
    f32Round neg m 1 = f32Round (decide (z < 0)) z.natAbs 1 := by
  have hneg : decide (z < 0) = neg := by
    cases neg <;> simp only [h, if_true, Bool.false_eq_true, if_false, decide_eq_true_eq, decide_eq_false_iff_not] at hz ⊢ <;> omega
  have habs : z.natAbs = m := by cases neg <;> simp [h]
  rw [hneg, habs]

/-- A sum that is not zero is the exact sum, rounded once with its own sign. -/
theorem f32Add_of_sum_ne_zero (t : Draw) {x y : F32} (hx : f32IsFinite x = true) (hy : f32IsFinite y = true)
    (h : f32Int x + f32Int y ≠ 0) :
    f32Add t x y = f32Round (decide (f32Int x + f32Int y < 0)) (f32Int x + f32Int y).natAbs 1 := by
  rw [f32Add_of_finite t hx hy]
  cases hsx : f32Sign x <;> cases hsy : f32Sign y <;>
    simp only [f32Int_of_neg, f32Int_of_nonneg, hsx, hsy, reduceCtorEq, if_true, if_false] at h ⊢
  case false.false | true.true => exact f32Round_of_int h (by simp only [if_true, if_false, Bool.false_eq_true]; omega)
  case false.true | true.false =>
    split
    · exact f32Round_of_int h (by simp only [if_true, if_false, Bool.false_eq_true]; omega)
    · split
      · exact f32Round_of_int h (by simp only [if_true, if_false, Bool.false_eq_true]; omega)
      · omega

/-- A sum that is zero is +0.0, but for the sum of two -0.0 (log entry 6). -/
theorem f32Add_of_sum_zero (t : Draw) {x y : F32} (hx : f32IsFinite x = true) (hy : f32IsFinite y = true)
    (h : f32Int x + f32Int y = 0) :
    f32Add t x y = if x = 0x80000000#32 ∧ y = 0x80000000#32 then 0x80000000#32 else 0x00000000#32 := by
  rw [f32Add_of_finite t hx hy]
  by_cases hs : f32Sign x = f32Sign y
  · have hzero : f32Units x = 0 ∧ f32Units y = 0 := by
      cases hsx : f32Sign x <;> simp only [f32Int_of_neg, f32Int_of_nonneg, hsx, ← hs] at h <;> omega
    rw [if_pos hs, hzero.1, hzero.2, f32Round_zero, eq_zero_of_units hzero.1, eq_zero_of_units hzero.2, ← hs]
    cases f32Sign x <;> decide
  · have heq : f32Units x = f32Units y := by
      cases hsx : f32Sign x <;> cases hsy : f32Sign y <;> simp only [f32Int_of_neg, f32Int_of_nonneg, hsx, hsy] at h hs <;> omega
    have hne : ¬(x = 0x80000000#32 ∧ y = 0x80000000#32) := fun ⟨hx', hy'⟩ => hs (by rw [hx', hy'])
    rw [if_neg hs, if_neg (by omega), if_neg (by omega), if_neg hne]
    rfl

/-- The product of finite values is the exact product of their magnitudes, rounded once. -/
theorem f32Mul_of_finite (t : Draw) {x y : F32} (hx : f32IsFinite x = true) (hy : f32IsFinite y = true) :
    f32Mul t x y = f32Round (f32Sign x != f32Sign y) (f32Units x * f32Units y) (2 ^ 149) := by
  simp [f32Mul, f32IsNaN_of_finite hx, f32IsNaN_of_finite hy, f32IsInf_of_finite hx, f32IsInf_of_finite hy]

end Sys2Proof.Machine

namespace Sys2Proof.Proofs

open Sys2Proof.Machine

/-- Settles O53: finite operands leave only the rounding of the exact result, and the sign of an exact zero sum. -/
theorem finiteArithmetic : Obligations.FiniteArithmetic := fun t x y hx hy =>
  ⟨f32Add_of_sum_ne_zero t hx hy, f32Add_of_sum_zero t hx hy, by
    rw [f32Mul_of_finite t hx hy, Int.natAbs_mul, natAbs_f32Int, natAbs_f32Int]⟩

end Sys2Proof.Proofs
end

section
/-!
ASSIGN (R122): what the tree of free strings means, and that each entry gets the least string that the entries before it leave open, by both
rules of CODE_ASSIGNMENT (R10).
-/

namespace Sys2Proof.Machine

open Spec (number)

/-! ## Strings -/

/-- Neither string begins with the other. -/
def Apart (c d : Codeword) : Prop := ¬c <+: d ∧ ¬d <+: c

theorem Apart.symm {c d : Codeword} (h : Apart c d) : Apart d c := ⟨h.2, h.1⟩

theorem not_apart_nil_left (d : Codeword) : ¬Apart [] d := fun h => h.1 List.nil_prefix

theorem not_apart_nil_right (c : Codeword) : ¬Apart c [] := fun h => h.2 List.nil_prefix

theorem apart_cons {x y : Bool} {c d : Codeword} : Apart (x :: c) (y :: d) ↔ x ≠ y ∨ Apart c d := by
  simp only [Apart, List.cons_prefix_cons, eq_comm (a := y)]
  tauto

theorem number_cons (b : Bool) (c : Codeword) : number (b :: c) = b.toNat * 2 ^ c.length + number c := by
  suffices h : ∀ n, c.foldl (fun n b => 2 * n + b.toNat) n = n * 2 ^ c.length + number c by
    simpa [number] using h b.toNat
  induction c with
  | nil => simp [number]
  | cons x c ih =>
    intro n
    have h0 : number (x :: c) = x.toNat * 2 ^ c.length + number c := by simpa [number] using ih x.toNat
    rw [List.foldl_cons, ih, h0, List.length_cons, pow_succ]
    ring

theorem number_lt (c : Codeword) : number c < 2 ^ c.length := by
  induction c with
  | nil => simp [number]
  | cons b c ih =>
    rw [number_cons, List.length_cons, pow_succ]
    cases b <;> simp <;> omega

/-! ## The tree of free strings -/

/-- The string is free in the tree. -/
def FreeTree.Open : FreeTree → Codeword → Prop
  | .free, _ => True
  | .used, _ => False
  | .split _ _, [] => False
  | .split a _, false :: c => a.Open c
  | .split _ b, true :: c => b.Open c

/-- The share of all strings that is free. -/
def FreeTree.weight : FreeTree → ℚ
  | .free => 1
  | .used => 0
  | .split a b => (a.weight + b.weight) / 2

theorem open_join (a b : FreeTree) (c : Codeword) : (FreeTree.join a b).Open c ↔ (FreeTree.split a b).Open c := by
  unfold FreeTree.join
  split
  · rcases c with _ | ⟨_ | _, c⟩ <;> rfl
  · rfl

theorem weight_join (a b : FreeTree) : (FreeTree.join a b).weight = (a.weight + b.weight) / 2 := by
  unfold FreeTree.join
  split
  · simp [FreeTree.weight]
  · rfl

theorem weight_nonneg (t : FreeTree) : 0 ≤ t.weight := by
  induction t with
  | free => exact zero_le_one
  | used => exact le_refl _
  | split a b iha ihb =>
    simp only [FreeTree.weight]
    positivity

theorem weight_pos_of_open {t : FreeTree} {c : Codeword} (h : t.Open c) : 0 < t.weight := by
  induction t generalizing c with
  | free => exact zero_lt_one
  | used => exact h.elim
  | split a b iha ihb =>
    have ha := weight_nonneg a
    have hb := weight_nonneg b
    simp only [FreeTree.weight]
    rcases c with _ | ⟨_ | _, c⟩
    · exact h.elim
    · linarith [iha h]
    · linarith [ihb h]

/-- What `FreeTree.take` answers: the least free string c of l bits, and the tree without c, its prefixes and its extensions. -/
structure Taken (t : FreeTree) (l : Nat) (c : Codeword) (t' : FreeTree) : Prop where
  length : c.length = l
  isOpen : t.Open c
  least : ∀ d, d.length = l → t.Open d → number c ≤ number d
  rest : ∀ d, t'.Open d ↔ t.Open d ∧ Apart c d
  weight : t'.weight = t.weight - (1 / 2) ^ l

theorem Taken.root : Taken .free 0 [] .used where
  length := rfl
  isOpen := trivial
  least := fun d _ _ => Nat.zero_le _
  rest := fun d => by simp [FreeTree.Open, not_apart_nil_left]
  weight := by simp [FreeTree.weight]

theorem Taken.free {l : Nat} {c : Codeword} {t : FreeTree} (h : Taken .free l c t) : Taken .free (l + 1) (false :: c) (.split t .free) where
  length := by rw [List.length_cons, h.length]
  isOpen := trivial
  least := by
    rintro (_ | ⟨_ | _, d⟩) hd _
    · cases hd
    · simpa [number_cons] using h.least d (by simpa using hd) trivial
    · have := number_lt c
      have hcd : c.length = d.length := by rw [h.length]; simpa using hd.symm
      simp only [number_cons, hcd, Bool.toNat_false, Bool.toNat_true] at this ⊢
      omega
  rest := by
    rintro (_ | ⟨_ | _, d⟩)
    · simp [FreeTree.Open, not_apart_nil_right]
    · simp [FreeTree.Open, apart_cons, h.rest]
    · simp [FreeTree.Open, apart_cons]
  weight := by
    simp only [FreeTree.weight, h.weight, pow_succ]
    ring

theorem Taken.left {a b : FreeTree} {l : Nat} {c : Codeword} {t : FreeTree} (h : Taken a l c t) :
    Taken (.split a b) (l + 1) (false :: c) (FreeTree.join t b) where
  length := by rw [List.length_cons, h.length]
  isOpen := h.isOpen
  least := by
    rintro (_ | ⟨_ | _, d⟩) hd ho
    · cases hd
    · simpa [number_cons] using h.least d (by simpa using hd) ho
    · have := number_lt c
      have hcd : c.length = d.length := by rw [h.length]; simpa using hd.symm
      simp only [number_cons, hcd, Bool.toNat_false, Bool.toNat_true] at this ⊢
      omega
  rest := by
    rintro (_ | ⟨_ | _, d⟩)
    · simp [open_join, FreeTree.Open]
    · simp [open_join, FreeTree.Open, apart_cons, h.rest]
    · simp [open_join, FreeTree.Open, apart_cons]
  weight := by
    simp only [weight_join, FreeTree.weight, h.weight, pow_succ]
    ring

theorem Taken.right {a b : FreeTree} {l : Nat} {c : Codeword} {t : FreeTree} (ha : ∀ d, d.length = l → ¬a.Open d) (h : Taken b l c t) :
    Taken (.split a b) (l + 1) (true :: c) (FreeTree.join a t) where
  length := by rw [List.length_cons, h.length]
  isOpen := h.isOpen
  least := by
    rintro (_ | ⟨_ | _, d⟩) hd ho
    · cases hd
    · exact absurd ho (ha d (by simpa using hd))
    · have hcd : c.length = d.length := by rw [h.length]; simpa using hd.symm
      simpa [number_cons, hcd] using h.least d (by simpa using hd) ho
  rest := by
    rintro (_ | ⟨_ | _, d⟩)
    · simp [open_join, FreeTree.Open]
    · simp [open_join, FreeTree.Open, apart_cons]
    · simp [open_join, FreeTree.Open, apart_cons, h.rest]
  weight := by
    simp only [weight_join, FreeTree.weight, h.weight, pow_succ]
    ring

/-- `FreeTree.take` finds the least free string of l bits, or there is none. -/
theorem take_spec (l : Nat) (t : FreeTree) :
    (∃ c t', FreeTree.take l t = some (c, t') ∧ Taken t l c t') ∨ (FreeTree.take l t = none ∧ ∀ d, d.length = l → ¬t.Open d) := by
  induction l generalizing t with
  | zero =>
    cases t with
    | free => exact .inl ⟨[], .used, rfl, Taken.root⟩
    | used => exact .inr ⟨rfl, fun d _ h => h⟩
    | split a b => exact .inr ⟨rfl, fun d hd => by rw [List.length_eq_zero_iff.mp hd]; exact id⟩
  | succ l ih =>
    cases t with
    | used => exact .inr ⟨rfl, fun d _ h => h⟩
    | free =>
      rcases ih .free with ⟨c, t', he, ht⟩ | ⟨_, hn⟩
      · exact .inl ⟨_, _, by simp only [FreeTree.take, he], ht.free⟩
      · exact absurd trivial (hn (List.replicate l false) List.length_replicate)
    | split a b =>
      rcases ih a with ⟨c, t', he, ht⟩ | ⟨hea, ha⟩
      · exact .inl ⟨_, _, by simp only [FreeTree.take, he], ht.left⟩
      · rcases ih b with ⟨c, t', he, ht⟩ | ⟨heb, hb⟩
        · exact .inl ⟨_, _, by simp only [FreeTree.take, hea, he], ht.right ha⟩
        · refine .inr ⟨by simp only [FreeTree.take, hea, heb], ?_⟩
          rintro (_ | ⟨_ | _, d⟩) hd
          · exact id
          · exact ha d (by simpa using hd)
          · exact hb d (by simpa using hd)

/-! ## ASSIGN from a tree of free strings on -/

/-- The strings of l bits that the tree and the codewords of the entries before e leave open. -/
def Avail (t : FreeTree) (codes : List (Option Codeword)) (e l : Nat) (c : Codeword) : Prop :=
  c.length = l ∧ t.Open c ∧ ∀ (e' : Nat) (d : Codeword), e' < e → codes[e']? = some (some d) → Apart c d

/-- Each used entry has the least string that is open to it. -/
def AssignedFrom (t : FreeTree) (lens : List Nat) (codes : List (Option Codeword)) : Prop :=
  codes.length = lens.length ∧ ∀ (e l : Nat), lens[e]? = some l →
    (l = 0 → codes[e]? = some none) ∧
    (l ≠ 0 → ∃ c, codes[e]? = some (some c) ∧ Avail t codes e l c ∧ ∀ d, Avail t codes e l d → number c ≤ number d)

theorem avail_zero {t : FreeTree} {codes : List (Option Codeword)} {l : Nat} {c : Codeword} :
    Avail t codes 0 l c ↔ c.length = l ∧ t.Open c := by
  simp [Avail]

/-- An unused entry takes nothing. -/
theorem avail_cons_none {t : FreeTree} {codes : List (Option Codeword)} {e l : Nat} {c : Codeword} :
    Avail t (none :: codes) (e + 1) l c ↔ Avail t codes e l c := by
  refine and_congr_right fun _ => and_congr_right fun _ => ⟨fun h e' d he hd => h (e' + 1) d (by omega) (by simpa using hd), fun h e' d he hd => ?_⟩
  cases e' with
  | zero => simp at hd
  | succ e' => exact h e' d (by omega) (by simpa using hd)

/-- A used entry takes its codeword out of the tree. -/
theorem avail_cons_some {t t' : FreeTree} {k : Nat} {x : Codeword} (ht : Taken t k x t') {codes : List (Option Codeword)} {e l : Nat}
    {c : Codeword} : Avail t (some x :: codes) (e + 1) l c ↔ Avail t' codes e l c := by
  constructor
  · rintro ⟨hl, ho, h⟩
    exact ⟨hl, (ht.rest c).mpr ⟨ho, (h 0 x (by omega) rfl).symm⟩, fun e' d he hd => h (e' + 1) d (by omega) (by simpa using hd)⟩
  · rintro ⟨hl, ho, h⟩
    obtain ⟨ho', hx⟩ := (ht.rest c).mp ho
    refine ⟨hl, ho', fun e' d he hd => ?_⟩
    cases e' with
    | zero =>
      obtain rfl : x = d := by simpa using hd
      exact hx.symm
    | succ e' => exact h e' d (by omega) (by simpa using hd)

theorem AssignedFrom.nil (t : FreeTree) : AssignedFrom t [] [] := ⟨rfl, fun e l h => by simp at h⟩

theorem AssignedFrom.cons_none {t : FreeTree} {lens : List Nat} {codes : List (Option Codeword)} (h : AssignedFrom t lens codes) :
    AssignedFrom t (0 :: lens) (none :: codes) := by
  refine ⟨by simp [h.1], fun e l hl => ?_⟩
  cases e with
  | zero =>
    obtain rfl : 0 = l := by simpa using hl
    exact ⟨fun _ => rfl, fun hn => absurd rfl hn⟩
  | succ e => simpa only [List.getElem?_cons_succ, avail_cons_none] using h.2 e l (by simpa using hl)

theorem AssignedFrom.cons_some {t t' : FreeTree} {k : Nat} {x : Codeword} (ht : Taken t k x t') (hk : k ≠ 0) {lens : List Nat}
    {codes : List (Option Codeword)} (h : AssignedFrom t' lens codes) : AssignedFrom t (k :: lens) (some x :: codes) := by
  refine ⟨by simp [h.1], fun e l hl => ?_⟩
  cases e with
  | zero =>
    obtain rfl : k = l := by simpa using hl
    refine ⟨fun h0 => absurd h0 hk, fun _ => ⟨x, rfl, avail_zero.mpr ⟨ht.length, ht.isOpen⟩, fun d hd => ?_⟩⟩
    exact ht.least d (avail_zero.mp hd).1 (avail_zero.mp hd).2
  | succ e => simpa only [List.getElem?_cons_succ, avail_cons_some ht] using h.2 e l (by simpa using hl)

theorem assignFrom_cons_zero (t : FreeTree) (lens : List Nat) :
    assignFrom t (0 :: lens) = (none :: (assignFrom t lens).1, (assignFrom t lens).2) := by
  simp [assignFrom]

theorem assignFrom_cons_taken {t t' : FreeTree} {l : Nat} {c : Codeword} (hl : l ≠ 0) (h : FreeTree.take l t = some (c, t')) (lens : List Nat) :
    assignFrom t (l :: lens) = (some c :: (assignFrom t' lens).1, (assignFrom t' lens).2) := by
  simp [assignFrom, hl, h]

theorem assignFrom_cons_stuck {t : FreeTree} {l : Nat} (hl : l ≠ 0) (h : FreeTree.take l t = none) (lens : List Nat) :
    assignFrom t (l :: lens) = ([], false) := by
  simp [assignFrom, hl, h]

/-- How ASSIGN goes on with the next entry: it is unused, or takes the least free string, or there is none. -/
theorem assignFrom_cons_cases (t : FreeTree) (l : Nat) :
    (l = 0) ∨ (l ≠ 0 ∧ ∃ c t', Taken t l c t' ∧
      ∀ lens, assignFrom t (l :: lens) = (some c :: (assignFrom t' lens).1, (assignFrom t' lens).2)) ∨
    (l ≠ 0 ∧ (∀ d, d.length = l → ¬t.Open d) ∧ ∀ lens, assignFrom t (l :: lens) = ([], false)) := by
  by_cases hl : l = 0
  · exact .inl hl
  · rcases take_spec l t with ⟨c, t', he, ht⟩ | ⟨he, hn⟩
    · exact .inr (.inl ⟨hl, c, t', ht, assignFrom_cons_taken hl he⟩)
    · exact .inr (.inr ⟨hl, hn, assignFrom_cons_stuck hl he⟩)

theorem assignFrom_assigned {t : FreeTree} {lens : List Nat} (h : (assignFrom t lens).2 = true) :
    AssignedFrom t lens (assignFrom t lens).1 := by
  induction lens generalizing t with
  | nil => exact .nil t
  | cons l lens ih =>
    rcases assignFrom_cons_cases t l with rfl | ⟨hl, c, t', ht, he⟩ | ⟨_, _, he⟩
    · rw [assignFrom_cons_zero] at h ⊢
      exact (ih h).cons_none
    · rw [he] at h ⊢
      exact (ih h).cons_some ht hl
    · rw [he] at h
      cases h

/-- Where ASSIGN stops: the entries before are assigned, and nothing is open to the next. -/
theorem assignFrom_stuck {t : FreeTree} {lens : List Nat} (h : (assignFrom t lens).2 = false) :
    ∃ e l, lens[e]? = some l ∧ l ≠ 0 ∧ AssignedFrom t (lens.take e) (assignFrom t lens).1 ∧ ∀ c, ¬Avail t (assignFrom t lens).1 e l c := by
  induction lens generalizing t with
  | nil => cases h
  | cons k lens ih =>
    rcases assignFrom_cons_cases t k with rfl | ⟨hk, c, t', ht, he⟩ | ⟨hk, hn, he⟩
    · rw [assignFrom_cons_zero] at h ⊢
      obtain ⟨e, l, hl, h0, ha, hs⟩ := ih h
      exact ⟨e + 1, l, hl, h0, ha.cons_none, fun d hd => hs d (avail_cons_none.mp hd)⟩
    · rw [he] at h ⊢
      obtain ⟨e, l, hl, h0, ha, hs⟩ := ih h
      exact ⟨e + 1, l, hl, h0, ha.cons_some ht hk, fun d hd => hs d ((avail_cons_some ht).mp hd)⟩
    · rw [he]
      exact ⟨0, k, rfl, hk, .nil t, fun d hd => hn d (avail_zero.mp hd).1 (avail_zero.mp hd).2⟩

/-! ## In entry order (R122) -/

theorem candidate_inOrder {lens : List Nat} {codes : List (Option Codeword)} {e l : Nat} {c : Codeword} :
    Spec.Candidate .inOrder lens codes e l c ↔ Avail .free codes e l c :=
  ⟨fun h => ⟨h.1, trivial, h.2⟩, fun h => ⟨h.1, h.2.2⟩⟩

theorem assigned_inOrder {lens : List Nat} {codes : List (Option Codeword)} :
    Spec.Assigned .inOrder lens codes ↔ AssignedFrom .free lens codes := by
  simp only [Spec.Assigned, AssignedFrom, candidate_inOrder]

/-! ## In order of the lengths (D9) -/

/-- The order of the length-sorted code, on a length and an entry number. -/
abbrev LengthOrder (p q : Nat × Nat) : Prop := p.1 < q.1 ∨ (p.1 = q.1 ∧ p.2 ≤ q.2)

theorem pairwise_sortedEntries (lens : List Nat) : (sortedEntries lens).Pairwise LengthOrder := by
  have htotal : Std.Total LengthOrder := ⟨fun p q => by simp only [LengthOrder]; omega⟩
  have htrans : IsTrans (Nat × Nat) LengthOrder := ⟨fun p q r => by simp only [LengthOrder]; omega⟩
  exact List.pairwise_insertionSort LengthOrder lens.zipIdx

theorem perm_sortedEntries (lens : List Nat) : (sortedEntries lens).Perm lens.zipIdx := List.perm_insertionSort _ _

theorem mem_sortedEntries {lens : List Nat} {l e : Nat} : (l, e) ∈ sortedEntries lens ↔ lens[e]? = some l := by
  rw [(perm_sortedEntries lens).mem_iff, List.mem_zipIdx_iff_getElem?]

theorem nodup_sortedEntries (lens : List Nat) : ((sortedEntries lens).map (·.2)).Nodup := by
  rw [((perm_sortedEntries lens).map (·.2)).nodup_iff]
  simpa using List.nodup_range'

/-- A value is found under its key in a zip of distinct keys. -/
theorem lookup_zip_of_nodup {α : Type} {ks : List Nat} {vs : List α} (hn : ks.Nodup) {i k : Nat} (hk : ks[i]? = some k) :
    (ks.zip vs).lookup k = vs[i]? := by
  induction ks generalizing vs i with
  | nil => simp at hk
  | cons x ks ih =>
    obtain ⟨hx, hn⟩ := List.nodup_cons.mp hn
    cases vs with
    | nil => simp
    | cons v vs =>
      rw [List.zip_cons_cons, List.lookup_cons]
      cases i with
      | zero =>
        obtain rfl : x = k := by simpa using hk
        simp
      | succ i =>
        have hk' : ks[i]? = some k := by simpa using hk
        have hne : (k == x) = false := by
          rw [beq_eq_false_iff_ne]
          rintro rfl
          exact hx (List.mem_of_getElem? hk')
        simpa [hne] using ih hn hk'

/-- The codeword of an entry stands where the sorted order has the entry. -/
theorem assignSorted_getElem? {lens : List Nat} (h : (assignSorted lens).2 = true) {i l e : Nat} (hi : (sortedEntries lens)[i]? = some (l, e)) :
    (assignSorted lens).1[e]? = (assignFrom .free ((sortedEntries lens).map (·.1))).1[i]? := by
  have he : e < lens.length := (List.getElem?_eq_some_iff.mp (mem_sortedEntries.mp (List.mem_of_getElem? hi))).1
  have hlen := length_assignFrom _ _ h
  have hil := (List.getElem?_eq_some_iff.mp hi).1
  have hlook := lookup_zip_of_nodup (vs := (assignFrom .free ((sortedEntries lens).map (·.1))).1) (nodup_sortedEntries lens)
    (i := i) (k := e) (by rw [List.getElem?_map, hi]; rfl)
  have hv := List.getElem?_eq_getElem (l := (assignFrom .free ((sortedEntries lens).map (·.1))).1) (i := i)
    (by rw [hlen, List.length_map]; exact hil)
  simp only [assignSorted, List.getElem?_map, List.getElem?_range he, Option.map_some, hlook]
  rw [hv, Option.getD_some]

/-- The sorted order is that of `Spec.Before`. -/
theorem before_iff_lt {lens : List Nat} {i i' l l' e e' : Nat} (hi : (sortedEntries lens)[i]? = some (l, e))
    (hi' : (sortedEntries lens)[i']? = some (l', e')) : Spec.Before .lengthSorted lens e' e ↔ i' < i := by
  have hl := mem_sortedEntries.mp (List.mem_of_getElem? hi)
  have hl' := mem_sortedEntries.mp (List.mem_of_getElem? hi')
  have hsorted {j k : Nat} {p q : Nat × Nat} (hjk : j < k) (hj : (sortedEntries lens)[j]? = some p) (hk : (sortedEntries lens)[k]? = some q) :
      LengthOrder p q ∧ p.2 ≠ q.2 := by
    obtain ⟨hj1, rfl⟩ := List.getElem?_eq_some_iff.mp hj
    obtain ⟨hk1, rfl⟩ := List.getElem?_eq_some_iff.mp hk
    refine ⟨List.pairwise_iff_getElem.mp (pairwise_sortedEntries lens) j k hj1 hk1 hjk, ?_⟩
    have := List.pairwise_iff_getElem.mp (nodup_sortedEntries lens) j k (by simpa using hj1) (by simpa using hk1) hjk
    simpa using this
  simp only [Spec.Before, List.getD_eq_getElem?_getD, hl, hl', Option.getD_some]
  constructor
  · intro hb
    by_contra hlt
    rcases Nat.eq_or_lt_of_le (Nat.le_of_not_lt hlt) with rfl | hlt
    · obtain ⟨rfl, rfl⟩ : l = l' ∧ e = e' := by simpa [hi] using hi'
      omega
    · obtain ⟨ho, hne⟩ := hsorted hlt hi hi'
      simp only [LengthOrder] at ho
      omega
  · intro hlt
    obtain ⟨ho, hne⟩ := hsorted hlt hi' hi
    simp only [LengthOrder] at ho hne
    omega

/-- Entry e of the length-sorted code has the candidates that the sorted order leaves to its place i. -/
theorem candidate_lengthSorted {lens : List Nat} (h : (assignSorted lens).2 = true) {i l e : Nat} (hi : (sortedEntries lens)[i]? = some (l, e))
    {c : Codeword} : Spec.Candidate .lengthSorted lens (assignSorted lens).1 e l c ↔
      Avail .free (assignFrom .free ((sortedEntries lens).map (·.1))).1 i l c := by
  constructor
  · rintro ⟨hl, hc⟩
    refine ⟨hl, trivial, fun i' d hlt hd => ?_⟩
    have hi' : i' < (sortedEntries lens).length := by have := (List.getElem?_eq_some_iff.mp hi).1; omega
    obtain ⟨⟨l', e'⟩, hp⟩ : ∃ p, (sortedEntries lens)[i']? = some p := ⟨_, List.getElem?_eq_getElem hi'⟩
    exact hc e' d ((before_iff_lt hi hp).mpr hlt) (by rw [assignSorted_getElem? h hp, hd])
  · rintro ⟨hl, _, hc⟩
    refine ⟨hl, fun e' d hb hd => ?_⟩
    have he' : e' < lens.length := by
      have := (List.getElem?_eq_some_iff.mp hd).1
      rwa [show (assignSorted lens).1.length = lens.length by simp [assignSorted]] at this
    obtain ⟨i', hp⟩ := List.getElem?_of_mem (mem_sortedEntries.mpr (List.getElem?_eq_getElem he'))
    exact hc i' d ((before_iff_lt hi hp).mp hb) (by rw [← assignSorted_getElem? h hp, hd])

theorem assignSorted_assigned {lens : List Nat} (h : (assignSorted lens).2 = true) : Spec.Assigned .lengthSorted lens (assignSorted lens).1 := by
  have hr : (assignFrom .free ((sortedEntries lens).map (·.1))).2 = true := h
  obtain ⟨_, hfrom⟩ := assignFrom_assigned hr
  refine ⟨by simp [assignSorted], fun e l hl => ?_⟩
  obtain ⟨i, hi⟩ := List.getElem?_of_mem (mem_sortedEntries.mpr hl)
  have hil : ((sortedEntries lens).map (·.1))[i]? = some l := by rw [List.getElem?_map, hi]; rfl
  simpa only [candidate_lengthSorted h hi, assignSorted_getElem? h hi] using hfrom i l hil

/-! ## By both rules -/

theorem assignCodes_assigned {rule : CodeAssignment} {lens : List Nat} (h : (assignCodes rule lens).2 = true) :
    Spec.Assigned rule lens (assignCodes rule lens).1 := by
  cases rule with
  | inOrder => exact assigned_inOrder.mpr (assignFrom_assigned h)
  | lengthSorted => exact assignSorted_assigned h

end Sys2Proof.Machine

namespace Sys2Proof.Proofs

open Sys2Proof.Machine

/-- Settles O28: each entry takes the least string that the tree of free strings leaves open; the sorted order is only another order of the
entries. -/
theorem assignLeastCandidate : Obligations.AssignLeastCandidate := by
  refine fun rule lens => ⟨assignCodes_assigned, ?_⟩
  rintro rfl h
  obtain ⟨e, l, hl, h0, ha, hs⟩ := assignFrom_stuck h
  exact ⟨e, l, hl, h0, assigned_inOrder.mpr ha, fun c hc => hs c (candidate_inOrder.mp hc)⟩

end Sys2Proof.Proofs
end

section
/-!
The code of a successful build (R131): no codeword begins with another, a full code decodes every bit string, and in entry order a codeword
depends only on the lengths up to its entry.
-/

namespace Sys2Proof.Machine

/-! ## Prefix-freeness (a) -/

/-- Of two entries one has its turn before the other. -/
theorem before_total (rule : CodeAssignment) (lens : List Nat) {e e' : Nat} (h : e ≠ e') :
    Spec.Before rule lens e e' ∨ Spec.Before rule lens e' e := by
  cases rule <;> simp only [Spec.Before] <;> omega

/-- An entry with a codeword is used, and its codeword is a candidate. -/
theorem assigned_codeword {rule : CodeAssignment} {lens : List Nat} {codes : List (Option Codeword)} (h : Spec.Assigned rule lens codes) {e : Nat}
    {c : Codeword} (hc : codes[e]? = some (some c)) : ∃ l, lens[e]? = some l ∧ l ≠ 0 ∧ Spec.Candidate rule lens codes e l c := by
  obtain ⟨hlen, hall⟩ := h
  have he : e < lens.length := hlen ▸ (List.getElem?_eq_some_iff.mp hc).1
  obtain ⟨hun, hus⟩ := hall e lens[e] (List.getElem?_eq_getElem he)
  refine ⟨_, List.getElem?_eq_getElem he, ?_⟩
  by_cases h0 : lens[e] = 0
  · simp [hun h0] at hc
  · obtain ⟨d, hd, hcand, _⟩ := hus h0
    obtain rfl : d = c := by simpa [hd] using hc
    exact ⟨h0, hcand⟩

theorem assigned_apart {rule : CodeAssignment} {lens : List Nat} {codes : List (Option Codeword)} (h : Spec.Assigned rule lens codes) {e e' : Nat}
    {c c' : Codeword} (hne : e ≠ e') (hc : codes[e]? = some (some c)) (hc' : codes[e']? = some (some c')) : Apart c c' := by
  obtain ⟨_, _, _, _, hcand⟩ := assigned_codeword h hc
  obtain ⟨_, _, _, _, hcand'⟩ := assigned_codeword h hc'
  rcases before_total rule lens hne with hb | hb
  · exact (hcand' e c hb hc).symm
  · exact hcand e' c' hb hc'

/-- A codeword is not empty, and no longer than all the lengths together. -/
theorem assigned_length {rule : CodeAssignment} {lens : List Nat} {codes : List (Option Codeword)} (h : Spec.Assigned rule lens codes)
    {c : Codeword} (hc : some c ∈ codes) : c ≠ [] ∧ c.length ≤ lens.sum := by
  obtain ⟨e, he⟩ := List.getElem?_of_mem hc
  obtain ⟨l, hl, h0, hlen, _⟩ := assigned_codeword h he
  refine ⟨fun hn => h0 (by rw [← hlen, hn, List.length_nil]), ?_⟩
  rw [hlen]
  exact List.le_sum_of_mem (List.mem_of_getElem? hl)

/-! ## The Kraft sum (b) -/

theorem kraft_nil : Spec.kraft [] = 0 := rfl

theorem kraft_cons_zero (lens : List Nat) : Spec.kraft (0 :: lens) = Spec.kraft lens := rfl

theorem kraft_cons {l : Nat} (hl : l ≠ 0) (lens : List Nat) : Spec.kraft (l :: lens) = (1 / 2) ^ l + Spec.kraft lens := by
  simp [Spec.kraft, Nat.pos_of_ne_zero hl]

theorem kraft_perm {l l' : List Nat} (h : l.Perm l') : Spec.kraft l = Spec.kraft l' :=
  ((h.filter _).map _).sum_eq

theorem kraft_of_single {lens : List Nat} (h : (lens.filter fun l => decide (0 < l)) = [1]) : Spec.kraft lens = 1 / 2 := by
  simp [Spec.kraft, h]

/-! ## A full code leaves no string open (c) -/

/-- The tree that ASSIGN leaves: what is apart from every codeword, and what the Kraft sum leaves of its weight. -/
theorem assignFrom_rest {t : FreeTree} {lens : List Nat} (h : (assignFrom t lens).2 = true) :
    ∃ t' : FreeTree, (∀ d, t'.Open d ↔ t.Open d ∧ ∀ c, some c ∈ (assignFrom t lens).1 → Apart c d) ∧
      t'.weight = t.weight - Spec.kraft lens := by
  induction lens generalizing t with
  | nil => exact ⟨t, by simp [assignFrom], by simp [kraft_nil]⟩
  | cons l lens ih =>
    rcases assignFrom_cons_cases t l with rfl | ⟨hl, x, t₁, ht, he⟩ | ⟨_, _, he⟩
    · rw [assignFrom_cons_zero] at h ⊢
      obtain ⟨t', ho, hw⟩ := ih h
      exact ⟨t', by simpa using ho, by rw [hw, kraft_cons_zero]⟩
    · rw [he] at h ⊢
      obtain ⟨t', ho, hw⟩ := ih h
      refine ⟨t', fun d => ?_, by rw [hw, ht.weight, kraft_cons hl]; ring⟩
      rw [ho, ht.rest, and_assoc]
      simp
    · rw [he] at h
      cases h

/-- Every string is comparable with some codeword. -/
def Covers (codes : List (Option Codeword)) : Prop := ∀ d, ∃ c, some c ∈ codes ∧ ¬Apart c d

theorem covers_assignFrom {lens : List Nat} (h : (assignFrom .free lens).2 = true) (hk : Spec.kraft lens = 1) :
    Covers (assignFrom .free lens).1 := by
  obtain ⟨t', ho, hw⟩ := assignFrom_rest h
  intro d
  by_contra hn
  push Not at hn
  have hpos := weight_pos_of_open ((ho d).mpr ⟨trivial, hn⟩)
  rw [hw, hk, FreeTree.weight, sub_self] at hpos
  exact lt_irrefl _ hpos

theorem covers_assignSorted {lens : List Nat} (h : (assignSorted lens).2 = true) (hk : Spec.kraft lens = 1) : Covers (assignSorted lens).1 := by
  have hperm : ((sortedEntries lens).map (·.1)).Perm lens := by simpa using (perm_sortedEntries lens).map (·.1)
  have hr : (assignFrom .free ((sortedEntries lens).map (·.1))).2 = true := h
  intro d
  obtain ⟨c, hc, ha⟩ := covers_assignFrom hr ((kraft_perm hperm).trans hk) d
  refine ⟨c, ?_, ha⟩
  obtain ⟨i, hi⟩ := List.getElem?_of_mem hc
  have hlt : i < (sortedEntries lens).length := by
    simpa [length_assignFrom _ _ hr] using (List.getElem?_eq_some_iff.mp hi).1
  exact List.mem_of_getElem? ((assignSorted_getElem? h (List.getElem?_eq_getElem hlt)).trans hi)

theorem covers_assignCodes {rule : CodeAssignment} {lens : List Nat} (h : (assignCodes rule lens).2 = true) (hk : Spec.kraft lens = 1) :
    Covers (assignCodes rule lens).1 := by
  cases rule with
  | inOrder => exact covers_assignFrom h hk
  | lengthSorted => exact covers_assignSorted h hk

/-- The first n bits of an infinite string. -/
def firstBits (f : Nat → Bool) (n : Nat) : Codeword := (List.range n).map f

theorem length_firstBits (f : Nat → Bool) (n : Nat) : (firstBits f n).length = n := by simp [firstBits]

theorem firstBits_prefix (f : Nat → Bool) {m n : Nat} (h : m ≤ n) : firstBits f m <+: firstBits f n := by
  have htake : (List.range n).take m = List.range m := by rw [List.take_range, Nat.min_eq_left h]
  rw [firstBits, firstBits, ← htake, List.map_take]
  exact List.take_prefix _ _

/-- Every infinite string begins with exactly one codeword of a code that covers. -/
theorem existsUnique_codeword {rule : CodeAssignment} {lens : List Nat} {codes : List (Option Codeword)} (h : Spec.Assigned rule lens codes)
    (hc : Covers codes) (f : Nat → Bool) : ∃! e : Nat, ∃ c : Codeword, codes[e]? = some (some c) ∧ c = firstBits f c.length := by
  obtain ⟨c, hmem, hcomp⟩ := hc (firstBits f lens.sum)
  have hle := (assigned_length h hmem).2
  have hfirst : c = firstBits f c.length := by
    have hpre := firstBits_prefix f hle
    have hcpre : c <+: firstBits f lens.sum := by
      by_contra hn
      have hd : firstBits f lens.sum <+: c := by
        by_contra hd
        exact hcomp ⟨hn, hd⟩
      exact hn (hd.eq_of_length_le (by rw [length_firstBits]; exact hle) ▸ List.prefix_rfl)
    exact (List.prefix_of_prefix_length_le hcpre hpre (by rw [length_firstBits])).eq_of_length (by rw [length_firstBits])
  obtain ⟨e, he⟩ := List.getElem?_of_mem hmem
  refine ⟨e, ⟨c, he, hfirst⟩, ?_⟩
  rintro e' ⟨c', he', hfirst'⟩
  by_contra hne
  obtain ⟨h1, h2⟩ := assigned_apart h hne he' he
  rcases Nat.le_total c.length c'.length with hlen | hlen
  · exact h2 (by rw [hfirst, hfirst']; exact firstBits_prefix f hlen)
  · exact h1 (by rw [hfirst, hfirst']; exact firstBits_prefix f hlen)

theorem entryOf_eq_none {codes : List (Option Codeword)} {c : Codeword} : entryOf codes c = none ↔ some c ∉ codes := by
  simp only [entryOf, List.findIdx?_eq_none_iff, beq_eq_false_iff_ne]
  exact ⟨fun h hm => h _ hm rfl, fun h o ho he => h (he ▸ ho)⟩

theorem isProperPrefix_of {codes : List (Option Codeword)} {c d : Codeword} (hd : some d ∈ codes) (hp : c <+: d) (hl : c.length < d.length) :
    isProperPrefix codes c = true := by
  simp only [isProperPrefix, List.any_eq_true]
  exact ⟨some d, hd, by simp [hp, hl]⟩

/-- The walk of a code that covers never ends in BAD_CODE, as long as no codeword lies behind it (R129). -/
theorem matchFrom_ne_badCode (s : State) {codes : List (Option Codeword)} (hc : Covers codes) (left pos : Nat) (w : Codeword)
    (hw : ∀ c, some c ∈ codes → ¬c <+: w) (p : Nat) : matchFrom s codes left pos w ≠ .badCode p := by
  induction left generalizing pos w with
  | zero => simp [matchFrom]
  | succ left ih =>
    unfold matchFrom
    cases packetBit s pos with
    | none => simp
    | some b =>
      simp only
      cases he : entryOf codes (w ++ [b]) with
      | some e => simp
      | none =>
        have hnot := entryOf_eq_none.mp he
        have hbehind : ∀ c, some c ∈ codes → ¬c <+: w ++ [b] := fun c hmem hpre => by
          rcases List.prefix_concat_iff.mp hpre with rfl | hpre
          · exact hnot hmem
          · exact hw c hmem hpre
        obtain ⟨c, hmem, hcomp⟩ := hc (w ++ [b])
        have hpre : w ++ [b] <+: c := by
          by_contra hn
          exact hcomp ⟨hbehind c hmem, hn⟩
        have hlt : (w ++ [b]).length < c.length := by
          by_contra hle
          exact hbehind c hmem (hpre.eq_of_length_le (Nat.le_of_not_lt hle) ▸ List.prefix_rfl)
        simp only [isProperPrefix_of hmem hpre hlt, if_true]
        exact ih (pos + 1) (w ++ [b]) hbehind

/-! ## Only the lengths before (d) -/

theorem assignFrom_getElem?_congr (t : FreeTree) {lens lens' : List Nat} {e : Nat} (h : lens'.take (e + 1) = lens.take (e + 1)) :
    (assignFrom t lens').1[e]? = (assignFrom t lens).1[e]? := by
  induction lens generalizing t lens' e with
  | nil =>
    obtain rfl : lens' = [] := by simpa using h
    rfl
  | cons l lens ih =>
    cases lens' with
    | nil => simp at h
    | cons l' lens' =>
      obtain ⟨rfl, htake⟩ : l' = l ∧ lens'.take e = lens.take e := by simpa using h
      rcases assignFrom_cons_cases t l' with rfl | ⟨_, x, t', _, he⟩ | ⟨_, _, he⟩
      · rw [assignFrom_cons_zero, assignFrom_cons_zero]
        cases e with
        | zero => rfl
        | succ e => simpa using ih t htake
      · rw [he, he]
        cases e with
        | zero => rfl
        | succ e => simpa using ih t' htake
      · rw [he, he]

end Sys2Proof.Machine

namespace Sys2Proof.Proofs

open Sys2Proof.Machine

/-- Settles O32: (a) by the candidates of the later entry, (b) by CHECK_FULL, (c) because a Kraft sum of 1 leaves no string open, (d) because
ASSIGN goes through the entries in their order. -/
theorem buildProperties : Obligations.BuildProperties := by
  intro rule lens hok hfull
  have hassigned := assignCodes_assigned hok
  refine ⟨fun e e' c c' hne hc hc' => (assigned_apart hassigned hne hc hc').1, ?_, fun hk => ?_, ?_⟩
  · rcases hfull with h1 | hk
    · exact .inr ⟨by rw [h1]; rfl, kraft_of_single h1⟩
    · exact .inl hk
  · have hcov := covers_assignCodes hok hk
    refine ⟨existsUnique_codeword hassigned hcov, fun K s p hK => ?_⟩
    rw [matchCode, hK]
    exact matchFrom_ne_badCode s hcov _ _ [] (fun c hmem hpre => (assigned_length hassigned hmem).1 (List.prefix_nil.mp hpre)) p
  · rintro rfl e lens' _ htake
    exact assignFrom_getElem?_congr .free htake

end Sys2Proof.Proofs
end

section
/-!
The fixed-point sine of the ROM (R46, R151-R153, R180) against the real sine: the nested series is the Taylor polynomial of degree 41, fixed
point loses a few units of 2^-128, and `piFixed` is pi to 20 decimals and more.
-/

namespace Sys2Proof.Machine

/-! ## The nested series -/

/-- `sinSeries` in real arithmetic: the nested series of sin(y)/y at z = y^2. -/
noncomputable def sinNest (z : ℝ) : Nat → Nat → ℝ
  | 0, _ => 1
  | fuel + 1, k => 1 - z * sinNest z fuel (k + 1) / (2 * k * (2 * k + 1))

theorem sinNest_eq_sum (y : ℝ) (fuel k : Nat) :
    sinNest (y ^ 2) fuel (k + 1) = ∑ j ∈ Finset.range (fuel + 1), (-1) ^ j * y ^ (2 * j) * (2 * k + 1).factorial / (2 * k + 1 + 2 * j).factorial := by
  induction fuel generalizing k with
  | zero => simp [sinNest, Nat.factorial_ne_zero]
  | succ fuel ih =>
    rw [sinNest, ih (k + 1), Finset.sum_range_succ' _ (fuel + 1), Finset.mul_sum, Finset.sum_div, sub_eq_neg_add, ← Finset.sum_neg_distrib]
    congr 1
    · refine Finset.sum_congr rfl fun j _ => ?_
      have h1 : (2 * (k + 1) + 1).factorial = (2 * k + 3) * ((2 * k + 2) * (2 * k + 1).factorial) := by
        rw [show 2 * (k + 1) + 1 = 2 * k + 1 + 1 + 1 by ring, Nat.factorial_succ, Nat.factorial_succ]
      have h2 : 2 * (k + 1) + 1 + 2 * j = 2 * k + 1 + 2 * (j + 1) := by ring
      have h3 := Nat.factorial_ne_zero (2 * k + 1 + 2 * (j + 1))
      rw [h1, h2]
      push_cast
      field_simp
      ring
    · simp [Nat.factorial_ne_zero]

/-- The imaginary part of the exponential series of iy is the sine series of y. -/
theorem im_expSeries (y : ℝ) (N : Nat) : (∑ m ∈ Finset.range (2 * N), (Complex.I * y) ^ m / (m.factorial : ℂ)).im =
    ∑ j ∈ Finset.range N, (-1) ^ j * y ^ (2 * j + 1) / (2 * j + 1).factorial := by
  induction N with
  | zero => simp
  | succ N ih =>
    have heven : (Complex.I * y) ^ (2 * N) = (((-1) ^ N * y ^ (2 * N) : ℝ) : ℂ) := by
      rw [mul_pow, pow_mul Complex.I, Complex.I_sq]
      push_cast
      rfl
    have hodd : (Complex.I * y) ^ (2 * N + 1) = (((-1) ^ N * y ^ (2 * N + 1) : ℝ) : ℂ) * Complex.I := by
      rw [pow_succ, heven]
      push_cast
      ring
    rw [show 2 * (N + 1) = 2 * N + 1 + 1 by ring, Finset.sum_range_succ, Finset.sum_range_succ, Finset.sum_range_succ, Complex.add_im, Complex.add_im,
      ih, heven, hodd]
    simp only [Complex.div_natCast_im, Complex.ofReal_im, Complex.im_ofReal_mul, Complex.I_im, zero_div, add_zero, mul_one]

theorem sinNest_near_sin {y : ℝ} (h0 : 0 ≤ y) (h : y ≤ 79 / 50) : |y * sinNest (y ^ 2) 20 1 - Real.sin y| ≤ 1 / 2 ^ 60 := by
  have hsum : y * sinNest (y ^ 2) 20 1 = (∑ m ∈ Finset.range (2 * 21), (Complex.I * y) ^ m / (m.factorial : ℂ)).im := by
    rw [im_expSeries, sinNest_eq_sum y 20 0, Finset.mul_sum]
    refine Finset.sum_congr rfl fun j _ => ?_
    rw [show 2 * 0 + 1 + 2 * j = 2 * j + 1 by ring]
    simp only [mul_zero, zero_add, Nat.factorial_one, Nat.cast_one, mul_one]
    ring
  have hnorm : ‖Complex.I * (y : ℂ)‖ = y := by simp [abs_of_nonneg h0]
  have hexp := Complex.exp_bound' (x := Complex.I * y) (n := 2 * 21) (by rw [hnorm]; push_cast; linarith)
  have hsin : Real.sin y = (Complex.exp (Complex.I * y)).im := by
    rw [mul_comm, Complex.exp_ofReal_mul_I_im]
  rw [hsum, hsin, ← Complex.sub_im, ← abs_neg, ← Complex.neg_im, neg_sub]
  refine (Complex.abs_im_le_norm _).trans (hexp.trans ?_)
  rw [hnorm]
  calc y ^ (2 * 21) / (2 * 21).factorial * 2 ≤ (79 / 50) ^ (2 * 21) / (2 * 21).factorial * 2 := by gcongr
    _ ≤ 1 / 2 ^ 60 := by norm_num [Nat.factorial]

/-! ## Fixed point -/

theorem natDiv_near (a b : Nat) : |((a / b : Nat) : ℝ) - a / b| ≤ 1 := by
  rw [← Nat.floor_div_eq_div (K := ℝ) a b, abs_le]
  have hlo := Nat.floor_le (show (0 : ℝ) ≤ a / b by positivity)
  have hhi := Nat.lt_floor_add_one ((a : ℝ) / b)
  constructor <;> linarith

/-- A division in fixed point loses at most one unit. -/
theorem fixedDiv_near (a b : Nat) : |((a / b : Nat) : ℝ) / 2 ^ 128 - a / b / 2 ^ 128| ≤ 1 / 2 ^ 128 := by
  rw [← sub_div, abs_div, abs_of_pos (show (0 : ℝ) < 2 ^ 128 by positivity)]
  gcongr
  exact natDiv_near a b

/-- One factor of the series: with z and S near ζ and T, the fixed-point factor is near the real one. -/
theorem sinFactor_near {z S k : Nat} {ζ T : ℝ} (hk : 1 ≤ k) (hζ0 : 0 ≤ ζ) (hζ : ζ ≤ 5 / 2) (hz : |(z : ℝ) / 2 ^ 128 - ζ| ≤ 1 / 2 ^ 128)
    (hS : S ≤ 2 ^ 128) (hST : |(S : ℝ) / 2 ^ 128 - T| ≤ 4 / 2 ^ 128) :
    |((2 ^ 128 - z * S / 2 ^ 128 / (2 * k * (2 * k + 1)) : Nat) : ℝ) / 2 ^ 128 - (1 - ζ * T / (2 * k * (2 * k + 1)))| ≤ 4 / 2 ^ 128 := by
  have hk' : (1 : ℝ) ≤ k := by exact_mod_cast hk
  obtain ⟨M, hM⟩ : ∃ M : Nat, M = 2 * k * (2 * k + 1) := ⟨_, rfl⟩
  have hMr : (M : ℝ) = 2 * k * (2 * k + 1) := by rw [hM]; push_cast; rfl
  have hM6 : (6 : ℝ) ≤ M := by rw [hMr]; nlinarith
  have hS1 : (S : ℝ) / 2 ^ 128 ≤ 1 := by
    rw [div_le_one (by positivity)]
    exact_mod_cast hS
  have hS0 : 0 ≤ (S : ℝ) / 2 ^ 128 := by positivity
  have hdiv := fixedDiv_near (z * S) (2 ^ 128 * M)
  rw [← hM, ← hMr, Nat.div_div_eq_div_mul]
  have hprod : ((z * S : Nat) : ℝ) / ((2 ^ 128 * M : Nat) : ℝ) / 2 ^ 128 = (z : ℝ) / 2 ^ 128 * (S / 2 ^ 128) / M := by
    push_cast
    ring
  rw [hprod] at hdiv
  generalize z * S / (2 ^ 128 * M) = Q at *
  generalize (z : ℝ) / 2 ^ 128 = a at *
  have hab : |a * (S / 2 ^ 128) - ζ * T| ≤ 11 / 2 ^ 128 := by
    have h1 : |(a - ζ) * (S / 2 ^ 128)| ≤ 1 / 2 ^ 128 := by
      rw [abs_mul, abs_of_nonneg hS0]
      exact (mul_le_of_le_one_right (abs_nonneg _) hS1).trans hz
    have h2 : |ζ * (S / 2 ^ 128 - T)| ≤ 5 / 2 * (4 / 2 ^ 128) := by
      rw [abs_mul, abs_of_nonneg hζ0]
      gcongr
    calc _ = |(a - ζ) * (S / 2 ^ 128) + ζ * (S / 2 ^ 128 - T)| := by ring_nf
      _ ≤ _ := abs_add_le _ _
      _ ≤ 1 / 2 ^ 128 + 5 / 2 * (4 / 2 ^ 128) := add_le_add h1 h2
      _ = 11 / 2 ^ 128 := by ring
  have habM : |a * (S / 2 ^ 128) / M - ζ * T / M| ≤ 11 / 2 ^ 128 / 6 := by
    rw [← sub_div, abs_div, abs_of_pos (by linarith : (0 : ℝ) < M)]
    gcongr
  have hQ : (Q : ℝ) / 2 ^ 128 ≤ 1 := by
    have ha : a * (S / 2 ^ 128) / M ≤ 3 / 6 := by
      have : a * (S / 2 ^ 128) ≤ 3 := by
        have := (abs_le.mp hz).2
        calc a * (S / 2 ^ 128) ≤ 3 * 1 := by gcongr; linarith
          _ = 3 := by ring
      gcongr
    have := (abs_le.mp hdiv).2
    linarith
  have hQ' : Q ≤ 2 ^ 128 := by
    rw [div_le_one (by positivity)] at hQ
    exact_mod_cast hQ
  rw [Nat.cast_sub hQ', Nat.cast_pow, Nat.cast_ofNat, sub_div, div_self (by positivity)]
  rw [abs_le] at hdiv habM ⊢
  constructor <;> linarith [hdiv.1, hdiv.2, habM.1, habM.2]

theorem sinSeries_near {z : Nat} {ζ : ℝ} (h0 : 0 ≤ ζ) (h : ζ ≤ 5 / 2) (hz : |(z : ℝ) / 2 ^ 128 - ζ| ≤ 1 / 2 ^ 128) (fuel : Nat) {k : Nat}
    (hk : 1 ≤ k) : sinSeries z fuel k ≤ 2 ^ 128 ∧ |(sinSeries z fuel k : ℝ) / 2 ^ 128 - sinNest ζ fuel k| ≤ 4 / 2 ^ 128 := by
  induction fuel generalizing k with
  | zero => exact ⟨le_refl _, by norm_num [sinSeries, sinNest]⟩
  | succ fuel ih =>
    obtain ⟨hS, hnear⟩ := ih (k := k + 1) (by omega)
    exact ⟨Nat.sub_le _ _, sinFactor_near hk h0 h hz hS hnear⟩

/-- The fixed-point sine is near the sine of its argument. -/
theorem sinFixed_near {x : Nat} (hx : (x : ℝ) / 2 ^ 128 ≤ 79 / 50) : |(sinFixed x : ℝ) / 2 ^ 128 - Real.sin (x / 2 ^ 128)| ≤ 1 / 2 ^ 55 := by
  have hz := fixedDiv_near (x * x) (2 ^ 128)
  have hdiv := fixedDiv_near (x * sinSeries (x * x / 2 ^ 128) 20 1) (2 ^ 128)
  have hzy : ((x * x : Nat) : ℝ) / ((2 ^ 128 : Nat) : ℝ) / 2 ^ 128 = ((x : ℝ) / 2 ^ 128) ^ 2 := by push_cast; ring
  have hxy (S : Nat) : ((x * S : Nat) : ℝ) / ((2 ^ 128 : Nat) : ℝ) / 2 ^ 128 = (x : ℝ) / 2 ^ 128 * (S / 2 ^ 128) := by push_cast; ring
  rw [hzy] at hz
  rw [hxy] at hdiv
  have hy0 : 0 ≤ (x : ℝ) / 2 ^ 128 := by positivity
  have hseries := (sinSeries_near (by positivity) (by nlinarith) hz 20 (le_refl 1)).2
  have hsin := sinNest_near_sin hy0 hx
  unfold sinFixed
  generalize (x : ℝ) / 2 ^ 128 = y at *
  generalize sinSeries (x * x / 2 ^ 128) 20 1 = S at *
  have hmul : |y * (S / 2 ^ 128) - y * sinNest (y ^ 2) 20 1| ≤ 79 / 50 * (4 / 2 ^ 128) := by
    rw [← mul_sub, abs_mul, abs_of_nonneg hy0]
    gcongr
  rw [abs_le] at *
  constructor <;> linarith [hdiv.1, hdiv.2, hmul.1, hmul.2, hsin.1, hsin.2]

/-! ## Angles -/

theorem piFixed_near : |(piFixed : ℝ) / 2 ^ 128 - Real.pi| ≤ 1 / 2 ^ 60 := by
  have h1 := Real.pi_gt_d20
  have h2 := Real.pi_lt_d20
  have hlo : (3.14159265358979323846 : ℝ) ≤ (piFixed : ℝ) / 2 ^ 128 := by norm_num [piFixed]
  have hhi : (piFixed : ℝ) / 2 ^ 128 ≤ 3.14159265358979323847 := by norm_num [piFixed]
  rw [abs_le]
  constructor <;> linarith

/-- The fixed-point angle pi q, for a fixed-point number q near a real one in [0, 1/2]. -/
theorem angle_near {x : Nat} {q p : ℝ} (hx : |(x : ℝ) / 2 ^ 128 - piFixed / 2 ^ 128 * q| ≤ 1 / 2 ^ 128) (hp0 : 0 ≤ p) (hp : p ≤ 1 / 2) {δ : ℝ}
    (hδ : δ ≤ 1 / 2 ^ 50) (hq : |q - p| ≤ δ) :
    (x : ℝ) / 2 ^ 128 ≤ 79 / 50 ∧ |(x : ℝ) / 2 ^ 128 - Real.pi * p| ≤ 4 * δ + 1 / 2 ^ 59 := by
  have hpi := piFixed_near
  have hpi4 := Real.pi_lt_d2
  have hpi3 := Real.pi_gt_three
  generalize (piFixed : ℝ) / 2 ^ 128 = P at *
  have h1 : |P * (q - p)| ≤ 4 * δ := by
    rw [abs_mul]
    have hP : |P| ≤ 4 := by
      rw [abs_le] at hpi ⊢
      constructor <;> linarith [hpi.1, hpi.2]
    gcongr
  have h2 : |(P - Real.pi) * p| ≤ 1 / 2 ^ 60 := by
    rw [abs_mul, abs_of_nonneg hp0]
    exact (mul_le_of_le_one_right (abs_nonneg _) (by linarith)).trans hpi
  have hnear : |(x : ℝ) / 2 ^ 128 - Real.pi * p| ≤ 4 * δ + 1 / 2 ^ 59 := by
    rw [abs_le] at *
    constructor <;> linarith [h1.1, h1.2, h2.1, h2.2, hx.1, hx.2]
  refine ⟨?_, hnear⟩
  have hpp : Real.pi * p ≤ 3.15 * (1 / 2) := by gcongr
  have := (abs_le.mp hnear).2
  linarith

/-- The fixed-point sine of the fixed-point angle pi a / b, up to a right angle. -/
theorem sinAngle_near {a b : Nat} (hb : 0 < b) (hab : 2 * a ≤ b) :
    |(sinFixed (piFixed * a / b) : ℝ) / 2 ^ 128 - Real.sin (Real.pi * (a / b))| ≤ 1 / 2 ^ 54 := by
  have hbr : (0 : ℝ) < b := by exact_mod_cast hb
  have hq : (a : ℝ) / b ≤ 1 / 2 := by
    rw [div_le_div_iff₀ hbr (by norm_num)]
    have : (2 : ℝ) * a ≤ b := by exact_mod_cast hab
    linarith
  have hdiv := fixedDiv_near (piFixed * a) b
  rw [show ((piFixed * a : Nat) : ℝ) / b / 2 ^ 128 = piFixed / 2 ^ 128 * (a / b) by push_cast; ring] at hdiv
  obtain ⟨hle, hx⟩ := angle_near hdiv (by positivity) hq (δ := 0) (by positivity) (by simp)
  have hsin := sinFixed_near hle
  have hlip := (Real.abs_sin_sub_sin_le _ _).trans hx
  rw [abs_le] at *
  constructor <;> linarith [hsin.1, hsin.2, hlip.1, hlip.2]

/-- The fixed-point slope of R180, for the fixed-point sine v of its inner angle. -/
theorem sinSlope_near {v : Nat} {s : ℝ} (hs0 : 0 ≤ s) (hs1 : s ≤ 1) (hv : |(v : ℝ) / 2 ^ 128 - s| ≤ 1 / 2 ^ 54) :
    |(sinFixed (piFixed * (v * v / 2 ^ 128) / 2 ^ 128 / 2) : ℝ) / 2 ^ 128 - Real.sin (Real.pi / 2 * s ^ 2)| ≤ 1 / 2 ^ 48 := by
  have hw := fixedDiv_near (v * v) (2 ^ 128)
  rw [show ((v * v : Nat) : ℝ) / ((2 ^ 128 : Nat) : ℝ) / 2 ^ 128 = ((v : ℝ) / 2 ^ 128) ^ 2 by push_cast; ring] at hw
  generalize v * v / 2 ^ 128 = w at *
  generalize (v : ℝ) / 2 ^ 128 = a at *
  have hsq : |a ^ 2 - s ^ 2| ≤ 3 * (1 / 2 ^ 54) := by
    rw [sq_sub_sq, abs_mul, mul_comm, mul_comm (3 : ℝ)]
    have : |a + s| ≤ 3 := by
      rw [abs_le] at hv ⊢
      constructor <;> linarith [hv.1, hv.2]
    gcongr
  have hq : |(w : ℝ) / 2 ^ 128 / 2 - s ^ 2 / 2| ≤ 1 / 2 ^ 52 := by
    rw [abs_le] at *
    constructor <;> linarith [hw.1, hw.2, hsq.1, hsq.2]
  have hdiv := fixedDiv_near (piFixed * w) (2 ^ 128 * 2)
  rw [show ((piFixed * w : Nat) : ℝ) / ((2 ^ 128 * 2 : Nat) : ℝ) / 2 ^ 128 = piFixed / 2 ^ 128 * (w / 2 ^ 128 / 2) by push_cast; ring,
    ← Nat.div_div_eq_div_mul] at hdiv
  obtain ⟨hle, hx⟩ := angle_near hdiv (by positivity) (by nlinarith) (by norm_num) hq
  have hsin := sinFixed_near hle
  have hlip := (Real.abs_sin_sub_sin_le _ _).trans hx
  rw [show Real.pi / 2 * s ^ 2 = Real.pi * (s ^ 2 / 2) by ring]
  rw [abs_le] at *
  constructor <;> linarith [hsin.1, hsin.2, hlip.1, hlip.2]

end Sys2Proof.Machine
end

section
/-!
The ROMs (R46, R151-R153, R180): every entry is a finite value of magnitude at most 1 near its closed form, by default within 2^-24 (R13 rounds
the fixed-point value), in a replaced ROM within 2^-22 (log entry 3).
-/

namespace Sys2Proof.Machine

open Spec (value)

/-! ## Words of small magnitude -/

/-- The magnitude of a word is that of its magnitude bits. -/
theorem f32Units_mag (x : F32) : f32Units (BitVec.ofNat 32 (x.toNat % 2 ^ 31)) = f32Units x := by
  have h : (BitVec.ofNat 32 (x.toNat % 2 ^ 31)).toNat % 2 ^ 31 = x.toNat % 2 ^ 31 := toNat_mag (by omega)
  simp only [f32Units, f32Exp_eq, f32Frac_eq, h]

theorem f32Units_one : f32Units (BitVec.ofNat 32 0x3F800000) = 2 ^ 149 := by decide

theorem mag_le_one_iff (x : F32) : f32Units x ≤ 2 ^ 149 ↔ x.toNat % 2 ^ 31 ≤ 0x3F800000 := by
  rw [← f32Units_mag, ← f32Units_one]
  constructor
  · intro h
    by_contra hc
    exact absurd h (not_le.mpr (f32Units_lt_of_lt (by omega) (by omega)))
  · intro h
    rcases Nat.eq_or_lt_of_le h with he | hlt
    · rw [he]
    · exact (f32Units_lt_of_lt hlt (by decide)).le

theorem abs_value (x : F32) : |(value x : ℝ)| = f32Units x / 2 ^ 149 := by
  have h : (value x : ℝ) = (f32Int x : ℝ) / 2 ^ 149 := by
    unfold Spec.value
    push_cast
    rfl
  rw [h, abs_div, abs_of_pos (show (0 : ℝ) < 2 ^ 149 by positivity), ← Int.cast_abs, Int.abs_eq_natAbs, natAbs_f32Int, Int.cast_natCast]

theorem value_of_nonneg {x : F32} (h : f32Sign x = false) : (value x : ℝ) = f32Units x / 2 ^ 149 := by
  unfold Spec.value
  rw [f32Int_of_nonneg h]
  push_cast
  rfl

theorem value_of_neg {x : F32} (h : f32Sign x = true) : (value x : ℝ) = -(f32Units x / 2 ^ 149) := by
  unfold Spec.value
  rw [f32Int_of_neg h]
  push_cast
  ring

theorem mag_f32Neg (x : F32) : (f32Neg x).toNat % 2 ^ 31 = x.toNat % 2 ^ 31 := by
  rw [f32Neg, BitVec.toNat_xor, Nat.xor_mod_two_pow]
  simp

theorem sign_f32Neg (x : F32) : f32Sign (f32Neg x) = !f32Sign x := by
  have h : (0x80000000#32).msb = true := by decide
  simp [f32Sign, f32Neg, BitVec.msb_xor, h]

theorem value_f32Neg (x : F32) : (value (f32Neg x) : ℝ) = -value x := by
  have hu : f32Units (f32Neg x) = f32Units x := by rw [← f32Units_mag, mag_f32Neg, f32Units_mag]
  cases hs : f32Sign x with
  | true => rw [value_of_neg hs, value_of_nonneg (by rw [sign_f32Neg, hs]; rfl), hu, neg_neg]
  | false => rw [value_of_nonneg hs, value_of_neg (by rw [sign_f32Neg, hs]; rfl), hu]

/-! ## Entries near their closed forms -/

/-- A finite value of magnitude at most 1 within a bound of r. -/
def RomNear (bound : ℝ) (x : F32) (r : ℝ) : Prop :=
  f32IsFinite x = true ∧ |(value x : ℝ)| ≤ 1 ∧ |(value x : ℝ) - r| ≤ bound

theorem romNear_of_units {bound : ℝ} {x : F32} {r : ℝ} (h1 : f32Units x ≤ 2 ^ 149) (h : |(value x : ℝ) - r| ≤ bound) : RomNear bound x r := by
  refine ⟨(f32IsFinite_iff x).mpr (by have := (mag_le_one_iff x).mp h1; omega), ?_, h⟩
  rw [abs_value, div_le_one (by positivity)]
  exact_mod_cast h1

theorem RomNear.units {bound : ℝ} {x : F32} {r : ℝ} (h : RomNear bound x r) : f32Units x ≤ 2 ^ 149 := by
  have h1 := h.2.1
  rw [abs_value, div_le_one (by positivity)] at h1
  exact_mod_cast h1

theorem RomNear.mono {b b' : ℝ} {x : F32} {r : ℝ} (h : RomNear b x r) (hb : b ≤ b') : RomNear b' x r := ⟨h.1, h.2.1, h.2.2.trans hb⟩

theorem RomNear.neg {b : ℝ} {x : F32} {r : ℝ} (h : RomNear b x r) : RomNear b (f32Neg x) (-r) := by
  obtain ⟨hf, h1, hr⟩ := h
  refine ⟨?_, ?_, ?_⟩
  · rw [f32IsFinite_iff, mag_f32Neg, ← f32IsFinite_iff]
    exact hf
  · rw [value_f32Neg, abs_neg]
    exact h1
  · rw [value_f32Neg, ← abs_neg]
    convert hr using 2
    ring

/-! ## Rounding a fixed-point value -/

theorem lt_overflow_of_near_one {n d : Nat} (hn : n < (2 ^ 149 + 2 ^ 125) * d) : n < (2 ^ 25 - 1) * 2 ^ 252 * d :=
  hn.trans_le (Nat.mul_le_mul_right d (by norm_num))

/-- What lies less than half a step above 1 is rounded to at most 1. -/
theorem rneUnits_le_one {n d : Nat} (hd : 0 < d) (hn : n < (2 ^ 149 + 2 ^ 125) * d) : rneUnits n d ≤ 0x3F800000 := by
  have hmax := lt_overflow_of_near_one hn
  obtain ⟨_, _, hfin, _⟩ := rneUnits_scaled hd hmax
  by_contra hc
  have hstep : f32Units (BitVec.ofNat 32 0x3F800001) = 2 ^ 149 + 2 ^ 126 := by decide
  have hbig : 2 ^ 149 + 2 ^ 126 ≤ f32Units (BitVec.ofNat 32 (rneUnits n d)) := by
    rw [← hstep]
    rcases Nat.eq_or_lt_of_le (show 0x3F800001 ≤ rneUnits n d by omega) with he | hlt
    · rw [← he]
    · exact (f32Units_lt_of_lt hlt (by omega)).le
  have hnear := (rneUnits_nearest hd hmax (b := 0x3F800000) (by decide)).1
  have hmul := Nat.mul_le_mul_right d hbig
  rw [f32Units_one, ← Nat.cast_mul, ← Nat.cast_mul, Int.abs_eq_natAbs, Int.abs_eq_natAbs] at hnear
  omega

/-- Below 1 a value is rounded by at most 2^-25. -/
theorem rneUnits_near_of_lt_one {v : Nat} (hv : v < 2 ^ 128) :
    |(f32Units (BitVec.ofNat 32 (rneUnits (v * 2 ^ 149) (2 ^ 128))) / 2 ^ 149 : ℝ) - v / 2 ^ 128| ≤ 1 / 2 ^ 25 := by
  have hn : v * 2 ^ 149 < (2 ^ 149 + 2 ^ 125) * 2 ^ 128 := by omega
  obtain ⟨k, hlo, _, _, hu⟩ := rneUnits_scaled (by positivity) (lt_overflow_of_near_one hn)
  have hk : k ≤ 125 := by
    rcases hlo with rfl | hlo
    · omega
    · have hlt : 2 ^ (151 + k) < 2 ^ 277 := by
        calc 2 ^ (151 + k) = 2 ^ 23 * (2 ^ 128 * 2 ^ k) := by rw [pow_add]; ring
          _ ≤ v * 2 ^ 149 := hlo
          _ < 2 ^ 128 * 2 ^ 149 := Nat.mul_lt_mul_of_pos_right hv (by positivity)
          _ = 2 ^ 277 := by rw [← pow_add]
      have := (Nat.pow_lt_pow_iff_right (by decide)).mp hlt
      omega
  obtain ⟨h1, h2, _⟩ := rneDiv_spec (v * 2 ^ 149) (show 0 < 2 ^ 128 * 2 ^ k by positivity)
  rw [hu]
  generalize rneDiv (v * 2 ^ 149) (2 ^ 128 * 2 ^ k) = R at *
  have hD : ((2 : ℝ) ^ k) ≤ 2 ^ 125 := pow_le_pow_right₀ (by norm_num) hk
  have h1' : (2 : ℝ) * (v * 2 ^ 149) ≤ 2 * (R * (2 ^ 128 * 2 ^ k)) + 2 ^ 128 * 2 ^ k := by exact_mod_cast h1
  have h2' : (2 : ℝ) * (R * (2 ^ 128 * 2 ^ k)) ≤ 2 * (v * 2 ^ 149) + 2 ^ 128 * 2 ^ k := by exact_mod_cast h2
  push_cast
  generalize (2 : ℝ) ^ k = K at *
  rw [abs_le]
  constructor <;> linarith

/-- A fixed-point value near r in [0, 1] is rounded to an entry near r. -/
theorem f32OfFixed_near {v : Nat} {r : ℝ} (hr : r ≤ 1) (hv : |(v : ℝ) / 2 ^ 128 - r| ≤ 1 / 2 ^ 48) : RomNear (1 / 2 ^ 24) (f32OfFixed v) r := by
  have hvle : (v : ℝ) / 2 ^ 128 ≤ 1 + 1 / 2 ^ 48 := by linarith [(abs_le.mp hv).2]
  have hn : v * 2 ^ 149 < (2 ^ 149 + 2 ^ 125) * 2 ^ 128 := by
    have : (v : ℝ) * 2 ^ 149 < (2 ^ 149 + 2 ^ 125) * 2 ^ 128 := by
      rw [div_le_iff₀ (by positivity)] at hvle
      linarith
    exact_mod_cast this
  have hone : rneUnits (v * 2 ^ 149) (2 ^ 128) ≤ 0x3F800000 := rneUnits_le_one (by positivity) hn
  have hbits : f32OfFixed v = BitVec.ofNat 32 (rneUnits (v * 2 ^ 149) (2 ^ 128)) := by simp [f32OfFixed, f32Round, f32Pack]
  have hsign : f32Sign (f32OfFixed v) = false := by
    rw [hbits, f32Sign, BitVec.msb_eq_decide, BitVec.toNat_ofNat, decide_eq_false_iff_not]
    omega
  have hunits : f32Units (f32OfFixed v) ≤ 2 ^ 149 := by
    rw [mag_le_one_iff, hbits, toNat_mag (by omega)]
    exact hone
  refine romNear_of_units hunits ?_
  rw [value_of_nonneg hsign]
  rcases Nat.lt_or_ge v (2 ^ 128) with hlt | hge
  · have hround := rneUnits_near_of_lt_one hlt
    rw [← hbits] at hround
    rw [abs_le] at *
    constructor <;> linarith [hround.1, hround.2, hv.1, hv.2]
  · have hnear := (rneUnits_nearest (by positivity) (lt_overflow_of_near_one hn) (b := 0x3F800000) (by decide)).1
    have heq : f32Units (f32OfFixed v) = 2 ^ 149 := by
      rw [← hbits, f32Units_one, ← Nat.cast_mul, ← Nat.cast_mul, Int.abs_eq_natAbs, Int.abs_eq_natAbs] at hnear
      have := Nat.mul_le_mul_right (2 ^ 128) hunits
      have := Nat.mul_le_mul_right (2 ^ 149) hge
      omega
    rw [heq]
    have hv1 : 1 ≤ (v : ℝ) / 2 ^ 128 := by
      rw [le_div_iff₀ (by positivity), one_mul]
      exact_mod_cast hge
    rw [abs_le] at *
    push_cast
    constructor <;> linarith [hv.1, hv.2]

/-! ## The default tables -/

theorem sinQuarter_near {j : Nat} (hj : j ≤ 8192) : RomNear (1 / 2 ^ 24) (sinQuarter j) (Real.sin (Real.pi * (j / 16384))) :=
  f32OfFixed_near (Real.sin_le_one _) ((sinAngle_near (a := j) (b := 16384) (by decide) (by omega)).trans (by norm_num))

theorem romSin_near {j : Nat} (hj : j < 16384) : RomNear (1 / 2 ^ 24) (romSin j) (Real.sin (Real.pi * (j / 16384))) := by
  unfold romSin
  split
  · exact sinQuarter_near ‹_›
  · have h := sinQuarter_near (show 16384 - j ≤ 8192 by omega)
    rw [Nat.cast_sub hj.le] at h
    convert h using 1
    rw [← Real.sin_pi_sub]
    congr 1
    push_cast
    ring

theorem romCos_near {j : Nat} (hj : j < 16384) : RomNear (1 / 2 ^ 24) (romCos j) (Real.cos (Real.pi * (j / 16384))) := by
  unfold romCos
  split
  · rename_i hle
    have h := sinQuarter_near (show 8192 - j ≤ 8192 by omega)
    rw [Nat.cast_sub hle] at h
    convert h using 1
    rw [← Real.sin_pi_div_two_sub]
    congr 1
    push_cast
    ring
  · have h := (sinQuarter_near (show j - 8192 ≤ 8192 by omega)).neg
    rw [Nat.cast_sub (by omega)] at h
    convert h using 1
    rw [← Real.cos_add_pi_div_two]
    congr 1
    push_cast
    ring

/-- The block sizes divide the finest angle of the tables. -/
theorem exists_mul_two_pow {m : Nat} (hm : m ≤ 13) : ∃ p, 2 ^ m * p = 8192 ∧ 8192 / 2 ^ m = p ∧ 16384 / 2 ^ m = 2 * p := by
  obtain ⟨i, hi⟩ := Nat.exists_eq_add_of_le hm
  have h8 : 2 ^ m * 2 ^ i = 8192 := by rw [← pow_add, ← hi]; norm_num
  have hpos : 0 < 2 ^ m := by positivity
  refine ⟨2 ^ i, h8, ?_, ?_⟩
  · rw [← h8, Nat.mul_div_cancel_left _ hpos]
  · rw [show 16384 = 2 ^ m * (2 * 2 ^ i) by rw [Nat.mul_left_comm, h8], Nat.mul_div_cancel_left _ hpos]

/-- The angle c p / 16384 of pi in terms of the block size. -/
theorem angle_eq {m p : Nat} (h : 2 ^ m * p = 8192) (c : ℝ) : Real.pi * (c * p / 16384) = c * Real.pi / (2 * 2 ^ m) := by
  have hr : (2 : ℝ) ^ m * p = 8192 := by exact_mod_cast h
  rw [show (16384 : ℝ) = 2 * (2 ^ m * p) by rw [hr]; norm_num]
  have hp : (p : ℝ) ≠ 0 := fun h0 => by rw [h0] at hr; norm_num at hr
  field_simp

theorem scaled_lt {m p c : Nat} (h : 2 ^ m * p = 8192) (hc : c < 2 * 2 ^ m) : c * p < 16384 := by
  have hp : 0 < p := Nat.pos_of_ne_zero fun h0 => by simp [h0] at h
  calc c * p < 2 * 2 ^ m * p := Nat.mul_lt_mul_of_pos_right hc hp
    _ = 2 * (2 ^ m * p) := mul_assoc _ _ _
    _ = 16384 := by omega

/-- A cosine entry at c p / 16384 of pi, as an angle of the block size. -/
theorem romCos_scaled {m p c : Nat} (h : 2 ^ m * p = 8192) (hc : c < 2 * 2 ^ m) :
    RomNear (1 / 2 ^ 24) (romCos (c * p)) (Real.cos (c * Real.pi / (2 * 2 ^ m))) := by
  rw [← angle_eq h c, ← Nat.cast_mul]
  exact romCos_near (scaled_lt h hc)

theorem romSin_scaled {m p c : Nat} (h : 2 ^ m * p = 8192) (hc : c < 2 * 2 ^ m) :
    RomNear (1 / 2 ^ 24) (romSin (c * p)) (Real.sin (c * Real.pi / (2 * 2 ^ m))) := by
  rw [← angle_eq h c, ← Nat.cast_mul]
  exact romSin_near (scaled_lt h hc)

theorem two_mul_div_two (k : Nat) : 2 * k / 2 = k ∧ 2 * k % 2 = 0 ∧ (2 * k + 1) / 2 = k ∧ (2 * k + 1) % 2 = 1 := by omega

theorem twANearest_near {m k : Nat} (hm : m ≤ 13) (hk : k < 2 ^ m / 4) :
    RomNear (1 / 2 ^ 24) (twANearest (2 ^ m) (2 * k)) (Real.cos (4 * k * Real.pi / 2 ^ m)) ∧
    RomNear (1 / 2 ^ 24) (twANearest (2 ^ m) (2 * k + 1)) (-Real.sin (4 * k * Real.pi / 2 ^ m)) := by
  obtain ⟨p, hp, _, h16⟩ := exists_mul_two_pow hm
  obtain ⟨h1, h2, h3, h4⟩ := two_mul_div_two k
  have hc : 8 * k < 2 * 2 ^ m := by omega
  have hangle : ((8 * k : Nat) : ℝ) * Real.pi / (2 * 2 ^ m) = 4 * k * Real.pi / 2 ^ m := by push_cast; field_simp; ring
  have hj : 4 * k * (2 * p) = 8 * k * p := by ring
  simp only [twANearest, h1, h2, h3, h4, h16, hj, if_true, one_ne_zero, if_false, ← hangle]
  exact ⟨romCos_scaled hp hc, (romSin_scaled hp hc).neg⟩

theorem twBNearest_near {m k : Nat} (hm : m ≤ 13) (hk : k < 2 ^ m / 4) :
    RomNear (1 / 2 ^ 24) (twBNearest (2 ^ m) (2 * k)) (Real.cos ((2 * k + 1) * Real.pi / (2 * 2 ^ m))) ∧
    RomNear (1 / 2 ^ 24) (twBNearest (2 ^ m) (2 * k + 1)) (Real.sin ((2 * k + 1) * Real.pi / (2 * 2 ^ m))) := by
  obtain ⟨p, hp, h8, _⟩ := exists_mul_two_pow hm
  obtain ⟨h1, h2, h3, h4⟩ := two_mul_div_two k
  have hc : 2 * k + 1 < 2 * 2 ^ m := by omega
  have hangle : ((2 * k + 1 : Nat) : ℝ) = 2 * k + 1 := by push_cast; rfl
  simp only [twBNearest, h1, h2, h3, h4, h8, if_true, one_ne_zero, if_false, ← hangle]
  exact ⟨romCos_scaled hp hc, romSin_scaled hp hc⟩

theorem twCNearest_near {m k : Nat} (hm : m ≤ 13) (hk : k < 2 ^ m / 8) :
    RomNear (1 / 2 ^ 24) (twCNearest (2 ^ m) (2 * k)) (Real.cos (2 * (2 * k + 1) * Real.pi / 2 ^ m)) ∧
    RomNear (1 / 2 ^ 24) (twCNearest (2 ^ m) (2 * k + 1)) (-Real.sin (2 * (2 * k + 1) * Real.pi / 2 ^ m)) := by
  obtain ⟨p, hp, _, h16⟩ := exists_mul_two_pow hm
  obtain ⟨h1, h2, h3, h4⟩ := two_mul_div_two k
  have hc : 4 * (2 * k + 1) < 2 * 2 ^ m := by omega
  have hangle : ((4 * (2 * k + 1) : Nat) : ℝ) * Real.pi / (2 * 2 ^ m) = 2 * (2 * k + 1) * Real.pi / 2 ^ m := by push_cast; field_simp; ring
  have hj : 2 * (2 * k + 1) * (2 * p) = 4 * (2 * k + 1) * p := by ring
  simp only [twCNearest, h1, h2, h3, h4, h16, hj, if_true, one_ne_zero, if_false, ← hangle]
  exact ⟨romCos_scaled hp hc, (romSin_scaled hp hc).neg⟩

theorem romWNearest_near {L j : Nat} (hj : j < L / 2) :
    RomNear (1 / 2 ^ 24) (romWNearest L j) (Real.sin (Real.pi / 2 * Real.sin (Real.pi * (j + 1 / 2) / L) ^ 2)) := by
  have hL : (0 : ℝ) < L := by exact_mod_cast (by omega : 0 < L)
  have hinner := sinAngle_near (a := 2 * j + 1) (b := 2 * L) (by omega) (by omega)
  rw [show Real.pi * (((2 * j + 1 : Nat) : ℝ) / ((2 * L : Nat) : ℝ)) = Real.pi * (j + 1 / 2) / L by push_cast; field_simp] at hinner
  have hs0 : 0 ≤ Real.sin (Real.pi * (j + 1 / 2) / L) := by
    refine Real.sin_nonneg_of_nonneg_of_le_pi (by positivity) ?_
    rw [div_le_iff₀ hL]
    have : ((j : ℝ) + 1 / 2) ≤ L := by
      have : ((2 * j + 1 : Nat) : ℝ) ≤ L := by exact_mod_cast (by omega : 2 * j + 1 ≤ L)
      push_cast at this
      linarith [Nat.cast_nonneg (α := ℝ) j]
    gcongr
  exact f32OfFixed_near (Real.sin_le_one _) (sinSlope_near hs0 (Real.sin_le_one _) hinner)

/-! ## Replaced tables -/

/-- Up to 1 the next larger magnitude is at most 2^-24 away. -/
theorem f32Units_succ_le {b : Nat} (hb : b < 0x3F800000) :
    f32Units (BitVec.ofNat 32 b) ≤ f32Units (BitVec.ofNat 32 (b + 1)) ∧ f32Units (BitVec.ofNat 32 (b + 1)) ≤ f32Units (BitVec.ofNat 32 b) + 2 ^ 125 := by
  obtain ⟨k, r, hs, hr, he⟩ := exists_scaled b
  have hs' : Scaled k (r + 1) := ⟨hr, hs.2.imp_right fun h => by omega⟩
  have hk : k ≤ 125 := by
    have := hs.2
    omega
  rw [f32Units_ofNat hs (by omega) he, f32Units_ofNat hs' (by omega) (by omega), Nat.add_mul, one_mul]
  exact ⟨Nat.le_add_right _ _, Nat.add_le_add_left (Nat.pow_le_pow_right (by decide) hk) _⟩

/-- Neighbouring words of magnitude at most 1 are neighbouring values. -/
theorem value_succ_near {a b : F32} (hab : a + 1#32 = b) (ha : f32Units a ≤ 2 ^ 149) (hb : f32Units b ≤ 2 ^ 149) :
    |(value b : ℝ) - value a| ≤ 1 / 2 ^ 24 := by
  rw [mag_le_one_iff] at ha hb
  have hnat : b.toNat = a.toNat + 1 := by
    have := a.isLt
    rw [← hab, BitVec.toNat_add, BitVec.toNat_ofNat]
    omega
  have hmag : b.toNat % 2 ^ 31 = a.toNat % 2 ^ 31 + 1 := by omega
  have hsign : f32Sign b = f32Sign a := by
    simp only [f32Sign, BitVec.msb_eq_decide, decide_eq_decide]
    omega
  obtain ⟨hle, hstep⟩ := f32Units_succ_le (show a.toNat % 2 ^ 31 < 0x3F800000 by omega)
  rw [← hmag, f32Units_mag, f32Units_mag] at hle hstep
  have hle' : (f32Units a : ℝ) ≤ f32Units b := by exact_mod_cast hle
  have hstep' : (f32Units b : ℝ) ≤ f32Units a + 2 ^ 125 := by exact_mod_cast hstep
  cases hs : f32Sign a with
  | false =>
    rw [value_of_nonneg hs, value_of_nonneg (hsign.trans hs), abs_le]
    constructor <;> linarith
  | true =>
    rw [value_of_neg hs, value_of_neg (hsign.trans hs), abs_le]
    constructor <;> linarith

/-- What a replaced ROM may hold for a default entry near r is near r (log entry 3). -/
theorem RomNear.admitted {d x : F32} {r : ℝ} (hd : RomNear (1 / 2 ^ 24) d r) (h : romAdmits d x = true) : RomNear (1 / 2 ^ 22) x r := by
  have hd1 := hd.units
  obtain ⟨_, _, hdr⟩ := hd
  unfold romAdmits at h
  split at h
  · rename_i h0
    have hx : f32Units x ≤ 2 ^ 96 := by simpa using h
    refine romNear_of_units (hx.trans (by norm_num)) ?_
    have hd0 : |(value d : ℝ)| = 0 := by rw [abs_value, h0]; simp
    have hxv : |(value x : ℝ)| ≤ 1 / 2 ^ 53 := by
      have : (f32Units x : ℝ) ≤ 2 ^ 96 := by exact_mod_cast hx
      rw [abs_value]
      linarith
    rw [abs_eq_zero.mp hd0] at hdr
    rw [abs_le] at *
    constructor <;> linarith [hdr.1, hdr.2, hxv.1, hxv.2]
  · simp only [Bool.and_eq_true, decide_eq_true_eq, Bool.or_eq_true, beq_iff_eq] at h
    obtain ⟨hx, hnext⟩ := h
    refine romNear_of_units hx ?_
    have hxd : |(value x : ℝ) - value d| ≤ 1 / 2 ^ 24 := by
      rcases hnext with (rfl | hx') | hx'
      · simp
      · exact value_succ_near hx'.symm hd1 hx
      · rw [abs_sub_comm]
        exact value_succ_near hx' hx hd1
    rw [abs_le] at *
    constructor <;> linarith [hdr.1, hdr.2, hxd.1, hxd.2]

/-- The bound of a core's ROM (log entry 3). -/
noncomputable def romBound (rom : TrigRom) : ℝ := if rom = .nearest then 1 / 2 ^ 24 else 1 / 2 ^ 22

theorem le_romBound (rom : TrigRom) : 1 / 2 ^ 24 ≤ romBound rom := by
  unfold romBound
  split <;> norm_num

theorem RomNear.romEntry {d : F32} {r : ℝ} (hd : RomNear (1 / 2 ^ 24) d r) (rom : TrigRom) (table : RomTable) (N i : Nat) :
    RomNear (romBound rom) (romEntry rom table N i d) r := by
  rcases romEntry_cases rom table N i d with he | ⟨rfl, he, ha⟩
  · rw [he]
    exact hd.mono (le_romBound rom)
  · rw [he]
    exact hd.admitted ha

theorem RomNear.twA {rom : TrigRom} {N i : Nat} {r : ℝ} (h : RomNear (1 / 2 ^ 24) (twANearest N i) r) :
    RomNear (romBound rom) (twA rom N i) r := by
  unfold Machine.twA
  split
  · exact h.mono (le_romBound rom)
  · exact h.romEntry rom .twA N i

/-- TW_A(N, 0) and TW_A(N, 1) are exact in every ROM (R151). -/
theorem twA_zero (rom : TrigRom) (N : Nat) : twA rom N 0 = 0x3F800000#32 := by
  have h : romCos 0 = 0x3F800000#32 := by decide +kernel
  simpa [twA, twANearest] using h

theorem twA_one (rom : TrigRom) (N : Nat) : twA rom N 1 = 0x80000000#32 := by
  have h : f32Neg (romSin 0) = 0x80000000#32 := by decide +kernel
  simpa [twA, twANearest] using h

end Sys2Proof.Machine

namespace Sys2Proof.Proofs

open Sys2Proof.Machine

/-- Settles O45: the default entries are their closed forms in fixed point, rounded; a replaced entry is one of their neighbours. -/
theorem romAccuracy : Obligations.RomAccuracy := by
  intro rom
  refine ⟨fun m k _ hm => ⟨twA_zero rom _, twA_one rom _, fun hk => ?_, fun hk => ?_⟩, fun m j _ _ hj => ?_⟩
  · obtain ⟨hA, hA'⟩ := twANearest_near hm hk
    obtain ⟨hB, hB'⟩ := twBNearest_near hm hk
    exact ⟨hA.twA, hA'.twA, hB.romEntry rom .twB _ _, hB'.romEntry rom .twB _ _⟩
  · obtain ⟨hC, hC'⟩ := twCNearest_near hm hk
    exact ⟨hC.romEntry rom .twC _ _, hC'.romEntry rom .twC _ _⟩
  · have hW := (romWNearest_near hj).romEntry rom .window (2 ^ m) j
    push_cast at hW
    exact hW

end Sys2Proof.Proofs
end

section
/-!
What the host alone writes (R29-R31, R39, R40, R43-R45): its registers, its fields of the codebook slots, and the RAM regions PKT, COEF, CB_LEN
and CB_MULT. No command changes it: a command writes RAM only within the other regions, and gives a codebook slot a new code, never a new
descriptor.
-/

namespace Sys2Proof.Machine

/-- The sizes that the statements give the regions are the model's (R65). -/
theorem size_eq_bytes (P : Params) (r : Region) : Spec.size P r = r.bytes P := by
  cases r <;> rfl

/-- A codebook slot with nothing but its descriptor (R39, R40). -/
def Codebook.descriptor (K : Codebook) : Codebook := { K with built := false, code := [], lookupValues := 0, vq := [] }

@[simp] theorem descriptor_unbuild (K : Codebook) : K.unbuild.descriptor = K.descriptor := rfl

theorem descriptor_eq_iff {K K' : Codebook} : K'.descriptor = K.descriptor ↔
    K'.entries = K.entries ∧ K'.dims = K.dims ∧ K'.lookupType = K.lookupType ∧ K'.seqFlag = K.seqFlag ∧ K'.minimum = K.minimum ∧
      K'.delta = K.delta ∧ K'.nmult = K.nmult := by
  simp [Codebook.descriptor]

/-- The registers that every command leaves to the host: PKT_BASE, PKT_LEN, SAMPLE_COUNT, PACKET_COUNT and CB_SEL. -/
def State.hostRegs (s : State) : Word × Word × Word × Word × BitVec 8 := (s.pktBase, s.pktLen, s.sampleCount, s.packetCount, s.cbSel)

/-- The host's data in `t` is what it is in `s`. -/
structure HostDataKept (s t : State) : Prop where
  regs : t.hostRegs = s.hostRegs
  books : ∀ c, c < 256 → (t.book c).descriptor = (s.book c).descriptor
  ram : ∀ r : Region, r.hostWrites = true → ∀ c off, off < 2 ^ 20 → t.mem.read (regionKey r c off) = s.mem.read (regionKey r c off)

namespace HostDataKept

theorem trans {s t u : State} (h : HostDataKept s t) (h' : HostDataKept t u) : HostDataKept s u where
  regs := h'.regs.trans h.regs
  books c hc := (h'.books c hc).trans (h.books c hc)
  ram r hr c off ho := (h'.ram r hr c off ho).trans (h.ram r hr c off ho)

/-- An update of the core's own registers and flags. -/
theorem of_eq {s t : State} (hr : t.hostRegs = s.hostRegs) (hb : t.books = s.books) (hm : t.mem = s.mem) : HostDataKept s t where
  regs := hr
  books c _ := by rw [book_congr hb]
  ram r _ c off _ := by rw [hm]

/-! ## The shared updates -/

theorem takeException (w : Word) (e : Exc) (s : State) : HostDataKept s (takeException w e s) := by
  cases e <;> exact .of_eq rfl rfl rfl

theorem raise {e : Exc} {s t : State} (h : raise e s = .next t) : HostDataKept s t := raise_next.mp h ▸ .takeException _ _ _

theorem setBook {s : State} {c : Nat} {K : Codebook} (hK : K.descriptor = (s.book c).descriptor) : HostDataKept s (s.setBook c K) where
  regs := rfl
  books c' hc := by
    by_cases e : c = c'
    · subst e
      rw [book_setBook_same _ _ _ hc, hK]
    · rw [book_setBook_ne _ _ _ _ e]
  ram _ _ _ _ _ := rfl

/-- Bytes written within a region that the host does not write miss the host's regions. -/
theorem writeBytes (s : State) {r : Region} (hr : r.hostWrites = false) {i : Nat} {bs : List Byte} (hi : i + bs.length ≤ 2 ^ 20) :
    HostDataKept s (s.writeBytes r i bs) where
  regs := rfl
  books _ _ := rfl
  ram r' hr' _ _ ho := read_writeBytes_of_ne (.inl fun e => by simp [e, hr'] at hr) hi ho

theorem writeWords (s : State) {r : Region} (hr : r.hostWrites = false) {ws : List Word} (hw : 4 * ws.length ≤ 2 ^ 20) :
    HostDataKept s (s.writeWords r 0 0 ws) :=
  writeBytes s hr (i := 4 * 0) (bs := ws.flatMap bytesOfWord) (by rw [length_flatMap_bytesOfWord]; omega)

theorem forgetRegion (s : State) (hP : s.params.Legal) (r : Region) (hr : r.hostWrites = false) : HostDataKept s (s.forgetRegion r) where
  regs := rfl
  books _ _ := rfl
  ram r' hr' c off ho := by
    rw [forgetRegion_mem, Memory.read_forget, if_neg]
    rintro ⟨hlo, hhi⟩
    obtain ⟨j, hj⟩ := Nat.exists_eq_add_of_le hlo
    have hb := Region.bytes_le hP r
    have hk : regionKey r' c off = regionKey r 0 j := by simpa [regionKey] using hj
    have hlt : j < 2 ^ 20 := by omega
    obtain ⟨rfl, -⟩ := regionKey_inj ho hlt hk
    simp [hr'] at hr

theorem completeDecode (s : State) : HostDataKept s (completeDecode s) := .of_eq rfl rfl rfl

theorem cancelDecode {s : State} (hP : s.params.Legal) : HostDataKept s (cancelDecode s) := by
  refine HostDataKept.trans ?_ (HostDataKept.trans (.forgetRegion _ ?_ .pcm rfl) (.forgetRegion _ ?_ .prev rfl))
  · exact .of_eq rfl rfl rfl
  · exact hP
  · exact hP

theorem packetDone (n : Nat) {s : State} (hP : s.params.Legal) : HostDataKept s (packetDone n s) := by
  have hc : HostDataKept s (countPacket n s) := .of_eq rfl rfl rfl
  rcases packetDone_cases n s with ⟨_, e⟩ | ⟨_, _, _, e⟩ | ⟨_, _, e⟩ <;> rw [e]
  · exact hc.trans (.completeDecode _)
  · exact hc.trans (.cancelDecode hP)
  · exact hc

theorem consumeTo (p : Nat) (s : State) : HostDataKept s (consumeTo p s) := .of_eq rfl rfl rfl

theorem decodeEnd {K : Codebook} {s t : State} (h : DecodeEnd K s t) : HostDataKept s t := by
  rcases h with rfl | ⟨_, _, f, rfl⟩ | ⟨_, _, f, p, _, rfl⟩
  · exact .takeException _ _ _
  · exact .takeException _ _ _
  · exact (consumeTo p s).trans (.takeException _ _ _)

theorem startDecode (ben : Bool) {s : State} (hs : s.sampleCount.toNat ≤ 2 ^ 20) : HostDataKept s (startDecode ben s) := by
  have hpcm : HostDataKept s (s.writeBytes .pcm 0 (List.replicate s.sampleCount.toNat 0)) :=
    .writeBytes s rfl (by rw [List.length_replicate]; omega)
  have hprev := HostDataKept.writeWords (s.writeBytes .pcm 0 (List.replicate s.sampleCount.toNat 0)) (r := .prev) rfl
    (ws := List.replicate Config.prevWords f32Zero) (by rw [List.length_replicate]; decide)
  exact (hpcm.trans hprev).trans (.of_eq rfl rfl rfl)

/-! ## The commands -/

theorem execConfig {s t : State} {e0 e1 cbm1 : Nat} (h : execConfig e0 e1 cbm1 s = .next t) : HostDataKept s t := by
  rcases execConfig_next h with ⟨e, rfl, _⟩ | ⟨_, rfl⟩ | ⟨_, _, _, _, rfl⟩
  · exact .takeException _ _ _
  · exact .takeException _ _ _
  · have hbook (c : Nat) (hc : c < 256) : (configure e0 e1 cbm1 s).book c = (s.book c).unbuild := book_mapBooks s Codebook.unbuild c hc
    exact ⟨rfl, fun c hc => by rw [hbook c hc, descriptor_unbuild], fun _ _ _ _ _ => rfl⟩

theorem buildLookup {c : Nat} {K : Codebook} {s t : State} (hK : K.descriptor = (s.book c).descriptor) (h : buildLookup c K s = .next t) :
    HostDataKept s t := by
  rcases buildLookup_next h with ⟨f, rfl⟩ | ⟨_, _, _, _, _, lv, mults, _, _, _, rfl⟩
  · exact .takeException _ _ _
  · exact .setBook hK

/-- CB_BUILD gives its slot codewords and vectors, and keeps the descriptor that it builds from. -/
theorem buildBook {c : Nat} {K : Codebook} {s t : State} (hc : c < 256) (hK : K.descriptor = (s.book c).descriptor)
    (h : buildBook c K s = .next t) : HostDataKept s t := by
  have hcode (codes : List (Option Codeword)) : HostDataKept s (s.setBook c { K with code := codes }) := .setBook hK
  unfold Machine.buildBook at h
  simp only at h
  split at h
  · exact .raise h
  · split at h
    · cases h
    · exact .raise h
    · split at h
      · exact (hcode _).trans (.raise h)
      · split at h
        · exact (hcode _).trans (.raise h)
        · split at h
          · exact Host.Outcome.next.inj h ▸ .setBook hK
          · exact (hcode _).trans (.buildLookup (by rw [book_setBook_same _ _ _ hc]) h)

theorem execCbBuild {s t : State} {cb : Nat} (h : execCbBuild cb s = .next t) : HostDataKept s t := by
  rcases whenSetup_next.mp h with ⟨_, rfl⟩ | ⟨_, rfl⟩ | ⟨_, h⟩
  · exact .takeException _ _ _
  · exact .takeException _ _ _
  · rcases whenLegal_next.mp h with ⟨_, rfl⟩ | ⟨_, h⟩
    · exact .takeException _ _ _
    · split at h
      · exact .raise h
      · have hc : cb < 256 := by have := cbCount_le s; omega
        exact (HostDataKept.setBook (descriptor_unbuild _)).trans (.buildBook hc (by rw [book_setBook_same _ _ _ hc]) h)

theorem execSeal {s t : State} (h : execSeal s = .next t) : HostDataKept s t := by
  rcases execSeal_next h with ⟨e, rfl, _⟩ | ⟨_, _, rfl⟩
  · exact .takeException _ _ _
  · exact .of_eq rfl rfl rfl

theorem execFail {s t : State} {cls : Nat} (h : execFail cls s = .next t) : HostDataKept s t := by
  rcases execFail_next h with ⟨_, rfl⟩ | ⟨_, _, rfl⟩ | ⟨_, _, rfl⟩ <;> exact .takeException _ _ _

theorem execDecBegin {s t : State} {ben : Bool} (hP : s.params.Legal) (h : execDecBegin ben s = .next t) : HostDataKept s t := by
  rcases execDecBegin_next h with ⟨c, rfl⟩ | ⟨_, hs, ht⟩
  · exact .takeException _ _ _
  · have hstart : HostDataKept s (Machine.startDecode ben s) := .startDecode ben (hs.trans (Region.bytes_le hP .pcm))
    rcases ht with ⟨_, rfl⟩ | ⟨_, _, _, rfl⟩ | ⟨_, _, rfl⟩
    · exact hstart.trans (.completeDecode _)
    · exact hstart.trans (.cancelDecode hP)
    · exact hstart

theorem execBind {s t : State} (h : execBind s = .next t) : HostDataKept s t := by
  rcases execBind_next h with ⟨c, rfl⟩ | ⟨_, _, rfl⟩
  · exact .takeException _ _ _
  · exact .of_eq rfl rfl rfl

theorem execRdbits {s t : State} {n : Nat} (h : execRdbits n s = .next t) : HostDataKept s t := by
  rcases execRdbits_next h with ⟨c, rfl⟩ | ⟨_, _, rfl⟩ | ⟨_, _, _, _, r, _, rfl⟩
  · exact .takeException _ _ _
  · exact .takeException _ _ _
  · exact .of_eq rfl rfl rfl

theorem execHdec {s t : State} {cb : Nat} (h : execHdec cb s = .next t) : HostDataKept s t := by
  rcases execHdec_next h with hend | ⟨_, _, _, e, p, _, rfl⟩
  · exact .decodeEnd hend
  · exact .of_eq rfl rfl rfl

/-- The vector of a built codebook has at most CB_MAX_DIM elements, so it lies in VOUT (R7, R121, R130). -/
theorem execVdec {s t : State} {cb : Nat} (hI : Inv s) (h : execVdec cb s = .next t) : HostDataKept s t := by
  rcases execVdec_next h with hend | ⟨_, _, hready, hlookup, e, p, v, _, hv, rfl⟩
  · exact .decodeEnd hend
  · obtain ⟨hcb, hbuilt⟩ := bookReady_iff.mp hready
    have hdim := ((hI.books cb (by have := cbCount_le s; omega) hbuilt).dims hlookup).2
    have hbytes := Region.bytes_le hI.params .vout
    obtain ⟨w, _, _, _, rfl⟩ := vqEntry_eq_some hv
    have hlen : 4 * (w.take (s.book cb).dims.toNat).length ≤ 2 ^ 20 := by
      simp only [List.length_take, Region.bytes] at *
      omega
    exact ((consumeTo p s).trans (.writeWords _ rfl hlen)).trans (.of_eq rfl rfl rfl)

theorem blockSize_le (s : State) (long : Bool) : s.blockSize long ≤ 2 ^ 15 := by
  have h0 : s.b0 ≤ 2 ^ 15 := Nat.pow_le_pow_right (by decide) (Nat.le_of_lt_succ s.cfgE0.isLt)
  have h1 : s.b1 ≤ 2 ^ 15 := Nat.pow_le_pow_right (by decide) (Nat.le_of_lt_succ s.cfgE1.isLt)
  cases long
  · exact h0
  · exact h1

theorem execImdct {s t : State} {l p x z : Bool} (h : execImdct l p x z s = .next t) : HostDataKept s t := by
  rcases execImdct_next h with rfl | ⟨_, _, ws, hws, rfl⟩
  · exact .takeException _ _ _
  · have hle := blockSize_le s l
    have hset : HostDataKept s { setGeometry (s.blockSize l) l p x z s with seq := .imdctDone } := .of_eq rfl rfl rfl
    exact hset.trans (.writeWords _ rfl (by omega))

/-- The words of the current block fit WORK and PREV. -/
theorem currentBlock_le {s : State} {work : List F32} (h : currentBlock s = some work) : 4 * work.length ≤ 2 ^ 20 := by
  have hlen : work.length = s.blkN.toNat := by rw [length_allSome h, length_readWords]
  have := s.blkN.isLt
  omega

theorem execWindow {s t : State} (h : execWindow s = .next t) : HostDataKept s t := by
  rcases execWindow_next h with rfl | ⟨_, _, work, hwork, rfl⟩
  · exact .takeException _ _ _
  · have hle := currentBlock_le hwork
    exact (HostDataKept.writeWords s (r := .work) rfl (by rwa [length_windowBlock])).trans (.of_eq rfl rfl rfl)

/-- The samples of a packet lie below SAMPLE_COUNT, and so in PCM (R7, R186, R214). -/
theorem execOverlap {s t : State} (hI : Inv s) (h : execOverlap s = .next t) : HostDataKept s t := by
  rcases execOverlap_next h with rfl | ⟨hd, _, work, prev, hwork, _, rfl⟩
  · exact .takeException _ _ _
  · obtain ⟨hcursor, hcount⟩ := hI.cursor hd
    have hbytes := Region.bytes_le hI.params .pcm
    have hle := currentBlock_le hwork
    generalize hbs : emittedBytes [s.draws] s prev.toArray work.toArray = bs
    have hlen : s.pcmCursor.toNat + bs.length ≤ 2 ^ 20 := by
      rw [← hbs, length_emittedBytes]
      simp only [emittedCount, Region.bytes] at *
      omega
    have hemit : HostDataKept s (emitSamples bs s) := (HostDataKept.writeBytes s rfl hlen).trans (.of_eq rfl rfl rfl)
    have hsave : HostDataKept (emitSamples bs s) (savePrev work (emitSamples bs s)) :=
      (HostDataKept.writeWords (emitSamples bs s) (r := .prev) rfl (by
        simp only [List.length_take, List.length_drop]
        omega)).trans (.of_eq rfl rfl rfl)
    exact (hemit.trans hsave).trans (.packetDone _ hI.params)

theorem exec {s t : State} {i : Instr} (hI : Inv s) (h : exec i s = .next t) : HostDataKept s t := by
  cases i with
  | nop => exact Host.Outcome.next.inj h ▸ .of_eq rfl rfl rfl
  | config e0 e1 cbm1 => exact .execConfig h
  | cbBuild cb => exact .execCbBuild h
  | sealSetup => exact .execSeal h
  | fail cls => exact .execFail h
  | decBegin ben => exact .execDecBegin hI.params h
  | bind => exact .execBind h
  | rdbits n => exact .execRdbits h
  | hdec cb => exact .execHdec h
  | vdec cb => exact .execVdec hI h
  | imdct l p x z => exact .execImdct h
  | window => exact .execWindow h
  | overlap => exact .execOverlap hI h

end HostDataKept

/-! ## The registers that few commands write -/

/-- The commands that write BITPOS (R33). -/
def writesBitPos : Instr → Bool
  | .decBegin _ | .bind | .rdbits _ | .hdec _ | .vdec _ => true
  | .nop | .config .. | .cbBuild _ | .sealSetup | .fail _ | .imdct .. | .window | .overlap => false

/-- The commands that write PCM_CURSOR (R34). -/
def writesPcmCursor : Instr → Bool
  | .decBegin _ | .overlap => true
  | .nop | .config .. | .cbBuild _ | .sealSetup | .fail _ | .bind | .rdbits _ | .hdec _ | .vdec _ | .imdct .. | .window => false

/-- BITPOS, PCM_CURSOR and BUDGET change only in the commands that write them (R32, R33, R34). -/
structure CountersKept (i : Instr) (s t : State) : Prop where
  bitPos : t.bitPos ≠ s.bitPos → writesBitPos i = true
  pcmCursor : t.pcmCursor ≠ s.pcmCursor → writesPcmCursor i = true
  budget : t.budget ≠ s.budget → i = .overlap

@[simp] theorem packetDone_bitPos (n : Nat) (s : State) : (packetDone n s).bitPos = s.bitPos := by
  rcases packetDone_cases n s with ⟨_, e⟩ | ⟨_, _, _, e⟩ | ⟨_, _, e⟩ <;> rw [e] <;> rfl

@[simp] theorem packetDone_pcmCursor (n : Nat) (s : State) : (packetDone n s).pcmCursor = s.pcmCursor := by
  rcases packetDone_cases n s with ⟨_, e⟩ | ⟨_, _, _, e⟩ | ⟨_, _, e⟩ <;> rw [e] <;> rfl

namespace CountersKept

theorem of_eq {i : Instr} {s t : State} (hb : t.bitPos = s.bitPos) (hc : t.pcmCursor = s.pcmCursor) (hg : t.budget = s.budget) :
    CountersKept i s t := ⟨(absurd hb ·), (absurd hc ·), (absurd hg ·)⟩

theorem takeException (i : Instr) (w : Word) (e : Exc) (s : State) : CountersKept i s (takeException w e s) := by
  cases e <;> exact .of_eq rfl rfl rfl

/-- HDEC and VDEC write BITPOS, and neither of the other two. -/
theorem decodeEnd {i : Instr} (hi : writesBitPos i = true) {K : Codebook} {s t : State} (h : DecodeEnd K s t) : CountersKept i s t := by
  rcases h with rfl | ⟨_, _, f, rfl⟩ | ⟨_, _, f, p, _, rfl⟩
  · exact .takeException ..
  · exact .takeException ..
  · exact ⟨fun _ => hi, (absurd rfl ·), (absurd rfl ·)⟩

theorem exec {s t : State} {i : Instr} (h : exec i s = .next t) : CountersKept i s t := by
  cases i with
  | nop => exact Host.Outcome.next.inj h ▸ .of_eq rfl rfl rfl
  | config e0 e1 cbm1 =>
    rcases execConfig_next h with ⟨e, rfl, _⟩ | ⟨_, rfl⟩ | ⟨_, _, _, _, rfl⟩
    · exact .takeException ..
    · exact .takeException ..
    · exact .of_eq rfl rfl rfl
  | cbBuild cb =>
    rcases execCbBuild_next h with ⟨e, rfl, _⟩ | ⟨_, _, f, K, _, rfl⟩ | ⟨_, _, _, K, _, rfl⟩
    · exact .takeException ..
    · exact .of_eq rfl rfl rfl
    · exact .of_eq rfl rfl rfl
  | sealSetup =>
    rcases execSeal_next h with ⟨e, rfl, _⟩ | ⟨_, _, rfl⟩
    · exact .takeException ..
    · exact .of_eq rfl rfl rfl
  | fail cls => rcases execFail_next h with ⟨_, rfl⟩ | ⟨_, _, rfl⟩ | ⟨_, _, rfl⟩ <;> exact .takeException ..
  | decBegin ben =>
    refine ⟨fun _ => rfl, fun _ => rfl, absurd ?_⟩
    rcases execDecBegin_next h with ⟨c, rfl⟩ | ⟨_, _, ⟨_, rfl⟩ | ⟨_, _, _, rfl⟩ | ⟨_, _, rfl⟩⟩ <;> rfl
  | bind =>
    rcases execBind_next h with ⟨c, rfl⟩ | ⟨_, _, rfl⟩
    · exact .takeException ..
    · exact ⟨fun _ => rfl, (absurd rfl ·), (absurd rfl ·)⟩
  | rdbits n =>
    rcases execRdbits_next h with ⟨c, rfl⟩ | ⟨_, _, rfl⟩ | ⟨_, _, _, _, r, _, rfl⟩
    · exact .takeException ..
    · exact .takeException ..
    · exact ⟨fun _ => rfl, (absurd rfl ·), (absurd rfl ·)⟩
  | hdec cb =>
    rcases execHdec_next h with hend | ⟨_, _, _, e, p, _, rfl⟩
    · exact .decodeEnd rfl hend
    · exact ⟨fun _ => rfl, (absurd rfl ·), (absurd rfl ·)⟩
  | vdec cb =>
    rcases execVdec_next h with hend | ⟨_, _, _, _, e, p, v, _, _, rfl⟩
    · exact .decodeEnd rfl hend
    · exact ⟨fun _ => rfl, (absurd rfl ·), (absurd rfl ·)⟩
  | imdct l p x z =>
    rcases execImdct_next h with rfl | ⟨_, _, ws, _, rfl⟩
    · exact .takeException ..
    · exact .of_eq rfl rfl rfl
  | window =>
    rcases execWindow_next h with rfl | ⟨_, _, work, _, rfl⟩
    · exact .takeException ..
    · exact .of_eq rfl rfl rfl
  | overlap =>
    refine ⟨absurd ?_, fun _ => rfl, fun _ => rfl⟩
    rcases execOverlap_next h with rfl | ⟨_, _, work, prev, _, _, rfl⟩
    · rfl
    · simp

end CountersKept

/-- OVERLAP advances PCM_CURSOR by the samples it emits, which SAMPLE_COUNT bounds (R34, R186). -/
theorem execOverlap_pcmCursor {s t : State} (hI : Inv s) (h : execOverlap s = .next t) :
    s.pcmCursor.toNat ≤ t.pcmCursor.toNat ∧ (t.pcmCursor ≠ s.pcmCursor → t.pcmCursor.toNat ≤ s.sampleCount.toNat) := by
  rcases execOverlap_next h with rfl | ⟨hd, _, work, prev, _, _, rfl⟩
  · simp
  · have hcursor := (hI.cursor hd).1
    have hlt := s.sampleCount.isLt
    have hemit : emittedCount s ≤ s.sampleCount.toNat - s.pcmCursor.toNat := Nat.min_le_right _ _
    simp only [packetDone_pcmCursor, savePrev_pcmCursor, emitSamples_pcmCursor, length_emittedBytes, BitVec.toNat_add, BitVec.toNat_ofNat]
    omega

end Sys2Proof.Machine

namespace Sys2Proof.Proofs

open Sys2Proof.Machine

/-- Settles O60: `HostDataKept` over the commands, and BUDGET by `CountersKept`. -/
theorem commandsKeepHostData : Obligations.CommandsKeepHostData := by
  intro s t i hI h
  have hkept := HostDataKept.exec hI h
  obtain ⟨hpb, hpl, hsc, hpc, hsel⟩ : t.pktBase = s.pktBase ∧ t.pktLen = s.pktLen ∧ t.sampleCount = s.sampleCount ∧
      t.packetCount = s.packetCount ∧ t.cbSel = s.cbSel := by simpa [State.hostRegs] using hkept.regs
  refine ⟨hpb, hpl, hsc, hpc, hsel, (CountersKept.exec h).budget, fun c hc => descriptor_eq_iff.mp (hkept.books c hc), fun r hr c off _ ho => ?_⟩
  have hw : r.hostWrites = true := (by decide : ∀ r ∈ [Region.pkt, .coef, .cbLen, .cbMult], r.hostWrites = true) r hr
  exact hkept.ram r hw c off (ho.trans_le (size_eq_bytes s.params r ▸ Region.bytes_le hI.params r))

/-- Settles O59: by `CountersKept`, and the samples that OVERLAP emits. -/
theorem cursorWriters : Obligations.CursorWriters := by
  intro s t i hI h
  have hkept := CountersKept.exec h
  refine ⟨fun hb => ?_, fun hc => ?_⟩
  · have hw := hkept.bitPos hb
    cases i with
    | bind => exact .inl rfl
    | decBegin ben => exact .inr (.inl ⟨ben, rfl⟩)
    | rdbits n => exact .inr (.inr (.inl ⟨n, rfl⟩))
    | hdec cb => exact .inr (.inr (.inr (.inl ⟨cb, rfl⟩)))
    | vdec cb => exact .inr (.inr (.inr (.inr ⟨cb, rfl⟩)))
    | _ => cases hw
  · have hw := hkept.pcmCursor hc
    cases i with
    | decBegin ben => exact .inl ⟨ben, rfl⟩
    | overlap =>
      obtain ⟨hle, hbound⟩ := execOverlap_pcmCursor hI h
      have hsc : t.sampleCount = s.sampleCount := congrArg (·.2.2.1) (HostDataKept.execOverlap hI h).regs
      exact .inr ⟨rfl, hle, hsc ▸ hbound hc⟩
    | _ => cases hw

end Sys2Proof.Proofs
end

section
/-!
Host accesses while BUSY is 0 (R22-R41, R49, R60, R67): where the addresses of the registers and of the RAM regions lead, the fields of the
register words, and the bytes of a bus word.
-/

namespace Sys2Proof.Machine

/-! ## Where an address leads (R65, R68) -/

theorem busPlace_offset (P : Params) (r : Reg) : busPlace P (BitVec.ofNat 24 r.offset) = some (.reg r) := by
  cases r <;> rfl

theorem base_eq (r : Region) : Spec.base r = r.code * 2 ^ 20 := by
  cases r <;> rfl

theorem ofCode_code (r : Region) : Region.ofCode r.code = some r := by
  cases r <;> rfl

/-- An aligned offset of a region is a place of it, since no region outgrows its 1 MiB (R7). -/
theorem busPlace_at {P : Params} (hP : P.Legal) {r : Region} {off : Nat} (hoff : off < r.bytes P) (ha : off % 4 = 0) :
    busPlace P (Spec.at_ r off) = some (.ram r off) := by
  have hb := Region.bytes_le hP r
  have hc := r.code_lt
  have hn : (Spec.at_ r off).toNat = r.code * 2 ^ 20 + off := by
    rw [Spec.at_, base_eq, BitVec.toNat_ofNat, Nat.mod_eq_of_lt (by omega)]
  have hdiv : (r.code * 2 ^ 20 + off) / 2 ^ 20 = r.code := by omega
  have hmod : (r.code * 2 ^ 20 + off) % 2 ^ 20 = off := by omega
  simp only [busPlace, hn, hdiv, hmod, ofCode_code, if_pos hoff]
  rw [if_neg (by omega), if_neg (by omega)]

/-! ## Accesses to a register -/

theorem hostWrite_offset (r : Reg) (w : Word) (s : State) : hostWrite (BitVec.ofNat 24 r.offset) w s = writeReg w s r := by
  simp only [hostWrite, busPlace_offset]

theorem hostRead_offset (r : Reg) (s : State) : hostRead (BitVec.ofNat 24 r.offset) s = { s with busOut := readReg s r } := by
  simp only [hostRead, busPlace_offset]

/-- The registers that only the core writes (R49). -/
def Reg.readOnly : Reg → Bool
  | .id | .result | .errCmd | .errPos | .cfg | .bitPos | .pcmCursor | .packetIndex | .prevInfo | .blkN | .blkLeft | .blkRight | .vdim
  | .cbStatus | .cbLvalues => true
  | .status | .cmd | .pktBase | .pktLen | .sampleCount | .packetCount | .budget | .cbSel | .cbEntries | .cbDims | .cbLookup | .cbMin
  | .cbDelta | .cbNmult => false

/-- The fifteen offsets of R49. -/
theorem offset_readOnly : ∀ off ∈ [0x000, 0x00C, 0x010, 0x014, 0x018, 0x024, 0x034, 0x038, 0x03C, 0x040, 0x044, 0x048, 0x04C, 0x06C, 0x070],
    ∃ r ∈ Reg.all, r.readOnly = true ∧ r.offset = off := by
  decide

theorem writeReg_of_readOnly {r : Reg} (hr : r.readOnly = true) (w : Word) (s : State) : writeReg w s r = s := by
  cases r with
  | id | result | errCmd | errPos | cfg | bitPos | pcmCursor | packetIndex | prevInfo | blkN | blkLeft | blkRight | vdim | cbStatus
  | cbLvalues => rfl
  | _ => cases hr

/-! ## Accesses to a word of RAM -/

section
variable {s : State} {r : Region} {i : Nat} (hP : s.params.Legal) (hi : 4 * i < r.bytes s.params)
include hP hi

theorem hostRead_at : hostRead (Spec.at_ r (4 * i)) s = { s with busOut := hostWord s (regionKey r (s.busBank r) (4 * i)) } := by
  simp only [hostRead, busPlace_at hP hi (Nat.mul_mod_right 4 i)]

/-- PKT and COEF are the regions that the host writes in every state (R49, R70). -/
theorem hostWrite_at (hr : r = .pkt ∨ r = .coef) (w : Word) : hostWrite (Spec.at_ r (4 * i)) w s = s.writeWords r 0 i [w] := by
  simp only [hostWrite, busPlace_at hP hi (Nat.mul_mod_right 4 i), Nat.mul_div_cancel_left i (by decide : 0 < 4)]
  rcases hr with rfl | rfl <;> rfl

theorem hostWrite_at_readOnly (hr : r ∈ [Region.vout, .work, .prev, .pcm]) (w : Word) : hostWrite (Spec.at_ r (4 * i)) w s = s := by
  simp only [hostWrite, busPlace_at hP hi (Nat.mul_mod_right 4 i)]
  fin_cases hr <;> rfl

end

theorem busBank_zero (s : State) {r : Region} (hr : r ≠ .cbLen ∧ r ≠ .cbMult) : s.busBank r = 0 := by
  cases r with
  | cbLen => exact absurd rfl hr.1
  | cbMult => exact absurd rfl hr.2
  | _ => rfl

theorem writeWords_singleton (s : State) (r : Region) (i : Nat) (w : Word) :
    s.writeWords r 0 i [w] = s.writeBytes r (4 * i) (bytesOfWord w) := by
  simp only [State.writeWords, State.writeBytes, Memory.writeWords, List.flatMap_singleton]

/-! ## Fields of a word -/

/-- The fields of a word side by side, as numbers. -/
theorem toNat_append_add {m n : Nat} (x : BitVec m) (y : BitVec n) : (x ++ y).toNat = x.toNat * 2 ^ n + y.toNat := by
  rw [BitVec.toNat_append, ← Nat.shiftLeft_add_eq_or_of_lt y.isLt, Nat.shiftLeft_eq]

@[simp] theorem toNat_bit (b : Bool) : (bit b).toNat = b.toNat := BitVec.toNat_ofBool b

theorem extractLsb'_of_toNat {w lo n : Nat} {v : BitVec w} {x : BitVec n} (h : v.toNat / 2 ^ lo % 2 ^ n = x.toNat) : v.extractLsb' lo n = x := by
  rw [← BitVec.toNat_inj, BitVec.extractLsb'_toNat, Nat.shiftRight_eq_div_pow, h]

theorem getLsbD_of_toNat {w i : Nat} {v : BitVec w} {b : Bool} (h : v.toNat / 2 ^ i % 2 = (bit b).toNat) : v.getLsbD i = b := by
  rw [BitVec.getLsbD, Nat.testBit_eq_decide_div_mod_eq, h]
  cases b <;> rfl

theorem toNat_fmtCodeBits (s : State) : s.fmtCodeBits.toNat = Spec.formatCode s.fmtCode := by
  unfold State.fmtCodeBits
  cases s.fmtCode with
  | none => rfl
  | some e => cases e <;> rfl

theorem toNat_cmdCodeBits (s : State) : s.cmdCodeBits.toNat = Spec.commandCode s.cmdCode := by
  unfold State.cmdCodeBits
  cases s.cmdCode with
  | none => rfl
  | some e => cases e <;> rfl

/-- The layout of STATUS (R23), as a number. -/
theorem toNat_statusWord (s : State) : (statusWord s).toNat =
    (bit s.busy).toNat + (bit s.setupLoaded).toNat * 2 ^ 1 + s.setupState.code.toNat * 2 ^ 2 + (bit s.cfgDone).toNat * 2 ^ 4 +
    s.decState.code.toNat * 2 ^ 5 + (bit s.pcmValid).toNat * 2 ^ 8 + (bit s.cmdErr).toNat * 2 ^ 9 + (bit s.ignored).toNat * 2 ^ 10 +
    (bit s.bound).toNat * 2 ^ 11 + s.seq.code.toNat * 2 ^ 12 + (bit s.budgetEn).toNat * 2 ^ 14 + s.fmtCodeBits.toNat * 2 ^ 16 +
    s.cmdCodeBits.toNat * 2 ^ 24 := by
  simp only [statusWord, toNat_append_add, BitVec.toNat_ofNat]
  omega

/-! ## Bytes of a bus word (R60) -/

theorem bytesOfWord_getElem? (w : Word) {j : Nat} (hj : j < 4) : (bytesOfWord w)[j]? = some (w.extractLsb' (8 * j) 8) := by
  interval_cases j <;> rfl

theorem extractLsb'_wordOfBytes (b0 b1 b2 b3 : Byte) :
    (wordOfBytes b0 b1 b2 b3).extractLsb' 0 8 = b0 ∧ (wordOfBytes b0 b1 b2 b3).extractLsb' 8 8 = b1 ∧
      (wordOfBytes b0 b1 b2 b3).extractLsb' 16 8 = b2 ∧ (wordOfBytes b0 b1 b2 b3).extractLsb' 24 8 = b3 := by
  refine ⟨?_, ?_, ?_, ?_⟩ <;>
  · apply extractLsb'_of_toNat
    simp only [wordOfBytes, toNat_append_add]
    omega

theorem extractLsb'_hostWord (s : State) (k : Nat) {j : Nat} (hj : j < 4) : (hostWord s k).extractLsb' (8 * j) 8 = hostByte s (k + j) := by
  obtain ⟨h0, h1, h2, h3⟩ := extractLsb'_wordOfBytes (hostByte s k) (hostByte s (k + 1)) (hostByte s (k + 2)) (hostByte s (k + 3))
  interval_cases j
  · exact h0
  · exact h1
  · exact h2
  · exact h3

end Sys2Proof.Machine

namespace Sys2Proof.Proofs

open Sys2Proof.Machine

/-- Settles O11: each address is the offset of its register, and `writeReg` says what it stores. -/
theorem registerWrites : Obligations.RegisterWrites := by
  intro s w
  have hsample : hostWrite 0x000028#24 w s = if s.isDecoding then s else { s with sampleCount := w } := hostWrite_offset .sampleCount w s
  have hpacket : hostWrite 0x00002C#24 w s = if s.isDecoding then s else { s with packetCount := w } := hostWrite_offset .packetCount w s
  have hsel : hostWrite 0x000050#24 w s = { s with cbSel := w.setWidth 8 } := hostWrite_offset .cbSel w s
  refine ⟨hostWrite_offset .pktBase w s, hostWrite_offset .pktLen w s, hostWrite_offset .budget w s, ?_, fun hd => ?_, fun hd => ?_⟩
  · rw [hsel, BitVec.setWidth_eq_extractLsb' (by decide)]
  · have hd' := isDecoding_iff.mpr hd
    rw [hsample, hpacket, if_pos hd', if_pos hd']
    exact ⟨rfl, rfl⟩
  · have hd' := mt isDecoding_iff.mp hd
    rw [hsample, hpacket, if_neg hd', if_neg hd']
    exact ⟨rfl, rfl⟩

/-- Settles O9: each address is the offset of its register, and the fields of `readReg` stand side by side. -/
theorem registerReads : Obligations.RegisterReads := by
  intro s
  have hv (r : Reg) : (hostRead (BitVec.ofNat 24 r.offset) s).busOut = readReg s r := by rw [hostRead_offset]
  have hn (r : Reg) : (hostRead (BitVec.ofNat 24 r.offset) s).busOut.toNat = (readReg s r).toNat := congrArg BitVec.toNat (hv r)
  refine ⟨hv .id, hv .result, hv .errCmd, hv .errPos, (hn .cfg).trans ?_, hv .pktBase, hv .pktLen, hv .bitPos, hv .sampleCount,
    hv .packetCount, hv .budget, hv .pcmCursor, hv .packetIndex, (hn .prevInfo).trans ?_, (hn .blkN).trans ?_, (hn .blkLeft).trans ?_,
    (hn .blkRight).trans ?_, hv .vdim, (hn .cbSel).trans ?_, hv .cbEntries, hv .cbDims, (hn .cbLookup).trans ?_, hv .cbMin, hv .cbDelta,
    hv .cbNmult, (hn .cbStatus).trans ?_, hv .cbLvalues⟩
  all_goals
    simp only [readReg, State.selBook, toNat_append_add, toNat_bit, BitVec.toNat_ofNat]
    omega

/-- Settles O10: the layout of the status word, field by field. -/
theorem statusRegister : Obligations.StatusRegister := by
  intro s w
  have hv : (hostRead 0x000004#24 s).busOut = statusWord s := congrArg State.busOut (hostRead_offset .status s)
  have hn := toNat_statusWord s
  have hzero : (bit false).toNat = 0 := rfl
  refine ⟨?_, ?_⟩
  · simp only [hv]
    refine ⟨getLsbD_of_toNat ?_, getLsbD_of_toNat (b := s.setupLoaded) ?_, extractLsb'_of_toNat (x := s.setupState.code) ?_, getLsbD_of_toNat ?_,
      extractLsb'_of_toNat (x := s.decState.code) ?_, getLsbD_of_toNat ?_, getLsbD_of_toNat ?_, getLsbD_of_toNat ?_, getLsbD_of_toNat ?_,
      extractLsb'_of_toNat (x := s.seq.code) ?_, getLsbD_of_toNat ?_, getLsbD_of_toNat ?_,
      (congrArg BitVec.toNat (extractLsb'_of_toNat (x := s.fmtCodeBits) ?_)).trans (toNat_fmtCodeBits s),
      (congrArg BitVec.toNat (extractLsb'_of_toNat (x := s.cmdCodeBits) ?_)).trans (toNat_cmdCodeBits s)⟩
    all_goals omega
  · have hclear (b c : Bool) : (if b = true then false else c) = (c && !b) := by cases b <;> simp
    rw [show hostWrite 0x000004#24 w s = writeStatus w s from hostWrite_offset .status w s]
    simp only [writeStatus, hclear]

/-- Settles O12: `writeReg` leaves the state alone for the read-only registers, and `hostWrite` for the four regions. -/
theorem readOnlyWritesIgnored : Obligations.ReadOnlyWritesIgnored := by
  intro s w
  refine ⟨fun off hoff => ?_, fun hP r hr i hi => hostWrite_at_readOnly hP (size_eq_bytes s.params r ▸ hi) hr w⟩
  obtain ⟨r, -, hr, rfl⟩ := offset_readOnly off hoff
  rw [hostWrite_offset, writeReg_of_readOnly hr]

/-- Settles O15: a bus word of PKT is four bytes of RAM written at once, and a bus read finds each stored byte in its place. -/
theorem byteRamWords : Obligations.ByteRamWords := by
  intro s i hP
  refine ⟨fun hi w => ⟨_, rfl, ?_⟩, fun r hr hi j b hj hb => ?_⟩
  · rw [hostWrite_at hP (r := .pkt) hi (.inl rfl), writeWords_singleton]
    refine ⟨rfl, fun j hj => ?_, fun k hk => ?_⟩
    · rw [readByte_writeBytes, if_pos ⟨by omega, Nat.add_lt_add_left hj _⟩, Nat.add_sub_cancel_left, bytesOfWord_getElem? w hj]
    · refine Memory.read_writeBytes_of_outside _ _ _ _ ?_
      have hlen : (bytesOfWord w).length = 4 := rfl
      simp only [Spec.inRange, base_eq] at hk
      simp only [regionKey, hlen]
      omega
  · have hbank : s.busBank r = 0 := busBank_zero s (by fin_cases hr <;> decide)
    rw [hostRead_at hP (size_eq_bytes s.params r ▸ hi), hbank, extractLsb'_hostWord s _ hj, hostByte]
    rw [State.readByte, regionKey, ← Nat.add_assoc] at hb
    rw [regionKey, hb, Option.getD_some]

end Sys2Proof.Proofs
end

section
/-!
Rejected command words (R80, R89-R91), the interlock of BUSY (R24, R66), CONFIG (R211) and reset (R270).
-/

namespace Sys2Proof.Machine

/-! ## Rejected words -/

theorem opcodeOf_ofNat {op x : Nat} (hop : op < 256) (hx : x < 2 ^ 24) : opcodeOf (BitVec.ofNat 32 (op * 2 ^ 24 + x)) = op := by
  rw [opcodeOf, BitVec.toNat_ofNat]
  omega

theorem operandOf_ofNat (op : Nat) {x : Nat} (hx : x < 2 ^ 24) : operandOf (BitVec.ofNat 32 (op * 2 ^ 24 + x)) = x := by
  rw [operandOf, BitVec.toNat_ofNat]
  omega

/-- A listed opcode asks that the operand bits beyond its format are 0 (R90). -/
theorem decode_of_listed {w : Word} {u : Nat} (h : (opcodeOf w, u) ∈ Spec.usedBits) : ∃ i, decode w = operandFits (operandOf w) u i := by
  generalize hop : opcodeOf w = op at h
  simp only [Spec.usedBits, List.mem_cons, Prod.mk.injEq, List.not_mem_nil, or_false] at h
  rcases h with ⟨rfl, rfl⟩ | ⟨rfl, rfl⟩ | ⟨rfl, rfl⟩ | ⟨rfl, rfl⟩ | ⟨rfl, rfl⟩ | ⟨rfl, rfl⟩ | ⟨rfl, rfl⟩ | ⟨rfl, rfl⟩ | ⟨rfl, rfl⟩ |
    ⟨rfl, rfl⟩ | ⟨rfl, rfl⟩ | ⟨rfl, rfl⟩ | ⟨rfl, rfl⟩ <;>
  · simp only [decode, hop]
    exact ⟨_, rfl⟩

/-- Any other opcode is reserved (R89, R90). -/
theorem decode_of_unlisted {w : Word} (h : ∀ p ∈ Spec.usedBits, p.1 ≠ opcodeOf w) : decode w = .error .illegalOpcode := by
  simp only [Spec.usedBits, List.forall_mem_cons, List.not_mem_nil, false_imp_iff, implies_true, and_true] at h
  unfold decode
  split <;> simp_all

theorem operandFits_of_le {x u : Nat} (h : 2 ^ u ≤ x) (i : Instr) : operandFits x u i = .error .reservedBits :=
  if_neg (Nat.div_pos h (Nat.two_pow_pos u)).ne'

/-- A rejected word that is due ends in its command error, and the core is idle again (R24, R245). -/
theorem step_of_rejected {s : State} (hb : s.busy = true) (hd : s.busyFor = 0 ∨ s.host = []) {r : Reject} (h : decode s.cmdWord = .error r) :
    step s = .next (complete (takeException s.cmdWord (.command (rejectCode r)) s)) := by
  simp only [step_of_due hb hd, runCommand, perform, h, raise_eq]

/-! ## Host events, by BUSY -/

theorem step_of_idle {s : State} (hb : s.busy = false) {e : HostEvent} {rest : List HostEvent} (hh : s.host = e :: rest) :
    step s = .next (idleEvent e { s with host := rest }) := by
  simp [step, stepOnce, hb, hh]

theorem step_of_busy {s : State} (hb : s.busy = true) {n : Nat} (hn : s.busyFor = n + 1) {e : HostEvent} {rest : List HostEvent}
    (hh : s.host = e :: rest) : step s = busyEvent e { s with busyFor := n, host := rest } := by
  simp [step, stepOnce, hb, hn, hh]

/-! ## CONFIG -/

theorem execConfig_of_legal {s : State} (hs : s.setupState = .notLoaded) {e0 e1 : Nat} (h : legalBlockSizes e0 e1 = true) (cbm1 : Nat) :
    execConfig e0 e1 cbm1 s = .next (configure e0 e1 cbm1 s) := by
  rw [execConfig, whenSetup_notLoaded hs, if_pos h]

theorem execConfig_of_illegal {s : State} (hs : s.setupState = .notLoaded) {e0 e1 : Nat} (h : ¬legalBlockSizes e0 e1 = true) (cbm1 : Nat) :
    execConfig e0 e1 cbm1 s = raise (.setup .blockSize) s := by
  rw [execConfig, whenSetup_notLoaded hs, if_neg h]

theorem book_configure (s : State) (e0 e1 cbm1 : Nat) {c : Nat} (hc : c < 256) : (configure e0 e1 cbm1 s).book c = (s.book c).unbuild :=
  book_mapBooks s Codebook.unbuild c hc

theorem legalBlockSizes_iff {e0 e1 : Nat} : legalBlockSizes e0 e1 = true ↔ 6 ≤ e0 ∧ e1 ≤ 13 ∧ e0 ≤ e1 := by
  simp [legalBlockSizes, and_assoc]

/-! ## Reset -/

/-- A slot after reset (R40). -/
theorem book_reset {c : Nat} (hc : c < 256) : State.reset.book c = Codebook.reset := by
  rw [book_eq _ _ hc]
  simp [State.reset]

end Sys2Proof.Machine

namespace Sys2Proof.Proofs

open Sys2Proof.Machine

/-- Settles O4: a word decodes by the list of opcodes, and a rejected word ends in its command error. -/
theorem rejectedWords : Obligations.RejectedWords := by
  intro s op x hop hx hw hb hd
  have hopcode : opcodeOf s.cmdWord = op := hw ▸ opcodeOf_ofNat hop hx
  have hoperand : operandOf s.cmdWord = x := hw ▸ operandOf_ofNat op hx
  refine ⟨fun hlist => ?_, fun u hlist hu => ?_⟩
  · exact step_of_rejected hb hd (decode_of_unlisted (hopcode ▸ hlist))
  · obtain ⟨i, hi⟩ := decode_of_listed (w := s.cmdWord) (hopcode ▸ hlist)
    exact step_of_rejected hb hd (hi.trans (operandFits_of_le (hoperand ▸ hu) i))

/-- Settles O6: by the host's event, for an idle and for a busy core. -/
theorem busyInterlock : Obligations.BusyInterlock := by
  intro s w n rest
  refine ⟨fun hb hh => ?_, fun hb hh => ?_, fun hb hn hh => ?_, fun hb hn hh => ?_, fun hb hn a => ⟨fun ha hh => ?_, fun ha hh => ?_⟩⟩
  · exact (step_of_idle hb hh).trans (congrArg _ (hostWrite_offset .cmd w _))
  · exact (step_of_idle hb hh).trans (congrArg _ (hostRead_offset .cmd _))
  · exact step_of_busy hb hn hh
  · exact step_of_busy hb hn hh
  · exact (step_of_busy hb hn hh).trans (if_neg ha)
  · exact (step_of_busy hb hn hh).trans (if_neg ha)

/-- Settles O18: `configure` on legal exponents, the FormatError on others. -/
theorem configResult : Obligations.ConfigResult := by
  intro s e0 e1 cbm1 hwf hs
  simp only [WellFormed, Instr.wf, Bool.and_eq_true, decide_eq_true_eq] at hwf
  obtain ⟨⟨h0, h1⟩, hc⟩ := hwf
  refine ⟨fun hlo hhi hle => ?_, fun hbad => ?_⟩
  · refine ⟨_, execConfig_of_legal hs (legalBlockSizes_iff.mpr ⟨hlo, hhi, hle⟩) cbm1, rfl, ?_, ?_, ?_, fun c hc => book_configure s e0 e1 cbm1 hc⟩
    · rw [State.b0, configure_cfgE0, BitVec.toNat_ofNat, Nat.mod_eq_of_lt h0]
    · rw [State.b1, configure_cfgE1, BitVec.toNat_ofNat, Nat.mod_eq_of_lt h1]
    · rw [State.cbCount, configure_cfgCbm1, BitVec.toNat_ofNat, Nat.mod_eq_of_lt hc]
  · exact execConfig_of_illegal hs (fun h => by have := legalBlockSizes_iff.mp h; omega) cbm1

/-- Settles O7: the registers of the codebook window read a slot after reset, and each other register its field of the reset state. -/
theorem resetState : Obligations.ResetState := by
  refine ⟨fun r => ?_, fun c hc => book_reset hc, rfl, rfl, rfl, fun k => rfl⟩
  have hbook : State.reset.selBook = Codebook.reset := book_reset (by decide)
  cases r with
  | cbEntries | cbDims | cbLookup | cbMin | cbDelta | cbNmult | cbStatus | cbLvalues =>
    simp only [readReg, hbook]
    rfl
  | _ => rfl

/-- Settles O54: setup is not loaded, no decode runs, RAM is empty and no codebook is built, so each clause holds at once. -/
theorem invReset : Obligations.InvReset where
  params := by decide
  mem := Memory.wf_nil
  loaded := nofun
  configured := nofun
  exponents := nofun
  pcmValid := by decide
  fmtCode := by decide
  cursor := nofun
  packet := ⟨Nat.zero_le _, Nat.zero_le _⟩
  prev := nofun
  prevWritten := nofun
  block := nofun
  workWritten := nofun
  books c hc hb := by
    rw [book_reset hc] at hb
    cases hb

end Sys2Proof.Proofs
end

section
/-!
Where a step can stop (R66, R78, R274, R275): a command answers with a next state or a fault, never a refusal; of the RAM that it reads, under the
invariant only what the host alone writes can be unwritten; and the BUSY hazard is not its own but the host's.
-/

namespace Sys2Proof.Machine

/-! ## What has been written (R274) -/

/-- A built codebook with a lookup has a vector for every entry that the walk finds (R121, R129, R130). -/
theorem Inv.vqEntry_ne_none {s : State} (h : Inv s) {cb : Nat} (hr : s.bookReady cb = true) (hl : (s.book cb).lookupType ≠ 0) {e p : Nat}
    (hm : matchCode (s.book cb) s = .entry e p) : vqEntry (s.book cb) e ≠ none := by
  obtain ⟨hcb, hb⟩ := bookReady_iff.mp hr
  have hK := h.books cb (hcb.trans_le (cbCount_le s)) hb
  have he : e < (s.book cb).vq.length := by
    rw [hK.vq hl, ← hK.code]
    exact matchFrom_entry_lt _ _ _ _ _ _ _ hm
  have hv : (s.book cb).dims.toNat ≤ (s.book cb).vq[e].length := (hK.vectors hl _ (List.getElem_mem he)).ge
  simp [vqEntry, List.getElem?_eq_getElem he, hv]

/-- After IMDCT the whole block in WORK can be read (R274). -/
theorem Inv.currentBlock_ne_none {s : State} (h : Inv s) (hd : s.decState = .decoding) (hq : s.seq ≠ .none) : currentBlock s ≠ none := by
  obtain ⟨work, hw, -⟩ := (h.workWritten hd hq).allSome_readWords h.mem s.blkN.toNat le_rfl
  simp [currentBlock, hw]

/-- OVERLAP reads the second half of an earlier block, at most as long as PREV (R184, R187). -/
theorem Inv.prevCount_le {s : State} (h : Inv s) (hd : s.decState = .decoding) : prevCount s ≤ Config.prevWords := by
  obtain ⟨hN, -, hR⟩ := h.prev hd
  obtain ⟨h01, h1, -⟩ := h.blockSizes (h.loaded (by simp [hd]))
  have hle : s.prevN.toNat ≤ 8192 := by rcases hN with e | e <;> omega
  have hmin : prevCount s ≤ s.prevREnd.toNat - s.prevN.toNat / 2 := Nat.min_le_right _ _
  simp only [Config.prevWords]
  omega

theorem Inv.prev_ne_none {s : State} (h : Inv s) (hd : s.decState = .decoding) : allSome (s.readWords .prev 0 0 (prevCount s)) ≠ none := by
  obtain ⟨prev, hp, -⟩ := (h.prevWritten hd).allSome_readWords h.mem (prevCount s) (Nat.mul_le_mul_left 4 (h.prevCount_le hd))
  simp [hp]

/-! ## What a command answers -/

/-- The faults of a command in s: a read of unwritten RAM, under the invariant of a region that the host has to write (R274). -/
inductive CommandFault (s : State) : Fault → Prop where
  | unwrittenRead (r : Region) (h : Inv s → r.hostWrites = true) : CommandFault s (.unwrittenRead r)
  | unwrittenVq (h : ¬Inv s) : CommandFault s .unwrittenVq

/-- WINDOW and OVERLAP read WORK only after IMDCT has written it. -/
theorem CommandFault.work {s : State} {q : SynthSeq} (hq : q ≠ .none) (hs : (s.isDecoding && s.seq == q) = true) (hn : currentBlock s = none) :
    CommandFault s (.unwrittenRead .work) := by
  rw [Bool.and_eq_true, beq_iff_eq] at hs
  exact .unwrittenRead _ fun hI => absurd hn (hI.currentBlock_ne_none (isDecoding_iff.mp hs.1) (hs.2 ▸ hq))

/-- What a command may answer in s: a next state with the host's events untouched, or one of its faults. -/
def CommandAnswer (s : State) : Res → Prop
  | .next t => t.host = s.host
  | .fault f => CommandFault s f
  | .refused _ => False

@[simp] theorem takeException_host (w : Word) (e : Exc) (s : State) : (takeException w e s).host = s.host := by
  cases e <;> rfl

@[simp] theorem packetDone_host (n : Nat) (s : State) : (packetDone n s).host = s.host := by
  rcases packetDone_cases n s with ⟨_, e⟩ | ⟨_, _, _, e⟩ | ⟨_, _, e⟩ <;> rw [e] <;> rfl

namespace CommandAnswer

variable {s u : State}

/-! ### The shared operations -/

theorem raise (e : Exc) (hu : u.host = s.host) : CommandAnswer s (raise e u) := (takeException_host _ e u).trans hu

theorem ite {c : Prop} [Decidable c] {j k : Res} (hj : c → CommandAnswer s j) (hk : ¬c → CommandAnswer s k) :
    CommandAnswer s (if c then j else k) := by
  split
  · exact hj ‹_›
  · exact hk ‹_›

/-- A check that raises an exception where it fails. -/
theorem check {c : Prop} [Decidable c] {e : Exc} {k : Res} (hu : u.host = s.host) (hk : ¬c → CommandAnswer s k) :
    CommandAnswer s (if c then Machine.raise e u else k) :=
  ite (fun _ => raise e hu) hk

theorem whenLegal {b : Bool} {k : Res} (hk : b = true → CommandAnswer s k) : CommandAnswer s (whenLegal b s k) :=
  ite hk fun _ => raise _ rfl

theorem whenSetup {k : Res} (hk : CommandAnswer s k) : CommandAnswer s (whenSetup s k) := by
  cases hs : s.setupState with
  | loaded => rw [whenSetup_loaded hs]; exact raise _ rfl
  | failed => rw [whenSetup_failed hs]; exact raise _ rfl
  | notLoaded => rwa [whenSetup_notLoaded hs]

theorem orFault {α : Type} {f : Fault} {o : Option α} {k : α → Res} (hn : o = none → CommandFault s f)
    (hk : ∀ a, CommandAnswer s (k a)) : CommandAnswer s (orFault f o k) := by
  cases o with
  | none => exact hn rfl
  | some a => exact hk a

theorem withMatch {K : Codebook} {k : Nat → State → Res} (hk : ∀ e p, matchCode K s = .entry e p → CommandAnswer s (k e (consumeTo p s))) :
    CommandAnswer s (withMatch K s k) := by
  unfold Machine.withMatch
  cases hm : matchCode K s with
  | entry e p => exact hk e p hm
  | badCode p => exact raise _ rfl
  | overrun p => exact raise _ rfl
  | unwritten => exact .unwrittenRead _ fun _ => rfl

/-! ### The commands -/

theorem execConfig (e0 e1 cbm1 : Nat) : CommandAnswer s (execConfig e0 e1 cbm1 s) :=
  whenSetup (ite (fun _ => rfl) fun _ => raise _ rfl)

/-- CB_BUILD reads the multiplicands, which the host writes (R121). -/
theorem buildLookup (c : Nat) (K : Codebook) (hu : u.host = s.host) : CommandAnswer s (buildLookup c K u) :=
  check hu fun _ => check hu fun _ => check hu fun _ => check hu fun _ => check hu fun _ => check hu fun _ =>
    orFault (fun _ => .unwrittenRead _ fun _ => rfl) fun _ => hu

/-- CB_BUILD reads the code lengths, which the host writes (R121). -/
theorem buildBook (c : Nat) (K : Codebook) (hu : u.host = s.host) : CommandAnswer s (buildBook c K u) := by
  refine check hu fun _ => ?_
  dsimp only
  split
  · exact .unwrittenRead _ fun _ => rfl
  · exact raise _ hu
  · exact check hu fun _ => check hu fun _ => ite (fun _ => hu) fun _ => buildLookup _ _ hu

theorem execCbBuild (cb : Nat) : CommandAnswer s (execCbBuild cb s) :=
  whenSetup (whenLegal fun _ => check rfl fun _ => buildBook _ _ rfl)

theorem execFail (cls : Nat) : CommandAnswer s (execFail cls s) :=
  check rfl fun _ => whenLegal fun _ => raise _ rfl

theorem execDecBegin (ben : Bool) : CommandAnswer s (execDecBegin ben s) :=
  whenLegal fun _ => check rfl fun _ => ite (fun _ => rfl) fun _ => ite (fun _ => rfl) fun _ => rfl

theorem execBind : CommandAnswer s (execBind s) := whenLegal fun _ => ite (fun _ => rfl) fun _ => raise _ rfl

theorem execRdbits (n : Nat) : CommandAnswer s (execRdbits n s) :=
  whenLegal fun _ => check rfl fun _ => check rfl fun _ =>
    orFault (fun _ => .unwrittenRead _ fun _ => rfl) fun _ => rfl

theorem execHdec (cb : Nat) : CommandAnswer s (execHdec cb s) :=
  whenLegal fun _ => ite (fun _ => withMatch fun _ _ _ => rfl) fun _ => raise _ rfl

theorem execVdec (cb : Nat) : CommandAnswer s (execVdec cb s) :=
  whenLegal fun _ => ite
    (fun hr => check rfl fun hl =>
      withMatch fun _ _ hm => orFault (fun hv => .unwrittenVq fun hI => hI.vqEntry_ne_none hr hl hm hv) fun _ => rfl)
    fun _ => raise _ rfl

theorem execImdct (l p x z : Bool) : CommandAnswer s (execImdct l p x z s) :=
  whenLegal fun _ => ite (fun _ => rfl) fun _ => orFault (fun _ => .unwrittenRead _ fun _ => rfl) fun _ => rfl

theorem execWindow : CommandAnswer s (execWindow s) :=
  whenLegal fun hs => orFault (.work (by decide) hs) fun _ => rfl

theorem execOverlap : CommandAnswer s (execOverlap s) := by
  refine whenLegal fun hs => orFault (.work (by decide) hs) fun work => orFault (fun hn => ?_) fun prev => ?_
  · rw [Bool.and_eq_true] at hs
    exact .unwrittenRead _ fun hI => absurd hn (hI.prev_ne_none (isDecoding_iff.mp hs.1))
  · exact ((packetDone_host _ _).trans (savePrev_host _ _)).trans (emitSamples_host _ _)

/-- What every command answers. -/
theorem exec (i : Instr) : CommandAnswer s (exec i s) := by
  cases i with
  | nop => exact rfl
  | config e0 e1 cbm1 => exact execConfig e0 e1 cbm1
  | cbBuild cb => exact execCbBuild cb
  | sealSetup => exact whenSetup (whenLegal fun _ => rfl)
  | fail cls => exact execFail cls
  | decBegin ben => exact execDecBegin ben
  | bind => exact execBind
  | rdbits n => exact execRdbits n
  | hdec cb => exact execHdec cb
  | vdec cb => exact execVdec cb
  | imdct l p x z => exact execImdct l p x z
  | window => exact execWindow
  | overlap => exact execOverlap

theorem perform (w : Word) : CommandAnswer s (perform w s) := by
  cases hd : decode w with
  | ok i => exact perform_of_decode hd s ▸ exec i
  | error r =>
    simp only [Machine.perform, hd]
    exact raise _ rfl

/-- The completion of a command leaves the host's events alone too. -/
theorem runCommand : CommandAnswer s (runCommand s) := by
  have h := perform (s := s) s.cmdWord
  unfold Machine.runCommand
  generalize Machine.perform s.cmdWord s = k at h ⊢
  cases k with
  | next t | fault f | refused r => exact h

theorem ne_refused {k : Res} (h : CommandAnswer s k) (r : Refusal) : k ≠ .refused r := by
  rintro rfl
  exact h

theorem of_fault {k : Res} {f : Fault} (h : CommandAnswer s k) (hk : k = .fault f) : CommandFault s f := by
  subst hk
  exact h

theorem of_next {k : Res} {t : State} (h : CommandAnswer s k) (hk : k = .next t) : t.host = s.host := by
  subst hk
  exact h

end CommandAnswer

end Sys2Proof.Machine
end

section
/-!
Where a bus address leads (R64, R65, R68), and what a host access leaves alone.
-/

namespace Sys2Proof.Machine

/-! ## Where an address leads -/

section
variable {P : Params} {a : BusAddr}

theorem busPlace_misaligned (ha : a.toNat % 4 ≠ 0) : busPlace P a = none := by
  simp only [busPlace, if_pos ha]

/-- The register block (R65). -/
theorem busPlace_block (ha : a.toNat % 4 = 0) (hb : a.toNat < 2 ^ 20) : busPlace P a = Reg.all[a.toNat / 4]?.map .reg := by
  have hdiv : a.toNat / 2 ^ 20 = 0 := Nat.div_eq_of_lt hb
  simp only [busPlace, ha, hdiv, Nat.mod_eq_of_lt hb]
  cases Reg.all[a.toNat / 4]? <;> rfl

/-- The regions of RAM and the reserved ones (R68). -/
theorem busPlace_region (ha : a.toNat % 4 = 0) (hb : 2 ^ 20 ≤ a.toNat) :
    busPlace P a = (Region.ofCode (a.toNat / 2 ^ 20)).bind fun r => if a.toNat % 2 ^ 20 < r.bytes P then some (.ram r (a.toNat % 2 ^ 20)) else none := by
  have hdiv : a.toNat / 2 ^ 20 ≠ 0 := by omega
  simp only [busPlace, ha, hdiv, if_false, ne_eq, not_true_eq_false]
  cases Region.ofCode (a.toNat / 2 ^ 20) <;> rfl

theorem ofCode_eq_none {n : Nat} : Region.ofCode n = none ↔ n = 0 ∨ 9 ≤ n := by
  match n with
  | 0 | 1 | 2 | 3 | 4 | 5 | 6 | 7 | 8 => decide
  | n + 9 => exact iff_of_true rfl (.inr (Nat.le_add_left 9 n))

theorem ofCode_eq_some {n : Nat} {r : Region} (h : Region.ofCode n = some r) : r.code = n := by
  unfold Region.ofCode at h
  split at h <;> cases h <;> rfl

/-- A register has one address. -/
theorem busPlace_eq_reg {r : Reg} (h : busPlace P a = some (.reg r)) : a = BitVec.ofNat 24 r.offset := by
  have hnodup : Reg.all.Nodup := by decide
  by_cases ha : a.toNat % 4 = 0
  · by_cases hb : a.toNat < 2 ^ 20
    · rw [busPlace_block ha hb] at h
      obtain ⟨_, hr, hreg⟩ := Option.map_eq_some_iff.mp h
      cases hreg
      obtain ⟨hlt, rfl⟩ := List.getElem?_eq_some_iff.mp hr
      rw [Reg.offset, hnodup.idxOf_getElem, Nat.mul_div_cancel' (Nat.dvd_of_mod_eq_zero ha), BitVec.ofNat_toNat, BitVec.setWidth_eq]
    · rw [busPlace_region ha (Nat.le_of_not_lt hb)] at h
      obtain ⟨_, -, hr⟩ := Option.bind_eq_some_iff.mp h
      split at hr <;> cases hr
  · rw [busPlace_misaligned ha] at h
    cases h

/-- An aligned address beyond the register block is out of bounds in its region, or in none (R65, R68). -/
theorem busPlace_region_eq_none_iff (ha : a.toNat % 4 = 0) (hb : 2 ^ 20 ≤ a.toNat) :
    busPlace P a = none ↔ 9 * 2 ^ 20 ≤ a.toNat ∨ ∃ r, Spec.base r + Spec.size P r ≤ a.toNat ∧ a.toNat < Spec.base r + 2 ^ 20 := by
  simp only [busPlace_region ha hb, base_eq, size_eq_bytes]
  cases hr : Region.ofCode (a.toNat / 2 ^ 20) with
  | none =>
    have hn := ofCode_eq_none.mp hr
    exact ⟨fun _ => .inl (by omega), fun _ => rfl⟩
  | some r =>
    have hc := ofCode_eq_some hr
    have hlt := r.code_lt
    simp only [Option.bind_some, ite_eq_right_iff, reduceCtorEq, imp_false]
    refine ⟨fun h => .inr ⟨r, by omega, by omega⟩, ?_⟩
    rintro (h | ⟨r', h1, h2⟩)
    · omega
    · obtain rfl : r' = r := Region.code_inj (by omega)
      omega

/-- The bad addresses of R64, R65 and R68 are those that lead nowhere. -/
theorem busPlace_eq_none_iff : busPlace P a = none ↔ Spec.badAddress P a.toNat := by
  unfold Spec.badAddress
  by_cases ha : a.toNat % 4 = 0
  · by_cases hb : a.toNat < 2 ^ 20
    · have hlen : Reg.all.length = 29 := rfl
      rw [busPlace_block ha hb, Option.map_eq_none_iff, List.getElem?_eq_none_iff, hlen]
      refine ⟨fun h => .inr (.inl ⟨hb, by omega⟩), ?_⟩
      rintro (h | h | h | ⟨r, h, -⟩)
      · omega
      · omega
      · omega
      · have := r.code_lt
        rw [base_eq] at h
        omega
    · rw [busPlace_region_eq_none_iff ha (by omega)]
      refine ⟨fun h => .inr (.inr h), ?_⟩
      rintro (h | h | h)
      · exact absurd ha h
      · omega
      · exact h
  · exact iff_of_true (busPlace_misaligned ha) (.inl ha)

end

end Sys2Proof.Machine
end

section
/-!
Faults and the BUSY rule (R66, R274, R275), bus errors (R69), setup-table writes (R70) and the words of the binary32 regions (R61).
-/

namespace Sys2Proof.Machine

/-! ## Where a step stops -/

theorem busyEvent_ne_refused (e : HostEvent) (s : State) (r : Refusal) : busyEvent e s ≠ .refused r := by
  cases e with
  | write a w =>
    rw [busyEvent]
    split <;> nofun
  | read a =>
    rw [busyEvent]
    split <;> nofun
  | wait | reset => nofun

/-- Only the host's own access meets the hazard, and neither WAIT nor reset does (R66, R275). -/
theorem busyEvent_fault {e : HostEvent} {s : State} {f : Fault} (h : busyEvent e s = .fault f) : f = .busyAccess ∧ e ≠ .wait ∧ e ≠ .reset := by
  cases e with
  | write a w =>
    rw [busyEvent] at h
    split at h <;> cases h
    exact ⟨rfl, nofun, nofun⟩
  | read a =>
    rw [busyEvent] at h
    split at h <;> cases h
    exact ⟨rfl, nofun, nofun⟩
  | wait | reset => cases h

theorem step_ne_refused (s : State) (r : Refusal) : step s ≠ .refused r := by
  intro h
  rcases step_cases s with ⟨_, n, e, rest, _, _, hs⟩ | ⟨_, _, hs⟩ | ⟨_, _, hs⟩ | ⟨_, e, rest, _, hs⟩ <;> rw [hs] at h
  · exact busyEvent_ne_refused _ _ _ h
  · exact CommandAnswer.runCommand.ne_refused r h
  all_goals cases h

/-- The two ways to a fault: the host's access in the BUSY hazard, and the command that is due. -/
theorem step_fault {s : State} {f : Fault} (h : step s = .fault f) :
    (f = .busyAccess ∧ s.busy = true ∧ ∃ e rest, s.host = e :: rest ∧ e ≠ .wait ∧ e ≠ .reset) ∨ CommandFault s f := by
  rcases step_cases s with ⟨hb, n, e, rest, _, hh, hs⟩ | ⟨_, _, hs⟩ | ⟨_, _, hs⟩ | ⟨_, e, rest, _, hs⟩ <;> rw [hs] at h
  · obtain ⟨hf, he⟩ := busyEvent_fault h
    exact .inl ⟨hf, hb, e, rest, hh, he⟩
  · exact .inr (CommandAnswer.runCommand.of_fault h)
  all_goals cases h

/-! ## What a host access leaves alone -/

/-- BUSY and the host's further events are the same. -/
def SamePace (s t : State) : Prop := t.busy = s.busy ∧ t.host = s.host

theorem setupTableWrite_notLoaded {s : State} (hs : s.setupState = .notLoaded) (store : State → State) :
    setupTableWrite store s = (store s).setBook s.cbSel.toNat ((store s).book s.cbSel.toNat).unbuild := if_pos hs

theorem setupTableWrite_over {s : State} (hs : s.setupState ≠ .notLoaded) (store : State → State) :
    setupTableWrite store s = { s with ignored := true } := if_neg hs

theorem SamePace.setupTableWrite {s : State} {store : State → State} (h : SamePace s (store s)) : SamePace s (setupTableWrite store s) := by
  by_cases hs : s.setupState = .notLoaded
  · rw [setupTableWrite_notLoaded hs]
    exact h
  · rw [setupTableWrite_over hs]
    exact ⟨rfl, rfl⟩

/-- Of the registers only CMD starts a command (R24). -/
theorem SamePace.writeReg {r : Reg} (hr : r ≠ .cmd) (w : Word) (s : State) : SamePace s (writeReg w s r) := by
  cases r with
  | cmd => exact absurd rfl hr
  | sampleCount | packetCount =>
    rw [Machine.writeReg]
    split <;> exact ⟨rfl, rfl⟩
  | cbEntries | cbDims | cbLookup | cbMin | cbDelta | cbNmult => exact setupTableWrite ⟨rfl, rfl⟩
  | _ => exact ⟨rfl, rfl⟩

theorem SamePace.hostWrite {a : BusAddr} (ha : a ≠ cmdAddr) (w : Word) (s : State) : SamePace s (hostWrite a w s) := by
  unfold Machine.hostWrite
  cases hp : busPlace s.params a with
  | none => exact ⟨rfl, rfl⟩
  | some p =>
    cases p with
    | reg r => exact writeReg (fun hr => ha (busPlace_eq_reg (hr ▸ hp))) w s
    | ram r off =>
      cases r with
      | cbLen | cbMult => exact setupTableWrite ⟨rfl, rfl⟩
      | _ => exact ⟨rfl, rfl⟩

theorem hostWrite_cmd (w : Word) (s : State) : hostWrite cmdAddr w s = acceptCommand w s := hostWrite_offset .cmd w s

/-- A host read changes nothing but the word on the bus, unless it is a bus error (R67, R69). -/
theorem hostRead_of_place {a : BusAddr} {s : State} (h : busPlace s.params a ≠ none) : hostRead a s = { s with busOut := (hostRead a s).busOut } := by
  unfold hostRead
  split
  · exact absurd ‹_› h
  · rfl
  · rfl

theorem hostRead_of_bad {a : BusAddr} {s : State} (h : busPlace s.params a = none) : hostRead a s = { recordBusError s with busOut := 0 } := by
  simp only [hostRead, h]

theorem hostWrite_of_bad {a : BusAddr} {s : State} (h : busPlace s.params a = none) (w : Word) : hostWrite a w s = recordBusError s := by
  simp only [hostWrite, h]

theorem SamePace.hostRead (a : BusAddr) (s : State) : SamePace s (hostRead a s) := by
  by_cases h : busPlace s.params a = none
  · rw [hostRead_of_bad h]
    exact ⟨rfl, rfl⟩
  · rw [hostRead_of_place h]
    exact ⟨rfl, rfl⟩

/-- An event of the host while BUSY is 0 starts a command, resets the core, or leaves its pace alone. -/
theorem idleEvent_cases (e : HostEvent) (s : State) :
    (∃ w, e = .write cmdAddr w ∧ idleEvent e s = acceptCommand w s) ∨ idleEvent e s = applyReset s ∨ SamePace s (idleEvent e s) := by
  cases e with
  | write a w =>
    by_cases ha : a = cmdAddr
    · exact .inl ⟨w, by rw [ha], by rw [idleEvent, ha, hostWrite_cmd]⟩
    · exact .inr (.inr (SamePace.hostWrite ha w s))
  | read a => exact .inr (.inr (SamePace.hostRead a s))
  | wait => exact .inr (.inr (SamePace.hostRead statusAddr s))
  | reset => exact .inr (.inl rfl)

/-! ## The BUSY rule (R275) -/

/-- The host's next event is none that the hazard forbids. -/
def Pauses (events : List HostEvent) : Prop := ∀ e ∈ events.head?, e = .wait ∨ e = .reset

theorem keepsBusyRule_tail {e : HostEvent} {rest : List HostEvent} (h : keepsBusyRule (e :: rest) = true) : keepsBusyRule rest = true := by
  cases e with
  | write a w =>
    cases rest with
    | nil => rfl
    | cons e' rest => exact (Bool.and_eq_true_iff.mp h).2
  | read a | wait | reset => exact h

theorem keepsBusyRule_cmd {w : Word} {rest : List HostEvent} (h : keepsBusyRule (.write cmdAddr w :: rest) = true) : Pauses rest := by
  cases rest with
  | nil => nofun
  | cons e rest =>
    rintro _ ⟨⟩
    simpa using (Bool.and_eq_true_iff.mp h).1

/-- A host that keeps the rule from here on: while a command runs, its next event is WAIT or reset. -/
structure KeepsRule (s : State) : Prop where
  events : keepsBusyRule s.host = true
  pauses : s.busy = true → Pauses s.host

theorem KeepsRule.ne_busyAccess {s : State} (h : KeepsRule s) : step s ≠ .fault .busyAccess := by
  intro hf
  rcases step_fault hf with ⟨_, hb, e, rest, hh, hw, hr⟩ | hc
  · exact (h.pauses hb e (by rw [hh]; rfl)).elim hw hr
  · cases hc

theorem KeepsRule.step {s t : State} (h : KeepsRule s) (ht : step s = .next t) : KeepsRule t := by
  rcases step_cases s with ⟨hb, n, e, rest, _, hh, hs⟩ | ⟨hb, _, hs⟩ | ⟨_, _, hs⟩ | ⟨hb, e, rest, hh, hs⟩ <;> rw [hs] at ht
  · have hkeeps : keepsBusyRule (e :: rest) = true := hh ▸ h.events
    rcases h.pauses hb e (by rw [hh]; rfl) with rfl | rfl <;> cases ht
    · exact ⟨hkeeps, fun _ _ he => .inl (Option.some.inj he).symm⟩
    · exact ⟨keepsBusyRule_tail hkeeps, nofun⟩
  · have hhost : t.host = s.host := CommandAnswer.runCommand.of_next ht
    have hidle : t.busy = false := by
      rcases runCommand_next ht with ⟨c, rfl⟩ | ⟨i, u, _, _, rfl⟩ <;> rfl
    exact ⟨hhost ▸ h.events, fun hb => by simp [hidle] at hb⟩
  · cases ht
    exact h
  · have hkeeps : keepsBusyRule (e :: rest) = true := hh ▸ h.events
    have htail := keepsBusyRule_tail hkeeps
    obtain rfl := Host.Outcome.next.inj ht
    rcases idleEvent_cases e { s with host := rest } with ⟨w, rfl, he⟩ | he | ⟨hbusy, hhost⟩
    · rw [he]
      exact ⟨htail, fun _ => keepsBusyRule_cmd hkeeps⟩
    · rw [he]
      exact ⟨htail, nofun⟩
    · exact ⟨hhost ▸ htail, fun hb' => absurd (hb.symm.trans (hbusy.symm.trans hb')) Bool.false_ne_true⟩

/-- A run goes on from the next state, or stops with what the step answers. -/
theorem run_succ_cases (k : Nat) (s : State) :
    (∃ t, step s = .next t ∧ Host.Core.run core (k + 1) s = Host.Core.run core k t) ∨ Host.Core.run core (k + 1) s = step s := by
  cases hs : step s with
  | next t => exact .inl ⟨t, rfl, by simp only [Host.Core.run, show core.step s = .next t from hs]⟩
  | fault f => exact .inr (by simp only [Host.Core.run, show core.step s = .fault f from hs]; rfl)
  | refused r => exact .inr (by simp only [Host.Core.run, show core.step s = .refused r from hs]; rfl)

theorem KeepsRule.run {s : State} (h : KeepsRule s) (k : Nat) : Host.Core.run core k s ≠ .fault .busyAccess := by
  induction k generalizing s with
  | zero => nofun
  | succ k ih =>
    rcases run_succ_cases k s with ⟨t, hs, hk⟩ | hk
    · exact hk ▸ ih (h.step hs)
    · exact hk ▸ h.ne_busyAccess

/-! ## Setup-table writes (R70) -/

/-- What a write to a descriptor register stores in the slot (R39); the other registers are none. -/
def Reg.bookStore (w : Word) : Reg → Option (Codebook → Codebook)
  | .cbEntries => some fun K => { K with entries := w }
  | .cbDims => some fun K => { K with dims := w }
  | .cbLookup => some fun K => { K with lookupType := w.extractLsb' 0 2, seqFlag := w.getLsbD 2 }
  | .cbMin => some fun K => { K with minimum := w }
  | .cbDelta => some fun K => { K with delta := w }
  | .cbNmult => some fun K => { K with nmult := w }
  | _ => none

theorem hostWrite_bookStore {w : Word} {r : Reg} {f : Codebook → Codebook} (h : r.bookStore w = some f) (s : State) :
    hostWrite (BitVec.ofNat 24 r.offset) w s = writeBookReg f s := by
  rw [hostWrite_offset]
  cases r <;> cases h <;> rfl

/-- The six addresses of the descriptor registers (R39). -/
theorem bookStore_of_mem {a : BusAddr} (ha : a ∈ [0x000054#24, 0x000058#24, 0x00005C#24, 0x000060#24, 0x000064#24, 0x000068#24]) (w : Word) :
    ∃ r f, Reg.bookStore w r = some f ∧ a = BitVec.ofNat 24 r.offset := by
  fin_cases ha
  · exact ⟨.cbEntries, _, rfl, rfl⟩
  · exact ⟨.cbDims, _, rfl, rfl⟩
  · exact ⟨.cbLookup, _, rfl, rfl⟩
  · exact ⟨.cbMin, _, rfl, rfl⟩
  · exact ⟨.cbDelta, _, rfl, rfl⟩
  · exact ⟨.cbNmult, _, rfl, rfl⟩

theorem writeBookReg_notLoaded {s : State} (hs : s.setupState = .notLoaded) (f : Codebook → Codebook) :
    writeBookReg f s = s.setBook s.cbSel.toNat (f (s.book s.cbSel.toNat)).unbuild := by
  rw [writeBookReg, setupTableWrite_notLoaded hs, setBook_setBook, book_setBook_same _ _ _ s.cbSel.isLt, State.selBook]

/-- The codebook windows lead to the tables of CB[CB_SEL] (R45). -/
theorem hostWrite_window {s : State} {r : Region} {i : Nat} (hP : s.params.Legal) (hr : r ∈ [Region.cbLen, .cbMult])
    (hi : 4 * i < r.bytes s.params) (w : Word) :
    hostWrite (Spec.at_ r (4 * i)) w s = setupTableWrite (fun s => s.writeWords r s.cbSel.toNat i [w]) s := by
  simp only [hostWrite, busPlace_at hP hi (Nat.mul_mod_right 4 i), Nat.mul_div_cancel_left i (by decide : 0 < 4)]
  fin_cases hr <;> rfl

theorem busBank_window (s : State) {r : Region} (hr : r ∈ [Region.cbLen, .cbMult]) : s.busBank r = s.cbSel.toNat := by
  fin_cases hr <;> rfl

/-! ## Words on the bus -/

theorem wordOfBytes?_eq_some {o0 o1 o2 o3 : Option Byte} {w : Word} (h : wordOfBytes? o0 o1 o2 o3 = some w) :
    ∃ b0 b1 b2 b3, o0 = some b0 ∧ o1 = some b1 ∧ o2 = some b2 ∧ o3 = some b3 ∧ wordOfBytes b0 b1 b2 b3 = w := by
  unfold wordOfBytes? at h
  split at h
  · exact ⟨_, _, _, _, rfl, rfl, rfl, rfl, Option.some.inj h⟩
  · cases h

/-- A host read of a word that has a value returns it bit for bit (R60, R61). -/
theorem hostRead_of_readWord {s : State} {r : Region} {i : Nat} {w : Word} (hP : s.params.Legal) (hi : 4 * i < r.bytes s.params)
    (h : s.readWord r (s.busBank r) i = some w) : (hostRead (Spec.at_ r (4 * i)) s).busOut = w := by
  obtain ⟨b0, b1, b2, b3, h0, h1, h2, h3, rfl⟩ := wordOfBytes?_eq_some h
  simp only [hostRead_at hP hi, hostWord, hostByte, h0, h1, h2, h3, Option.getD_some]

/-- One word stored in RAM: it is read back, and no byte beside it changes. -/
theorem writeWord_frame (s : State) (r : Region) (b i : Nat) (w : Word) :
    (s.writeWords r b i [w]).readWord r b i = some w ∧
      ∀ k, ¬(regionKey r b (4 * i) ≤ k ∧ k < regionKey r b (4 * i) + 4) → (s.writeWords r b i [w]).mem.read k = s.mem.read k :=
  ⟨readWord_writeWords s r b i 0 [w] w rfl, fun _ hk => Memory.read_writeWords_of_outside _ _ _ _ (by simp only [List.length_singleton]; omega)⟩

end Sys2Proof.Machine

namespace Sys2Proof.Proofs

open Sys2Proof.Machine

/-- Settles O56: by the two ways to a fault, of which the command's own is a read of RAM that the host has to write. -/
theorem faultsAreTheHosts : Obligations.FaultsAreTheHosts := by
  refine fun s => ⟨step_ne_refused s, fun f hI hf => ?_⟩
  rcases step_fault hf with ⟨rfl, hb, -⟩ | hc
  · exact .inl ⟨rfl, hb⟩
  · cases hc with
    | unwrittenRead r hr =>
      refine .inr ⟨r, ?_, rfl⟩
      cases r with
      | pkt | cbLen | cbMult | coef => decide
      | vout | work | prev | pcm => cases hr hI
    | unwrittenVq hn => exact absurd hI hn

/-- Settles O57: `KeepsRule` holds of an idle core whose host keeps the rule, every step keeps it, and under it no step meets the hazard. -/
theorem busyRuleIsSafe : Obligations.BusyRuleIsSafe := fun _ k hb hk => KeepsRule.run ⟨hk, fun h => by simp [hb] at h⟩ k

/-- Settles O13: the bad addresses are those that lead nowhere. -/
theorem busErrors : Obligations.BusErrors := fun _ _ w =>
  ⟨fun h => ⟨hostWrite_of_bad (busPlace_eq_none_iff.mpr h) w, hostRead_of_bad (busPlace_eq_none_iff.mpr h)⟩,
   fun h => hostRead_of_place (mt busPlace_eq_none_iff.mp h)⟩

/-- Settles O14: by SETUP_STATE, for the descriptor registers and the windows; `RegisterWrites` has CB_SEL. -/
theorem setupTableWrites : Obligations.SetupTableWrites := by
  intro s w hP
  obtain ⟨-, -, -, hsel, -⟩ := registerWrites s w
  refine ⟨fun hs => ?_, fun hs a i ha => ?_, hsel⟩
  · have hreg {r : Reg} {f : Codebook → Codebook} (hr : r.bookStore w = some f) :
        hostWrite (BitVec.ofNat 24 r.offset) w s = s.setBook s.cbSel.toNat (f (s.book s.cbSel.toNat)).unbuild := by
      rw [hostWrite_bookStore hr, writeBookReg_notLoaded hs]
    refine ⟨(hreg (r := .cbEntries) rfl :), (hreg (r := .cbDims) rfl :), (hreg (r := .cbLookup) rfl :), (hreg (r := .cbMin) rfl :),
      (hreg (r := .cbDelta) rfl :), (hreg (r := .cbNmult) rfl :), fun r hr i hi => ?_⟩
    rw [size_eq_bytes] at hi
    rw [hostWrite_window hP hr hi, setupTableWrite_notLoaded hs]
    obtain ⟨hword, hframe⟩ := writeWord_frame s r s.cbSel.toNat i w
    refine ⟨_, rfl, rfl, hword, hostRead_of_readWord hP hi ?_, hframe⟩
    rw [busBank_window _ hr]
    exact hword
  · obtain ⟨store, hstore⟩ : ∃ store, hostWrite a w s = setupTableWrite store s := by
      rcases ha with ha | ⟨r, hr, hi, rfl⟩
      · obtain ⟨r, f, hf, rfl⟩ := bookStore_of_mem ha w
        exact ⟨_, hostWrite_bookStore hf s⟩
      · exact ⟨_, hostWrite_window hP hr (size_eq_bytes s.params r ▸ hi) w⟩
    rw [hstore, setupTableWrite_over hs]

/-- Settles O16: a bus word of COEF is stored as it is, and a bus read puts the four stored bytes together again. -/
theorem floatWordsKept : Obligations.FloatWordsKept := by
  intro s i hP
  refine ⟨fun hi w => ⟨_, rfl, ?_⟩, fun r hr hi w hw => ?_⟩
  · have hbytes : 4 * i < Region.bytes s.params .coef := Nat.mul_lt_mul_of_pos_left hi (by decide)
    obtain ⟨hword, hframe⟩ := writeWord_frame s .coef 0 i w
    rw [hostWrite_at hP hbytes (.inr rfl)]
    exact ⟨rfl, hword, hframe⟩
  · have hbank : s.busBank r = 0 := busBank_zero s (by fin_cases hr <;> decide)
    exact hostRead_of_readWord hP (size_eq_bytes s.params r ▸ hi) (hbank ▸ hw)

end Sys2Proof.Proofs
end

section
/-!
Encodings (R80-R91, R96): the operand that each command packs, and the decoder as the inverse of the encoder.
-/

namespace Sys2Proof.Laws

open Sys2Proof.Machine

/-! ## Fields of an operand (R88) -/

theorem field_lt (x lo width : Nat) : field x lo width < 2 ^ width := Nat.mod_lt _ (Nat.two_pow_pos width)

/-- A field as wide as the operand in use is the operand. -/
theorem field_zero_of_lt {x width : Nat} (h : x < 2 ^ width) : field x 0 width = x := by
  rw [field, pow_zero, Nat.div_one, Nat.mod_eq_of_lt h]

theorem toNat_flag (x i : Nat) : (flag x i).toNat = field x i 1 := by
  have h : field x i 1 < 2 := field_lt x i 1
  rw [flag]
  interval_cases field x i 1 <;> rfl

theorem operandFits_eq_ok_iff {x used : Nat} {i j : Instr} : operandFits x used i = .ok j ↔ x < 2 ^ used ∧ i = j := by
  simp only [operandFits, Nat.div_eq_zero_iff_lt (Nat.two_pow_pos used)]
  split <;> simp [*]

/-! ## Opcode and operand -/

theorem wellFormed_config_iff {e0 e1 cbm1 : Nat} : WellFormed (.config e0 e1 cbm1) ↔ e0 < 16 ∧ e1 < 16 ∧ cbm1 < 256 := by
  simp [WellFormed, Instr.wf, and_assoc]

/-- The operand of a command's word (R81-R87). -/
def operand : Instr → Nat
  | .nop | .sealSetup | .bind | .window | .overlap => 0
  | .config e0 e1 cbm1 => cbm1 * 2 ^ 8 + e1 * 2 ^ 4 + e0
  | .cbBuild cb | .hdec cb | .vdec cb => cb
  | .fail cls => cls
  | .decBegin ben => ben.toNat
  | .rdbits n => n
  | .imdct long prevlong nextlong zero => long.toNat + prevlong.toNat * 2 + nextlong.toNat * 4 + zero.toNat * 8

theorem encode_eq_commandWord (i : Instr) : encode i = commandWord (opcode i) (operand i) := by
  cases i <;> rfl

theorem opcode_lt (i : Instr) : opcode i < 256 := by
  cases i <;> simp [opcode]

/-- No format has more than the 16 operand bits of CONFIG's. -/
theorem operand_lt {i : Instr} (h : WellFormed i) : operand i < 2 ^ 16 := by
  cases i with
  | nop | sealSetup | bind | window | overlap => exact Nat.two_pow_pos 16
  | config e0 e1 cbm1 =>
    rw [wellFormed_config_iff] at h
    simp only [operand]
    omega
  | cbBuild n | hdec n | vdec n | fail n | rdbits n => exact (of_decide_eq_true h).trans (by decide)
  | decBegin ben => exact ben.toNat_lt.trans (by decide)
  | imdct long prevlong nextlong zero =>
    have hl := long.toNat_lt
    have hp := prevlong.toNat_lt
    have hn := nextlong.toNat_lt
    have hz := zero.toNat_lt
    simp only [operand]
    omega

/-- A word is its opcode over its operand (R80). -/
theorem commandWord_opcodeOf_operandOf (w : Word) : commandWord (opcodeOf w) (operandOf w) = w := by
  rw [commandWord, opcodeOf, operandOf, Nat.div_add_mod', BitVec.ofNat_toNat, BitVec.setWidth_eq]

/-! ## The decoder -/

/-- The flags of format K are those of the operand that they make up (R87). -/
theorem flag_operand_imdct : ∀ long prevlong nextlong zero : Bool,
    let x := operand (.imdct long prevlong nextlong zero)
    x < 2 ^ 4 ∧ flag x 0 = long ∧ flag x 1 = prevlong ∧ flag x 2 = nextlong ∧ flag x 3 = zero := by
  decide

theorem operand_flags {x : Nat} (h : x < 2 ^ 4) : operand (.imdct (flag x 0) (flag x 1) (flag x 2) (flag x 3)) = x := by
  simp only [operand, toNat_flag, field]
  omega

/-- The fields of format G are those of the operand that they make up (R82). -/
theorem field_operand_config {e0 e1 cbm1 : Nat} (h : WellFormed (.config e0 e1 cbm1)) :
    let x := operand (.config e0 e1 cbm1)
    field x 0 4 = e0 ∧ field x 4 4 = e1 ∧ field x 8 8 = cbm1 := by
  rw [wellFormed_config_iff] at h
  simp only [operand, field]
  omega

theorem operand_fields {x : Nat} (h : x < 2 ^ 16) : operand (.config (field x 0 4) (field x 4 4) (field x 8 8)) = x := by
  simp only [operand, field]
  omega

/-- By format (R81-R87): no operand, CONFIG's three fields, one field, the flag of DEC_BEGIN, the flags of IMDCT. -/
theorem decode_of_opcode_operand {w : Word} {i : Instr} (h : WellFormed i) (hop : opcodeOf w = opcode i) (hx : operandOf w = operand i) :
    decode w = .ok i := by
  have hlt := operand_lt h
  cases i with
  | nop | sealSetup | bind | window | overlap =>
    simp only [decode, hop, hx, opcode, operand]
    rfl
  | config e0 e1 cbm1 =>
    obtain ⟨h0, h1, h2⟩ := field_operand_config h
    simp only [decode, hop, hx, opcode, h0, h1, h2]
    exact operandFits_eq_ok_iff.mpr ⟨hlt, rfl⟩
  | cbBuild n | hdec n | vdec n | fail n | rdbits n =>
    have hn := of_decide_eq_true h
    simp only [decode, hop, hx, opcode, operand]
    exact operandFits_eq_ok_iff.mpr ⟨hn, congrArg _ (field_zero_of_lt hn)⟩
  | decBegin ben =>
    simp only [decode, hop, hx, opcode, operand]
    cases ben <;> rfl
  | imdct long prevlong nextlong zero =>
    obtain ⟨hx4, h0, h1, h2, h3⟩ := flag_operand_imdct long prevlong nextlong zero
    simp only [decode, hop, hx, opcode, h0, h1, h2, h3]
    exact operandFits_eq_ok_iff.mpr ⟨hx4, rfl⟩

/-- By the opcode's format, in the order of `decode_of_opcode_operand`; a reserved opcode gives no command. -/
theorem opcode_operand_of_decode {w : Word} {i : Instr} (h : decode w = .ok i) :
    WellFormed i ∧ opcodeOf w = opcode i ∧ operandOf w = operand i := by
  unfold decode at h
  split at h
  case h_1 hop | h_4 hop | h_7 hop | h_12 hop | h_13 hop =>
    obtain ⟨hx, rfl⟩ := operandFits_eq_ok_iff.mp h
    exact ⟨rfl, hop, Nat.lt_one_iff.mp hx⟩
  case h_2 hop =>
    obtain ⟨hx, rfl⟩ := operandFits_eq_ok_iff.mp h
    exact ⟨wellFormed_config_iff.mpr ⟨field_lt _ 0 4, field_lt _ 4 4, field_lt _ 8 8⟩, hop, (operand_fields hx).symm⟩
  case h_3 hop | h_5 hop | h_8 hop | h_9 hop | h_10 hop =>
    obtain ⟨hx, rfl⟩ := operandFits_eq_ok_iff.mp h
    exact ⟨decide_eq_true (field_lt _ 0 _), hop, (field_zero_of_lt hx).symm⟩
  case h_6 hop =>
    obtain ⟨hx, rfl⟩ := operandFits_eq_ok_iff.mp h
    exact ⟨rfl, hop, ((toNat_flag _ 0).trans (field_zero_of_lt hx)).symm⟩
  case h_11 hop =>
    obtain ⟨hx, rfl⟩ := operandFits_eq_ok_iff.mp h
    exact ⟨rfl, hop, (operand_flags hx).symm⟩
  case h_14 => cases h

end Sys2Proof.Laws

namespace Sys2Proof.Proofs

open Sys2Proof.Machine Sys2Proof.Laws

/-- Settles O1: the word of a well-formed command has that command's opcode and operand, and the decoder goes by these two. -/
theorem decodeOfEncode : Obligations.DecodeOfEncode := by
  intro i h
  have hx : operand i < 2 ^ 24 := (operand_lt h).trans (by decide)
  rw [encode_eq_commandWord]
  exact decode_of_opcode_operand h (opcodeOf_ofNat (opcode_lt i) hx) (operandOf_ofNat (opcode i) hx)

/-- Settles O2: a word that decodes has the opcode and the operand of its command, and nothing else is in a word. -/
theorem onlyEncodingsDecode : Obligations.OnlyEncodingsDecode := by
  intro w i h
  obtain ⟨hwf, hop, hx⟩ := opcode_operand_of_decode h
  refine ⟨hwf, ?_⟩
  rw [encode_eq_commandWord, ← hop, ← hx, commandWord_opcodeOf_operandOf]

/-- Settles O3: each word is the encoding of its command, which is well-formed. -/
theorem specWordsDecode : Obligations.SpecWordsDecode := by
  have h {i : Instr} {w : Word} (hi : WellFormed i) (hw : encode i = w) : decode w = .ok i := hw ▸ decodeOfEncode i hi
  exact ⟨h rfl rfl, h rfl rfl, h rfl rfl, h rfl rfl, h rfl rfl, h rfl rfl, h rfl rfl, h rfl rfl, h rfl rfl, h rfl rfl, h rfl rfl,
    h rfl rfl, h rfl rfl⟩

end Sys2Proof.Proofs
end

section
/-!
The bit reader (R100-R104): a read as the sum of the spec's bits, two reads in a row, and BIND and RDBITS case by case.
-/

namespace Sys2Proof.Machine

open Spec (BitIs)

theorem packetBit_eq_some_iff {s : State} {j : Nat} {b : Bool} : packetBit s j = some b ↔ BitIs s j b := by
  unfold packetBit BitIs
  cases s.readByte .pkt (s.lbase.toNat + j / 8) <;> simp

/-! ## Reading bits (R101, R103) -/

theorem readBits_succ {s : State} {p n r : Nat} {b : Bool} (hb : packetBit s p = some b) (hr : readBits s (p + 1) n = some r) :
    readBits s p (n + 1) = some (b.toNat + 2 * r) := by
  simp only [readBits, hb, hr]

/-- The ways of a read of at least one bit. -/
theorem readBits_succ_eq_some {s : State} {p n r : Nat} (h : readBits s p (n + 1) = some r) :
    ∃ b r', packetBit s p = some b ∧ readBits s (p + 1) n = some r' ∧ r = b.toNat + 2 * r' := by
  unfold readBits at h
  split at h
  · exact ⟨_, _, ‹_›, ‹_›, (Option.some.inj h).symm⟩
  · cases h

/-- The first bit read is the least significant (R101). -/
theorem readBits_eq_sum {s : State} {p n : Nat} {b : Nat → Bool} (h : ∀ k, k < n → packetBit s (p + k) = some (b k)) :
    readBits s p n = some (∑ k ∈ Finset.range n, (b k).toNat * 2 ^ k) := by
  induction n generalizing p b with
  | zero => rfl
  | succ n ih =>
    have hrest : readBits s (p + 1) n = _ := ih (b := fun k => b (k + 1)) fun k hk => by
      rw [Nat.add_right_comm]
      exact h (k + 1) (by omega)
    have hfirst : packetBit s p = some (b 0) := h 0 n.succ_pos
    rw [readBits_succ hfirst hrest, Finset.sum_range_succ', Finset.mul_sum, Nat.add_comm]
    simp only [pow_succ, pow_zero, Nat.mul_one]
    congr 2
    exact Finset.sum_congr rfl fun k _ => by ring

theorem readBits_lt {s : State} {p n r : Nat} (h : readBits s p n = some r) : r < 2 ^ n := by
  induction n generalizing p r with
  | zero =>
    obtain rfl : 0 = r := Option.some.inj h
    exact Nat.one_pos
  | succ n ih =>
    obtain ⟨b, r', -, hr, rfl⟩ := readBits_succ_eq_some h
    have hlt := ih hr
    have hb := b.toNat_lt
    rw [pow_succ]
    omega

/-- A read of at most 32 bits fits RESULT. -/
theorem readBits_lt_word {s : State} {p n r : Nat} (h : readBits s p n = some r) (hn : n ≤ 32) : r < 2 ^ 32 :=
  (readBits_lt h).trans_le (Nat.pow_le_pow_right Nat.two_pos hn)

/-- R104, on the values read. -/
theorem readBits_add {s : State} {p a b r₁ r₂ : Nat} (h₁ : readBits s p a = some r₁) (h₂ : readBits s (p + a) b = some r₂) :
    readBits s p (a + b) = some (r₁ + r₂ * 2 ^ a) := by
  induction a generalizing p r₁ with
  | zero =>
    obtain rfl : 0 = r₁ := Option.some.inj h₁
    simpa using h₂
  | succ a ih =>
    obtain ⟨x, r, hx, hr, rfl⟩ := readBits_succ_eq_some h₁
    have hrest := ih hr (by rwa [Nat.add_right_comm])
    rw [Nat.add_right_comm, readBits_succ hx hrest, pow_succ]
    congr 1
    ring

/-- What RDBITS leaves when it has read the value r in n bits (R103). -/
def afterRead (n r : Nat) (s : State) : State :=
  { s with result := BitVec.ofNat 32 r, bitPos := BitVec.ofNat 32 (s.bitPos.toNat + n) }

@[simp] theorem afterRead_decState (n r : Nat) (s : State) : (afterRead n r s).decState = s.decState := rfl
@[simp] theorem afterRead_bound (n r : Nat) (s : State) : (afterRead n r s).bound = s.bound := rfl
@[simp] theorem afterRead_result (n r : Nat) (s : State) : (afterRead n r s).result = BitVec.ofNat 32 r := rfl
@[simp] theorem afterRead_bitPos (n r : Nat) (s : State) : (afterRead n r s).bitPos = BitVec.ofNat 32 (s.bitPos.toNat + n) := rfl
@[simp] theorem packetBits_afterRead (n r : Nat) (s : State) : packetBits (afterRead n r s) = packetBits s := rfl
@[simp] theorem packetBit_afterRead (n r : Nat) (s : State) (j : Nat) : packetBit (afterRead n r s) j = packetBit s j := rfl

/-- A read leaves the packet as it was. -/
@[simp] theorem readBits_afterRead (n r : Nat) (s : State) (p m : Nat) : readBits (afterRead n r s) p m = readBits s p m := by
  induction m generalizing p with
  | zero => rfl
  | succ m ih => simp only [readBits, packetBit_afterRead, ih]

theorem isDecoding_and_bound {s : State} (hd : s.decState = .decoding) (hb : s.bound = true) : (s.isDecoding && s.bound) = true := by
  rw [isDecoding_iff.mpr hd, hb, Bool.and_self]

section Rdbits

variable {s : State} {n : Nat} (hd : s.decState = .decoding) (hb : s.bound = true) (hn : n ≤ 32)

include hd hb hn

/-- RDBITS with all its bits in the packet reads them (R103). -/
theorem execRdbits_of_le (hp : s.bitPos.toNat + n ≤ packetBits s) : execRdbits n s =
      orFault (.unwrittenRead .pkt) (readBits s s.bitPos.toNat n) fun r => .next (afterRead n r s) := by
  rw [execRdbits, whenLegal_of (isDecoding_and_bound hd hb), if_neg (Nat.not_lt.mpr hn), if_neg (Nat.not_lt.mpr hp)]
  rfl

theorem execRdbits_of_readBits {r : Nat} (hp : s.bitPos.toNat + n ≤ packetBits s) (hr : readBits s s.bitPos.toNat n = some r) :
    execRdbits n s = .next (afterRead n r s) := by
  rw [execRdbits_of_le hd hb hn hp, hr]
  rfl

theorem execRdbits_overrun (hp : packetBits s < s.bitPos.toNat + n) : execRdbits n s = raise (.decode .overrun s.bitPos) s := by
  rw [execRdbits, whenLegal_of (isDecoding_and_bound hd hb), if_neg (Nat.not_lt.mpr hn), if_pos hp]

/-- A legal read that leaves the decode running has read all its bits. -/
theorem execRdbits_decoding {t : State} (h : execRdbits n s = .next t) (ht : t.decState = .decoding) :
    s.bitPos.toNat + n ≤ packetBits s ∧ ∃ r, readBits s s.bitPos.toNat n = some r ∧ t = afterRead n r s := by
  rcases Nat.lt_or_ge (packetBits s) (s.bitPos.toNat + n) with hp | hp
  · rw [execRdbits_overrun hd hb hn hp] at h
    rw [raise_next.mp h] at ht
    cases ht
  · rw [execRdbits_of_le hd hb hn hp] at h
    obtain ⟨r, hr, h⟩ := orFault_next.mp h
    exact ⟨hp, r, hr, (Host.Outcome.next.inj h).symm⟩

end Rdbits

/-- RDBITS starts no decode. -/
theorem execRdbits_decoding_before {s t : State} {n : Nat} (h : execRdbits n s = .next t) (ht : t.decState = .decoding) : s.decState = .decoding := by
  rcases execRdbits_next h with ⟨c, rfl⟩ | ⟨hd, -⟩ | ⟨hd, -⟩
  · exact ht
  · exact hd
  · exact hd

/-- Under the invariant BITPOS is far from wrapping around: PKT has at most 2^20 bytes (R7, R21). -/
theorem Inv.bitPos_le {s : State} (h : Inv s) : s.bitPos.toNat ≤ 2 ^ 23 := by
  have hcap := h.params.1
  obtain ⟨hin, hpos⟩ := h.packet
  omega

end Sys2Proof.Machine

namespace Sys2Proof.Proofs

open Sys2Proof.Machine

/-- Settles O22: checks 4 and 5 of R246, and `packetFits`. -/
theorem bindResult : Obligations.BindResult := by
  refine fun s => ⟨fun hd => exec_illegal nofun hd, fun hd hp => exec_badParam hd hp, fun hd hp => ?_⟩
  have hf : packetFits s = true := decide_eq_true hp
  rw [exec, execBind, whenLegal_of (isDecoding_iff.mpr hd), if_pos hf]

/-- Settles O23: checks 4 and 5 of R246, the overrun, and the read as a sum of its bits. -/
theorem rdbitsResult : Obligations.RdbitsResult := by
  refine fun s n => ⟨fun hs => exec_illegal nofun ?_, fun hd hb hn => exec_badParam ⟨hd, hb⟩ hn,
    fun hd hb hn hp => execRdbits_overrun hd hb hn hp, fun hd hb hn hp b hbits => ?_⟩
  · rintro ⟨hd, hb⟩
    simp [hd, hb] at hs
  · exact execRdbits_of_readBits hd hb hn hp (readBits_eq_sum fun k hk => packetBit_eq_some_iff.mpr (hbits k hk))

/-- Settles O24: both reads succeed, the second in the packet of the first, so `readBits_add` gives the one read; its value fits RESULT. -/
theorem splitReads : Obligations.SplitReads := by
  intro s t₁ t₂ a b hI hd hb hab h₁ h₂ hd₂
  obtain ⟨-, r₁, hr₁, rfl⟩ := execRdbits_decoding hd hb (by omega) h₁ (execRdbits_decoding_before h₂ hd₂)
  obtain ⟨hp₂, r₂, hr₂, rfl⟩ := execRdbits_decoding (s := afterRead a r₁ s) hd hb (by omega) h₂ hd₂
  have hle := hI.bitPos_le
  have hpos : (BitVec.ofNat 32 (s.bitPos.toNat + a)).toNat = s.bitPos.toNat + a := toNat_ofNat32 (by omega)
  simp only [afterRead_bitPos, hpos, packetBits_afterRead, readBits_afterRead] at hp₂ hr₂
  have hr := readBits_add hr₁ hr₂
  refine ⟨afterRead (a + b) _ s, execRdbits_of_readBits hd hb hab (by omega) hr, ?_, ?_⟩
  · simp only [afterRead_bitPos, hpos, Nat.add_assoc]
  · simp only [afterRead_result, toNat_ofNat32 (readBits_lt_word hr hab), toNat_ofNat32 (readBits_lt_word hr₁ (by omega)),
      toNat_ofNat32 (readBits_lt_word hr₂ (by omega))]

end Sys2Proof.Proofs
end

section
/-!
The Huffman decoder (R128-R130): where the prefix walk ends on the bits that the packet spells, and HDEC and VDEC case by case.
-/

namespace Sys2Proof.Machine

open Spec (Spells IsCode Undecided PrefixFree)

/-! ## The prefix walk (R129) -/

theorem isProperPrefix_iff {codes : List (Option Codeword)} {c : Codeword} :
    isProperPrefix codes c = true ↔ ∃ d, IsCode codes d ∧ c <+: d ∧ c.length < d.length := by
  refine ⟨fun h => ?_, fun ⟨d, hd, hp, hl⟩ => isProperPrefix_of hd hp hl⟩
  obtain ⟨o, ho, h⟩ := List.any_eq_true.mp h
  cases o with
  | none => cases h
  | some d =>
    simp only [Bool.and_eq_true, List.isPrefixOf_iff_prefix, decide_eq_true_eq] at h
    exact ⟨d, ho, h⟩

/-- The walk goes on exactly at an undecided string. -/
theorem undecided_iff {codes : List (Option Codeword)} {c : Codeword} :
    Undecided codes c ↔ entryOf codes c = none ∧ isProperPrefix codes c = true := by
  rw [Undecided, entryOf_eq_none, isProperPrefix_iff, IsCode]

section Step

variable {s : State} {codes : List (Option Codeword)} {left pos : Nat} {c : Codeword} {b : Bool} (hb : packetBit s pos = some b)

include hb

theorem matchFrom_of_undecided (h : Undecided codes (c ++ [b])) :
    matchFrom s codes (left + 1) pos c = matchFrom s codes left (pos + 1) (c ++ [b]) := by
  obtain ⟨hn, hp⟩ := undecided_iff.mp h
  simp only [matchFrom, hb, hn, hp, if_true]

theorem matchFrom_of_entry {e : Nat} (h : entryOf codes (c ++ [b]) = some e) : matchFrom s codes (left + 1) pos c = .entry e (pos + 1) := by
  simp only [matchFrom, hb, h]

theorem matchFrom_of_neither (hn : ¬IsCode codes (c ++ [b])) (hu : ¬Undecided codes (c ++ [b])) :
    matchFrom s codes (left + 1) pos c = .badCode (pos + 1) := by
  have hnone := entryOf_eq_none.mpr hn
  have hp : ¬isProperPrefix codes (c ++ [b]) = true := fun hp => hu (undecided_iff.mpr ⟨hnone, hp⟩)
  simp only [matchFrom, hb, hnone, if_neg hp]

end Step

/-- The walk reads on through a run of bits of which every part leaves it undecided. -/
theorem matchFrom_append {s : State} {codes : List (Option Codeword)} {pos : Nat} {c d : Codeword} (left : Nat)
    (hbits : ∀ k (h : k < d.length), packetBit s (pos + k) = some d[k])
    (hu : ∀ k, 0 < k → k ≤ d.length → Undecided codes (c ++ d.take k)) :
    matchFrom s codes (left + d.length) pos c = matchFrom s codes left (pos + d.length) (c ++ d) := by
  induction d generalizing pos c with
  | nil => simp
  | cons b d ih =>
    have hfirst : packetBit s pos = some b := hbits 0 (Nat.succ_pos _)
    have hrest : matchFrom s codes (left + d.length) (pos + 1) (c ++ [b]) = _ := ih
      (fun k h => by simpa [Nat.add_right_comm, Nat.add_assoc] using hbits (k + 1) (Nat.succ_lt_succ h))
      (fun k h0 h => by simpa using hu (k + 1) k.succ_pos (Nat.succ_le_succ h))
    rw [List.length_cons, ← Nat.add_assoc, matchFrom_of_undecided hfirst (by simpa using hu 1 Nat.one_pos (Nat.succ_pos _)), hrest]
    simp [Nat.add_right_comm, Nat.add_assoc]

theorem packetBit_of_spells {s : State} {d : Codeword} (h : Spells s d) (k : Nat) (hk : k < d.length) :
    packetBit s (s.bitPos.toNat + k) = some d[k] :=
  packetBit_eq_some_iff.mpr (h.2 k hk)

/-- MATCH after bits that leave it undecided all along. -/
theorem matchCode_of_undecided {K : Codebook} {s : State} {d : Codeword} (hs : Spells s d)
    (hu : ∀ k, 0 < k → k ≤ d.length → Undecided K.code (d.take k)) :
    matchCode K s = matchFrom s K.code (packetBits s - (s.bitPos.toNat + d.length)) (s.bitPos.toNat + d.length) d := by
  have hle : s.bitPos.toNat + d.length ≤ packetBits s := hs.1
  have hleft : packetBits s - s.bitPos.toNat = packetBits s - (s.bitPos.toNat + d.length) + d.length := by omega
  rw [matchCode, hleft]
  exact matchFrom_append _ (packetBit_of_spells hs) hu

/-- MATCH of bits that leave it undecided up to the last one: it stands before that bit. -/
theorem matchCode_before_last {K : Codebook} {s : State} {d : Codeword} (hs : Spells s d) (hd : d ≠ [])
    (hu : ∀ k, 0 < k → k < d.length → Undecided K.code (d.take k)) :
    ∃ c b left, d = c ++ [b] ∧ packetBit s (s.bitPos.toNat + c.length) = some b ∧
      matchCode K s = matchFrom s K.code (left + 1) (s.bitPos.toNat + c.length) c := by
  obtain ⟨c, b, rfl⟩ := (List.eq_nil_or_concat' d).resolve_left hd
  have hlen : (c ++ [b]).length = c.length + 1 := by simp
  have hle : s.bitPos.toNat + (c.length + 1) ≤ packetBits s := hlen ▸ hs.1
  have hc : Spells s c := ⟨(Nat.le_succ _).trans hle, fun k hk => by
    have hbit := hs.2 k (by omega)
    rwa [List.getElem_append_left hk] at hbit⟩
  refine ⟨c, b, packetBits s - (s.bitPos.toNat + c.length) - 1, rfl, ?_, ?_⟩
  · simpa using packetBit_of_spells hs c.length (by omega)
  · rw [Nat.sub_add_cancel (by omega)]
    refine matchCode_of_undecided hc fun k h0 hk => ?_
    have h := hu k h0 (by omega)
    rwa [List.take_append_of_le_length hk] at h

section Match

variable {K : Codebook} {s : State} {d : Codeword} (hs : Spells s d) (hu : ∀ k, 0 < k → k < d.length → Undecided K.code (d.take k))

include hs hu

theorem matchCode_eq_entry {e : Nat} (hd : d ≠ []) (he : entryOf K.code d = some e) :
    matchCode K s = .entry e (s.bitPos.toNat + d.length) := by
  obtain ⟨c, b, left, rfl, hb, hm⟩ := matchCode_before_last hs hd hu
  rw [hm, matchFrom_of_entry hb he]
  simp [Nat.add_assoc]

theorem matchCode_eq_badCode (hd : d ≠ []) (hn : ¬IsCode K.code d) (hnu : ¬Undecided K.code d) :
    matchCode K s = .badCode (s.bitPos.toNat + d.length) := by
  obtain ⟨c, b, left, rfl, hb, hm⟩ := matchCode_before_last hs hd hu
  rw [hm, matchFrom_of_neither hb hn hnu]
  simp [Nat.add_assoc]

theorem matchCode_eq_overrun (hend : s.bitPos.toNat + d.length = packetBits s) (hlast : d ≠ [] → Undecided K.code d) :
    matchCode K s = .overrun (s.bitPos.toNat + d.length) := by
  rw [matchCode_of_undecided hs fun k h0 hk => ?_, hend, Nat.sub_self]
  · rfl
  · rcases hk.lt_or_eq with hlt | rfl
    · exact hu k h0 hlt
    · rw [List.take_length]
      exact hlast (List.ne_nil_of_length_pos h0)

end Match

/-! ## A prefix-free code (R131) -/

section PrefixFree

variable {codes : List (Option Codeword)} {e : Nat} {c : Codeword} (hp : PrefixFree codes) (he : codes[e]? = some (some c))

include hp he

theorem entryOf_of_prefixFree : entryOf codes c = some e := by
  cases h : entryOf codes c with
  | none => exact absurd (List.mem_of_getElem? he) (entryOf_eq_none.mp h)
  | some e' =>
    obtain ⟨hlt, heq, -⟩ := List.findIdx?_eq_some_iff_getElem.mp h
    have he' : codes[e']? = some (some c) := (List.getElem?_eq_getElem hlt).trans (congrArg some (beq_iff_eq.mp heq))
    by_contra hne
    exact hp e' e c c (fun h => hne (congrArg some h)) he' he List.prefix_rfl

/-- The beginning of a codeword is no other entry's. -/
theorem undecided_take_of_prefixFree {k : Nat} (hk : k < c.length) : Undecided codes (c.take k) := by
  have hlt : (c.take k).length < c.length := by simpa using hk
  refine ⟨fun hcode => ?_, c, List.mem_of_getElem? he, List.take_prefix k c, hlt⟩
  obtain ⟨e', he'⟩ := List.getElem?_of_mem hcode
  have hne : e' ≠ e := by
    rintro rfl
    rw [he, Option.some.injEq, Option.some.injEq] at he'
    rw [← he'] at hlt
    exact lt_irrefl _ hlt
  exact hp e' e _ c hne he' he (List.take_prefix k c)

/-- R129: MATCH finds the entry whose codeword comes next. -/
theorem matchCode_of_prefixFree {K : Codebook} (hK : K.code = codes) {s : State} (hc : c ≠ []) (hs : Spells s c) :
    matchCode K s = .entry e (s.bitPos.toNat + c.length) := by
  subst hK
  exact matchCode_eq_entry hs (fun _ _ hk => undecided_take_of_prefixFree hp he hk) hc (entryOf_of_prefixFree hp he)

end PrefixFree

/-! ## HDEC and VDEC (R128, R130) -/

theorem withMatch_of_entry {K : Codebook} {s : State} {e p : Nat} (h : matchCode K s = .entry e p) (k : Nat → State → Res) :
    withMatch K s k = k e (consumeTo p s) := by
  simp only [withMatch, h]

theorem withMatch_of_badCode {K : Codebook} {s : State} {p : Nat} (h : matchCode K s = .badCode p) (k : Nat → State → Res) :
    withMatch K s k = raise (.decode .badCode (BitVec.ofNat 32 p)) (consumeTo p s) := by
  simp only [withMatch, h]

theorem withMatch_of_overrun {K : Codebook} {s : State} {p : Nat} (h : matchCode K s = .overrun p) (k : Nat → State → Res) :
    withMatch K s k = raise (.decode .overrun (BitVec.ofNat 32 p)) (consumeTo p s) := by
  simp only [withMatch, h]

section Decode

variable {s : State} {cb : Nat} (hd : s.decState = .decoding) (hb : s.bound = true)

include hd hb

theorem exec_of_not_bookReady {i : Instr} (hi : i = .hdec cb ∨ i = .vdec cb) (hr : ¬s.bookReady cb = true) :
    exec i s = raise (.decode .cbRange s.bitPos) s := by
  rcases hi with rfl | rfl
  · rw [exec, execHdec, whenLegal_of (isDecoding_and_bound hd hb), if_neg hr]
  · rw [exec, execVdec, whenLegal_of (isDecoding_and_bound hd hb), if_neg hr]

theorem execHdec_of_bookReady (hr : s.bookReady cb = true) :
    execHdec cb s = withMatch (s.book cb) s fun e t => .next { t with result := BitVec.ofNat 32 e } := by
  rw [execHdec, whenLegal_of (isDecoding_and_bound hd hb), if_pos hr]

theorem execVdec_noLookup (hr : s.bookReady cb = true) (hl : (s.book cb).lookupType = 0) :
    execVdec cb s = raise (.decode .noLookup s.bitPos) s := by
  rw [execVdec, whenLegal_of (isDecoding_and_bound hd hb), if_pos hr, if_pos hl]

theorem execVdec_of_bookReady (hr : s.bookReady cb = true) (hl : (s.book cb).lookupType ≠ 0) :
    execVdec cb s = withMatch (s.book cb) s fun e t => orFault .unwrittenVq (vqEntry (s.book cb) e) fun v =>
      .next { t.writeWords .vout 0 0 v with vdim := (s.book cb).dims, result := BitVec.ofNat 32 e } := by
  rw [execVdec, whenLegal_of (isDecoding_and_bound hd hb), if_pos hr, if_neg hl]
  rfl

/-- Once its codebook has passed the checks, each of the two commands runs MATCH. -/
theorem exec_eq_withMatch {i : Instr} (hi : i = .hdec cb ∨ i = .vdec cb) (hr : s.bookReady cb = true)
    (hl : i = .hdec cb ∨ (s.book cb).lookupType ≠ 0) : ∃ k, exec i s = withMatch (s.book cb) s k := by
  rcases hi with rfl | rfl
  · exact ⟨_, execHdec_of_bookReady hd hb hr⟩
  · exact ⟨_, execVdec_of_bookReady hd hb hr (hl.resolve_left nofun)⟩

end Decode

end Sys2Proof.Machine

namespace Sys2Proof.Proofs

open Sys2Proof.Machine

/-- Settles O25: MATCH of a prefix-free code finds the codeword that the packet spells. -/
theorem hdecResult : Obligations.HdecResult := by
  intro s cb e c hd hb hcb hbuilt hp he hc hs
  have hr : s.bookReady cb = true := bookReady_iff.mpr ⟨hcb, hbuilt⟩
  exact (execHdec_of_bookReady hd hb hr).trans (withMatch_of_entry (matchCode_of_prefixFree hp he rfl hc hs) _)

/-- Settles O27: the checks before MATCH, and the two ways in which MATCH fails. -/
theorem decodeErrors : Obligations.DecodeErrors := by
  refine fun s cb i hd hb hi => ⟨fun hbad => exec_of_not_bookReady hd hb hi fun hr => ?_, fun hcb hbuilt => ?_⟩
  · obtain ⟨hcb, hbuilt⟩ := bookReady_iff.mp hr
    exact hbad.elim (Nat.not_le.mpr hcb) (by simp [hbuilt])
  · have hr : s.bookReady cb = true := bookReady_iff.mpr ⟨hcb, hbuilt⟩
    refine ⟨?_, fun hl d hs hu => ?_⟩
    · rintro rfl hl
      exact execVdec_noLookup hd hb hr hl
    · obtain ⟨k, hk⟩ := exec_eq_withMatch hd hb hi hr hl
      exact ⟨fun hne hn hnu => hk.trans (withMatch_of_badCode (matchCode_eq_badCode hs hu hne hn hnu) k),
        fun hend hlast => hk.trans (withMatch_of_overrun (matchCode_eq_overrun hs hu hend hlast) k)⟩

end Sys2Proof.Proofs
end

section
/-!
A loaded setup (R132): no command and no host write changes a codebook slot, or a byte of CB_LEN and CB_MULT.
-/

namespace Sys2Proof.Machine

@[simp] theorem packetDone_books (n : Nat) (s : State) : (packetDone n s).books = s.books := by
  rcases packetDone_cases n s with ⟨_, e⟩ | ⟨_, _, _, e⟩ | ⟨_, _, e⟩ <;> rw [e] <;> rfl

theorem takeException_books (w : Word) (e : Exc) (s : State) : (takeException w e s).books = s.books := by
  cases e <;> rfl

theorem books_of_decodeEnd {K : Codebook} {s t : State} (h : DecodeEnd K s t) : t.books = s.books := by
  rcases h with rfl | ⟨_, _, f, rfl⟩ | ⟨_, _, f, p, _, rfl⟩ <;> exact takeException_books _ _ _

/-- Under a loaded setup the setup commands are ignored, and no other command writes a codebook slot. -/
theorem exec_books_of_loaded {s t : State} {i : Instr} (hs : s.setupState = .loaded) (h : exec i s = .next t) : t.books = s.books := by
  cases i with
  | nop => exact Host.Outcome.next.inj h ▸ rfl
  | config | cbBuild | sealSetup =>
    have hr := (Proofs.exec_ignored (by trivial) hs).symm.trans h
    exact raise_next.mp hr ▸ takeException_books _ _ _
  | fail cls => rcases execFail_next h with ⟨_, rfl⟩ | ⟨_, _, rfl⟩ | ⟨_, _, rfl⟩ <;> exact takeException_books _ _ _
  | decBegin ben => rcases execDecBegin_next h with ⟨c, rfl⟩ | ⟨_, _, ⟨_, rfl⟩ | ⟨_, _, _, rfl⟩ | ⟨_, _, rfl⟩⟩ <;> rfl
  | bind => rcases execBind_next h with ⟨c, rfl⟩ | ⟨_, _, rfl⟩ <;> rfl
  | rdbits n => rcases execRdbits_next h with ⟨c, rfl⟩ | ⟨_, _, rfl⟩ | ⟨_, _, _, _, r, _, rfl⟩ <;> rfl
  | hdec cb =>
    rcases execHdec_next h with hend | ⟨_, _, _, e, p, _, rfl⟩
    · exact books_of_decodeEnd hend
    · rfl
  | vdec cb =>
    rcases execVdec_next h with hend | ⟨_, _, _, _, e, p, v, _, _, rfl⟩
    · exact books_of_decodeEnd hend
    · rfl
  | imdct l p x z => rcases execImdct_next h with rfl | ⟨_, _, ws, _, rfl⟩ <;> rfl
  | window => rcases execWindow_next h with rfl | ⟨_, _, work, _, rfl⟩ <;> rfl
  | overlap =>
    rcases execOverlap_next h with rfl | ⟨_, _, work, prev, _, _, rfl⟩
    · rfl
    · simp

/-! ## Host writes -/

/-- Of the registers only the descriptors reach a codebook, and their writes are dropped once setup is past NOT_LOADED (R70). -/
theorem writeReg_keeps_tables {s : State} (hs : s.setupState ≠ .notLoaded) (w : Word) (r : Reg) :
    (writeReg w s r).books = s.books ∧ (writeReg w s r).mem = s.mem := by
  cases r with
  | sampleCount | packetCount =>
    rw [writeReg]
    split <;> exact ⟨rfl, rfl⟩
  | cbEntries | cbDims | cbLookup | cbMin | cbDelta | cbNmult =>
    rw [writeReg, writeBookReg, setupTableWrite_over hs]
    exact ⟨rfl, rfl⟩
  | _ => exact ⟨rfl, rfl⟩

/-- An offset on the bus lies within the 1 MiB of its region (R68). -/
theorem busPlace_ram_lt {P : Params} {a : BusAddr} {r : Region} {off : Nat} (h : busPlace P a = some (.ram r off)) : off < 2 ^ 20 := by
  have hmod : a.toNat % 2 ^ 20 < 2 ^ 20 := Nat.mod_lt _ (by decide)
  unfold busPlace at h
  simp only at h
  split at h
  · cases h
  · split at h
    · split at h <;> cases h
    · split at h
      · split at h
        · cases h
          exact hmod
        · cases h
      · cases h

/-- One word stored in another region misses the codebook tables. -/
theorem read_table_writeWords (s : State) {r r' : Region} (hr : r ≠ r') {off : Nat} (ho : off < 2 ^ 20) (w : Word) (c : Nat) {o : Nat}
    (ho' : o < 2 ^ 20) : (s.writeWords r 0 (off / 4) [w]).mem.read (regionKey r' c o) = s.mem.read (regionKey r' c o) :=
  read_writeBytes_of_ne (.inl hr) (by rw [length_flatMap_bytesOfWord, List.length_singleton]; omega) ho'

theorem hostWrite_keeps_tables {s : State} (hs : s.setupState ≠ .notLoaded) (a : BusAddr) (w : Word) :
    (hostWrite a w s).books = s.books ∧ ∀ r ∈ [Region.cbLen, .cbMult], ∀ c off, off < 2 ^ 20 →
      (hostWrite a w s).mem.read (regionKey r c off) = s.mem.read (regionKey r c off) := by
  unfold hostWrite
  cases hp : busPlace s.params a with
  | none => exact ⟨rfl, fun _ _ _ _ _ => rfl⟩
  | some p =>
    cases p with
    | reg r =>
      obtain ⟨hb, hm⟩ := writeReg_keeps_tables hs w r
      exact ⟨hb, fun _ _ _ _ _ => by rw [hm]⟩
    | ram r off =>
      have ho := busPlace_ram_lt hp
      cases r with
      | pkt | coef => exact ⟨rfl, fun r hr c o ho' => read_table_writeWords s (by rintro rfl; simp at hr) ho w c ho'⟩
      | cbLen | cbMult =>
        simp only [setupTableWrite_over hs]
        exact ⟨trivial, fun _ _ _ _ _ => trivial⟩
      | vout | work | prev | pcm => exact ⟨rfl, fun _ _ _ _ _ => rfl⟩

end Sys2Proof.Machine

namespace Sys2Proof.Proofs

open Sys2Proof.Machine

/-- Settles O36: a command keeps the slots, as setup is loaded, and the RAM that only the host writes; a host write is dropped. -/
theorem tablesImmutable : Obligations.TablesImmutable := by
  intro s t hI hs h
  have hlt {r : Region} {off : Nat} (ho : off < Spec.size s.params r) : off < 2 ^ 20 :=
    ho.trans_le (size_eq_bytes s.params r ▸ Region.bytes_le hI.params r)
  rcases h with ⟨i, h⟩ | ⟨a, w, rfl⟩
  · have hw : ∀ r ∈ [Region.cbLen, .cbMult], r.hostWrites = true := by decide
    exact ⟨exec_books_of_loaded hs h, fun r hr c off _ ho => (HostDataKept.exec hI h).ram r (hw r hr) c off (hlt ho)⟩
  · obtain ⟨hb, hm⟩ := hostWrite_keeps_tables (s := s) (by simp [hs]) a w
    exact ⟨hb, fun r hr c off _ ho => hm r hr c off (hlt ho)⟩

end Sys2Proof.Proofs
end

section
/-!
VDEC (R130): what it leaves when MATCH finds an entry whose vector is there.
-/

namespace Sys2Proof.Machine

open Spec (Spells PrefixFree)

/-- A vector of the codebook's dimension is read whole. -/
theorem vqEntry_of_length {K : Codebook} {e : Nat} {v : List F32} (hv : K.vq[e]? = some v) (hl : v.length = K.dims.toNat) :
    vqEntry K e = some v := by
  simp only [vqEntry, hv, ← hl, le_refl, if_true, List.take_length]

theorem execVdec_of_spells {s : State} {cb e : Nat} {c : Codeword} {v : List F32} (hd : s.decState = .decoding) (hb : s.bound = true)
    (hr : s.bookReady cb = true) (hl : (s.book cb).lookupType ≠ 0) (hp : PrefixFree (s.book cb).code)
    (he : (s.book cb).code[e]? = some (some c)) (hc : c ≠ []) (hs : Spells s c) (hv : vqEntry (s.book cb) e = some v) :
    execVdec cb s = .next { (consumeTo (s.bitPos.toNat + c.length) s).writeWords .vout 0 0 v with
      vdim := (s.book cb).dims, result := BitVec.ofNat 32 e } := by
  rw [execVdec_of_bookReady hd hb hr hl, withMatch_of_entry (matchCode_of_prefixFree hp he rfl hc hs), hv]
  rfl

end Sys2Proof.Machine

namespace Sys2Proof.Proofs

open Sys2Proof.Machine

/-- Settles O26: MATCH finds the entry as for HDEC, and the vector is one write of words at the start of VOUT. -/
theorem vdecResult : Obligations.VdecResult := by
  intro s cb e c v hd hb hcb hbuilt hl hp he hc hs hv hlen
  have hr : s.bookReady cb = true := bookReady_iff.mpr ⟨hcb, hbuilt⟩
  refine ⟨_, execVdec_of_spells hd hb hr hl hp he hc hs (vqEntry_of_length hv hlen), rfl, fun i x hx => ?_, fun k hk => ?_⟩
  · have hread := readWord_writeWords (consumeTo (s.bitPos.toNat + c.length) s) .vout 0 0 i v x hx
    rwa [Nat.zero_add] at hread
  · refine Memory.read_writeWords_of_outside _ _ _ _ ?_
    simp only [Spec.inRange, base_eq] at hk
    simp only [regionKey]
    omega

end Sys2Proof.Proofs
end

section
/-!
ASSIGN and the Kraft sum (R123). ASSIGN takes the leftmost free string, so that the free subtrees always have different depths, growing from
right to left. Free subtrees of different depths, all of them too deep for a string of l bits, weigh less than such a string: ASSIGN gets stuck
only where the Kraft sum outgrows the weight of the tree.
-/

namespace Sys2Proof.Machine

/-! ## The depths of the free subtrees -/

/-- The depths of the free subtrees, from right to left. -/
def FreeTree.depths : FreeTree → List Nat
  | .free => [0]
  | .used => []
  | .split a b => (b.depths ++ a.depths).map (· + 1)

/-- No two free subtrees are equally deep, and the deeper one stands further left. -/
abbrev FreeTree.Stairs (t : FreeTree) : Prop := t.depths.Pairwise (· < ·)

theorem depths_join (a b : FreeTree) : (FreeTree.join a b).depths = (FreeTree.split a b).depths := by
  unfold FreeTree.join
  split <;> rfl

theorem weight_eq_sum_depths (t : FreeTree) : t.weight = (t.depths.map fun d => (1 / 2 : ℚ) ^ d).sum := by
  induction t with
  | free => simp [FreeTree.weight, FreeTree.depths]
  | used => rfl
  | split a b iha ihb =>
    have hhalf (l : List Nat) : ((l.map (· + 1)).map fun d => (1 / 2 : ℚ) ^ d).sum = (l.map fun d => (1 / 2 : ℚ) ^ d).sum / 2 := by
      induction l with
      | nil => simp
      | cons d l ih =>
        simp only [List.map_cons, List.sum_cons, ih, pow_succ]
        ring
    rw [FreeTree.depths, hhalf, List.map_append, List.sum_append, ← iha, ← ihb, FreeTree.weight, add_comm]

/-- Rising depths beyond l weigh less than one string of l bits. -/
theorem sum_depths_lt {ds : List Nat} {l : Nat} (hs : ds.Pairwise (· < ·)) (hl : ∀ d ∈ ds, l < d) :
    (ds.map fun d => (1 / 2 : ℚ) ^ d).sum < (1 / 2) ^ l := by
  induction ds generalizing l with
  | nil => simp
  | cons d ds ih =>
    obtain ⟨hd, hs⟩ := List.pairwise_cons.mp hs
    have hrest := ih hs hd
    have hle : (1 / 2 : ℚ) ^ d ≤ (1 / 2) ^ (l + 1) := pow_le_pow_of_le_one (by norm_num) (by norm_num) (hl d List.mem_cons_self)
    rw [pow_succ] at hle
    rw [List.map_cons, List.sum_cons]
    linarith

/-! ## Taking a string -/

/-- One depth of at most l, the last of its kind in the list, gives way to depths between it and l. -/
def Refines (l : Nat) (ds ds' : List Nat) : Prop :=
  ∃ xs d zs ys, ds = xs ++ d :: ys ∧ ds' = xs ++ zs ++ ys ∧ zs.Pairwise (· < ·) ∧ (∀ z ∈ zs, d < z ∧ z ≤ l) ∧ d ≤ l ∧ ∀ y ∈ ys, l < y

theorem Refines.map_succ {l : Nat} {ds ds' : List Nat} (h : Refines l ds ds') : Refines (l + 1) (ds.map (· + 1)) (ds'.map (· + 1)) := by
  obtain ⟨xs, d, zs, ys, rfl, rfl, hz, hzl, hd, hy⟩ := h
  refine ⟨xs.map (· + 1), d + 1, zs.map (· + 1), ys.map (· + 1), by simp, by simp, ?_, ?_, by omega, ?_⟩
  · exact hz.map _ fun _ _ h => Nat.succ_lt_succ h
  · simpa using hzl
  · simpa using hy

theorem Refines.append_left {l : Nat} {ds ds' : List Nat} (es : List Nat) (h : Refines l ds ds') : Refines l (es ++ ds) (es ++ ds') := by
  obtain ⟨xs, d, zs, ys, rfl, rfl, h⟩ := h
  exact ⟨es ++ xs, d, zs, ys, by simp, by simp, h⟩

theorem Refines.append_right {l : Nat} {ds ds' es : List Nat} (he : ∀ e ∈ es, l < e) (h : Refines l ds ds') :
    Refines l (ds ++ es) (ds' ++ es) := by
  obtain ⟨xs, d, zs, ys, rfl, rfl, hz, hzl, hd, hy⟩ := h
  refine ⟨xs, d, zs, ys ++ es, by simp, by simp, hz, hzl, hd, fun y hm => ?_⟩
  exact (List.mem_append.mp hm).elim (hy y) (he y)

/-- A string of l + 1 bits taken from a free subtree leaves the right half free, and in the left half what a string of l bits leaves. -/
theorem Refines.root_succ {l : Nat} {ds : List Nat} (h : Refines l [0] ds) : Refines (l + 1) [0] ((0 :: ds).map (· + 1)) := by
  obtain ⟨xs, d, zs, ys, hsplit, rfl, hz, hzl, hd, -⟩ := h
  obtain ⟨rfl, rfl, rfl⟩ : xs = [] ∧ d = 0 ∧ ys = [] := by
    cases xs with
    | nil => simpa [eq_comm] using hsplit
    | cons x xs => simp at hsplit
  refine ⟨[], 0, (0 :: zs).map (· + 1), [], rfl, by simp, ?_, ?_, Nat.zero_le _, by simp⟩
  · have hcons : (0 :: zs).Pairwise (· < ·) := List.pairwise_cons.mpr ⟨fun z hm => (hzl z hm).1, hz⟩
    exact hcons.map _ fun _ _ h => Nat.succ_lt_succ h
  · simpa using fun z hm => (hzl z hm).2

/-- The new depths fit between their neighbours. -/
theorem Refines.pairwise {l : Nat} {ds ds' : List Nat} (h : Refines l ds ds') (hs : ds.Pairwise (· < ·)) : ds'.Pairwise (· < ·) := by
  obtain ⟨xs, d, zs, ys, rfl, rfl, hz, hzl, hd, hy⟩ := h
  obtain ⟨hxs, hdys, hxd⟩ := List.pairwise_append.mp hs
  obtain ⟨-, hys⟩ := List.pairwise_cons.mp hdys
  have hxz : ∀ x ∈ xs, ∀ z ∈ zs, x < z := fun x hx z hz => (hxd x hx d List.mem_cons_self).trans (hzl z hz).1
  refine List.pairwise_append.mpr ⟨List.pairwise_append.mpr ⟨hxs, hz, hxz⟩, hys, fun x hx y hm => ?_⟩
  rcases List.mem_append.mp hx with hx | hx
  · exact hxd x hx y (List.mem_cons_of_mem d hm)
  · exact (hzl x hx).2.trans_lt (hy y hm)

/-- Where there is no free string of l bits, every free subtree lies deeper. -/
theorem lt_depths_of_take {l : Nat} {t : FreeTree} (h : FreeTree.take l t = none) : ∀ d ∈ t.depths, l < d := by
  induction t generalizing l with
  | free =>
    rcases take_spec l .free with ⟨c, t', he, _⟩ | ⟨_, hn⟩
    · rw [he] at h
      cases h
    · exact absurd trivial (hn (List.replicate l false) List.length_replicate)
  | used => simp [FreeTree.depths]
  | split a b iha ihb =>
    cases l with
    | zero =>
      intro d hd
      obtain ⟨d', -, rfl⟩ := List.mem_map.mp hd
      exact Nat.succ_pos d'
    | succ l =>
      cases ha : FreeTree.take l a with
      | some p => simp [FreeTree.take, ha] at h
      | none =>
        cases hb : FreeTree.take l b with
        | some p => simp [FreeTree.take, ha, hb] at h
        | none =>
          intro d hd
          obtain ⟨d', hd', rfl⟩ := List.mem_map.mp hd
          exact Nat.succ_lt_succ ((List.mem_append.mp hd').elim (ihb hb d') (iha ha d'))

/-- `FreeTree.take` replaces the leftmost free subtree that is not too deep by smaller ones. -/
theorem refines_of_take {l : Nat} {t t' : FreeTree} {c : Codeword} (h : FreeTree.take l t = some (c, t')) : Refines l t.depths t'.depths := by
  induction l generalizing t t' c with
  | zero =>
    cases t with
    | free =>
      cases h
      exact ⟨[], 0, [], [], rfl, rfl, .nil, by simp, le_refl 0, by simp⟩
    | used | split => cases h
  | succ l ih =>
    cases t with
    | used => cases h
    | free =>
      cases hf : FreeTree.take l .free with
      | none => simp [FreeTree.take, hf] at h
      | some p =>
        obtain ⟨d, t₁⟩ := p
        obtain ⟨-, rfl⟩ : _ ∧ FreeTree.split t₁ .free = t' := by simpa [FreeTree.take, hf] using h
        exact (ih hf).root_succ
    | split a b =>
      cases ha : FreeTree.take l a with
      | some p =>
        obtain ⟨d, t₁⟩ := p
        obtain ⟨-, rfl⟩ : _ ∧ FreeTree.join t₁ b = t' := by simpa [FreeTree.take, ha] using h
        rw [depths_join]
        exact ((ih ha).append_left b.depths).map_succ
      | none =>
        cases hb : FreeTree.take l b with
        | none => simp [FreeTree.take, ha, hb] at h
        | some p =>
          obtain ⟨d, t₁⟩ := p
          obtain ⟨-, rfl⟩ : _ ∧ FreeTree.join a t₁ = t' := by simpa [FreeTree.take, ha, hb] using h
          rw [depths_join]
          exact ((ih hb).append_right (lt_depths_of_take ha)).map_succ

/-! ## The Kraft sum -/

theorem kraft_nonneg (lens : List Nat) : 0 ≤ Spec.kraft lens :=
  List.sum_nonneg fun x hx => by
    obtain ⟨l, -, rfl⟩ := List.mem_map.mp hx
    positivity

/-- From free subtrees of different depths on, ASSIGN succeeds exactly where the Kraft sum is at most the weight of the tree. -/
theorem assignFrom_iff_kraft {t : FreeTree} (ht : t.Stairs) (lens : List Nat) : (assignFrom t lens).2 = true ↔ Spec.kraft lens ≤ t.weight := by
  induction lens generalizing t with
  | nil => exact iff_of_true rfl (weight_nonneg t)
  | cons l lens ih =>
    by_cases hl : l = 0
    · subst hl
      rw [assignFrom_cons_zero, kraft_cons_zero]
      exact ih ht
    · rw [kraft_cons hl]
      rcases take_spec l t with ⟨c, t', he, htaken⟩ | ⟨he, -⟩
      · rw [assignFrom_cons_taken hl he, ih ((refines_of_take he).pairwise ht), htaken.weight, add_comm, le_sub_iff_add_le]
      · have hlt := sum_depths_lt ht (lt_depths_of_take he)
        have hk := kraft_nonneg lens
        rw [← weight_eq_sum_depths] at hlt
        rw [assignFrom_cons_stuck hl he]
        exact iff_of_false Bool.false_ne_true (by linarith)

theorem perm_sortedLengths (lens : List Nat) : ((sortedEntries lens).map (·.1)).Perm lens := by
  simpa using (perm_sortedEntries lens).map (·.1)

theorem assignCodes_iff_kraft (rule : CodeAssignment) (lens : List Nat) : (assignCodes rule lens).2 = true ↔ Spec.kraft lens ≤ 1 := by
  have hroot : FreeTree.free.Stairs := List.pairwise_singleton _ _
  cases rule with
  | inOrder => exact assignFrom_iff_kraft hroot lens
  | lengthSorted =>
    rw [← kraft_perm (perm_sortedLengths lens)]
    exact assignFrom_iff_kraft hroot _

/-- S x 2^32 of the model is the exact Kraft sum for lengths that CB_BUILD admits (R121, R123). -/
theorem kraftSum_eq {lens : List Nat} (h : ∀ l ∈ lens, l ≤ 32) : (kraftSum lens : ℚ) = Spec.kraft lens * 2 ^ 32 := by
  induction lens with
  | nil => simp [kraftSum, usedLengths, kraft_nil]
  | cons l lens ih =>
    obtain ⟨hl, hrest⟩ := List.forall_mem_cons.mp h
    rcases Nat.eq_zero_or_pos l with rfl | hpos
    · exact ih hrest
    · have hcons : kraftSum (l :: lens) = 2 ^ (32 - l) + kraftSum lens := by simp [kraftSum, usedLengths, hpos]
      rw [hcons, kraft_cons hpos.ne', add_mul, ← ih hrest]
      push_cast
      rw [pow_sub₀ _ two_ne_zero hl, one_div, inv_pow, mul_comm]

theorem checkFull_iff {lens : List Nat} (h : ∀ l ∈ lens, l ≤ 32) : checkFull lens = true ↔ Spec.Full lens := by
  have hsum : kraftSum lens = 2 ^ 32 ↔ Spec.kraft lens = 1 := by
    rw [← Nat.cast_inj (R := ℚ), kraftSum_eq h]
    push_cast
    exact mul_eq_right₀ (by norm_num)
  rw [checkFull, Bool.or_eq_true, beq_iff_eq, beq_iff_eq, hsum]
  rfl

/-! ## lookup1_values (R125) -/

/-- Counting up from a root that is not too large, far enough, finds the greatest. -/
theorem countRoots_spec {E D : Nat} (fuel : Nat) {r : Nat} (hr : r ^ D ≤ E) (hfuel : E < (r + fuel + 1) ^ D) :
    countRoots E D fuel r ^ D ≤ E ∧ E < (countRoots E D fuel r + 1) ^ D := by
  induction fuel generalizing r with
  | zero => exact ⟨hr, hfuel⟩
  | succ fuel ih =>
    rw [countRoots]
    split
    · exact ih ‹_› (by rwa [Nat.add_right_comm r 1 fuel])
    · exact ⟨hr, Nat.lt_of_not_le ‹_›⟩

theorem lookup1Values_spec (E : Nat) {D : Nat} (hD : 1 ≤ D) : lookup1Values E D ^ D ≤ E ∧ E < (lookup1Values E D + 1) ^ D := by
  have hD0 : D ≠ 0 := Nat.one_le_iff_ne_zero.mp hD
  refine countRoots_spec E (by simp [hD0]) ?_
  rw [Nat.zero_add]
  exact E.lt_succ_self.trans_le (Nat.le_self_pow hD0 _)

end Sys2Proof.Machine

namespace Sys2Proof.Proofs

open Sys2Proof.Machine

/-- Settles O29: by the weight of the tree of free strings, which for both rules is 1 at first. -/
theorem assignSucceedsIffKraft : Obligations.AssignSucceedsIffKraft := assignCodes_iff_kraft

/-- Settles O30: the integer test is the exact one scaled by 2^32. -/
theorem checkFullIsKraft : Obligations.CheckFullIsKraft := fun _ h => checkFull_iff h

/-- Settles O31: counting up from 0 finds the greatest root, and the examples are evaluated. -/
theorem lookup1Values : Obligations.Lookup1Values := ⟨fun E _ hD => lookup1Values_spec E hD, by decide⟩

end Sys2Proof.Proofs
end

section
/-!
CB_BUILD (R121): the lengths as it reads them, its errors in their order, and the codebook that it leaves, with the vectors of R126 and R127.
-/

namespace Sys2Proof.Machine

open Spec (LengthsAre MultsAre buildError lookupCount IsVector)

/-! ## Reading the lengths -/

/-- The lengths of a slot, as CB_BUILD reads them. -/
def lengthWords (lens : List Nat) : List (Option Word) := lens.map fun l => some (BitVec.ofNat 32 l)

theorem readWords_lengths {s : State} (hm : s.mem.wf) {c : Nat} {lens : List Nat} (h : LengthsAre s c lens) :
    s.readWords .cbLen c 0 lens.length = lengthWords lens := by
  apply List.ext_getElem?
  intro e
  rcases Nat.lt_or_ge e lens.length with he | he
  · rw [readWords_getElem? hm _ _ _ _ _ he, Nat.zero_add, (h e _ (List.getElem?_eq_getElem he)).2, lengthWords, List.getElem?_map,
      List.getElem?_eq_getElem he, Option.map_some]
  · rw [List.getElem?_eq_none (by simpa using he), List.getElem?_eq_none (by simpa [lengthWords] using he)]

theorem toNat_lengthWords {lens : List Nat} (h : ∀ l ∈ lens, l ≤ 32) : (lengthWords lens).map (fun o => (o.getD 0).toNat) = lens := by
  rw [lengthWords, List.map_map]
  refine (List.map_congr_left fun l hl => ?_).trans lens.map_id
  have hle := h l hl
  exact toNat_ofNat32 (by omega)

theorem badLength_lengthWords {lens : List Nat} (h : ∀ l ∈ lens, l ≤ 32) : badLength (lengthWords lens) = none := by
  refine List.find?_eq_none.mpr fun o ho => ?_
  obtain ⟨l, hl, rfl⟩ := List.mem_map.mp ho
  have hle := h l hl
  simp only [toNat_ofNat32 (show l < 2 ^ 32 by omega), decide_eq_true_eq]
  omega

/-- The scan stops at a length above 32 behind written lengths, or at another before it. -/
theorem badLength_of_long {ls : List (Option Word)} {e : Nat} {l : Word} (hwritten : ∀ e', e' < e → ls[e']? ≠ some none)
    (hl : ls[e]? = some (some l)) (hlong : 32 < l.toNat) : ∃ l', badLength ls = some (some l') := by
  induction ls generalizing e with
  | nil => simp at hl
  | cons o ls ih =>
    cases o with
    | none =>
      cases e with
      | zero => simp at hl
      | succ e => exact absurd rfl (hwritten 0 e.succ_pos)
    | some k =>
      by_cases hk : 32 < k.toNat
      · exact ⟨k, by simp [badLength, hk]⟩
      · cases e with
        | zero =>
          obtain rfl : k = l := by simpa using hl
          exact absurd hlong hk
        | succ e =>
          have hrest := ih (fun e' he' => hwritten (e' + 1) (Nat.succ_lt_succ he')) hl
          simpa [badLength, hk] using hrest

/-! ## The checks in their order -/

/-- The first FormatError of the lookup part of CB_BUILD (R121). -/
def lookupError (P : Params) (K : Codebook) : Option FormatError :=
  if K.lookupType = 3 then some .cbLookup
  else if K.dims.toNat = 0 then some .cbLookup
  else if P.cbMaxDim < K.dims.toNat then some .cbCapacity
  else if P.cbMaxVq < K.entries.toNat * K.dims.toNat then some .cbCapacity
  else if P.cbMaxMult < K.nmult.toNat then some .cbCapacity
  else if K.nmult.toNat < lookupCount K then some .cbLookup
  else none

theorem buildError_eq (P : Params) (K : Codebook) (lens : List Nat) : buildError P K lens =
    if 1 < Spec.kraft lens then some .cbOverfull
    else if ¬Spec.Full lens then some .cbUnderfull
    else if K.lookupType = 0 then none
    else lookupError P K := rfl

theorem kraft_le_one_of_full {lens : List Nat} (h : Spec.Full lens) : Spec.kraft lens ≤ 1 := by
  rcases h with h | h
  · rw [kraft_of_single h]
    norm_num
  · exact h.le

theorem kraft_le_one_of_buildError {P : Params} {K : Codebook} {lens : List Nat} (h : buildError P K lens = none) : Spec.kraft lens ≤ 1 := by
  by_contra hgt
  rw [buildError_eq, if_pos (not_le.mp hgt)] at h
  cases h

/-- Taking the answer of a chain of checks apart, one check at a time. -/
theorem elim_ite_some {α β : Type} (p : Prop) [Decidable p] (a : α) (o : Option α) (b : β) (f : α → β) :
    (if p then some a else o).elim b f = if p then f a else o.elim b f := by
  split <;> rfl

/-- The codebook with its vectors (R126, R127), from the multiplicands `mults`. -/
def vectorBook (t : Draw) (K : Codebook) (mults : List Word) : Codebook :=
  { K with
    vq := (List.range K.entries.toNat).map (vqVector t K mults.toArray (lookupCount K))
    lookupValues := BitVec.ofNat 32 (lookupCount K)
    built := true }

/-- The lookup part raises its first error, or computes the vectors from the multiplicands that the host has written. -/
theorem buildLookup_eq (c : Nat) (K : Codebook) (s : State) : buildLookup c K s =
    (lookupError s.params K).elim
      (orFault (.unwrittenRead .cbMult) (allSome (s.readWords .cbMult c 0 (lookupCount K))) fun mults =>
        .next (s.setBook c (vectorBook [s.draws] K mults)))
      fun f => raise (.setup f) s := by
  simp only [lookupError, elim_ite_some, Option.elim_none]
  rfl

/-- The codebook with the codewords of ASSIGN. -/
def assignedBook (rule : CodeAssignment) (K : Codebook) (lens : List Nat) : Codebook := { K with code := (assignCodes rule lens).1 }

section Build

variable {c : Nat} {K : Codebook} {s : State} {lens : List Nat} (hE : K.entries.toNat = lens.length) (hcap : lens.length ≤ s.params.cbMaxEntries)
  (hread : s.readWords .cbLen c 0 lens.length = lengthWords lens) (h32 : ∀ l ∈ lens, l ≤ 32)

include hE hcap hread h32

/-- CB_BUILD on written lengths of at most 32, with the tests of R123 in exact terms. -/
theorem buildBook_of_lengths : buildBook c K s =
    (let K' := assignedBook s.params.codeAssignment K lens
     if 1 < Spec.kraft lens then raise (.setup .cbOverfull) (s.setBook c K')
     else if ¬Spec.Full lens then raise (.setup .cbUnderfull) (s.setBook c K')
     else if K.lookupType = 0 then .next (s.setBook c { K' with built := true })
     else buildLookup c K' (s.setBook c K')) := by
  have hover : (assignCodes s.params.codeAssignment lens).2 = false ↔ 1 < Spec.kraft lens := by
    rw [← Bool.not_eq_true, assignCodes_iff_kraft, not_le]
  have hunder : checkFull lens = false ↔ ¬Spec.Full lens := by rw [← Bool.not_eq_true, checkFull_iff h32]
  simp only [buildBook, hE, if_neg (Nat.not_lt.mpr hcap), hread, badLength_lengthWords h32, toNat_lengthWords h32, hover, hunder]
  rfl

/-- Without a lookup CB_BUILD raises its first error, or marks the codebook built. -/
theorem buildBook_scalar (h0 : K.lookupType = 0) : buildBook c K s = (buildError s.params K lens).elim
      (.next (s.setBook c { assignedBook s.params.codeAssignment K lens with built := true }))
      fun f => raise (.setup f) (s.setBook c (assignedBook s.params.codeAssignment K lens)) := by
  rw [buildBook_of_lengths hE hcap hread h32, buildError_eq]
  simp only [if_pos h0, elim_ite_some, Option.elim_none]

/-- With a lookup it raises its first error, or also computes the vectors. -/
theorem buildBook_lookup (h0 : K.lookupType ≠ 0) : buildBook c K s = (buildError s.params K lens).elim
      (orFault (.unwrittenRead .cbMult) (allSome (s.readWords .cbMult c 0 (lookupCount K))) fun mults =>
        .next (s.setBook c (vectorBook [s.draws] (assignedBook s.params.codeAssignment K lens) mults)))
      fun f => raise (.setup f) (s.setBook c (assignedBook s.params.codeAssignment K lens)) := by
  rw [buildBook_of_lengths hE hcap hread h32, buildError_eq]
  simp only [if_neg h0, elim_ite_some, buildLookup_eq, setBook_setBook]
  rfl

theorem buildBook_of_error {f : FormatError} (h : buildError s.params K lens = some f) :
    buildBook c K s = raise (.setup f) (s.setBook c (assignedBook s.params.codeAssignment K lens)) := by
  by_cases h0 : K.lookupType = 0
  · rw [buildBook_scalar hE hcap hread h32 h0, h, Option.elim_some]
  · rw [buildBook_lookup hE hcap hread h32 h0, h, Option.elim_some]

end Build

theorem buildBook_of_badLength {c : Nat} {K : Codebook} {s : State} {l : Word} (hcap : K.entries.toNat ≤ s.params.cbMaxEntries)
    (h : badLength (s.readWords .cbLen c 0 K.entries.toNat) = some (some l)) : buildBook c K s = raise (.setup .cbLength) s := by
  simp only [buildBook, if_neg (Nat.not_lt.mpr hcap), h]

theorem execCbBuild_of_legal {s : State} {cb : Nat} (hs : s.setupState = .notLoaded) (hc : s.cfgDone = true) (hcb : cb < s.cfgCbm1.toNat + 1) :
    exec (.cbBuild cb) s = buildBook cb (s.book cb).unbuild (s.setBook cb (s.book cb).unbuild) := by
  have hcount : ¬s.cbCount ≤ cb := Nat.not_le.mpr hcb
  simp only [exec, execCbBuild, whenSetup_notLoaded hs, whenLegal_of hc, if_neg hcount]

/-- A slot that is written leaves the codebook tables in RAM alone. -/
theorem readWords_setBook (s : State) (c : Nat) (K : Codebook) (r : Region) (b i n : Nat) :
    (s.setBook c K).readWords r b i n = s.readWords r b i n := rfl

/-! ## The vectors (R126, R127) -/

theorem vqOffset_lookupType (K : Codebook) (lv D e i : Nat) :
    vqOffset (K.lookupType == 1) lv D e i = if K.lookupType = 1 then e / lv ^ i % lv else e * D + i := by
  simp only [vqOffset, beq_iff_eq]

/-- Where the lookup offsets of an entry lie: within the multiplicands. -/
theorem vqOffset_lt {K : Codebook} {e i : Nat} (he : e < K.entries.toNat) (hi : i < K.dims.toNat) :
    vqOffset (K.lookupType == 1) (lookupCount K) K.dims.toNat e i < lookupCount K := by
  by_cases h1 : K.lookupType = 1
  · have hroot := (lookup1Values_spec K.entries.toNat (Nat.one_le_of_lt hi)).2
    simp only [vqOffset, lookupCount, h1, beq_self_eq_true, if_true]
    refine Nat.mod_lt _ (Nat.pos_of_ne_zero fun h0 => ?_)
    rw [h0, Nat.zero_add, one_pow] at hroot
    omega
  · have hrow : (e + 1) * K.dims.toNat ≤ K.entries.toNat * K.dims.toNat := Nat.mul_le_mul_right _ he
    rw [Nat.succ_mul] at hrow
    simp only [vqOffset, lookupCount, h1, beq_iff_eq, if_false]
    omega

/-- Element j of a vector: it comes from its multiplicand and, with SEQ_FLAG, from the element before it. -/
theorem vectorFrom_getElem? (t : Draw) (K : Codebook) (mult : Nat → Word) {n i j : Nat} {last x : F32}
    (h : (vectorFrom t K mult n i last)[j]? = some x) :
    ∃ d, x = vqElement d K (mult (i + j))
      (if j = 0 then last else if K.seqFlag = true then (vectorFrom t K mult n i last).getD (j - 1) 0 else last) := by
  induction n generalizing i j last with
  | zero => simp [vectorFrom] at h
  | succ n ih =>
    simp only [vectorFrom] at h ⊢
    generalize hv : vqElement (i :: t) K (mult i) last = v at h ⊢
    cases j with
    | zero =>
      obtain rfl : v = x := Option.some.inj h
      exact ⟨i :: t, by rw [if_pos rfl, Nat.add_zero, hv]⟩
    | succ j =>
      rw [List.getElem?_cons_succ] at h
      obtain ⟨d, hd⟩ := ih h
      refine ⟨d, hd.trans ?_⟩
      rw [Nat.add_right_comm i 1 j, Nat.add_assoc i j 1, if_neg j.succ_ne_zero, Nat.add_sub_cancel]
      refine congrArg (vqElement d K _) ?_
      by_cases hq : K.seqFlag = true
      · simp only [if_pos hq]
        cases j with
        | zero => rw [if_pos rfl, List.getD_cons_zero]
        | succ j => rw [if_neg j.succ_ne_zero, List.getD_cons_succ, Nat.add_sub_cancel]
      · simp only [if_neg hq, ite_self]

theorem isVector_vqVector (t : Draw) {K : Codebook} {mults : List Word} {e : Nat} (hlen : mults.length = lookupCount K) (he : e < K.entries.toNat) :
    IsVector K mults mults.length e (vqVector t K mults.toArray (lookupCount K) e) := by
  have hdims : (vqVector t K mults.toArray (lookupCount K) e).length = K.dims.toNat := length_vectorFrom ..
  refine ⟨hdims, fun i x hx => ?_⟩
  have hi : i < K.dims.toNat := hdims ▸ (List.getElem?_eq_some_iff.mp hx).1
  have hoff : vqOffset (K.lookupType == 1) mults.length K.dims.toNat e i < mults.length := hlen ▸ vqOffset_lt he hi
  obtain ⟨d, hd⟩ := vectorFrom_getElem? _ _ _ hx
  refine ⟨mults[vqOffset (K.lookupType == 1) mults.length K.dims.toNat e i], 0 :: d, 1 :: d, 2 :: d, ?_, hd.trans ?_⟩
  · rw [← vqOffset_lookupType, List.getElem?_eq_getElem hoff]
  · have hmult : mults.toArray.getD (vqOffset (K.lookupType == 1) (lookupCount K) K.dims.toNat e (0 + i)) 0 =
        mults[vqOffset (K.lookupType == 1) mults.length K.dims.toNat e i] := by
      rw [← hlen, Nat.zero_add, Array.getD_eq_getD_getElem?, List.getElem?_toArray, List.getElem?_eq_getElem hoff, Option.getD_some]
    have hlast (v : List F32) : (if i = 0 then f32Zero else if K.seqFlag = true then v.getD (i - 1) 0 else f32Zero) =
        if K.seqFlag = true ∧ 0 < i then v.getD (i - 1) 0 else 0 := by
      rcases Nat.eq_zero_or_pos i with rfl | hpos
      · rw [if_pos rfl, if_neg fun h => lt_irrefl 0 h.2]
        rfl
      · simp only [hpos.ne', hpos, and_true, if_false]
        rfl
    rw [hmult, hlast]
    rfl

@[simp] theorem length_vectorBook_vq (t : Draw) (K : Codebook) (mults : List Word) : (vectorBook t K mults).vq.length = K.entries.toNat := by
  simp [vectorBook]

theorem isVector_vectorBook {t : Draw} {K : Codebook} {mults : List Word} {e : Nat} {v : List F32} (hlen : mults.length = lookupCount K)
    (hv : (vectorBook t K mults).vq[e]? = some v) : IsVector K mults mults.length e v := by
  obtain ⟨he, rfl⟩ := List.getElem?_eq_some_iff.mp hv
  rw [length_vectorBook_vq] at he
  simpa [vectorBook] using isVector_vqVector t hlen he

end Sys2Proof.Machine

namespace Sys2Proof.Proofs

open Sys2Proof.Machine

/-- Settles O33: the lengths are read as they are, a full sum overfills nothing, and the first error of R121 is none. -/
theorem cbBuildScalar : Obligations.CbBuildScalar := by
  intro s cb lens hm hs hc hcb hE hcap hl h32 hfull h0
  have hkraft := kraft_le_one_of_full hfull
  have hnone : Spec.buildError s.params (s.book cb).unbuild lens = none := by
    rw [buildError_eq, if_neg hkraft.not_gt, if_neg (not_not_intro hfull)]
    exact if_pos h0
  refine ⟨_, assignCodes_assigned ((assignCodes_iff_kraft _ _).mpr hkraft), ?_⟩
  rw [execCbBuild_of_legal hs hc hcb,
    buildBook_scalar (K := (s.book cb).unbuild) (s := s.setBook cb (s.book cb).unbuild) hE hcap (readWords_lengths hm hl) h32 h0, setBook_params,
    hnone, Option.elim_none, setBook_setBook]
  rfl

/-- Settles O34: no error of R121 is left, so the sum overfills nothing, and the vectors are computed from the multiplicands that are read. -/
theorem cbBuildVectors : Obligations.CbBuildVectors := by
  intro s cb lens mults hm hs hc hcb hE hcap hl h32 hnone h0 hlen hmults
  have hkraft := kraft_le_one_of_buildError hnone
  have hread : allSome ((s.setBook cb (s.book cb).unbuild).readWords .cbMult cb 0 (Spec.lookupCount (s.book cb).unbuild)) = some mults := by
    rw [readWords_setBook, show Spec.lookupCount (s.book cb).unbuild = mults.length from hlen.symm]
    exact allSome_readWords hm _ _ _ _ fun i m hi => by
      rw [Nat.zero_add]
      exact hmults i m hi
  have hnone' : Spec.buildError (s.setBook cb (s.book cb).unbuild).params (s.book cb).unbuild lens = none := hnone
  refine ⟨_, (vectorBook [s.draws] (assignedBook s.params.codeAssignment (s.book cb).unbuild lens) mults).vq,
    assignCodes_assigned ((assignCodes_iff_kraft _ _).mpr hkraft), ?_, fun e v hv => ?_, ?_⟩
  · exact (length_vectorBook_vq _ _ _).trans hE
  · exact isVector_vectorBook (K := assignedBook s.params.codeAssignment (s.book cb).unbuild lens) hlen hv
  · rw [execCbBuild_of_legal hs hc hcb,
      buildBook_lookup (K := (s.book cb).unbuild) (s := s.setBook cb (s.book cb).unbuild) hE hcap (readWords_lengths hm hl) h32 h0, hnone',
      Option.elim_none, hread, orFault, setBook_setBook, hlen]
    rfl

/-- Settles O35: too many entries stop CB_BUILD at once, a length above 32 stops its scan, and behind them the errors come in their order. -/
theorem cbBuildErrors : Obligations.CbBuildErrors := by
  intro s cb hm hs hc hcb
  have hexec := execCbBuild_of_legal hs hc hcb
  refine ⟨fun hcap => ⟨(s.book cb).code, ?_⟩, fun hcap => ⟨fun e l he hwritten hl hlong => ⟨(s.book cb).code, ?_⟩, fun lens f hE hl h32 herr => ?_⟩⟩
  · rw [hexec]
    exact if_pos hcap
  · obtain ⟨l', hbad⟩ : ∃ l', badLength (s.readWords .cbLen cb 0 (s.book cb).entries.toNat) = some (some l') := by
      refine badLength_of_long (fun e' he' hnone => ?_) ((readWords_getElem? hm _ _ _ _ _ he).trans (by rw [Nat.zero_add, hl])) hlong
      have hsome := hwritten e' he'
      rw [readWords_getElem? hm _ _ _ _ _ (he'.trans he), Nat.zero_add, Option.some.injEq] at hnone
      rw [hnone] at hsome
      cases hsome
    rw [hexec]
    exact buildBook_of_badLength (s := s.setBook cb (s.book cb).unbuild) hcap hbad
  · have herr' : Spec.buildError (s.setBook cb (s.book cb).unbuild).params (s.book cb).unbuild lens = some f := herr
    refine ⟨(assignCodes s.params.codeAssignment lens).1, ?_⟩
    rw [hexec, buildBook_of_error (K := (s.book cb).unbuild) (s := s.setBook cb (s.book cb).unbuild) hE (hE ▸ hcap) (readWords_lengths hm hl) h32
      herr', setBook_setBook]
    rfl

end Sys2Proof.Proofs
end

section
/-!
IMDCT (R163, R164): the state that a legal one leaves, whatever block it computes, and what its registers say.
-/

namespace Sys2Proof.Machine

/-- GEOMETRY and SEQ as R163 and R164 write them: the region formulas of the model in the rule's own case split. -/
theorem setGeometry_eq_blockRegisters (n : Nat) (long prevlong nextlong zero : Bool) (s : State) :
    { setGeometry n long prevlong nextlong zero s with seq := .imdctDone } = Spec.blockRegisters n long prevlong nextlong zero s := by
  cases long <;> cases prevlong <;> cases nextlong <;> rfl

/-- The state after an IMDCT that writes `ws` to WORK. -/
abbrev imdctState (long prevlong nextlong zero : Bool) (ws : List Word) (s : State) : State :=
  (Spec.blockRegisters (s.blockSize long) long prevlong nextlong zero s).writeWords .work 0 0 ws

theorem execImdct_of_legal {s : State} (hd : s.decState = .decoding) (hq : s.seq = .none) (long prevlong nextlong zero : Bool) :
    execImdct long prevlong nextlong zero s =
      if zero then .next (imdctState long prevlong nextlong zero (List.replicate (s.blockSize long) f32Zero) s)
      else orFault (.unwrittenRead .coef) (allSome (s.readWords .coef 0 0 (s.blockSize long / 2))) fun X =>
        .next (imdctState long prevlong nextlong zero (imdctBlock s.params [s.draws] (s.blockSize long) X) s) := by
  simp only [execImdct, whenLegal, isDecoding_iff.mpr hd, hq, beq_self_eq_true, Bool.and_self, if_true, setGeometry_eq_blockRegisters]

/-- A legal IMDCT that completes has written the block registers, and some words to WORK. -/
theorem execImdct_next_of_legal {s t : State} (hd : s.decState = .decoding) (hq : s.seq = .none) {long prevlong nextlong zero : Bool}
    (h : execImdct long prevlong nextlong zero s = .next t) : ∃ ws, t = imdctState long prevlong nextlong zero ws s := by
  rw [execImdct_of_legal hd hq] at h
  split at h
  · exact ⟨_, (Host.Outcome.next.inj h).symm⟩
  · obtain ⟨X, _, hX⟩ := orFault_next.mp h
    exact ⟨_, (Host.Outcome.next.inj hX).symm⟩

theorem readWord_writeWords_zero (s : State) (r : Region) {i : Nat} {ws : List Word} {w : Word} (h : ws[i]? = some w) :
    (s.writeWords r 0 0 ws).readWord r 0 i = some w := by
  have hread := readWord_writeWords s r 0 0 i ws w h
  rwa [Nat.zero_add] at hread

/-- Words written from the start of a region leave every key outside them alone. -/
theorem read_writeWords_outside (s : State) (r : Region) {n k : Nat} {ws : List Word} (hn : ws.length = n) (hk : ¬Spec.inRange r 0 (4 * n) k) :
    (s.writeWords r 0 0 ws).mem.read k = s.mem.read k := by
  refine Memory.read_writeWords_of_outside _ _ _ _ ?_
  simp only [Spec.inRange, base_eq] at hk
  simp only [regionKey]
  omega

/-- The block sizes of a decode are multiples of 64, the smaller is at most the larger, and both fit 14 bits (R8, R211). -/
theorem Inv.blockSize_bounds {s : State} (h : Inv s) (hd : s.decState = .decoding) (long : Bool) :
    s.b0 ≤ s.blockSize long ∧ s.blockSize long ≤ 8192 ∧ s.b0 % 64 = 0 ∧ s.blockSize long % 64 = 0 := by
  have hl := h.loaded (by simp [hd])
  obtain ⟨h6, h01, -⟩ := h.exponents (h.configured hl)
  obtain ⟨hle, h1, -⟩ := h.blockSizes hl
  cases long with
  | false => exact ⟨le_rfl, hle.trans h1, two_pow_mod_64 h6, two_pow_mod_64 h6⟩
  | true => exact ⟨hle, h1, two_pow_mod_64 h6, two_pow_mod_64 (h6.trans h01)⟩

/-- The left window region of R164 and its slope length. -/
theorem leftRegion_rule {b n : Nat} (hb : b % 64 = 0) (hn : n % 64 = 0) (hbn : b ≤ n) (slope : Prop) [Decidable slope] :
    (let left := if slope then (n / 4 - b / 4, n / 4 + b / 4) else (0, n / 2)
     (if slope then left.1 + b / 4 = n / 4 ∧ left.2 = n / 4 + b / 4 else left.1 = 0 ∧ left.2 = n / 2) ∧
     2 * (left.2 - left.1) = if slope then b else n) := by
  by_cases h : slope
  · simp only [if_pos h, and_true]
    omega
  · simp only [if_neg h, and_true, true_and]
    omega

/-- The right window region of R164 and its slope length. -/
theorem rightRegion_rule {b n : Nat} (hb : b % 64 = 0) (hn : n % 64 = 0) (hbn : b ≤ n) (slope : Prop) [Decidable slope] :
    (let right := if slope then (3 * n / 4 - b / 4, 3 * n / 4 + b / 4) else (n / 2, n)
     (if slope then right.1 + b / 4 = 3 * n / 4 ∧ right.2 = 3 * n / 4 + b / 4 else right.1 = n / 2 ∧ right.2 = n) ∧
     2 * (right.2 - right.1) = if slope then b else n) := by
  by_cases h : slope
  · simp only [if_pos h, and_true]
    omega
  · simp only [if_neg h, and_true, true_and]
    omega

/-- The numbers that R164 writes to the region registers fit their 14 bits. -/
theorem Inv.imdct_regions {s : State} (h : Inv s) (hd : s.decState = .decoding) (long prevlong nextlong zero : Bool) (ws : List Word) :
    (let t := imdctState long prevlong nextlong zero ws s
     let n := s.blockSize long
     (t.lws.toNat, t.lwe.toNat) = (if long = true ∧ prevlong = false then (n / 4 - s.b0 / 4, n / 4 + s.b0 / 4) else (0, n / 2)) ∧
     (t.rws.toNat, t.rwe.toNat) = if long = true ∧ nextlong = false then (3 * n / 4 - s.b0 / 4, 3 * n / 4 + s.b0 / 4) else (n / 2, n)) := by
  obtain ⟨hbn, hn, -, -⟩ := h.blockSize_bounds hd long
  unfold State.b0 at *
  refine ⟨Prod.ext (toNat_ofNat14 ?_) (toNat_ofNat14 ?_), Prod.ext (toNat_ofNat14 ?_) (toNat_ofNat14 ?_)⟩ <;>
    generalize 2 ^ s.cfgE0.toNat = b at * <;> split <;> simp only <;> omega

end Sys2Proof.Machine

namespace Sys2Proof.Proofs

open Sys2Proof.Machine

/-- Settles O37: a legal IMDCT with ZERO = 1 is one write of n words +0.0 at the start of WORK, and the block registers. -/
theorem imdctZero : Obligations.ImdctZero := by
  intro s long prevlong nextlong hd hq
  refine ⟨imdctState long prevlong nextlong true (List.replicate (s.blockSize long) f32Zero) s, execImdct_of_legal hd hq _ _ _ _, rfl,
    fun i hi => readWord_writeWords_zero _ _ ?_, fun k hk => read_writeWords_outside _ _ List.length_replicate hk⟩
  exact List.getElem?_replicate_of_lt hi

/-- Settles O39: the registers that R164 writes hold its numbers, which fit their 14 bits. -/
theorem geometryRule : Obligations.GeometryRule := by
  intro s t long prevlong nextlong zero hI hd hq h
  obtain ⟨ws, rfl⟩ := execImdct_next_of_legal hd hq h
  obtain ⟨hbn, hn, hb64, hn64⟩ := hI.blockSize_bounds hd long
  obtain ⟨hleft, hright⟩ := hI.imdct_regions hd long prevlong nextlong zero ws
  have hl := leftRegion_rule hb64 hn64 hbn (long = true ∧ prevlong = false)
  have hr := rightRegion_rule hb64 hn64 hbn (long = true ∧ nextlong = false)
  rw [← hleft] at hl
  rw [← hright] at hr
  exact ⟨toNat_ofNat14 hn, rfl, rfl, rfl, rfl, hl.1, hr.1, hl.2, hr.2⟩

end Sys2Proof.Proofs
end

section
/-!
BITREV (R154): the reversal of a fixed number of bits.
-/

namespace Sys2Proof.Machine

theorem reverseBits_lt (w i : Nat) : reverseBits w i < 2 ^ w := by
  induction w generalizing i with
  | zero => simp [reverseBits]
  | succ w ih =>
    have hlow := ih (i / 2)
    have hbit : i % 2 * 2 ^ w ≤ 1 * 2 ^ w := Nat.mul_le_mul_right _ (by omega)
    rw [reverseBits, pow_succ]
    omega

/-- Bit t of i is bit w-1-t of its reversal. -/
theorem testBit_reverseBits {w t : Nat} (i : Nat) (ht : t < w) : (reverseBits w i).testBit (w - 1 - t) = i.testBit t := by
  induction w generalizing i t with
  | zero => omega
  | succ w ih =>
    rw [reverseBits, Nat.mul_comm, Nat.testBit_two_pow_mul_add _ (reverseBits_lt w _)]
    cases t with
    | zero => simp
    | succ t => rw [if_pos (by omega), show w + 1 - 1 - (t + 1) = w - 1 - t by omega, ih _ (by omega), Nat.testBit_succ]

theorem reverseBits_reverseBits {w i : Nat} (hi : i < 2 ^ w) : reverseBits w (reverseBits w i) = i := by
  apply Nat.eq_of_testBit_eq
  intro t
  rcases Nat.lt_or_ge t w with ht | ht
  · have h := testBit_reverseBits (reverseBits w i) (show w - 1 - t < w by omega)
    rwa [show w - 1 - (w - 1 - t) = t by omega, testBit_reverseBits i ht] at h
  · have hpow : 2 ^ w ≤ 2 ^ t := Nat.pow_le_pow_right (by decide) ht
    rw [Nat.testBit_lt_two_pow ((reverseBits_lt _ _).trans_le hpow), Nat.testBit_lt_two_pow (hi.trans_le hpow)]

theorem bitRev_two_pow (m i : Nat) : bitRev (2 ^ m) i = reverseBits (m - 3) i := by
  rw [bitRev, Nat.log2_two_pow]

theorem two_pow_div_eight {m : Nat} (hm : 6 ≤ m) : 2 ^ m / 8 = 2 ^ (m - 3) :=
  Nat.pow_div (show 3 ≤ m by omega) Nat.two_pos

theorem bitRev_lt {m : Nat} (hm : 6 ≤ m) (i : Nat) : bitRev (2 ^ m) i < 2 ^ m / 8 := by
  rw [bitRev_two_pow, two_pow_div_eight hm]
  exact reverseBits_lt _ _

theorem bitRev_bitRev {m i : Nat} (hm : 6 ≤ m) (hi : i < 2 ^ m / 8) : bitRev (2 ^ m) (bitRev (2 ^ m) i) = i := by
  rw [two_pow_div_eight hm] at hi
  rw [bitRev_two_pow, bitRev_two_pow, reverseBits_reverseBits hi]

end Sys2Proof.Machine

namespace Sys2Proof.Proofs

open Sys2Proof.Machine

/-- Settles O40: the bits of a reversal, by induction on their number; the involution follows bit by bit. -/
theorem bitReversal : Obligations.BitReversal := by
  refine ⟨fun m i hm _ hi => ⟨fun t ht => ?_, bitRev_lt hm i, bitRev_bitRev hm hi⟩, by decide⟩
  rw [bitRev_two_pow, show m - 4 - t = m - 3 - 1 - t by omega, testBit_reverseBits i ht]

end Sys2Proof.Proofs
end

section
/-!
Stages 1 and 2 of the pipeline (R156, R157, R162): each array of the model at the indices that one step of the rule names. The ROM is any function
that agrees with the array given to the stage, so that the rule may speak of the whole table.
-/

namespace Sys2Proof.Machine

open Spec (IsTwmul)

/-! ## Scratch arrays -/

theorem at'_table {n i : Nat} (f : Nat → F32) (hi : i < n) : at' (table n f) i = f i := by
  simp [at', table, hi]

/-- Outside its array a stage finds +0.0. -/
theorem at'_table_of_le {n i : Nat} (f : Nat → F32) (hi : n ≤ i) : at' (table n f) i = f32Zero := by
  simp [at', table, hi]

/-- TWMUL is the rotation of R162. -/
theorem isTwmul_twmul (t : Draw) (x y c s : F32) : IsTwmul x y c s (twmul t x y c s).1 (twmul t x y c s).2 :=
  ⟨⟨_, _, _, rfl⟩, _, _, _, rfl⟩

/-! ## Stages 1 and 2 -/

theorem stage1_spec (t : Draw) {n : Nat} (hn : n % 8 = 0) {X : Scratch} {x : Nat → F32} (hX : ∀ k, k < n / 2 → at' X k = x k) :
    Spec.Stage1 n x (at' (stage1 t n X)) := by
  have hlow {k : Nat} (hk : k < n / 2) : at' (stage1 t n X) k = f32Mul (k :: 1 :: t) f32Half (at' X k) := by
    rw [stage1, at'_table _ (by omega), if_pos hk]
  refine ⟨fun k hk => ⟨_, by rw [hlow hk, hX k hk]; rfl⟩, fun k hk hkn => ?_⟩
  rw [hlow (show n - 1 - k < n / 2 by omega), stage1, at'_table _ hkn, if_neg (by omega)]

theorem stage2a_spec (t : Draw) {n : Nat} (hn : n % 8 = 0) {A : Scratch} {a : Nat → F32} (hA : ∀ i, i < n / 2 → at' A i = a i) (U : Scratch) :
    Spec.Stage2a n a (at' U) (at' (stage2a t n A U)) := by
  intro k hk
  have hhigh : at' (stage2a t n A U) (n - 1 - 4 * k) = (pair2a t n A U k).1 := by
    rw [stage2a, at'_table _ (by omega), if_pos (by omega), show (n - 1 - (n - 1 - 4 * k)) / 4 = k by omega]
  have hlow : at' (stage2a t n A U) (n - 3 - 4 * k) = (pair2a t n A U k).2 := by
    rw [stage2a, at'_table _ (by omega), if_neg (by omega), if_pos (by omega), show (n - 3 - (n - 3 - 4 * k)) / 4 = k by omega]
  rw [hhigh, hlow, ← hA _ (by omega), ← hA _ (by omega)]
  exact ⟨_, _, isTwmul_twmul _ _ _ _ _⟩

theorem stage2b_spec (t : Draw) {n : Nat} (hn : n % 8 = 0) {A : Scratch} {a : Nat → F32} (hA : ∀ i, i < n / 2 → at' A i = a i) (V : Scratch) :
    Spec.Stage2b n a (at' V) (at' (stage2b t n A V)) := by
  intro k hk
  have hsum {i j : Nat} (hi : n / 2 ≤ i) (hin : i < n) (hodd : i % 2 = 1) (hj : i - n / 2 = j) :
      at' (stage2b t n A V) i = f32Add (i :: 4 :: t) (at' V i) (at' V j) := by
    rw [stage2b, at'_table _ hin, if_neg (by omega), if_pos hi, hj]
  have h3 : at' (stage2b t n A V) (4 * k + 3) = (pair2b t n A V k).1 := by
    rw [stage2b, at'_table _ (by omega), if_neg (by omega), if_neg (by omega), if_pos (by omega), show (4 * k + 3) / 4 = k by omega]
  have h1 : at' (stage2b t n A V) (4 * k + 1) = (pair2b t n A V k).2 := by
    rw [stage2b, at'_table _ (by omega), if_neg (by omega), if_neg (by omega), if_neg (by omega), show (4 * k + 1) / 4 = k by omega]
  rw [h3, h1, ← hA _ (by omega), ← hA _ (by omega)]
  exact ⟨⟨_, hsum (by omega) (by omega) (by omega) (by omega)⟩, ⟨_, hsum (by omega) (by omega) (by omega) (by omega)⟩,
    _, _, isTwmul_twmul _ _ _ _ _⟩

/-- A block size is a multiple of 8, as every stage divides it. -/
theorem two_pow_mod_eight {m : Nat} (hm : 6 ≤ m) : 2 ^ m % 8 = 0 := by
  have := two_pow_mod_64 hm
  omega

end Sys2Proof.Machine

namespace Sys2Proof.Proofs

open Sys2Proof.Machine

/-- Settles O41: each stage at the indices that a step of the rule writes. -/
theorem stagesOneAndTwo : Obligations.StagesOneAndTwo := by
  intro t m X A U V hm _
  have hn := two_pow_mod_eight hm
  exact ⟨stage1_spec t hn fun _ _ => rfl, stage2a_spec t hn (fun _ _ => rfl) U, stage2b_spec t hn (fun _ _ => rfl) V⟩

end Sys2Proof.Proofs
end

section
/-!
Stages 3 and 4 of the pipeline (R158, R159): the passes, each at the indices that one step of its loops names, and the swap of the octets.

With k0 = 4 p the array of pass l has 2^(l+2) rows of k0 elements, counted from the top; a step r of the row pair 2q works on the elements 4r and
4r + 2 of both rows.
-/

namespace Sys2Proof.Machine

/-! ## The passes -/

/-- The last pass of a run of passes. -/
theorem passes3_succ (t : Draw) (n : Nat) (A : Scratch) (count l : Nat) (W : Scratch) :
    passes3 t n A (count + 1) l W = pass3 t n (l + count) A (passes3 t n A count l W) := by
  induction count generalizing l W with
  | zero => rfl
  | succ count ih => rw [passes3, ih, passes3, Nat.add_assoc, Nat.add_comm 1]

/-- The element of a pass at the even distance k0 j + e from the top, which is place e of row j. -/
theorem at'_pass3 (t : Draw) {n l k0 j e : Nat} (A W : Scratch) (hk0 : n / 2 ^ (l + 2) = k0) (he : e < k0) (hin : k0 * j + e < n)
    (heven : (k0 * j + e) % 2 = 0) {i : Nat} (hi : n - 1 - (k0 * j + e) = i) :
    at' (pass3 t n l A W) i =
      if j % 2 = 0 then f32Add (i :: l :: 6 :: t) (at' W i) (at' W (i - k0))
      else if (k0 * j + e) % 4 = 0 then (pair3 t l k0 A W (i + k0) (e / 4)).1 else (pair3 t l k0 A W (i + 2 + k0) (e / 4)).2 := by
  have hrow : (k0 * j + e) / k0 = j := by rw [Nat.mul_add_div (by omega), Nat.div_eq_of_lt he, Nat.add_zero]
  have hplace : (k0 * j + e) % k0 = e := by rw [Nat.mul_add_mod, Nat.mod_eq_of_lt he]
  rw [pass3, at'_table _ (by omega)]
  simp only [hk0, show n - 1 - i = k0 * j + e by omega, hrow, hplace, heven, zero_ne_one, if_false]

/-- The ROM entries of a pass lie in the table: its step r reads the pair 2 r z of 2 p z. -/
theorem rom_index_lt {p z r : Nat} (hr : r < p) (hz : 0 < z) : r * (4 * z) + 1 < 4 * p * z := by
  have h : (r + 1) * (4 * z) ≤ p * (4 * z) := Nat.mul_le_mul_right _ hr
  have h' : p * (4 * z) = 4 * p * z := by ring
  rw [Nat.add_mul] at h
  omega

/-- The products of a step of a pass, by the four elements a, b, c, d of the rule. -/
theorem isTwmul_pair3 (t : Draw) (l k0 : Nat) (A W : Scratch) (r : Nat) {a b c d : Nat} (hb : a - 2 = b) (hc : a - k0 = c) (hd : b - k0 = d) :
    ∃ t₁ t₂, Spec.IsTwmul (f32Sub t₁ (at' W a) (at' W c)) (f32Sub t₂ (at' W b) (at' W d)) (at' A (r * 2 ^ (l + 3)))
      (at' A (r * 2 ^ (l + 3) + 1)) (pair3 t l k0 A W a r).1 (pair3 t l k0 A W a r).2 := by
  subst hb hc hd
  exact ⟨_, _, isTwmul_twmul _ _ _ _ _⟩

/-- Pass l, for n = 4 p 2^(l+2). -/
theorem pass3_spec (t : Draw) {n l p : Nat} (hn : n = 4 * p * 2 ^ (l + 2)) {A : Scratch} {a : Nat → F32}
    (hA : ∀ i, i < n / 2 → at' A i = a i) (W : Scratch) : Spec.Pass3 n l a (at' W) (at' (pass3 t n l A W)) := by
  have hk0 : n / 2 ^ (l + 2) = 4 * p := by rw [hn, Nat.mul_div_cancel _ (by positivity)]
  have hsteps : n / 2 ^ (l + 4) = p := by
    rw [show 2 ^ (l + 4) = 2 ^ (l + 2) * 4 by ring, ← Nat.div_div_eq_div_mul, hk0]
    omega
  intro r q hr hq
  rw [hsteps] at hr
  have hrom : r * 2 ^ (l + 3) + 1 < n / 2 := by
    have h := rom_index_lt hr (show 0 < 2 ^ (l + 1) by positivity)
    rw [show 4 * 2 ^ (l + 1) = 2 ^ (l + 3) by ring] at h
    have hhalf : n = 2 * (4 * p * 2 ^ (l + 1)) := by rw [hn]; ring
    omega
  have hrows : 4 * p * (2 * q) + 2 * (4 * p) ≤ n := by
    calc 4 * p * (2 * q) + 2 * (4 * p) = 4 * p * (2 * q + 2) := by ring
      _ ≤ 4 * p * 2 ^ (l + 2) := Nat.mul_le_mul_left _ (by rw [pow_succ] at hq ⊢; omega)
      _ = n := hn.symm
  have hmul : 4 * p * (2 * q) % 4 = 0 := by rw [Nat.mul_assoc, Nat.mul_mod_right]
  have hodd : 4 * p * (2 * q + 1) = 4 * p * (2 * q) + 4 * p := Nat.mul_succ _ _
  have hparity : 2 * q % 2 = 0 ∧ ¬(2 * q + 1) % 2 = 0 := by omega
  have hsum {e i c : Nat} (he : e < 4 * p) (heven : e % 2 = 0) (hi : n - 1 - 4 * p * (2 * q) - e = i) (hc : i - 4 * p = c) :
      ∃ d, at' (pass3 t n l A W) i = f32Add d (at' W i) (at' W c) := by
    rw [at'_pass3 t A W hk0 (j := 2 * q) he (by omega) (by omega) (by omega), if_pos hparity.1, hc]
    exact ⟨_, rfl⟩
  have hc : at' (pass3 t n l A W) (n - 1 - 4 * p * (2 * q + 1) - 4 * r) =
      (pair3 t l (4 * p) A W (n - 1 - 4 * p * (2 * q) - 4 * r) r).1 := by
    rw [at'_pass3 t A W hk0 (j := 2 * q + 1) (e := 4 * r) (by omega) (by omega) (by omega) (by omega), if_neg hparity.2, if_pos (by omega),
      show n - 1 - 4 * p * (2 * q + 1) - 4 * r + 4 * p = n - 1 - 4 * p * (2 * q) - 4 * r by omega, show 4 * r / 4 = r by omega]
  have hd : at' (pass3 t n l A W) (n - 3 - 4 * p * (2 * q + 1) - 4 * r) =
      (pair3 t l (4 * p) A W (n - 1 - 4 * p * (2 * q) - 4 * r) r).2 := by
    rw [at'_pass3 t A W hk0 (j := 2 * q + 1) (e := 4 * r + 2) (by omega) (by omega) (by omega) (by omega), if_neg hparity.2, if_neg (by omega),
      show n - 3 - 4 * p * (2 * q + 1) - 4 * r + 2 + 4 * p = n - 1 - 4 * p * (2 * q) - 4 * r by omega, show (4 * r + 2) / 4 = r by omega]
  simp only [hk0]
  refine ⟨hsum (e := 4 * r) (by omega) (by omega) rfl (by omega), hsum (e := 4 * r + 2) (by omega) (by omega) (by omega) (by omega), ?_⟩
  rw [hc, hd, ← hA _ (by omega), ← hA _ hrom]
  exact isTwmul_pair3 t l (4 * p) A W r (by omega) (by omega) (by omega)

theorem stage3_spec (t : Draw) {m : Nat} {A : Scratch} {a : Nat → F32} (hA : ∀ i, i < 2 ^ m / 2 → at' A i = a i) (W : Scratch) :
    Spec.Stage3 m a (at' W) (at' (stage3 t (2 ^ m) A W)) := by
  refine ⟨fun l => at' (passes3 t (2 ^ m) A l 0 W), rfl, by rw [stage3, Nat.log2_two_pow], fun l hl => ?_⟩
  have hn : 2 ^ m = 4 * 2 ^ (m - l - 4) * 2 ^ (l + 2) := by
    rw [show 4 = 2 ^ 2 by rfl, ← pow_add, ← pow_add]
    congr 1
    omega
  beta_reduce
  rw [passes3_succ, Nat.zero_add]
  exact pass3_spec t hn hA _

/-! ## The swap -/

/-- The odd elements of an octet are those of the octet of the reversed index. -/
theorem at'_stage4 {n i t : Nat} (hn : n % 8 = 0) (hi : i < n / 8) (ht : t ∈ [1, 3, 5, 7]) (U : Scratch) :
    at' (stage4 n U) (8 * i + t) = at' U (8 * bitRev n i + t) := by
  have hodd : t < 8 ∧ t % 2 = 1 := by
    fin_cases ht <;> decide
  rw [stage4, at'_table _ (by omega), if_neg (by omega), show (8 * i + t) / 8 = i by omega, show (8 * i + t) % 8 = t by omega]

theorem stage4_spec {m : Nat} (hm : 6 ≤ m) (U : Scratch) : Spec.Stage4 (2 ^ m) (bitRev (2 ^ m)) (at' U) (at' (stage4 (2 ^ m) U)) := by
  intro i t hi ht
  have hn := two_pow_mod_eight hm
  refine ⟨fun he => ?_, fun _ => ⟨?_, at'_stage4 hn hi ht U⟩⟩
  · rw [at'_stage4 hn hi ht, ← he]
  · rw [at'_stage4 hn (bitRev_lt hm i) ht, bitRev_bitRev hm hi]

end Sys2Proof.Machine

namespace Sys2Proof.Proofs

open Sys2Proof.Machine

/-- Settles O42: stage 3 by its passes, each at the elements of one step; stage 4 as BITREV is an involution. -/
theorem stagesThreeAndFour : Obligations.StagesThreeAndFour := fun t _ _ W U hm _ =>
  ⟨stage3_spec t (fun _ _ => rfl) W, stage4_spec hm U⟩

end Sys2Proof.Proofs
end

section
/-!
Stages 5 and 6 of the pipeline (R160, R161): each array of the model at the indices that one step of the rule names.
-/

namespace Sys2Proof.Machine

theorem stage5a_spec (n : Nat) (V : Scratch) : Spec.Stage5a n (at' V) (at' (stage5a n V)) := fun k hk => by
  rw [stage5a, at'_table _ hk]

theorem stage5b_spec {n : Nat} (hn : n % 8 = 0) (W : Scratch) : Spec.Stage5b n (at' W) (at' (stage5b n W)) := by
  intro k hk
  have hupper {i d : Nat} (hi : n - n / 4 ≤ i) (hin : i < n) (hd : n - 1 - i = d) : at' (stage5b n W) i = at' W (4 * (d / 2) + d % 2) := by
    rw [stage5b, at'_table _ hin, if_pos hi, hd]
  have hlower {i d : Nat} (hi : i < n - n / 4) (hin : n / 2 ≤ i) (hd : n - n / 4 - 1 - i = d) :
      at' (stage5b n W) i = at' W (4 * (d / 2) + 2 + d % 2) := by
    rw [stage5b, at'_table _ (by omega), if_neg (by omega), if_pos hin, hd]
  obtain ⟨h1, h2, h3, h4⟩ := two_mul_div_two k
  refine ⟨?_, ?_, ?_, ?_⟩
  · rw [hupper (d := 2 * k) (by omega) (by omega) (by omega), h1, h2, Nat.add_zero]
  · rw [hupper (d := 2 * k + 1) (by omega) (by omega) (by omega), h3, h4]
  · rw [hlower (d := 2 * k) (by omega) (by omega) (by omega), h1, h2, Nat.add_zero]
  · rw [hlower (d := 2 * k + 1) (by omega) (by omega) (by omega), h3, h4]

theorem stage5c_spec (t : Draw) {n : Nat} (hn : n % 8 = 0) {C : Scratch} {c : Nat → F32} (hC : ∀ i, i < n / 4 → at' C i = c i) (U : Scratch) :
    Spec.Stage5c n c (at' U) (at' (stage5c t n C U)) := by
  intro k hk
  have hupper {i d : Nat} (hi : n - n / 4 ≤ i) (hin : i < n) (hd : n - 1 - i = d) :
      at' (stage5c t n C U) i = if d % 2 = 0 then (quad5c t n C U (d / 2)).2.2.2 else (quad5c t n C U (d / 2)).2.1 := by
    rw [stage5c, at'_table _ hin, if_pos hi, hd]
  have hlower {i d : Nat} (hi : i < n - n / 4) (hin : n / 2 ≤ i) (hd : i - n / 2 = d) :
      at' (stage5c t n C U) i = if d % 2 = 0 then (quad5c t n C U (d / 2)).1 else (quad5c t n C U (d / 2)).2.2.1 := by
    rw [stage5c, at'_table _ (by omega), if_neg (by omega), if_pos hin, hd]
  obtain ⟨h1, h2, h3, h4⟩ := two_mul_div_two k
  rw [hlower (d := 2 * k) (by omega) (by omega) (by omega), hupper (d := 2 * k + 1) (by omega) (by omega) (by omega),
    hlower (d := 2 * k + 1) (by omega) (by omega) (by omega), hupper (d := 2 * k) (by omega) (by omega) (by omega),
    if_pos h2, if_pos h2, if_neg (by omega), if_neg (by omega), h1, h3, ← hC _ (by omega), ← hC _ (by omega)]
  exact ⟨_, _, _, _, _, _, _, _, ⟨_, rfl⟩, ⟨_, rfl⟩, ⟨_, rfl⟩, ⟨_, rfl⟩, ⟨_, rfl⟩, ⟨_, rfl⟩, ⟨_, rfl⟩, ⟨_, rfl⟩,
    ⟨_, _, _, rfl⟩, ⟨_, _, _, rfl⟩, ⟨_, _, _, rfl⟩, _, _, _, rfl⟩

theorem stage6a_spec (t : Draw) {n : Nat} (hn : n % 8 = 0) {B : Scratch} {b : Nat → F32} (hB : ∀ i, i < n / 2 → at' B i = b i) (V : Scratch) :
    Spec.Stage6a n b (at' V) (at' (stage6a t n B V)) := by
  intro k hk
  rw [← hB _ (by omega), ← hB _ (by omega), stage6a, at'_table _ (by omega), at'_table _ (by omega), if_pos hk, if_neg (by omega)]
  simp only [show n / 2 - 1 - (n / 2 - 1 - k) = k by omega]
  exact ⟨⟨_, _, _, rfl⟩, _, _, _, rfl⟩

theorem stage6b_spec {n : Nat} (hn : n % 8 = 0) (Y : Scratch) : Spec.Stage6b n (at' Y) (at' (stage6b n Y)) := by
  refine ⟨fun i hi => ?_, fun i hi hin => ?_, fun i hi hin => ?_⟩
  · rw [stage6b, at'_table _ (by omega), if_pos hi]
  · rw [stage6b, at'_table _ (by omega), if_neg (by omega), if_pos hin]
  · rw [stage6b, at'_table _ hin, if_neg (by omega), if_neg (by omega)]

end Sys2Proof.Machine

namespace Sys2Proof.Proofs

open Sys2Proof.Machine

/-- Settles O43: each stage at the indices that a step of the rule writes. -/
theorem stagesFiveAndSix : Obligations.StagesFiveAndSix := by
  intro t m V W C U B Y hm _
  have hn := two_pow_mod_eight hm
  exact ⟨stage5a_spec _ V, stage5b_spec hn W, stage5c_spec t hn (fun _ _ => rfl) U, stage6a_spec t hn (fun _ _ => rfl) V, stage6b_spec hn Y⟩

end Sys2Proof.Proofs
end

section
/-!
The transform of a core (R155-R165): the reference pipeline as the chain of its stages, and P-IMDCT in the statements' own terms.
-/

namespace Sys2Proof.Machine

/-! ## The reference pipeline -/

/-- Stages 1 to 6 on the core's ROM, on the coefficients that the block holds (R156-R161). -/
theorem imdctPipeline_spec (rom : TrigRom) (t : Draw) {m : Nat} (hm : 6 ≤ m) {X : Scratch} {x : Nat → F32}
    (hX : ∀ k, k < 2 ^ m / 2 → at' X k = x k) : Spec.Pipeline rom m x (at' (imdctPipeline rom t (2 ^ m) X)) := by
  have hn := two_pow_mod_eight hm
  have hA (i : Nat) (hi : i < 2 ^ m / 2) := at'_table (twA rom (2 ^ m)) hi
  exact ⟨_, _, _, _, _, _, _, _, _, stage1_spec t hn hX, stage2a_spec t hn hA _, stage2b_spec t hn hA _, stage3_spec t hA _,
    stage4_spec hm _, stage5a_spec _ _, stage5b_spec hn _, stage5c_spec t hn (fun _ hi => at'_table _ hi) _,
    stage6a_spec t hn (fun _ hi => at'_table _ hi) _, stage6b_spec hn _⟩

/-! ## P-IMDCT (R165) -/

/-- The zeros are the words of magnitude 0. -/
theorem isZero_iff_units {x : F32} : Spec.IsZero x ↔ f32Units x = 0 := by
  refine ⟨?_, fun h => ?_⟩
  · rintro (rfl | rfl) <;> rfl
  · rw [eq_zero_of_units h]
    cases f32Sign x
    · exact .inl rfl
    · exact .inr rfl

theorem cast_value (x : F32) : (Spec.value x : ℝ) = f32Int x / 2 ^ 149 := by
  unfold Spec.value
  push_cast
  rfl

/-- The elements of a list, as a stage reads them from its array. -/
theorem at'_toArray (l : List F32) (i : Nat) : at' l.toArray i = l.getD i f32Zero := by
  simp [at', List.getD_eq_getElem?_getD]

/-- The model's P-IMDCT of lists is that of the statements. -/
theorem PImdct.spec {n : Nat} {X out : List F32} (hl : X.length = n / 2) (h : PImdct n X out) :
    Spec.PImdct n (at' X.toArray) (at' out.toArray) := by
  obtain ⟨hlen, hzero, hnear⟩ := h
  have hget {Q : F32 → Prop} {l : List F32} (hQ : ∀ i, i < l.length → Q (at' l.toArray i)) : ∀ x ∈ l, Q x := by
    intro x hx
    obtain ⟨i, hi, rfl⟩ := List.getElem_of_mem hx
    have := hQ i hi
    rwa [at'_toArray, List.getD_eq_getElem _ _ hi] at this
  refine ⟨fun hX i hi => ?_, fun hX hy i hi => ?_⟩
  · rw [isZero_iff_units, at'_toArray, List.getD_eq_getElem _ _ (hlen ▸ hi)]
    exact hzero (hget fun j hj => isZero_iff_units.mp (hX j (hl ▸ hj))) _ (List.getElem_mem _)
  · simp only [Spec.NearIdeal, Spec.ideal, cast_value, at'_toArray, MeetsBound] at hnear hy ⊢
    have := hnear (hget fun j hj => hX j (hl ▸ hj)) hy i hi
    simpa only [one_div, inv_mul_eq_div] using this

/-- P-IMDCT speaks of the n/2 coefficients only. -/
theorem PImdct_congr {n : Nat} {X Y out : Nat → F32} (h : ∀ j, j < n / 2 → X j = Y j) (hX : Spec.PImdct n X out) : Spec.PImdct n Y out := by
  have hideal (i : Nat) : Spec.ideal n X i = Spec.ideal n Y i :=
    Finset.sum_congr rfl fun j hj => by rw [h j (Finset.mem_range.mp hj)]
  have htotal : ∑ j ∈ Finset.range (n / 2), |(Spec.value (X j) : ℝ)| = ∑ j ∈ Finset.range (n / 2), |(Spec.value (Y j) : ℝ)| :=
    Finset.sum_congr rfl fun j hj => by rw [h j (Finset.mem_range.mp hj)]
  obtain ⟨hzero, hnear⟩ := hX
  simp only [Spec.NearIdeal, hideal, htotal] at hnear
  exact ⟨fun hY => hzero fun j hj => h j hj ▸ hY j hj, fun hY => hnear fun j hj => h j hj ▸ hY j hj⟩

/-- The transform of a core in the statements' own terms: the pipeline, or under a replaced IMDCT_IMPL some values that meet P-IMDCT. -/
theorem imdctBlock_spec (P : Params) (t : Draw) {m : Nat} (hm : 6 ≤ m) {X : List F32} (hl : X.length = 2 ^ m / 2) {x : Nat → F32}
    (hX : ∀ k, k < 2 ^ m / 2 → at' X.toArray k = x k) :
    Spec.Pipeline P.trigRom m x (at' (imdctBlock P t (2 ^ m) X).toArray) ∨
    (P.imdctImpl = .replacement ∧ Spec.PImdct (2 ^ m) x (at' (imdctBlock P t (2 ^ m) X).toArray)) := by
  rcases imdctBlock_cases P t (2 ^ m) X with h | ⟨hp, h⟩
  · rw [h]
    exact .inl (imdctPipeline_spec P.trigRom t hm hX)
  · exact .inr ⟨hp, PImdct_congr hX (h.spec hl)⟩

/-! ## The words of COEF -/

/-- The exponent of a block size (R211). -/
theorem Inv.exponent_le {s : State} (h : Inv s) (hd : s.decState = .decoding) (long : Bool) :
    6 ≤ (if long = true then s.cfgE1.toNat else s.cfgE0.toNat) ∧ (if long = true then s.cfgE1.toNat else s.cfgE0.toNat) ≤ 13 := by
  obtain ⟨h6, h01, h13⟩ := h.exponents (h.configured (h.loaded (by simp [hd])))
  split <;> omega

/-- The words of COEF, read as a list. -/
theorem readWords_coef {s : State} (hm : s.mem.wf) {n : Nat} {X : Nat → F32} (hX : ∀ j, j < n → s.readWord .coef 0 j = some (X j)) :
    allSome (s.readWords .coef 0 0 n) = some ((List.range n).map X) := by
  have h := allSome_readWords hm .coef 0 0 ((List.range n).map X) fun j w hw => by
    obtain ⟨hj, rfl⟩ := List.getElem?_eq_some_iff.mp hw
    rw [List.length_map, List.length_range] at hj
    rw [Nat.zero_add, hX j hj, List.getElem_map, List.getElem_range]
  rwa [List.length_map, List.length_range] at h

/-- An IMDCT with ZERO = 0 of written coefficients completes with the core's transform of them. -/
theorem execImdct_of_coef {s : State} (hw : s.mem.wf) (hd : s.decState = .decoding) (hq : s.seq = .none) {long prevlong nextlong : Bool}
    {X : Nat → F32} (hX : ∀ j, j < s.blockSize long / 2 → s.readWord .coef 0 j = some (X j)) :
    execImdct long prevlong nextlong false s = .next (imdctState long prevlong nextlong false
      (imdctBlock s.params [s.draws] (s.blockSize long) ((List.range (s.blockSize long / 2)).map X)) s) := by
  rw [execImdct_of_legal hd hq, readWords_coef hw hX]
  rfl

end Sys2Proof.Machine

namespace Sys2Proof.Proofs

open Sys2Proof.Machine

/-- Settles O38: COEF is read as the list of its words, and the block written to WORK is the pipeline of them, or meets P-IMDCT. -/
theorem imdctTransform : Obligations.ImdctTransform := by
  intro s long prevlong nextlong X hI hd hq m hX
  have hm : 6 ≤ m := (hI.exponent_le hd long).1
  have hn : s.blockSize long = 2 ^ m := by cases long <;> rfl
  have hlen := length_imdctBlock s.params [s.draws] (2 ^ m) ((List.range (2 ^ m / 2)).map X)
  have hexec := execImdct_of_coef (prevlong := prevlong) (nextlong := nextlong) hI.mem hd hq (hn ▸ hX)
  have hspec := imdctBlock_spec s.params [s.draws] hm (X := (List.range (2 ^ m / 2)).map X) (by simp) fun k hk => at'_table X hk
  simp only [imdctState, hn] at hexec
  generalize imdctBlock s.params [s.draws] (2 ^ m) ((List.range (2 ^ m / 2)).map X) = ws at hlen hexec hspec
  refine ⟨_, at' ws.toArray, hexec, rfl, hspec, fun i hi => readWord_writeWords_zero _ _ ?_, fun k hk => read_writeWords_outside _ _ hlen hk⟩
  rw [at'_toArray, List.getD_eq_getElem _ _ (hlen ▸ hi), List.getElem?_eq_getElem]

end Sys2Proof.Proofs
end

section
/-!
Zeros of either sign through the transform (R165 (b)): every operation on zeros and finite ROM entries gives a zero, so every stage turns arrays of
zeros into arrays of zeros.
-/

namespace Sys2Proof.Machine

open Spec (IsZero)

/-! ## Zeros under the operations of R13 -/

theorem isZero_zero : IsZero f32Zero := .inl rfl

theorem isFinite_of_isZero {x : F32} (h : IsZero x) : f32IsFinite x = true := by
  rcases h with rfl | rfl <;> rfl

theorem f32Int_of_isZero {x : F32} (h : IsZero x) : f32Int x = 0 := by
  rcases h with rfl | rfl <;> rfl

theorem isZero_neg {x : F32} (h : IsZero x) : IsZero (f32Neg x) := by
  rcases h with rfl | rfl
  · exact .inr rfl
  · exact .inl rfl

theorem isZero_add (t : Draw) {x y : F32} (hx : IsZero x) (hy : IsZero y) : IsZero (f32Add t x y) := by
  rw [f32Add_of_sum_zero t (isFinite_of_isZero hx) (isFinite_of_isZero hy) (by rw [f32Int_of_isZero hx, f32Int_of_isZero hy, add_zero])]
  split
  · exact .inr rfl
  · exact .inl rfl

theorem isZero_sub (t : Draw) {x y : F32} (hx : IsZero x) (hy : IsZero y) : IsZero (f32Sub t x y) := isZero_add t hx (isZero_neg hy)

theorem rneUnits_zero (d : Nat) : rneUnits 0 d = 0 := by
  simp [rneUnits, rneDiv]

theorem isZero_round_zero (neg : Bool) (d : Nat) : IsZero (f32Round neg 0 d) := by
  rw [f32Round, rneUnits_zero]
  cases neg
  · exact .inl rfl
  · exact .inr rfl

/-- A product with a zero is a zero, where the other factor is no infinity and no NaN. -/
theorem isZero_mul (t : Draw) {x y : F32} (hx : IsZero x) (hy : f32IsFinite y = true) : IsZero (f32Mul t x y) := by
  rw [f32Mul_of_finite t (isFinite_of_isZero hx) hy, isZero_iff_units.mp hx, Nat.zero_mul]
  exact isZero_round_zero _ _

theorem isZero_mul_right (t : Draw) {x y : F32} (hx : f32IsFinite x = true) (hy : IsZero y) : IsZero (f32Mul t x y) := by
  rw [f32Mul_of_finite t hx (isFinite_of_isZero hy), isZero_iff_units.mp hy, Nat.mul_zero]
  exact isZero_round_zero _ _

theorem isZero_div_two (t : Draw) {x : F32} (hx : IsZero x) : IsZero (f32Div t x f32Two) := by
  rcases hx with rfl | rfl
  · exact isZero_round_zero false (f32Units f32Two)
  · exact isZero_round_zero true (f32Units f32Two)

/-! ## Arrays of zeros and of finite values -/

/-- Every element of an array is a zero. -/
def AllZero (a : Scratch) : Prop := ∀ i, IsZero (at' a i)

/-- Every element of an array is finite. -/
def AllFinite (a : Scratch) : Prop := ∀ i, f32IsFinite (at' a i) = true

/-- A property of +0.0 and of every element of a table is one of whatever a stage finds in it. -/
theorem at'_table_mem {Q : F32 → Prop} (h0 : Q f32Zero) {n : Nat} {f : Nat → F32} (h : ∀ i, i < n → Q (f i)) (i : Nat) :
    Q (at' (table n f) i) := by
  rcases Nat.lt_or_ge i n with hi | hi
  · rw [at'_table f hi]
    exact h i hi
  · rw [at'_table_of_le f hi]
    exact h0

theorem allZero_table {n : Nat} {f : Nat → F32} (h : ∀ i, IsZero (f i)) : AllZero (table n f) :=
  at'_table_mem isZero_zero fun i _ => h i

theorem allFinite_table {n : Nat} {f : Nat → F32} (h : ∀ i, i < n → f32IsFinite (f i) = true) : AllFinite (table n f) :=
  at'_table_mem (Q := fun x => f32IsFinite x = true) rfl h

/-- An element chosen by a test is a zero if both choices are. -/
theorem isZero_ite {c : Prop} [Decidable c] {x y : F32} (hx : IsZero x) (hy : IsZero y) : IsZero (if c then x else y) := by
  split
  · exact hx
  · exact hy

theorem isZero_twmul (t : Draw) {x y c s : F32} (hx : IsZero x) (hy : IsZero y) (hc : f32IsFinite c = true) (hs : f32IsFinite s = true) :
    IsZero (twmul t x y c s).1 ∧ IsZero (twmul t x y c s).2 :=
  ⟨isZero_sub _ (isZero_mul _ hx hc) (isZero_mul _ hy hs), isZero_add _ (isZero_mul _ hx hs) (isZero_mul _ hy hc)⟩

/-! ## The stages -/

theorem allZero_stage1 (t : Draw) (n : Nat) {X : Scratch} (hX : AllZero X) : AllZero (stage1 t n X) := by
  have hhalf (k : Nat) (d : Draw) : IsZero (f32Mul d f32Half (at' X k)) := isZero_mul_right d rfl (hX k)
  exact allZero_table fun _ => isZero_ite (hhalf _ _) (isZero_neg (hhalf _ _))

theorem allZero_stage2a (t : Draw) (n : Nat) {A U : Scratch} (hA : AllFinite A) (hU : AllZero U) : AllZero (stage2a t n A U) := by
  have hpair (k : Nat) := isZero_twmul (k :: 2 :: t) (isZero_sub (6 :: k :: 2 :: t) (hU (4 * k)) (hU (n - 1 - 4 * k)))
    (isZero_sub (7 :: k :: 2 :: t) (hU (4 * k + 2)) (hU (n - 3 - 4 * k))) (hA (2 * k)) (hA (2 * k + 1))
  exact allZero_table fun _ => isZero_ite (hpair _).1 (isZero_ite (hpair _).2 isZero_zero)

theorem allZero_stage2b (t : Draw) (n : Nat) {A V : Scratch} (hA : AllFinite A) (hV : AllZero V) : AllZero (stage2b t n A V) := by
  have hpair (k : Nat) := isZero_twmul (k :: 3 :: t) (isZero_sub (6 :: k :: 3 :: t) (hV (n / 2 + 3 + 4 * k)) (hV (4 * k + 3)))
    (isZero_sub (7 :: k :: 3 :: t) (hV (n / 2 + 1 + 4 * k)) (hV (4 * k + 1))) (hA (n / 2 - 4 - 4 * k)) (hA (n / 2 - 3 - 4 * k))
  exact allZero_table fun _ => isZero_ite isZero_zero
    (isZero_ite (isZero_add _ (hV _) (hV _)) (isZero_ite (hpair _).1 (hpair _).2))

theorem allZero_pass3 (t : Draw) (n l : Nat) {A W : Scratch} (hA : AllFinite A) (hW : AllZero W) : AllZero (pass3 t n l A W) := by
  have hpair (k0 a r : Nat) := isZero_twmul (a :: l :: 5 :: t) (isZero_sub (6 :: a :: l :: 5 :: t) (hW a) (hW (a - k0)))
    (isZero_sub (7 :: a :: l :: 5 :: t) (hW (a - 2)) (hW (a - 2 - k0))) (hA (r * 2 ^ (l + 3))) (hA (r * 2 ^ (l + 3) + 1))
  exact allZero_table fun _ => isZero_ite isZero_zero
    (isZero_ite (isZero_add _ (hW _) (hW _)) (isZero_ite (hpair _ _ _).1 (hpair _ _ _).2))

theorem allZero_passes3 (t : Draw) (n : Nat) {A W : Scratch} (hA : AllFinite A) (hW : AllZero W) (count l : Nat) :
    AllZero (passes3 t n A count l W) := by
  induction count generalizing l W with
  | zero => exact hW
  | succ count ih => exact ih (allZero_pass3 t n l hA hW) (l + 1)

theorem allZero_stage3 (t : Draw) (n : Nat) {A W : Scratch} (hA : AllFinite A) (hW : AllZero W) : AllZero (stage3 t n A W) :=
  allZero_passes3 t n hA hW _ 0

theorem allZero_stage4 (n : Nat) {U : Scratch} (hU : AllZero U) : AllZero (stage4 n U) :=
  allZero_table fun _ => isZero_ite isZero_zero (hU _)

theorem allZero_stage5a (n : Nat) {V : Scratch} (hV : AllZero V) : AllZero (stage5a n V) := allZero_table fun _ => hV _

theorem allZero_stage5b (n : Nat) {W : Scratch} (hW : AllZero W) : AllZero (stage5b n W) :=
  allZero_table fun _ => isZero_ite (hW _) (isZero_ite (hW _) isZero_zero)

theorem allZero_stage5c (t : Draw) (n : Nat) {C U : Scratch} (hC : AllFinite C) (hU : AllZero U) : AllZero (stage5c t n C U) := by
  have hsum (d : Draw) (i j : Nat) : IsZero (f32Add d (at' U i) (at' U j)) := isZero_add d (hU i) (hU j)
  have hdiff (d : Draw) (i j : Nat) : IsZero (f32Sub d (at' U i) (at' U j)) := isZero_sub d (hU i) (hU j)
  have hprod (d : Draw) (i : Nat) {x : F32} (hx : IsZero x) : IsZero (f32Mul d (at' C i) x) := isZero_mul_right d (hC i) hx
  have h1 (k : Nat) : IsZero (quad5c t n C U k).1 :=
    isZero_div_two _ (isZero_add _ (isZero_add _ (hsum _ _ _) (hprod _ _ (hdiff _ _ _))) (hprod _ _ (hsum _ _ _)))
  have h2 (k : Nat) : IsZero (quad5c t n C U k).2.1 :=
    isZero_div_two _ (isZero_sub _ (isZero_sub _ (hsum _ _ _) (hprod _ _ (hdiff _ _ _))) (hprod _ _ (hsum _ _ _)))
  have h3 (k : Nat) : IsZero (quad5c t n C U k).2.2.1 :=
    isZero_div_two _ (isZero_sub _ (isZero_add _ (hdiff _ _ _) (hprod _ _ (hsum _ _ _))) (hprod _ _ (hdiff _ _ _)))
  have h4 (k : Nat) : IsZero (quad5c t n C U k).2.2.2 :=
    isZero_div_two _ (isZero_sub _ (isZero_add _ (isZero_neg (hdiff _ _ _)) (hprod _ _ (hsum _ _ _))) (hprod _ _ (hdiff _ _ _)))
  exact allZero_table fun _ => isZero_ite (isZero_ite (h4 _) (h2 _)) (isZero_ite (isZero_ite (h1 _) (h3 _)) isZero_zero)

theorem allZero_stage6a (t : Draw) (n : Nat) {B V : Scratch} (hB : AllFinite B) (hV : AllZero V) : AllZero (stage6a t n B V) := by
  have hprod (d : Draw) (i j : Nat) : IsZero (f32Mul d (at' V i) (at' B j)) := isZero_mul d (hV i) (hB j)
  exact allZero_table fun _ => isZero_ite (isZero_add _ (hprod _ _ _) (hprod _ _ _)) (isZero_sub _ (hprod _ _ _) (hprod _ _ _))

theorem allZero_stage6b (n : Nat) {Y : Scratch} (hY : AllZero Y) : AllZero (stage6b n Y) :=
  allZero_table fun _ => isZero_ite (hY _) (isZero_ite (isZero_neg (hY _)) (isZero_neg (hY _)))

/-! ## The transform -/

/-- The twiddle tables of every ROM hold finite values (R151-R153, D19). -/
theorem allFinite_twiddles (rom : TrigRom) {m : Nat} (hm : 6 ≤ m) (hm' : m ≤ 13) : AllFinite (table (2 ^ m / 2) (twA rom (2 ^ m))) ∧
    AllFinite (table (2 ^ m / 2) (twB rom (2 ^ m))) ∧ AllFinite (table (2 ^ m / 4) (twC rom (2 ^ m))) := by
  have hn := two_pow_mod_eight hm
  have hpairs {l : Nat} {f : Nat → F32} (hf : ∀ k, k < l / 2 → f32IsFinite (f (2 * k)) = true ∧ f32IsFinite (f (2 * k + 1)) = true)
      (hl : l % 2 = 0) : AllFinite (table l f) := by
    refine allFinite_table fun i hi => ?_
    obtain ⟨heven, hodd⟩ := hf (i / 2) (by omega)
    rcases Nat.mod_two_eq_zero_or_one i with h | h
    · rwa [show 2 * (i / 2) = i by omega] at heven
    · rwa [show 2 * (i / 2) + 1 = i by omega] at hodd
  refine ⟨hpairs (fun k hk => ?_) (by omega), hpairs (fun k hk => ?_) (by omega), hpairs (fun k hk => ?_) (by omega)⟩
  · obtain ⟨h, h'⟩ := twANearest_near hm' (show k < 2 ^ m / 4 by omega)
    exact ⟨(h.twA (rom := rom)).1, (h'.twA (rom := rom)).1⟩
  · obtain ⟨h, h'⟩ := twBNearest_near hm' (show k < 2 ^ m / 4 by omega)
    exact ⟨(h.romEntry rom .twB _ _).1, (h'.romEntry rom .twB _ _).1⟩
  · obtain ⟨h, h'⟩ := twCNearest_near hm' (show k < 2 ^ m / 8 by omega)
    exact ⟨(h.romEntry rom .twC _ _).1, (h'.romEntry rom .twC _ _).1⟩

theorem allZero_imdctPipeline (rom : TrigRom) (t : Draw) {m : Nat} (hm : 6 ≤ m) (hm' : m ≤ 13) {X : Scratch} (hX : AllZero X) :
    AllZero (imdctPipeline rom t (2 ^ m) X) := by
  obtain ⟨hA, hB, hC⟩ := allFinite_twiddles rom hm hm'
  have hV₂ := allZero_stage2a t (2 ^ m) hA (allZero_stage1 t (2 ^ m) hX)
  have hU₃ := allZero_stage3 t (2 ^ m) hA (allZero_stage2b t (2 ^ m) hA hV₂)
  have hU₅ := allZero_stage5b (2 ^ m) (allZero_stage5a (2 ^ m) (allZero_stage4 (2 ^ m) hU₃))
  exact allZero_stage6b _ (allZero_stage6a t _ hB (allZero_stage5c t _ hC hU₅))

/-- A list of zeros is read as an array of zeros. -/
theorem allZero_toArray {l : List F32} (h : ∀ x ∈ l, IsZero x) : AllZero l.toArray := by
  intro i
  rw [at'_toArray]
  rcases Nat.lt_or_ge i l.length with hi | hi
  · rw [List.getD_eq_getElem _ _ hi]
    exact h _ (List.getElem_mem hi)
  · rw [List.getD_eq_default _ _ hi]
    exact isZero_zero

theorem AllZero.of_mem {a : Scratch} (h : AllZero a) {y : F32} (hy : y ∈ a.toList) : IsZero y := by
  obtain ⟨i, hi, rfl⟩ := List.getElem_of_mem hy
  have := h i
  rwa [← Array.toArray_toList (xs := a), at'_toArray, List.getD_eq_getElem _ _ hi] at this

end Sys2Proof.Machine

namespace Sys2Proof.Proofs

open Sys2Proof.Machine

/-- Settles O44: stage by stage for the pipeline; a replacement meets P-IMDCT (b). -/
theorem zeroInZeroOut : Obligations.ZeroInZeroOut := by
  intro P t m X hm hm' _ hX
  refine ⟨length_imdctBlock P t _ X, fun y hy => ?_⟩
  rcases imdctBlock_cases P t (2 ^ m) X with h | ⟨_, _, hzero, _⟩
  · rw [h] at hy
    exact (allZero_imdctPipeline P.trigRom t hm hm' (allZero_toArray hX)).of_mem hy
  · exact isZero_iff_units.mpr (hzero (fun x hx => isZero_iff_units.mp (hX x hx)) y hy)

end Sys2Proof.Proofs
end

section
/-!
Silence (R166, R189 (d)): WINDOW and OVERLAP of zeros of either sign, element by element and then through the RAM that they read and write.
-/

namespace Sys2Proof.Machine

open Spec (IsZero)

/-! ## Elements and samples -/

/-- The slopes of every ROM are finite (R180, D19). -/
theorem isFinite_romW (rom : TrigRom) {L j : Nat} (hj : j < L / 2) : f32IsFinite (romW rom L j) = true :=
  ((romWNearest_near hj).romEntry rom .window L j).1

theorem isZero_windowElement (rom : TrigRom) (t : Draw) (lws lwe rws rwe i : Nat) {x : F32} (hx : IsZero x) :
    IsZero (windowElement rom t lws lwe rws rwe x i) := by
  unfold windowElement
  dsimp only
  split
  · exact isZero_zero
  · split
    · exact isZero_mul _ hx (isFinite_romW rom (by omega))
    · split
      · exact hx
      · exact isZero_mul _ hx (isFinite_romW rom (by omega))

theorem isZero_windowBlock (rom : TrigRom) (t : Draw) (lws lwe rws rwe : Nat) {work : List F32} (h : ∀ x ∈ work, IsZero x) :
    ∀ y ∈ windowBlock rom t lws lwe rws rwe work, IsZero y := by
  intro y hy
  obtain ⟨p, hp, rfl⟩ := List.mem_map.mp hy
  exact isZero_windowElement rom t _ _ _ _ _ (h _ (List.fst_mem_of_mem_zipIdx hp))

/-- 128 + 128 x 0 is 128, which Q8 stores as 0 (R185). -/
theorem q8_of_isZero (t : Draw) {f : F32} (h : IsZero f) : q8 t f = 0 := by
  have hmul : IsZero (f32Mul (1 :: t) f32OneTwentyEight f) := isZero_mul_right _ rfl h
  have hsum : f32Add (0 :: t) f32OneTwentyEight (f32Mul (1 :: t) f32OneTwentyEight f) = f32OneTwentyEight := by
    have hint : f32Int f32OneTwentyEight = 2 ^ 156 := by decide +kernel
    rw [f32Add_of_sum_ne_zero _ rfl (isFinite_of_isZero hmul), f32Int_of_isZero hmul, hint]
    · decide +kernel
    · rw [f32Int_of_isZero hmul, hint]
      decide
  have hbyte : quantised (roundHalfUp f32OneTwentyEight) = 0 := by decide +kernel
  have hfin : f32IsFinite f32OneTwentyEight = true := rfl
  simp only [q8, hsum, f32IsNaN_of_finite hfin, f32IsInf_of_finite hfin, Bool.false_eq_true, if_false, hbyte]

theorem isZero_overlapSample (t : Draw) (n p : Nat) {prev work : Array F32} (hp : AllZero prev) (hw : AllZero work) (k : Nat) :
    IsZero (overlapSample t n p prev work k) :=
  isZero_add _ (isZero_ite (hp k) isZero_zero) (isZero_ite (hw _) isZero_zero)

theorem emittedBytes_of_allZero (t : Draw) (s : State) {prev work : Array F32} (hp : AllZero prev) (hw : AllZero work) :
    emittedBytes t s prev work = List.replicate (emittedCount s) 0 := by
  refine List.eq_replicate_iff.mpr ⟨length_emittedBytes t s prev work, fun b hb => ?_⟩
  obtain ⟨k, _, rfl⟩ := List.mem_map.mp hb
  exact q8_of_isZero _ (isZero_overlapSample t _ _ hp hw k)

/-! ## Zeros in RAM -/

/-- Of the first n words of a region those that have a value are zeros. -/
def ZeroWords (s : State) (r : Region) (n : Nat) : Prop := ∀ i x, i < n → s.readWord r 0 i = some x → IsZero x

theorem ZeroWords.mem {s : State} {r : Region} {n : Nat} (h : ZeroWords s r n) (hm : s.mem.wf) {k : Nat} (hk : k ≤ n) {ws : List F32}
    (hws : allSome (s.readWords r 0 0 k) = some ws) : ∀ x ∈ ws, IsZero x := by
  intro x hx
  obtain ⟨j, hj, rfl⟩ := List.getElem_of_mem hx
  have hlen : ws.length = k := by rw [length_allSome hws, length_readWords]
  have hread := readWords_getElem? hm r 0 0 k j (by omega)
  rw [allSome_eq_some.mp hws, List.getElem?_map, List.getElem?_eq_getElem hj, Nat.zero_add] at hread
  exact h j _ (by omega) (Option.some.inj hread).symm

theorem ZeroWords.writeWords {s : State} {r : Region} {n : Nat} (h : ZeroWords s r n) {ws : List F32} (hws : ∀ w ∈ ws, IsZero w) :
    ZeroWords (s.writeWords r 0 0 ws) r n := by
  intro i x hi hx
  rcases Nat.lt_or_ge i ws.length with hlt | hge
  · rw [readWord_writeWords_zero s r (List.getElem?_eq_getElem hlt), Option.some.injEq] at hx
    exact hx ▸ hws _ (List.getElem_mem hlt)
  · rw [readWord_writeWords_outside _ _ _ _ _ _ (.inr (by omega))] at hx
    exact h i x hi hx

/-- A word is read from its four bytes. -/
theorem readWord_congr {s t : State} {r : Region} {i : Nat}
    (h : ∀ j, j < 4 → t.mem.read (regionKey r 0 (4 * i + j)) = s.mem.read (regionKey r 0 (4 * i + j))) : t.readWord r 0 i = s.readWord r 0 i := by
  have hkey (j : Nat) : regionKey r 0 (4 * i) + j = regionKey r 0 (4 * i + j) := by
    unfold regionKey
    omega
  have h0 := h 0 (by omega)
  rw [Nat.add_zero] at h0
  simp only [State.readWord, hkey, h0, h 1 (by omega), h 2 (by omega), h 3 (by omega)]

theorem ZeroWords.writeBytes {s : State} {r r' : Region} {n i : Nat} {bs : List Byte} (h : ZeroWords s r n) (hr : r' ≠ r) (hn : 4 * n ≤ 2 ^ 20)
    (hi : i + bs.length ≤ 2 ^ 20) : ZeroWords (s.writeBytes r' i bs) r n := by
  intro k x hk hx
  rw [readWord_congr fun j hj => read_writeBytes_of_ne (.inl hr) hi (by omega)] at hx
  exact h k x hk hx

theorem ZeroWords.congr {s t : State} {r : Region} {n : Nat} (h : ZeroWords s r n) (hm : t.mem = s.mem) : ZeroWords t r n := by
  intro i x hi hx
  rw [readWord_congr (s := s) (t := t) fun j _ => by rw [hm]] at hx
  exact h i x hi hx

/-! ## OVERLAP -/

theorem execOverlap_next_of_legal {s t : State} (hd : s.decState = .decoding) (hq : s.seq = .windowDone) (h : execOverlap s = .next t) :
    ∃ work prev, currentBlock s = some work ∧ allSome (s.readWords .prev 0 0 (prevCount s)) = some prev ∧
      t = packetDone (emittedCount s) (savePrev work (emitSamples (emittedBytes [s.draws] s prev.toArray work.toArray) s)) := by
  rw [execOverlap, whenLegal_of (by simp [isDecoding_iff.mpr hd, hq])] at h
  obtain ⟨work, hw, h⟩ := orFault_next.mp h
  obtain ⟨prev, hp, h⟩ := orFault_next.mp h
  exact ⟨work, prev, hw, hp, (Host.Outcome.next.inj h).symm⟩

/-- Only a cancellation takes RAM away when a packet ends (R188). -/
theorem packetDone_mem {n : Nat} {s : State} (h : (packetDone n s).decState ≠ .cancelled) : (packetDone n s).mem = s.mem := by
  rcases packetDone_cases n s with ⟨_, e⟩ | ⟨_, _, _, e⟩ | ⟨_, _, e⟩
  · rw [e]
    rfl
  · rw [e] at h
    exact absurd rfl h
  · rw [e]
    rfl

theorem readByte_emitSamples (s : State) {bs : List Byte} {k : Nat} (hk : k < bs.length) :
    (emitSamples bs s).readByte .pcm (s.pcmCursor.toNat + k) = bs[k]? := by
  refine (readByte_writeBytes s .pcm _ _ bs).trans ?_
  rw [if_pos (by omega), Nat.add_sub_cancel_left]

/-- SAVE_PREV leaves PCM alone (R187). -/
theorem readByte_pcm_savePrev (s : State) {work : List F32} (hw : work.length ≤ 2 ^ 18) {o : Nat} (ho : o < 2 ^ 20) :
    (savePrev work s).readByte .pcm o = s.readByte .pcm o := by
  refine readByte_writeWords_of_ne (s := s) (by decide) ?_ ho
  simp only [List.length_take, List.length_drop]
  omega

/-- The emitted samples fit PCM (R186, R189). -/
theorem Inv.emitted_le {s : State} (h : Inv s) (hd : s.decState = .decoding) : s.pcmCursor.toNat + emittedCount s ≤ 2 ^ 20 := by
  obtain ⟨hcur, hcount⟩ := h.cursor hd
  obtain ⟨-, -, hpcm, -⟩ := h.params
  have hle : emittedCount s ≤ s.sampleCount.toNat - s.pcmCursor.toNat := Nat.min_le_right _ _
  omega

end Sys2Proof.Machine

namespace Sys2Proof.Proofs

open Sys2Proof.Machine

/-- R166, R182: WINDOW writes zeros over the block; where it is illegal it writes nothing. -/
theorem window_of_zeros {s t : State} (hI : Inv s) (hz : ZeroWords s .work s.blkN.toNat) (h : exec .window s = .next t) :
    ZeroWords t .work s.blkN.toNat := by
  rcases execWindow_next h with rfl | ⟨_, _, work, hw, rfl⟩
  · exact hz
  · exact hz.writeWords (isZero_windowBlock _ _ _ _ _ _ (hz.mem hI.mem le_rfl hw))

/-- R184, R187: OVERLAP of zeros emits bytes 0 and leaves zeros in PREV. -/
theorem overlap_of_zeros {s t : State} (hI : Inv s) (hd : s.decState = .decoding) (hq : s.seq = .windowDone)
    (hz : ZeroWords s .work s.blkN.toNat) (hp : ZeroWords s .prev 4096) (h : exec .overlap s = .next t) (hc : t.decState ≠ .cancelled) :
    (∀ k, k < Spec.emitted s → t.readByte .pcm (s.pcmCursor.toNat + k) = some 0) ∧ ZeroWords t .prev 4096 := by
  obtain ⟨work, prev, hwork, hprev, rfl⟩ := execOverlap_next_of_legal hd hq h
  have hworkZ := hz.mem hI.mem le_rfl hwork
  have hfit := hI.emitted_le hd
  rw [emittedBytes_of_allZero _ _ (allZero_toArray (hp.mem hI.mem (hI.prevCount_le hd) hprev)) (allZero_toArray hworkZ)] at hc ⊢
  have hmem := packetDone_mem hc
  have hlen : work.length ≤ 2 ^ 18 := by
    have hN := s.blkN.isLt
    rw [length_allSome hwork, length_readWords]
    omega
  refine ⟨fun k hk => ?_, ZeroWords.congr ?_ hmem⟩
  · have hk' : k < emittedCount s := hk
    calc _ = (savePrev work (emitSamples (List.replicate (emittedCount s) 0) s)).readByte .pcm (s.pcmCursor.toNat + k) := by
          rw [State.readByte, hmem, State.readByte]
      _ = (emitSamples (List.replicate (emittedCount s) 0) s).readByte .pcm (s.pcmCursor.toNat + k) := readByte_pcm_savePrev _ hlen (by omega)
      _ = some 0 := by rw [readByte_emitSamples s (by rwa [List.length_replicate]), List.getElem?_replicate_of_lt hk']
  · have hemit : ZeroWords (emitSamples (List.replicate (emittedCount s) 0) s) .prev 4096 :=
      hp.writeBytes (r' := .pcm) (by decide) (by decide) (by rwa [List.length_replicate])
    exact hemit.writeWords fun w hw => hworkZ w (List.mem_of_mem_drop (List.mem_of_mem_take hw))

/-- Settles O51: every element that WINDOW writes and every sample of OVERLAP is a zero, and Q8 of a zero is 0. -/
theorem silenceStaysSilent : Obligations.SilenceStaysSilent := fun _ _ hI hd hz =>
  ⟨fun _ h => window_of_zeros hI hz h, fun hq hp h hc => overlap_of_zeros hI hd hq hz hp h hc⟩

end Sys2Proof.Proofs
end

section
/-!
The quantiser (R185, R189 (b), (c)). A word that is no NaN stands for its integer of units of 2^-149, the infinities for that of the next power of
two, so that the two rounded operations of Q8 are one function of integers, `rneInt`, which is monotone; no case of the rule then needs the
infinities apart.
-/

namespace Sys2Proof.Machine

open Spec (order)

/-! ## Signed magnitudes -/

theorem f32Units_le_iff (x y : F32) : f32Units x ≤ f32Units y ↔ x.toNat % 2 ^ 31 ≤ y.toNat % 2 ^ 31 := by
  rw [← f32Units_mag x, ← f32Units_mag y]
  refine ⟨fun h => ?_, fun h => ?_⟩
  · by_contra hc
    exact absurd h (not_le.mpr (f32Units_lt_of_lt (by omega) (by omega)))
  · rcases Nat.eq_or_lt_of_le h with he | hlt
    · rw [he]
    · exact (f32Units_lt_of_lt hlt (by omega)).le

theorem f32Units_eq_zero_iff (x : F32) : f32Units x = 0 ↔ x.toNat % 2 ^ 31 = 0 := by
  have h := f32Units_le_iff x 0
  rw [show f32Units 0 = 0 from rfl] at h
  simpa using h

/-- The integers of units stand in the order of the words (R61). -/
theorem f32Int_le_iff (x y : F32) : f32Int x ≤ f32Int y ↔ order x ≤ order y := by
  have hle := f32Units_le_iff x y
  have hge := f32Units_le_iff y x
  have hx := f32Units_eq_zero_iff x
  have hy := f32Units_eq_zero_iff y
  unfold f32Int order
  cases f32Sign x <;> cases f32Sign y <;> simp only [if_true, if_false, Bool.false_eq_true] <;> omega

theorem natAbs_order (x : F32) : (order x).natAbs = x.toNat % 2 ^ 31 := by
  unfold order
  split <;> omega

theorem f32IsNaN_eq_false_iff (x : F32) : f32IsNaN x = false ↔ (order x).natAbs ≤ 0x7F800000 := by
  rw [natAbs_order, f32IsNaN, f32Exp_eq, f32Frac_eq, Bool.and_eq_false_iff, beq_eq_false_iff_ne, bne_eq_false_iff_eq]
  omega

theorem f32IsInf_iff (x : F32) : f32IsInf x = true ↔ x.toNat % 2 ^ 31 = 0x7F800000 := by
  rw [f32IsInf, f32Exp_eq, f32Frac_eq, Bool.and_eq_true, beq_iff_eq, beq_iff_eq]
  omega

/-- The infinities stand for 2^277 units, the next power of two after the finite values. -/
theorem f32Units_of_inf {x : F32} (h : f32IsInf x = true) : f32Units x = 2 ^ 25 * 2 ^ 252 := by
  rw [← f32Units_mag, (f32IsInf_iff x).mp h]
  decide +kernel

theorem finite_or_inf_of_not_nan {x : F32} (h : f32IsNaN x = false) : f32IsFinite x = true ∨ f32IsInf x = true := by
  rw [f32IsNaN_eq_false_iff, natAbs_order] at h
  rw [f32IsFinite_iff, f32IsInf_iff]
  omega

/-! ## Rounding is monotone -/

theorem rneUnits_le (n d : Nat) : rneUnits n d ≤ 0x7F800000 := Nat.min_le_right _ _

/-- Were the smaller quotient rounded to the larger value, each would lie on the other's side of the middle of the two values. -/
theorem rneUnits_mono {m n d : Nat} (hd : 0 < d) (h : m ≤ n) : rneUnits m d ≤ rneUnits n d := by
  rcases Nat.lt_or_ge n ((2 ^ 25 - 1) * 2 ^ 252 * d) with hn | hn
  · rcases Nat.eq_or_lt_of_le h with rfl | hmn
    · exact le_rfl
    · by_contra hc
      obtain ⟨_, _, hfm, _⟩ := rneUnits_scaled hd (hmn.trans hn)
      obtain ⟨_, _, hfn, _⟩ := rneUnits_scaled hd hn
      have hnear_m := (rneUnits_nearest hd (hmn.trans hn) hfn).1
      have hnear_n := (rneUnits_nearest hd hn hfm).1
      have hvalues := Nat.mul_lt_mul_of_pos_right (f32Units_lt_of_lt (not_le.mp hc) (by omega)) hd
      simp only [← Nat.cast_mul, Int.abs_eq_natAbs] at hnear_m hnear_n
      omega
  · rw [rneUnits_overflow hd hn]
    exact rneUnits_le m d

/-- The rounded magnitude bits of z / d units, with the sign of z. -/
def rneInt (z : Int) (d : Nat) : Int := if z < 0 then -(rneUnits z.natAbs d : Int) else rneUnits z.natAbs d

theorem natAbs_rneInt (z : Int) (d : Nat) : (rneInt z d).natAbs = rneUnits z.natAbs d := by
  unfold rneInt
  split
  · rw [Int.natAbs_neg, Int.natAbs_natCast]
  · rw [Int.natAbs_natCast]

theorem rneInt_mono {y z : Int} {d : Nat} (hd : 0 < d) (h : y ≤ z) : rneInt y d ≤ rneInt z d := by
  unfold rneInt
  split <;> split
  · have := rneUnits_mono hd (show z.natAbs ≤ y.natAbs by omega)
    omega
  · omega
  · omega
  · have := rneUnits_mono hd (show y.natAbs ≤ z.natAbs by omega)
    omega

theorem order_f32Round (neg : Bool) (n d : Nat) :
    order (f32Round neg n d) = if neg then -(rneUnits n d : Int) else rneUnits n d := by
  have hle := rneUnits_le n d
  cases neg <;>
    simp only [order, f32Sign, BitVec.msb_eq_decide, f32Round, f32Pack, BitVec.toNat_ofNat, if_true, if_false, Bool.false_eq_true,
      decide_eq_true_eq]
  · rw [if_neg (by omega)]
    omega
  · rw [if_pos (by omega)]
    omega

theorem order_f32Round_eq_rneInt {neg : Bool} {n d : Nat} {z : Int} (h : z = if neg then -(n : Int) else n) :
    order (f32Round neg n d) = rneInt z d := by
  rw [order_f32Round, rneInt]
  cases neg with
  | false =>
    simp only [Bool.false_eq_true, if_false] at h ⊢
    rw [if_neg (by omega), h, Int.natAbs_natCast]
  | true =>
    simp only [if_true] at h ⊢
    rcases Nat.eq_zero_or_pos n with rfl | hn
    · simp [h, rneUnits_zero]
    · rw [if_pos (by omega), h, Int.natAbs_neg, Int.natAbs_natCast]

/-- The integer of a word whose bits are those of a rounded quotient. -/
theorem f32Int_of_order {v : F32} {z : Int} {d : Nat} (h : order v = rneInt z d) :
    f32Int v = if z < 0 then -(f32Units (BitVec.ofNat 32 (rneUnits z.natAbs d)) : Int) else f32Units (BitVec.ofNat 32 (rneUnits z.natAbs d)) := by
  have hmag : v.toNat % 2 ^ 31 = rneUnits z.natAbs d := by rw [← natAbs_order, h, natAbs_rneInt]
  have hzero := f32Units_eq_zero_iff v
  rw [← hmag, f32Units_mag, f32Int]
  unfold order rneInt at h
  rw [← hmag] at h
  cases hs : f32Sign v <;> simp only [hs, if_true, if_false, Bool.false_eq_true] at h ⊢ <;> split at h <;> split <;> omega

theorem rneDiv_mul {d : Nat} (hd : 0 < d) (q : Nat) : rneDiv (q * d) d = q := by
  simp [rneDiv, Nat.mul_div_cancel _ hd, hd]

/-- A multiple of 2^149 of at most 9 bits is rounded to itself. -/
theorem f32Units_rneUnits_of_int {m d : Nat} (hd : 0 < d) (hm : m ≤ 256) :
    f32Units (BitVec.ofNat 32 (rneUnits (m * 2 ^ 149 * d) d)) = m * 2 ^ 149 := by
  obtain ⟨k, hlo, -, -, hu⟩ := rneUnits_scaled hd (n := m * 2 ^ 149 * d) (Nat.mul_lt_mul_of_pos_right (by omega) hd)
  have hk : k ≤ 149 := by
    rcases hlo with rfl | hlo
    · omega
    · by_contra hc
      have hpow : 2 ^ 150 ≤ 2 ^ k := Nat.pow_le_pow_right (by decide) (by omega)
      have := Nat.le_of_mul_le_mul_right (show 2 ^ 23 * 2 ^ k * d ≤ m * 2 ^ 149 * d by linarith [hlo]) hd
      omega
  have hn : m * 2 ^ 149 * d = m * 2 ^ (149 - k) * (d * 2 ^ k) := by
    calc m * 2 ^ 149 * d = m * 2 ^ (149 - k + k) * d := by rw [Nat.sub_add_cancel hk]
      _ = m * 2 ^ (149 - k) * (d * 2 ^ k) := by rw [pow_add]; ring
  rw [hu, hn, rneDiv_mul (show 0 < d * 2 ^ k by positivity), mul_assoc, ← pow_add, Nat.sub_add_cancel hk]

theorem f32Int_of_order_of_int {v : F32} {z : Int} {d : Nat} (hd : 0 < d) (hz : z.natAbs ≤ 256) (h : order v = rneInt (z * 2 ^ 149 * d) d) :
    f32Int v = z * 2 ^ 149 := by
  have habs : (z * 2 ^ 149 * d).natAbs = z.natAbs * 2 ^ 149 * d := by rw [Int.natAbs_mul, Int.natAbs_mul, Int.natAbs_natCast]; rfl
  have hneg : z * 2 ^ 149 * d < 0 ↔ z < 0 := by
    rw [← not_le, ← not_le, mul_assoc, mul_nonneg_iff_of_pos_right (by positivity)]
  rw [f32Int_of_order h, habs, f32Units_rneUnits_of_int hd hz]
  simp only [hneg]
  split <;> omega

/-! ## The two operations of Q8 -/

/-- v of R185, with the draws of `q8`. -/
def q8Scaled (t : Draw) (f : F32) : F32 := f32Add (0 :: t) f32OneTwentyEight (f32Mul (1 :: t) f32OneTwentyEight f)

theorem f32Units_oneTwentyEight : f32Units f32OneTwentyEight = 2 ^ 156 := by decide +kernel

theorem f32Int_oneTwentyEight : f32Int f32OneTwentyEight = 2 ^ 156 := by decide +kernel

theorem f32Int_of_inf {x : F32} (h : f32IsInf x = true) : f32Int x = if f32Sign x then -(2 ^ 25 * 2 ^ 252) else 2 ^ 25 * 2 ^ 252 := by
  rw [f32Int, f32Units_of_inf h]
  rfl

theorem order_of_inf {x : F32} (h : f32IsInf x = true) : order x = if f32Sign x then -0x7F800000 else 0x7F800000 := by
  rw [order, (f32IsInf_iff x).mp h]
  rfl

/-- The product 128 x f is rounded from the magnitudes, for the infinities as well: they overflow to themselves. -/
theorem f32Mul_oneTwentyEight (t : Draw) {f : F32} (hf : f32IsNaN f = false) :
    f32Mul t f32OneTwentyEight f = f32Round (f32Sign f) (2 ^ 156 * f32Units f) (2 ^ 149) := by
  have hsign : (f32Sign f32OneTwentyEight != f32Sign f) = f32Sign f := Bool.false_bne _
  rcases finite_or_inf_of_not_nan hf with hfin | hinf
  · rw [f32Mul_of_finite t rfl hfin, hsign, f32Units_oneTwentyEight]
  · have hover : rneUnits (2 ^ 156 * f32Units f) (2 ^ 149) = 0x7F800000 :=
      rneUnits_overflow (by decide) (by rw [f32Units_of_inf hinf]; decide +kernel)
    have hnan : f32IsNaN f32OneTwentyEight = false := rfl
    have hninf : f32IsInf f32OneTwentyEight = false := rfl
    have hpos : ¬f32Units f32OneTwentyEight = 0 := by decide +kernel
    simp only [f32Mul, hnan, hf, hninf, hinf, hpos, hsign, f32Inf, f32Round, hover, Bool.or_self, Bool.false_eq_true, if_false, if_true]

theorem order_mul_oneTwentyEight (t : Draw) {f : F32} (hf : f32IsNaN f = false) :
    order (f32Mul t f32OneTwentyEight f) = rneInt (2 ^ 156 * f32Int f) (2 ^ 149) := by
  rw [f32Mul_oneTwentyEight t hf]
  refine order_f32Round_eq_rneInt ?_
  unfold f32Int
  split <;> push_cast <;> ring

/-- The sum 128 + x is rounded from the integer of units, for the infinities as well. -/
theorem order_oneTwentyEight_add (t : Draw) {x : F32} (hx : f32IsNaN x = false) :
    order (f32Add t f32OneTwentyEight x) = rneInt (2 ^ 156 + f32Int x) 1 := by
  rcases finite_or_inf_of_not_nan hx with hfin | hinf
  · by_cases hz : f32Int f32OneTwentyEight + f32Int x = 0
    · rw [f32Add_of_sum_zero t rfl hfin hz, ← f32Int_oneTwentyEight, hz, if_neg (fun h => absurd h.1 (by decide))]
      rfl
    · rw [f32Add_of_sum_ne_zero t rfl hfin hz, ← f32Int_oneTwentyEight]
      refine order_f32Round_eq_rneInt ?_
      simp only [decide_eq_true_eq]
      split <;> omega
  · have hnan : f32IsNaN f32OneTwentyEight = false := rfl
    have hninf : f32IsInf f32OneTwentyEight = false := rfl
    have hsum : f32Add t f32OneTwentyEight x = x := by
      simp only [f32Add, hnan, hx, hninf, hinf, Bool.or_self, Bool.false_eq_true, if_false, if_true]
    rw [hsum, order_of_inf hinf, f32Int_of_inf hinf]
    cases f32Sign x <;> decide +kernel

/-! ## Q8 -/

theorem f32IsNaN_of_order {v : F32} {z : Int} {d : Nat} (h : order v = rneInt z d) : f32IsNaN v = false := by
  rw [f32IsNaN_eq_false_iff, h, natAbs_rneInt]
  exact rneUnits_le _ _

theorem order_q8Scaled (t : Draw) {f : F32} (hf : f32IsNaN f = false) :
    order (q8Scaled t f) = rneInt (2 ^ 156 + f32Int (f32Mul (1 :: t) f32OneTwentyEight f)) 1 :=
  order_oneTwentyEight_add _ (f32IsNaN_of_order (order_mul_oneTwentyEight _ hf))

theorem q8_eq (t : Draw) (f : F32) : q8 t f =
    if f32IsNaN (q8Scaled t f) then Config.q8OfNaN (2 :: t)
    else if f32IsInf (q8Scaled t f) then quantised (if f32Sign (q8Scaled t f) then 0 else 255)
    else quantised (roundHalfUp (q8Scaled t f)) := rfl

theorem q8_of_finite {t : Draw} {f : F32} (h : f32IsFinite (q8Scaled t f) = true) : q8 t f = quantised (roundHalfUp (q8Scaled t f)) := by
  rw [q8_eq, f32IsNaN_of_finite h, f32IsInf_of_finite h]
  rfl

theorem q8_of_inf {t : Draw} {f : F32} (h : f32IsInf (q8Scaled t f) = true) :
    q8 t f = quantised (if f32Sign (q8Scaled t f) then 0 else 255) := by
  have hnan : f32IsNaN (q8Scaled t f) = false := by
    rw [f32IsNaN_eq_false_iff, natAbs_order, (f32IsInf_iff _).mp h]
  rw [q8_eq, hnan, h]
  rfl

theorem toInt_quantised (x : Int) : (quantised x).toInt = min (max x 0) 255 - 128 := by
  rw [quantised, BitVec.toInt_ofInt]
  exact Int.bmod_eq_of_le (by omega) (by omega)

/-- One formula for every v that is no NaN: the infinities are beyond the clamps. -/
theorem toInt_q8 {t : Draw} {f : F32} (h : f32IsNaN (q8Scaled t f) = false) :
    (q8 t f).toInt = min (max (roundHalfUp (q8Scaled t f)) 0) 255 - 128 := by
  rcases finite_or_inf_of_not_nan h with hfin | hinf
  · rw [q8_of_finite hfin, toInt_quantised]
  · rw [q8_of_inf hinf, toInt_quantised, roundHalfUp, f32Int_of_inf hinf]
    cases f32Sign (q8Scaled t f) <;> decide +kernel

/-- Q8 is monotone: both operations are, and so is the rounding to an integer. -/
theorem q8_mono (t u : Draw) {f g : F32} (hf : f32IsNaN f = false) (hg : f32IsNaN g = false) (h : order f ≤ order g) :
    (q8 t f).toInt ≤ (q8 u g).toInt := by
  have hmul : order (f32Mul (1 :: t) f32OneTwentyEight f) ≤ order (f32Mul (1 :: u) f32OneTwentyEight g) := by
    have hint := (f32Int_le_iff f g).mpr h
    rw [order_mul_oneTwentyEight _ hf, order_mul_oneTwentyEight _ hg]
    exact rneInt_mono (by decide) (by omega)
  have hv : order (q8Scaled t f) ≤ order (q8Scaled u g) := by
    have hint := (f32Int_le_iff _ _).mpr hmul
    rw [order_q8Scaled _ hf, order_q8Scaled _ hg]
    exact rneInt_mono (by decide) (by omega)
  have hround : roundHalfUp (q8Scaled t f) ≤ roundHalfUp (q8Scaled u g) := by
    have hint := (f32Int_le_iff _ _).mpr hv
    exact Int.ediv_le_ediv (by decide) (by omega)
  rw [toInt_q8 (f32IsNaN_of_order (order_q8Scaled _ hf)), toInt_q8 (f32IsNaN_of_order (order_q8Scaled _ hg))]
  omega

/-- Of what is no NaN, Q8 draws nothing. -/
theorem q8_draw (t u : Draw) {f : F32} (hf : f32IsNaN f = false) : (q8 t f).toInt = (q8 u f).toInt :=
  le_antisymm (q8_mono t u hf hf le_rfl) (q8_mono u t hf hf le_rfl)

/-- floor(v + 1/2) of R185. -/
theorem roundHalfUp_eq_floor (v : F32) : roundHalfUp v = ⌊Spec.value v + 1 / 2⌋ := by
  have h : Spec.value v + 1 / 2 = ((f32Int v + 2 ^ 148 : Int) : ℚ) / ((2 ^ 149 : Nat) : ℚ) := by
    rw [Spec.value]
    push_cast
    ring
  rw [h, Rat.floor_intCast_div_natCast]
  rfl

/-- Both operations are exact of x/128, so v is 128 + x (R189 (b)). -/
theorem q8_of_scaled_int (t : Draw) {f : F32} {x : Int} (hlo : -128 ≤ x) (hhi : x ≤ 127) (hf : f32IsFinite f = true)
    (hv : f32Int f = x * 2 ^ 142) : (q8 t f).toInt = x := by
  have hnan := f32IsNaN_of_finite hf
  have hmul : f32Int (f32Mul (1 :: t) f32OneTwentyEight f) = x * 2 ^ 149 := by
    refine f32Int_of_order_of_int (d := 2 ^ 149) (by decide) (by omega) ?_
    rw [order_mul_oneTwentyEight _ hnan, hv]
    congr 1
    push_cast
    ring
  have hsum : f32Int (q8Scaled t f) = (128 + x) * 2 ^ 149 := by
    refine f32Int_of_order_of_int (d := 1) (by decide) (by omega) ?_
    rw [order_q8Scaled _ hnan, hmul]
    congr 1
    push_cast
    ring
  rw [toInt_q8 (f32IsNaN_of_order (order_q8Scaled _ hnan)), roundHalfUp, hsum]
  omega

end Sys2Proof.Machine

namespace Sys2Proof.Proofs

open Sys2Proof.Machine

/-- Settles O50: rounding is monotone on the integers of units, the infinities among them. -/
theorem quantiserMonotone : Obligations.QuantiserMonotone := fun t u _ _ hf hg h => q8_mono t u hf hg h

/-- Settles O49: nothing is rounded. -/
theorem quantiserIdempotent : Obligations.QuantiserIdempotent := by
  intro t f x hlo hhi hf hv
  refine q8_of_scaled_int t hlo hhi hf ?_
  rw [Spec.value, div_eq_div_iff (by norm_num) (by norm_num)] at hv
  have hv' : f32Int f * 128 = x * 2 ^ 149 := by exact_mod_cast hv
  omega

/-- Settles O48: the sample values are evaluated at one draw, and the rule is the model's exact floor of v + 1/2. -/
theorem quantiserRule : Obligations.QuantiserRule := by
  intro t
  have hsample {f : F32} {q : Int} (hf : f32IsNaN f = false) (h : (q8 [] f).toInt = q) : (q8 t f).toInt = q := (q8_draw t [] hf).trans h
  refine ⟨?_, fun f => ⟨0 :: t, 1 :: t, fun hfin => ?_, fun hinf => ?_⟩⟩
  · refine ⟨hsample rfl ?_, hsample rfl ?_, hsample rfl ?_, hsample rfl ?_, hsample rfl ?_, hsample rfl ?_⟩ <;> decide +kernel
  · have hq : q8 t f = quantised (roundHalfUp (q8Scaled t f)) := q8_of_finite hfin
    rw [hq, toInt_quantised, roundHalfUp_eq_floor]
    rfl
  · have hq : q8 t f = quantised (if f32Sign (q8Scaled t f) then 0 else 255) := q8_of_inf hinf
    rw [hq, toInt_quantised]
    change _ = if f32Sign (q8Scaled t f) = true then _ else _
    cases f32Sign (q8Scaled t f) <;> rfl

end Sys2Proof.Proofs
end

section
/-!
WINDOW (R181, R182): the block in WORK, read word by word and written back element by element.
-/

namespace Sys2Proof.Machine

/-- A list of words read from the start of a region is what the words of the region are. -/
theorem readWord_of_allSome {s : State} {r : Region} {n j : Nat} {ws : List Word} (hm : s.mem.wf) (h : allSome (s.readWords r 0 0 n) = some ws)
    (hj : j < n) : s.readWord r 0 j = some (at' ws.toArray j) := by
  have hlen : ws.length = n := by rw [length_allSome h, length_readWords]
  have hread := readWords_getElem? hm r 0 0 n j hj
  rw [allSome_eq_some.mp h, List.getElem?_map, List.getElem?_eq_getElem (hlen ▸ hj), Nat.zero_add] at hread
  rw [at'_toArray, List.getD_eq_getElem _ _ (hlen ▸ hj)]
  exact (Option.some.inj hread).symm

/-- Under the invariant the current block has defined values (R274). -/
theorem Inv.exists_currentBlock {s : State} (h : Inv s) (hd : s.decState = .decoding) (hq : s.seq ≠ .none) :
    ∃ work, currentBlock s = some work ∧ work.length = s.blkN.toNat :=
  (h.workWritten hd hq).allSome_readWords h.mem _ le_rfl

theorem execWindow_of_block {s : State} {work : List F32} (hd : s.decState = .decoding) (hq : s.seq = .imdctDone)
    (hw : currentBlock s = some work) : execWindow s = .next { s.writeWords .work 0 0 (windowBlock s.params.trigRom [s.draws] s.lws.toNat
      s.lwe.toNat s.rws.toNat s.rwe.toNat work) with seq := .windowDone } := by
  rw [execWindow, whenLegal_of (by simp [isDecoding_iff.mpr hd, hq]), hw]
  rfl

/-- The regions of R182, case by case. -/
theorem isWindowed_windowElement (s : State) (t : Draw) (i : Nat) (x : F32) :
    Spec.IsWindowed s i x (windowElement s.params.trigRom t s.lws.toNat s.lwe.toNat s.rws.toNat s.rwe.toNat x i) := by
  unfold Spec.IsWindowed windowElement
  dsimp only
  split
  · rfl
  · split
    · exact ⟨_, rfl⟩
    · split
      · rfl
      · exact ⟨_, rfl⟩

theorem windowBlock_getElem? (rom : TrigRom) (t : Draw) (lws lwe rws rwe : Nat) {work : List F32} {i : Nat} (hi : i < work.length) :
    (windowBlock rom t lws lwe rws rwe work)[i]? = some (windowElement rom t lws lwe rws rwe (at' work.toArray i) i) := by
  rw [at'_toArray, List.getD_eq_getElem _ _ hi]
  simp [windowBlock, List.getElem?_map, List.getElem?_zipIdx, List.getElem?_eq_getElem hi]

end Sys2Proof.Machine

namespace Sys2Proof.Proofs

open Sys2Proof.Machine

/-- Settles O46: WINDOW is one write of the windowed block over the block. -/
theorem windowResult : Obligations.WindowResult := by
  intro s hI hd hq
  obtain ⟨work, hw, hlen⟩ := hI.exists_currentBlock hd (by simp [hq])
  refine ⟨_, execWindow_of_block hd hq hw, rfl, fun i hi => ?_, fun k hk => ?_⟩
  · exact ⟨_, _, readWord_of_allSome hI.mem hw hi, readWord_writeWords_zero _ _ (windowBlock_getElem? _ _ _ _ _ _ (hlen ▸ hi)),
      isWindowed_windowElement s _ i _⟩
  · exact read_writeWords_outside s .work ((length_windowBlock ..).trans hlen) hk

end Sys2Proof.Proofs
end

section
/-!
OVERLAP (R183-R188): the samples in the statements' own terms, the three endings of the packet, and what stands in RAM before a cancellation takes
it away.
-/

namespace Sys2Proof.Machine

/-! ## Samples (R184) -/

/-- The model reads only the words of PREV that some sample needs; for those, and for every index of WORK, its guards are those of R184. -/
theorem overlapSample_eq (t : Draw) (s : State) {prev : List F32} (work : List F32) {past : Nat → F32} (hlen : prev.length = prevCount s)
    (hpast : ∀ j, j < prevCount s → at' prev.toArray j = past j) {k : Nat} (hk : k < overlapCount s) :
    overlapSample t s.blkN.toNat s.prevN.toNat prev.toArray work.toArray k =
      f32Add (k :: 0 :: t) (Spec.pastTerm s past k) (Spec.currentTerm s (at' work.toArray) k) := by
  unfold overlapSample Spec.pastTerm Spec.currentTerm
  congr 1
  · have hsize : k < prev.toArray.size ↔ s.prevN.toNat / 2 + k < s.prevREnd.toNat := by
      rw [List.size_toArray, hlen, prevCount]
      omega
    simp only [hsize]
    split
    · next h => exact hpast k (by rw [← hlen, ← List.size_toArray]; exact hsize.mpr h)
    · rfl
  · dsimp only
    split
    · rw [if_pos (by omega), at']
      congr 1
      omega
    · rw [if_neg (by omega)]
      rfl

theorem emitted_eq (s : State) : Spec.emitted s = emittedCount s := rfl

theorem emittedBytes_getElem? (t : Draw) (s : State) (prev work : Array F32) {k : Nat} (hk : k < emittedCount s) :
    (emittedBytes t s prev work)[k]? = some (q8 (k :: 1 :: t) (overlapSample t s.blkN.toNat s.prevN.toNat prev work k)) := by
  simp [emittedBytes, hk]

/-! ## Endings (R188) -/

/-- The state after an OVERLAP that emits `bs`, before the termination test. -/
abbrev overlapped (bs : List Byte) (work : List F32) (s : State) : State := countPacket (emittedCount s) (savePrev work (emitSamples bs s))

theorem overlapped_budget (bs : List Byte) (work : List F32) (s : State) : (overlapped bs work s).budget = Spec.budgetAfter s := by
  rw [countPacket_budget, savePrev_budget, savePrev_budgetEn, emitSamples_budget, emitSamples_budgetEn, Spec.budgetAfter, emitted_eq]

/-- The registers of R184, R187 and R188 before the termination test. -/
theorem overlapped_eq {s : State} {bs : List Byte} (hbs : bs.length = emittedCount s) (work : List F32) : overlapped bs work s =
    { Spec.packetRegisters s with decState := s.decState, pcmValid := s.pcmValid, mem := (overlapped bs work s).mem } := by
  have hcur : s.pcmCursor + BitVec.ofNat 32 bs.length = BitVec.ofNat 32 (s.pcmCursor.toNat + Spec.emitted s) := by
    rw [hbs, BitVec.ofNat_add, BitVec.ofNat_toNat, BitVec.setWidth_eq]
    rfl
  simp only [overlapped, countPacket, savePrev, emitSamples, hcur]
  rfl

/-- The three endings of a packet, by the statements' own conditions. -/
theorem packetDone_overlap_cases (s : State) (bs : List Byte) (work : List F32) :
    (Spec.lastPacket s ∧ packetDone (emittedCount s) (savePrev work (emitSamples bs s)) = completeDecode (overlapped bs work s)) ∨
    (Spec.budgetEnds s ∧ packetDone (emittedCount s) (savePrev work (emitSamples bs s)) = cancelDecode (overlapped bs work s)) ∨
    (¬Spec.lastPacket s ∧ ¬Spec.budgetEnds s ∧ packetDone (emittedCount s) (savePrev work (emitSamples bs s)) = overlapped bs work s) := by
  have h := packetDone_cases (emittedCount s) (savePrev work (emitSamples bs s))
  rw [overlapped_budget] at h
  simp only [countPacket_packetIndex, countPacket_packetCount, savePrev_packetIndex, savePrev_packetCount, savePrev_budgetEn,
    emitSamples_packetIndex, emitSamples_packetCount, emitSamples_budgetEn] at h
  rcases h with ⟨hlast, e⟩ | ⟨hlast, hen, hspent, e⟩ | ⟨hlast, hspent, e⟩
  · exact .inl ⟨hlast, e⟩
  · exact .inr (.inl ⟨⟨hlast, hen, hspent⟩, e⟩)
  · exact .inr (.inr ⟨hlast, fun hb => hspent hb.2, e⟩)

/-- The registers of R188 after each ending, and what the ending does to RAM. -/
theorem packetDone_overlap {s t : State} {bs : List Byte} (hbs : bs.length = emittedCount s) (work : List F32)
    (ht : packetDone (emittedCount s) (savePrev work (emitSamples bs s)) = t) :
    t = { Spec.packetRegisters s with mem := t.mem } ∧
    (¬Spec.budgetEnds s → t.mem = (overlapped bs work s).mem) ∧ (Spec.budgetEnds s → t.mem = (cancelDecode (overlapped bs work s)).mem) := by
  have hregs := overlapped_eq hbs work
  rcases packetDone_overlap_cases s bs work with ⟨hl, e⟩ | ⟨hb, e⟩ | ⟨hl, hb, e⟩ <;> rw [e] at ht <;> subst ht
  · refine ⟨?_, fun _ => rfl, fun hb => absurd hl hb.1⟩
    simp only [if_pos hl]
    rw [completeDecode, hregs]
  · refine ⟨?_, fun h => absurd hb h, fun _ => rfl⟩
    simp only [if_neg hb.1, if_pos hb]
    rw [cancelDecode, hregs]
    rfl
  · refine ⟨?_, fun _ => rfl, fun h => absurd h hb⟩
    simp only [if_neg hl, if_neg hb]
    exact hregs

/-! ## RAM (R184, R186, R187) -/

/-- A range of a region in the keys of the model. -/
theorem inRange_iff {r : Region} {lo n k : Nat} : Spec.inRange r lo n k ↔ regionKey r 0 lo ≤ k ∧ k < regionKey r 0 lo + n := by
  simp only [Spec.inRange, base_eq, regionKey]
  omega

/-- The right half of the block up to RWE, which SAVE_PREV keeps (R187). -/
abbrev savedTail (work : List F32) (s : State) : List F32 := (work.drop (s.blkN.toNat / 2)).take (s.rwe.toNat - s.blkN.toNat / 2)

theorem savedTail_getElem? {s : State} {work : List F32} (hrwe : s.rwe.toNat ≤ work.length) {j : Nat} (hj : j < s.rwe.toNat - s.blkN.toNat / 2) :
    (savedTail work s)[j]? = some (at' work.toArray (s.blkN.toNat / 2 + j)) := by
  rw [List.getElem?_take_of_lt hj, List.getElem?_drop, at'_toArray, List.getD_eq_getElem _ _ (by omega), List.getElem?_eq_getElem]

theorem length_savedTail {s : State} {work : List F32} (hrwe : s.rwe.toNat ≤ work.length) :
    (savedTail work s).length = s.rwe.toNat - s.blkN.toNat / 2 := by
  rw [List.length_take, List.length_drop]
  omega

theorem overlapped_readByte_pcm (s : State) {bs : List Byte} {work : List F32} {k : Nat} (hk : k < bs.length)
    (hfit : s.pcmCursor.toNat + bs.length ≤ 2 ^ 20) (hw : work.length ≤ 2 ^ 18) :
    (overlapped bs work s).readByte .pcm (s.pcmCursor.toNat + k) = bs[k]? :=
  (readByte_pcm_savePrev _ hw (by omega)).trans (readByte_emitSamples s hk)

theorem overlapped_readWord_prev {s : State} (bs : List Byte) {work : List F32} {j : Nat} {w : F32} (h : (savedTail work s)[j]? = some w) :
    (overlapped bs work s).readWord .prev 0 j = some w :=
  readWord_writeWords_zero (emitSamples bs s) .prev h

/-- Every byte but the samples and the words saved stays as it was. -/
theorem overlapped_read_outside {s : State} {bs : List Byte} {work : List F32} {a b k : Nat} (ha : bs.length = a) (hb : (savedTail work s).length = b)
    (hpcm : ¬Spec.inRange .pcm s.pcmCursor.toNat a k) (hprev : ¬Spec.inRange .prev 0 (4 * b) k) :
    (overlapped bs work s).mem.read k = s.mem.read k := by
  refine (read_writeWords_outside (emitSamples bs s) .prev hb hprev).trans (Memory.read_writeBytes_of_outside _ _ _ _ ?_)
  rw [inRange_iff, ← ha] at hpcm
  omega

/-- A cancellation takes PCM and PREV away (R280). -/
theorem cancelDecode_read_lost {s : State} {k : Nat}
    (h : Spec.inRange .pcm 0 (Region.pcm.bytes s.params) k ∨ Spec.inRange .prev 0 (Region.prev.bytes s.params) k) :
    (cancelDecode s).mem.read k = none := by
  rw [inRange_iff, inRange_iff] at h
  rw [cancelDecode_mem, Memory.read_forget, Memory.read_forget]
  rcases h with hpcm | hprev
  · rw [if_pos hpcm, ite_self]
  · rw [if_pos hprev]

/-- A cancellation takes nothing but PCM and PREV away. -/
theorem cancelDecode_read_outside {s : State} {k : Nat} (hpcm : ¬Spec.inRange .pcm 0 (Region.pcm.bytes s.params) k)
    (hprev : ¬Spec.inRange .prev 0 (Region.prev.bytes s.params) k) : (cancelDecode s).mem.read k = s.mem.read k := by
  rw [inRange_iff] at hpcm hprev
  rw [cancelDecode_mem, Memory.read_forget, Memory.read_forget, if_neg hprev, if_neg hpcm]

/-- A range within a region. -/
theorem not_inRange_of_le {r : Region} {lo n m k : Nat} (h : ¬Spec.inRange r 0 m k) (hle : lo + n ≤ m) : ¬Spec.inRange r lo n k := by
  rintro ⟨hlo, hhi⟩
  exact h ⟨by omega, by omega⟩

/-! ## OVERLAP under the invariant -/

/-- Every block size of a decode is at most 8192 (R8, R211). -/
theorem Inv.size_le {s : State} (h : Inv s) (hd : s.decState = .decoding) {n : Nat} (hn : s.IsBlockSize n) : n ≤ 8192 := by
  obtain ⟨h01, h1, -⟩ := h.blockSizes (h.loaded (by simp [hd]))
  rcases hn with e | e <;> omega

/-- The right half of the earlier block fits PREV (R8, R187). -/
theorem Inv.past_le {s : State} (h : Inv s) (hd : s.decState = .decoding) : s.prevREnd.toNat - s.prevN.toNat / 2 ≤ Config.prevWords := by
  obtain ⟨hsize, -, hend⟩ := h.prev hd
  have hN := h.size_le hd hsize
  simp only [Config.prevWords]
  omega

/-- Under the invariant PREV has defined values, and every sample is the sum of R184. -/
theorem Inv.overlap_samples {s : State} (h : Inv s) (hd : s.decState = .decoding) (t : Draw) :
    ∃ (prev : List F32) (past : Nat → F32), allSome (s.readWords .prev 0 0 (prevCount s)) = some prev ∧
      (∀ j, j < s.prevREnd.toNat - s.prevN.toNat / 2 → s.readWord .prev 0 j = some (past j)) ∧
      ∀ (work : List F32) (k : Nat), k < overlapCount s → ∃ d, overlapSample t s.blkN.toNat s.prevN.toNat prev.toArray work.toArray k =
        f32Add d (Spec.pastTerm s past k) (Spec.currentTerm s (at' work.toArray) k) := by
  obtain ⟨prev, hprev, hlen⟩ := (h.prevWritten hd).allSome_readWords h.mem (prevCount s) (Nat.mul_le_mul_left 4 (h.prevCount_le hd))
  obtain ⟨past, hpast, -⟩ := (h.prevWritten hd).allSome_readWords h.mem (s.prevREnd.toNat - s.prevN.toNat / 2)
    (Nat.mul_le_mul_left 4 (h.past_le hd))
  refine ⟨prev, at' past.toArray, hprev, fun j hj => readWord_of_allSome h.mem hpast hj,
    fun work k hk => ⟨k :: 0 :: t, overlapSample_eq t s work hlen (fun j hj => ?_) hk⟩⟩
  have hread := readWord_of_allSome h.mem hprev hj
  rw [readWord_of_allSome h.mem hpast (hj.trans_le (Nat.min_le_right _ _))] at hread
  exact (Option.some.inj hread).symm

theorem execOverlap_of_block {s : State} {work prev : List F32} (hd : s.decState = .decoding) (hq : s.seq = .windowDone)
    (hw : currentBlock s = some work) (hp : allSome (s.readWords .prev 0 0 (prevCount s)) = some prev) : execOverlap s =
      .next (packetDone (emittedCount s) (savePrev work (emitSamples (emittedBytes [s.draws] s prev.toArray work.toArray) s))) := by
  rw [execOverlap, whenLegal_of (by simp [isDecoding_iff.mpr hd, hq]), hw]
  simp only [orFault, hp]

end Sys2Proof.Machine

namespace Sys2Proof.Proofs

open Sys2Proof.Machine

/-- Settles O47: the samples are those of R184, and RAM holds what OVERLAP wrote, up to what a cancellation takes away. -/
theorem overlapResult : Obligations.OverlapResult := by
  intro s hI hd hq
  obtain ⟨hsize, -, -, -, hrwe, -⟩ := hI.block hd (by simp [hq])
  have hN := hI.size_le hd hsize
  obtain ⟨hcur, hcount⟩ := hI.cursor hd
  have hfit := hI.emitted_le hd
  obtain ⟨work, hwork, hwlen⟩ := hI.exists_currentBlock hd (by simp [hq])
  obtain ⟨prev, past, hprev, hpast, hsum⟩ := hI.overlap_samples hd [s.draws]
  have htail := length_savedTail (hwlen ▸ hrwe)
  have hbs := length_emittedBytes [s.draws] s prev.toArray work.toArray
  have hexec := execOverlap_of_block hd hq hwork hprev
  generalize ht : packetDone (emittedCount s) _ = t at hexec
  obtain ⟨hregs, hkept, hlost⟩ := packetDone_overlap hbs work ht
  refine ⟨t, past, at' work.toArray, overlapSample [s.draws] s.blkN.toNat s.prevN.toNat prev.toArray work.toArray, hexec, hregs, hpast,
    fun j hj => readWord_of_allSome hI.mem hwork hj, hsum work,
    fun hb => ⟨fun k hk => ⟨k :: 1 :: [s.draws], ?_⟩, fun j hj => ?_, fun k hpcm hpv => ?_⟩,
    fun hb k => ⟨fun h => ?_, fun hpcm hpv => ?_⟩⟩
  · rw [State.readByte, hkept hb, ← State.readByte, overlapped_readByte_pcm s (hbs ▸ hk) (hbs ▸ hfit) (by omega),
      emittedBytes_getElem? _ _ _ _ hk]
  · rw [readWord_congr (s := overlapped _ work s) fun _ _ => by rw [hkept hb]]
    exact overlapped_readWord_prev _ (savedTail_getElem? (hwlen ▸ hrwe) hj)
  · rw [hkept hb, overlapped_read_outside hbs htail hpcm hpv]
  · rw [hlost hb]
    exact cancelDecode_read_lost h
  · rw [hlost hb, ← overlapped_read_outside hbs htail (not_inRange_of_le hpcm ?_) (not_inRange_of_le hpv ?_)]
    · exact cancelDecode_read_outside hpcm hpv
    · simp only [emittedCount]
      omega
    · omega

end Sys2Proof.Proofs
end

section
/-!
NOP, SEAL and FAIL (R210, R212, R213), and DEC_BEGIN (R214): its three endings, and what it writes to RAM.
-/

namespace Sys2Proof.Machine

/-! ## The endings of DEC_BEGIN -/

/-- DEC_BEGIN finds the budget spent before the first packet (R214). -/
abbrev CancelledAtOnce (ben : Bool) (s : State) : Prop := s.packetCount ≠ 0 ∧ ben = true ∧ s.budget.toInt ≤ 0

/-- The registers after a legal DEC_BEGIN, in one term for the three endings. -/
abbrev begun (ben : Bool) (s : State) : State :=
  { startDecode ben s with
    decState := if s.packetCount = 0 then .completed else if ben = true ∧ s.budget.toInt ≤ 0 then .cancelled else .decoding
    pcmValid := decide (s.packetCount = 0) }

/-- The three endings of a legal DEC_BEGIN, by the statement's own conditions. -/
theorem execDecBegin_cases {s : State} (hs : s.setupState = .loaded) (hcount : s.sampleCount.toNat ≤ s.params.pcmBytes) (ben : Bool) :
    (s.packetCount = 0 ∧ execDecBegin ben s = .next (completeDecode (startDecode ben s))) ∨
    (CancelledAtOnce ben s ∧ execDecBegin ben s = .next (cancelDecode (startDecode ben s))) ∨
    (s.packetCount ≠ 0 ∧ ¬(ben = true ∧ s.budget.toInt ≤ 0) ∧ execDecBegin ben s = .next (startDecode ben s)) := by
  rw [execDecBegin, whenLegal_of (beq_iff_eq.mpr hs), if_neg (Nat.not_lt.mpr hcount)]
  simp only [State.budgetSpent, Bool.and_eq_true, decide_eq_true_eq]
  by_cases h0 : s.packetCount = 0
  · exact .inl ⟨h0, if_pos h0⟩
  · rw [if_neg h0]
    by_cases hb : ben = true ∧ s.budget.toInt ≤ 0
    · exact .inr (.inl ⟨⟨h0, hb⟩, if_pos hb⟩)
    · exact .inr (.inr ⟨h0, hb, if_neg hb⟩)

/-- The registers of R214 after each ending, and what the ending does to RAM. -/
theorem execDecBegin_of_loaded {s : State} (hs : s.setupState = .loaded) (hcount : s.sampleCount.toNat ≤ s.params.pcmBytes) (ben : Bool) :
    ∃ t, execDecBegin ben s = .next t ∧ t = { begun ben s with mem := t.mem } ∧
      (¬CancelledAtOnce ben s → t.mem = (startDecode ben s).mem) ∧
      (CancelledAtOnce ben s → t.mem = (cancelDecode (startDecode ben s)).mem) := by
  rcases execDecBegin_cases hs hcount ben with ⟨h0, e⟩ | ⟨hc, e⟩ | ⟨h0, hb, e⟩
  · refine ⟨_, e, ?_, fun _ => rfl, fun hc => absurd h0 hc.1⟩
    simp only [if_pos h0, decide_eq_true h0]
    rfl
  · refine ⟨_, e, ?_, fun h => absurd hc h, fun _ => rfl⟩
    simp only [if_neg hc.1, if_pos hc.2, decide_eq_false hc.1]
    rfl
  · refine ⟨_, e, ?_, fun _ => rfl, fun hc => absurd hc.2 hb⟩
    simp only [if_neg h0, if_neg hb, decide_eq_false h0]
    rfl

/-! ## What DEC_BEGIN writes to RAM -/

/-- PCM[0..SAMPLE_COUNT) is 0. -/
theorem startDecode_readByte_pcm (ben : Bool) {s : State} (hcount : s.sampleCount.toNat ≤ 2 ^ 20) {a : Nat} (ha : a < s.sampleCount.toNat) :
    (startDecode ben s).readByte .pcm a = some 0 := by
  have hprev : (startDecode ben s).readByte .pcm a = (s.writeBytes .pcm 0 (List.replicate s.sampleCount.toNat 0)).readByte .pcm a :=
    readByte_writeWords_of_ne (by decide) (by rw [List.length_replicate]; decide) (by omega)
  rw [hprev, readByte_writeBytes, List.length_replicate, if_pos ⟨Nat.zero_le _, by omega⟩, List.getElem?_replicate_of_lt (by omega)]

/-- PREV is +0.0 throughout. -/
theorem startDecode_readWord_prev (ben : Bool) (s : State) {j : Nat} (hj : j < Config.prevWords) :
    (startDecode ben s).readWord .prev 0 j = some 0 :=
  readWord_writeWords_zero _ .prev (List.getElem?_replicate_of_lt hj)

/-- Every byte but those stays as it was. -/
theorem startDecode_read_outside (ben : Bool) {s : State} {k : Nat} (hpcm : ¬Spec.inRange .pcm 0 s.sampleCount.toNat k)
    (hprev : ¬Spec.inRange .prev 0 (4 * Config.prevWords) k) : (startDecode ben s).mem.read k = s.mem.read k := by
  refine (read_writeWords_outside _ .prev List.length_replicate hprev).trans (Memory.read_writeBytes_of_outside _ _ _ _ ?_)
  rw [inRange_iff] at hpcm
  rw [List.length_replicate]
  omega

end Sys2Proof.Machine

namespace Sys2Proof.Proofs

open Sys2Proof.Machine

/-- Settles O19: NOP answers its state; SEAL passes the setup guard, and CFG_DONE decides. -/
theorem nopAndSealResult : Obligations.NopAndSealResult := by
  intro s
  refine ⟨rfl, fun hs hc => ?_, fun hs hc => ?_⟩
  · exact (whenSetup_notLoaded hs _).trans (whenLegal_of hc _ _)
  · exact exec_illegal (fun _ => by simp [hs]) (by simp [Spec.legal, hc])

/-- Settles O20: by the phase that FAIL finds. -/
theorem failResult : Obligations.FailResult := by
  intro s cls _
  refine ⟨fun hd => ?_, fun hd hs => ?_, fun hd hs => ?_⟩
  · exact if_pos (isDecoding_iff.mpr hd)
  · exact (if_neg (mt isDecoding_iff.mp hd)).trans (whenLegal_of (beq_iff_eq.mpr hs) _ _)
  · exact exec_illegal nofun (not_or.mpr ⟨hd, hs⟩)

/-- Settles O21: the zeros that DEC_BEGIN writes stand unless the decode is cancelled at once, which takes PCM and PREV away. -/
theorem decBeginResult : Obligations.DecBeginResult := by
  intro s ben hP hs hcount
  obtain ⟨t, hexec, hregs, hkept, hlost⟩ := execDecBegin_of_loaded hs hcount ben
  have hfit : s.sampleCount.toNat ≤ 2 ^ 20 := hcount.trans (Region.bytes_le hP .pcm)
  refine ⟨t, hexec, hregs, fun hc => ⟨fun a ha => ?_, fun j hj => ?_, fun k hpcm hprev => ?_⟩, fun hc k => ⟨fun h => ?_, fun hpcm hprev => ?_⟩⟩
  · rw [State.readByte, hkept hc]
    exact startDecode_readByte_pcm ben hfit ha
  · rw [readWord_congr (s := startDecode ben s) fun _ _ => by rw [hkept hc]]
    exact startDecode_readWord_prev ben s hj
  · rw [hkept hc]
    exact startDecode_read_outside ben hpcm hprev
  · rw [hlost hc]
    exact cancelDecode_read_lost h
  · rw [hlost hc, ← startDecode_read_outside ben (s := s) (not_inRange_of_le hpcm (by omega)) hprev]
    exact cancelDecode_read_outside hpcm hprev

end Sys2Proof.Proofs
end

section
/-!
The phases (R243, R244, R249): which steps change SETUP_STATE and DEC_STATE.
-/

namespace Sys2Proof.Machine

/-! ## What changes neither phase -/

/-- SETUP_STATE and DEC_STATE are the same. -/
def SamePhase (s t : State) : Prop := t.setupState = s.setupState ∧ t.decState = s.decState

@[simp] theorem packetDone_setupState (n : Nat) (s : State) : (packetDone n s).setupState = s.setupState := by
  rcases packetDone_cases n s with ⟨_, e⟩ | ⟨_, _, _, e⟩ | ⟨_, _, e⟩ <;> rw [e] <;> rfl

/-- What `ignored` and the command errors record (R15, R245). -/
theorem SamePhase.commandEnd {s t : State} {e : Exc} (ht : t = takeException s.cmdWord e s) (he : e = .ignored ∨ ∃ c, e = .command c) :
    SamePhase s t := by
  subst ht
  rcases he with rfl | ⟨c, rfl⟩ <;> exact ⟨rfl, rfl⟩

theorem SamePhase.setupTableWrite {s : State} {store : State → State} (h : SamePhase s (store s)) : SamePhase s (setupTableWrite store s) := by
  by_cases hs : s.setupState = .notLoaded
  · rw [setupTableWrite_notLoaded hs]
    exact h
  · rw [setupTableWrite_over hs]
    exact ⟨rfl, rfl⟩

theorem SamePhase.writeReg (w : Word) (s : State) (r : Reg) : SamePhase s (writeReg w s r) := by
  cases r with
  | sampleCount | packetCount =>
    rw [Machine.writeReg]
    split <;> exact ⟨rfl, rfl⟩
  | cbEntries | cbDims | cbLookup | cbMin | cbDelta | cbNmult => exact setupTableWrite ⟨rfl, rfl⟩
  | _ => exact ⟨rfl, rfl⟩

theorem SamePhase.hostWrite (a : BusAddr) (w : Word) (s : State) : SamePhase s (hostWrite a w s) := by
  unfold Machine.hostWrite
  cases busPlace s.params a with
  | none => exact ⟨rfl, rfl⟩
  | some p =>
    cases p with
    | reg r => exact writeReg w s r
    | ram r off =>
      cases r with
      | cbLen | cbMult => exact setupTableWrite ⟨rfl, rfl⟩
      | _ => exact ⟨rfl, rfl⟩

theorem SamePhase.hostRead (a : BusAddr) (s : State) : SamePhase s (hostRead a s) := by
  by_cases h : busPlace s.params a = none
  · rw [hostRead_of_bad h]
    exact ⟨rfl, rfl⟩
  · rw [hostRead_of_place h]
    exact ⟨rfl, rfl⟩

/-- Of the host's events only reset changes a phase (R271). -/
theorem SamePhase.idleEvent {e : HostEvent} (he : e ≠ .reset) (s : State) : SamePhase s (idleEvent e s) := by
  cases e with
  | write a w => exact hostWrite a w s
  | read a => exact hostRead a s
  | wait => exact hostRead statusAddr s
  | reset => exact absurd rfl he

theorem SamePhase.busyEvent {e : HostEvent} (he : e ≠ .reset) {s t : State} (h : busyEvent e s = .next t) : SamePhase s t := by
  cases e with
  | write a w =>
    rw [Machine.busyEvent] at h
    split at h <;> cases h
    exact ⟨rfl, rfl⟩
  | read a =>
    rw [Machine.busyEvent] at h
    split at h <;> cases h
    exact ⟨rfl, rfl⟩
  | wait =>
    cases h
    exact ⟨rfl, rfl⟩
  | reset => exact absurd rfl he

/-! ## The commands -/

/-- A command that changes SETUP_STATE finds it NOT_LOADED, and one that changes DEC_STATE finds it DECODING or is DEC_BEGIN. -/
structure PhaseRule (i : Instr) (s t : State) : Prop where
  setup : t.setupState ≠ s.setupState → s.setupState = .notLoaded
  decode : t.decState ≠ s.decState → s.decState = .decoding ∨ ∃ ben, i = .decBegin ben

namespace PhaseRule

variable {i : Instr} {s t : State}

theorem of_same (h : SamePhase s t) : PhaseRule i s t := ⟨(absurd h.1 ·), (absurd h.2 ·)⟩

theorem of_notLoaded (hs : s.setupState = .notLoaded) (hd : t.decState = s.decState) : PhaseRule i s t := ⟨fun _ => hs, (absurd hd ·)⟩

theorem of_decoding (hd : s.decState = .decoding) (hs : t.setupState = s.setupState) : PhaseRule i s t := ⟨(absurd hs ·), fun _ => .inl hd⟩

theorem commandEnd {e : Exc} (ht : t = takeException s.cmdWord e s) (he : e = .ignored ∨ ∃ c, e = .command c) : PhaseRule i s t :=
  of_same (.commandEnd ht he)

theorem commandError (c : CmdError) : PhaseRule i s (takeException s.cmdWord (.command c) s) := commandEnd rfl (.inr ⟨c, rfl⟩)

/-- HDEC and VDEC fail a decode that is in progress. -/
theorem decodeEnd {K : Codebook} (h : DecodeEnd K s t) : PhaseRule i s t := by
  rcases h with rfl | ⟨hd, _, f, rfl⟩ | ⟨hd, _, f, p, _, rfl⟩
  · exact commandError _
  · exact of_decoding hd rfl
  · exact of_decoding hd rfl

theorem exec (h : exec i s = .next t) : PhaseRule i s t := by
  cases i with
  | nop => exact Host.Outcome.next.inj h ▸ of_same ⟨rfl, rfl⟩
  | config e0 e1 cbm1 =>
    rcases execConfig_next h with ⟨e, ht, he⟩ | ⟨hs, rfl⟩ | ⟨hs, _, _, _, rfl⟩
    · exact commandEnd ht (he.imp_right fun hc => ⟨_, hc⟩)
    · exact of_notLoaded hs rfl
    · exact of_notLoaded hs rfl
  | cbBuild cb =>
    rcases execCbBuild_next h with ⟨e, ht, he⟩ | ⟨hs, _, f, K, _, rfl⟩ | ⟨hs, _, _, K, _, rfl⟩
    · exact commandEnd ht he
    · exact of_notLoaded hs rfl
    · exact of_notLoaded hs rfl
  | sealSetup =>
    rcases execSeal_next h with ⟨e, ht, he⟩ | ⟨hs, _, rfl⟩
    · exact commandEnd ht (he.imp_right fun hc => ⟨_, hc⟩)
    · exact of_notLoaded hs rfl
  | fail cls =>
    rcases execFail_next h with ⟨hd, rfl⟩ | ⟨_, hs, rfl⟩ | ⟨_, _, rfl⟩
    · exact of_decoding hd rfl
    · exact of_notLoaded hs rfl
    · exact commandError _
  | decBegin ben =>
    refine ⟨absurd ?_, fun _ => .inr ⟨ben, rfl⟩⟩
    rcases execDecBegin_next h with ⟨c, rfl⟩ | ⟨_, _, ⟨_, rfl⟩ | ⟨_, _, _, rfl⟩ | ⟨_, _, rfl⟩⟩ <;> rfl
  | bind =>
    rcases execBind_next h with ⟨c, rfl⟩ | ⟨hd, _, rfl⟩
    · exact commandError c
    · exact of_decoding hd rfl
  | rdbits n =>
    rcases execRdbits_next h with ⟨c, rfl⟩ | ⟨hd, _, rfl⟩ | ⟨hd, _, _, _, r, _, rfl⟩
    · exact commandError c
    · exact of_decoding hd rfl
    · exact of_decoding hd rfl
  | hdec cb =>
    rcases execHdec_next h with hend | ⟨hd, _, _, e, p, _, rfl⟩
    · exact decodeEnd hend
    · exact of_decoding hd rfl
  | vdec cb =>
    rcases execVdec_next h with hend | ⟨hd, _, _, _, e, p, v, _, _, rfl⟩
    · exact decodeEnd hend
    · exact of_decoding hd rfl
  | imdct l p x z =>
    rcases execImdct_next h with rfl | ⟨hd, _, ws, _, rfl⟩
    · exact commandError _
    · exact of_decoding hd rfl
  | window =>
    rcases execWindow_next h with rfl | ⟨hd, _, work, _, rfl⟩
    · exact commandError _
    · exact of_decoding hd rfl
  | overlap =>
    rcases execOverlap_next h with rfl | ⟨hd, _, work, prev, _, _, rfl⟩
    · exact commandError _
    · exact of_decoding hd (by simp)

end PhaseRule

/-! ## The step -/

/-- A step that is not a reset leaves the phases alone, or performs a command by its rule. -/
theorem step_phases {s t : State} (hr : ∀ rest, s.host ≠ .reset :: rest) (h : step s = .next t) :
    SamePhase s t ∨ ∃ i, s.busy = true ∧ decode s.cmdWord = .ok i ∧ PhaseRule i s t := by
  have hne {e : HostEvent} {rest : List HostEvent} (hh : s.host = e :: rest) : e ≠ .reset := fun he => hr rest (he ▸ hh)
  rcases step_cases s with ⟨_, n, e, rest, _, hh, hs⟩ | ⟨hb, _, hs⟩ | ⟨_, _, hs⟩ | ⟨_, e, rest, hh, hs⟩ <;> rw [hs] at h
  · have hsame := SamePhase.busyEvent (hne hh) h
    exact .inl hsame
  · rcases runCommand_next h with ⟨c, rfl⟩ | ⟨i, u, hd, hu, rfl⟩
    · exact .inl ⟨rfl, rfl⟩
    · obtain ⟨hsetup, hdec⟩ := PhaseRule.exec hu
      exact .inr ⟨i, hb, hd, hsetup, hdec⟩
  · exact .inl (Host.Outcome.next.inj h ▸ ⟨rfl, rfl⟩)
  · exact .inl (Host.Outcome.next.inj h ▸ SamePhase.idleEvent (hne hh) { s with host := rest })

end Sys2Proof.Machine

namespace Sys2Proof.Proofs

open Sys2Proof.Machine

/-- Settles O58: by `PhaseRule`, as a loaded or failed setup is not NOT_LOADED, and a failed decode is not DECODING. -/
theorem leavingFailure : Obligations.LeavingFailure := by
  intro s t hr h
  rcases step_phases hr h with ⟨hsetup, hdec⟩ | ⟨i, hb, hi, hrule⟩
  · exact ⟨fun _ => hsetup, fun hf => .inl (hdec.trans hf)⟩
  · refine ⟨fun hs => not_not.mp (mt hrule.setup hs), fun hf => ?_⟩
    by_cases hd : t.decState = s.decState
    · exact .inl (hd.trans hf)
    · rcases hrule.decode hd with hdecoding | ⟨ben, rfl⟩
      · cases hf.symm.trans hdecoding
      · exact .inr ⟨hb, ben, hi⟩

end Sys2Proof.Proofs
end

section
/-!
Reset takes effect at once (R270, U21): an idle core performs the host's event, and a busy core performs it while its command is not yet due.
-/

namespace Sys2Proof.Machine

/-- A reset that the host sends is performed by this step, unless a command is due (R270). -/
theorem step_of_reset {s : State} {rest : List HostEvent} (hh : s.host = .reset :: rest) (hdue : s.busy = true → s.busyFor ≠ 0) :
    step s = .next (applyReset { s with host := rest }) := by
  cases hb : s.busy with
  | false => exact step_of_idle hb hh
  | true =>
    obtain ⟨n, hn⟩ := Nat.exists_eq_succ_of_ne_zero (hdue hb)
    exact step_of_busy hb hn hh

end Sys2Proof.Machine

namespace Sys2Proof.Proofs

open Sys2Proof.Machine

/-- Settles O8: by BUSY, as both kinds of host event perform `applyReset`. -/
theorem resetAbandons : Obligations.ResetAbandons := fun _ _ hh hdue => step_of_reset hh hdue

end Sys2Proof.Proofs
end
